-- ==== Sys2Proof/Word.lean ====
section
/-! DEFINITION. The word types of the G12 and the index types of its parts (R2, R13 to R15). -/

namespace Sys2Proof

/-- One byte; multi-byte fields are stored little-endian (R2). -/
abbrev Byte := BitVec 8
/-- A 32-bit field. -/
abbrev Word32 := BitVec 32
/-- A 64-bit field or sequencer register (R295). -/
abbrev Word64 := BitVec 64
/-- Tile number n of T0 to T11 (R14). -/
abbrev TileId := Fin 12
/-- Fabric node: 0 is the hub, n + 1 is tile Tn (R14). -/
abbrev NodeId := Fin 13
/-- Partition number p of P0 to P11 (R534). -/
abbrev PartId := Fin 12
/-- Host function: 0 is PF0, n is VFn (R503, R507). -/
abbrev FuncId := Fin 13
/-- A sequencer register s0 to s31 (R295). -/
abbrev SReg := Fin 32
/-- A register v0 to v15 of a row-function lane (R180). -/
abbrev VReg := Fin 16
/-- An operation-table index, twelve bits (R106, R277). -/
abbrev OpIdx := BitVec 12
/-- An LNS20 code: sign [19], L in [18:0] (R49). -/
abbrev Lns := BitVec 20

end Sys2Proof
end

