-- ==== Sys2Proof/Syntax.lean ====
section
/-! DEFINITION. The commands of the G12: one constructor of Instr for each row of spec/opcode_table.json, in the table's
order, with the operand types they use. A row is an event, whole and indivisible (spec/95_what_each_step_holds.md). -/

namespace Sys2Proof

/-- A core: tile and number within it (R14, R15). -/
structure CoreId where
  tile : TileId
  core : Fin 64
  deriving DecidableEq, Repr

/-- An accumulator set of a cell (R15, R45). -/
inductive SetId | x | y
  deriving DecidableEq, Repr, Inhabited

/-- The engine that serves an MTILE (R277): array group or sparse engine. -/
inductive MatEngine | array | sparse
  deriving DecidableEq, Repr

/-- A copy engine: eight a tile, four in the hub (R13, R353). -/
inductive EngineId
  | tile (t : TileId) (e : Fin 8)
  | hub (e : Fin 4)
  deriving DecidableEq, Repr

/-- The six ports of a plain, in the order of their ids (R233). -/
inductive Port | wf | af | sx | dr | ce | rx
  deriving DecidableEq, Repr

/-- Branch conditions of BR, FL[2:0] (R299). -/
inductive Cond | eq | ne | lt | ge | ltu | geu
  deriving DecidableEq, Repr

/-- Fields that BSEL returns, FL[3:0] 0 to 9 (R318). -/
inductive BselField
  | bucket | mActual | nActual | kActual | shareRow0 | shareRows | shareM | shareK0 | shareK | skip
  deriving DecidableEq, Repr

/-- A slot of a command ring: function, ring pair, slot number (R509). -/
structure HostSlot where
  func : FuncId
  ring : Fin 8
  slot : BitVec 16
  deriving DecidableEq, Repr

/-- One of the four management connections (R552). -/
abbrev ConnId := Fin 4

/-- What the tiers report besides data while a command reads or writes them (R425, R431, R434): the blocks of tiers 1 and 2 with a
corrected error, once for each error; the block whose read fails, and whether its tag is what failed; the blocks of tier 2 that
were written over the link with an error not corrected; the codewords of tier 3 that needed read retry, and the sectors of the
object whose codeword still fails. -/
structure TierEvent where
  corrected : List (BitVec 56)
  failed : Option (BitVec 56 × Bool)
  linkLost : List (BitVec 56)
  retries : Nat
  lost : List Nat
  deriving DecidableEq, Repr

/-- Nothing to report. -/
def TierEvent.clean : TierEvent := { corrected := [], failed := none, linkLost := [], retries := 0, lost := [] }
/-- A block with an error that could not be corrected. -/
def TierEvent.uncorrectable (a : BitVec 56) : TierEvent := { clean with failed := some (a, false) }
/-- A block whose integrity tag differs. -/
def TierEvent.integrity (a : BitVec 56) : TierEvent := { clean with failed := some (a, true) }

/-- The stage in which a timing error occurs (R213, R216, R228): the plane-register adder or the chunk adder of a cell or lane,
another stage of the matrix engine or its feeders, a stage of the drain, or one of the row-function unit. -/
inductive TimingStage | planeAdder | chunkAdder | other | drain | rowfn
  deriving DecidableEq, Repr

/-- A waiter on an object: a core of the object's own tile, or REMOTE entry i (R362, R370). -/
inductive WaiterId
  | localCore (c : Fin 64)
  | remote (i : Fin 8)
  deriving DecidableEq, Repr

/-- A synchronisation object: node and number (R360). -/
structure ObjId where
  node : NodeId
  num : Nat
  deriving DecidableEq, Repr

/-- The kind of unit a stopped start-up names in BOOT_STATE.DETAIL (R581). -/
structure BootDetail where
  kind : BitVec 4
  index : BitVec 4
  deriving DecidableEq, Repr

/-- What the calibration sweep of a tile finds (R580): the rate measured in Mhc/s at each of the eight voltages of R456, how many
outputs of the self-check pattern differ from their expected values by more than the tolerated events account for, and the highest
junction temperature in 1/16 °C. -/
structure SweepInput where
  rates : Vector (BitVec 16) 8
  mismatch : BitVec 16
  tj : BitVec 16
  deriving DecidableEq, Repr

/-- What the conditions of R568 find at a start: the first order that fails and the unit, or none; the sweep of order 9 on each tile;
whether power was lost while the next generation of the record was being written, and whether the SPI NOR reads back what is written to
it (R574); sectors of stored objects (partition, id, sector) whose codeword has become unreadable (R425, R612). An input, since the
hardware finds it. -/
structure StartInput where
  failure : Option (Fin 12 × BootDetail)
  sweep : Vector SweepInput 12
  torn : Bool
  writable : Bool
  lost : List (Fin 12 × BitVec 64 × Nat)
  deriving DecidableEq, Repr

/-- A start at which nothing fails. -/
def StartInput.clean : StartInput :=
  { failure := none, sweep := .replicate 12 { rates := .replicate 8 0xFFFF, mismatch := 0, tj := 0 }, torn := false, writable := true,
    lost := [] }

/-- The readings latched at a window start (R460), as the meters' raw increments over the window in µJ. -/
structure MeterInput where
  compute : Vector (BitVec 32) 12
  base : Vector (BitVec 32) 12
  module : BitVec 32
  replayPpm : Vector (BitVec 32) 12
  rate : Vector (BitVec 16) 12
  deriving DecidableEq, Repr

/-- The result of a loop-back as the interface under test shows it (R590). -/
structure LoopInput where
  locked : Bool
  errors : BitVec 32
  lanesFail : BitVec 24
  deriving DecidableEq, Repr

/-- The measurements of a characterisation run that ran its 10 ms (R593). -/
structure SpeedInput where
  rate : BitVec 16
  replays : BitVec 32
  tolEvents : BitVec 32
  mismatch : BitVec 16
  deriving DecidableEq, Repr

/-- State of the 1000BASE-T link (R608). -/
inductive MgmtLink | down | up1000 | otherRate
  deriving DecidableEq, Repr

/-- The BAR through which a register access comes (R507): BAR0 of any function, BAR2 and BAR4 of PF0. -/
inductive Bar | bar0 | bar2 | bar4
  deriving DecidableEq, Repr

/-- The commands, one constructor per row of the table, in its order. -/
inductive Instr
  -- sequencer instructions (R299), issued by core k
  | nop (k : CoreId)
  | li (k : CoreId) (rd : SReg) (imm : Word32)
  | lih (k : CoreId) (rd : SReg) (imm : Word32)
  | add (k : CoreId) (rd ra rb : SReg) (imm : Word32)
  | sub (k : CoreId) (rd ra rb : SReg)
  | mul (k : CoreId) (rd ra rb : SReg)
  | divu (k : CoreId) (rd ra rb : SReg)
  | and (k : CoreId) (rd ra rb : SReg)
  | or (k : CoreId) (rd ra rb : SReg)
  | xor (k : CoreId) (rd ra rb : SReg)
  | shl (k : CoreId) (rd ra rb : SReg) (imm : Word32)
  | shr (k : CoreId) (rd ra rb : SReg) (imm : Word32)
  | sar (k : CoreId) (rd ra rb : SReg) (imm : Word32)
  | min (k : CoreId) (rd ra rb : SReg)
  | max (k : CoreId) (rd ra rb : SReg)
  | jmp (k : CoreId) (imm : Word32)
  | br (k : CoreId) (cond : Cond) (ra rb : SReg) (imm : Word32)
  | loop (k : CoreId) (rd : SReg) (imm : Word32)
  | bsel (k : CoreId) (rd : SReg) (field : BselField) (op : OpIdx)
  | meridian (k : CoreId)
  | fence (k : CoreId) (mask : BitVec 5)
  | mtile (k : CoreId) (rd ra : SReg) (add : Bool) (set : SetId) (hold : Bool) (op : OpIdx)
  | drain (k : CoreId) (set : SetId)
  | listMerge (k : CoreId) (ra : SReg) (op : OpIdx)
  | rowfn (k : CoreId) (rd : SReg) (op : OpIdx)
  | fine (k : CoreId) (rd : SReg) (op : OpIdx)
  | copy (k : CoreId) (ra : SReg) (imm : Word32) (hub : Bool) (eng : Fin 8)
  | signal (k : CoreId) (ra rb : SReg) (mask : BitVec 5) (imm : Word32)
  | wait (k : CoreId) (rd ra : SReg) (faultto : Bool)
  | tag (k : CoreId) (ra rb : SReg) (full : Bool) (imm : Word32)
  -- events of the array group, sparse engine, drain and row-function unit
  | mtileStart (k : CoreId) (eng : MatEngine)
  | passComplete (k : CoreId) (eng : MatEngine)
  | setRelease (k : CoreId) (eng : MatEngine) (set : SetId)
  | validClear (k : CoreId) (eng : MatEngine) (set : SetId)
  | drainPortStart (k : CoreId)
  | drainComplete (k : CoreId)
  | rowfnComplete (k : CoreId)
  | dusk (k : CoreId)
  | timingError (k : CoreId) (eng : MatEngine) (set : SetId) (elem : Nat) (stage : TimingStage) (diff : Word32)
  -- row-function microinstructions (R180), run by all 32 lanes of core k
  | rfuNop (k : CoreId)
  | ld (k : CoreId) (vd : VReg)
  | lda (k : CoreId) (vd : VReg)
  | st (k : CoreId) (va : VReg)
  | sti (k : CoreId) (va : VReg)
  | rfuMul (k : CoreId) (vd va vb : VReg)
  | div (k : CoreId) (vd va vb : VReg)
  | rfuAdd (k : CoreId) (vd va vb : VReg)
  | rfuSub (k : CoreId) (vd va vb : VReg)
  | mulk (k : CoreId) (vd va : VReg) (kidx : Fin 16)
  | addk (k : CoreId) (vd va : VReg) (kidx : Fin 16)
  | neg (k : CoreId) (vd va : VReg)
  | abs (k : CoreId) (vd va : VReg)
  | recip (k : CoreId) (vd va : VReg)
  | sqrt (k : CoreId) (vd va : VReg)
  | rsqrt (k : CoreId) (vd va : VReg)
  | exp2 (k : CoreId) (vd va : VReg)
  | log2 (k : CoreId) (vd va : VReg)
  | tadd (k : CoreId) (va : VReg)
  | tmax (k : CoreId) (va : VReg)
  | tget (k : CoreId) (vd : VReg) (maximum : Bool)
  | qexp (k : CoreId) (va : VReg)
  -- fine unit of tile t
  | fdot (t : TileId)
  | fnorm (t : TileId)
  | femb (t : TileId)
  | fopt (t : TileId)
  | fineComplete (t : TileId)
  -- copy engines
  | move (e : EngineId) (tier : TierEvent)
  | zero (e : EngineId)
  | transpose (e : EngineId) (tier : TierEvent)
  | diag (e : EngineId) (tier : TierEvent)
  | gather (e : EngineId) (tier : TierEvent)
  | region (e : EngineId) (tier : TierEvent)
  | descriptorComplete (e : EngineId) (i : Fin 4)
  -- synchronisation and tags
  | objectAddCommit (o : ObjId) (i : Nat)
  | waitRegister (k : CoreId)
  | waitExpiry (o : ObjId) (w : WaiterId)
  | tagBlockRelease (k : CoreId) (p : Port)
  | tagTimeout (k : CoreId) (p : Port)
  | combineTimeout (k : CoreId)
  | watchdog (p : PartId)
  | parityRerun (k : CoreId) (port : Port) (word : BitVec 19)
  | rerunRestart (p : PartId)
  | residentBankReload (k : CoreId) (bank : Fin 8)
  | stepFaultAbort (p : PartId)
  | stepRelease (p : PartId)
  | openingMeridian (p : PartId)
  | modelUnbindEffect (p : PartId)
  | closingMeridian (p : PartId)
  | releaseTick (p : PartId) (contract : BitVec 16)
  -- power, heat and start
  | budgetWindowStart (meters : MeterInput)
  | valleyEntry (t : TileId)
  | valleyWake (t : TileId)
  | tileAwake (t : TileId)
  | temperatureMeasurement (die : Fin 13) (raw : BitVec 16)
  | thermalTrip (die : Fin 13) (raw : BitVec 16)
  | senseSample (watts : Nat)
  | powerApply (watts : Nat)
  | powerRemove
  | startup (found : StartInput)
  | ready
  | granuleInit
  | patrolRead (t : TileId) (corrected : BitVec 16) (failed : List (BitVec 56))
  | modelSectionRepair (p : PartId)
  -- flits, by source and destination node
  | flitWrite (src dst : NodeId)
  | flitReadRequest (src dst : NodeId)
  | flitReadResponse (src dst : NodeId)
  | flitSignal (src dst : NodeId)
  | flitWaitRegistration (src dst : NodeId)
  | flitWaitRelease (src dst : NodeId)
  | flitCommitAck (src dst : NodeId)
  | flitCreditReturn (src dst : NodeId)
  | flitRefusal (src dst : NodeId)
  | passReplay (t : TileId) (dir : Fin 3) (ok : Bool)
  -- host side
  | doorbell (f : FuncId) (ring : Fin 8) (tail : BitVec 16) (posted : List (Nat × Byte))
  | ringEnable (f : FuncId) (ring : Fin 8)
  | registerWrite (f : FuncId) (bar : Bar) (offset : Nat) (bytes : Nat) (value : BitVec 64)
  | rcFieldAccess (f : FuncId) (bar : Bar) (offset : Nat)
  | msixModerationExpiry (f : FuncId) (ring : Fin 8)
  | identify (c : HostSlot)
  | queryErrorStatement (c : HostSlot)
  | queryBindState (c : HostSlot)
  | attest (c : HostSlot)
  | constLoad (c : HostSlot)
  | modelBind (c : HostSlot)
  | modelUnbind (c : HostSlot)
  | sessionOpen (c : HostSlot)
  | sessionOpenAfterBind (p : PartId)
  | sessionClose (c : HostSlot)
  | enqueue (c : HostSlot)
  | create (c : HostSlot)
  | append (c : HostSlot)
  | seal (c : HostSlot)
  | get (c : HostSlot) (tier : TierEvent)
  | delete (c : HostSlot)
  | deleteAfterRead (p : PartId)
  | list (c : HostSlot)
  | setPseed (c : HostSlot)
  | setReproducibilityMode (c : HostSlot)
  | setResidencyList (c : HostSlot)
  | setWindowLength (c : HostSlot)
  | setSensorOffset (c : HostSlot)
  | setMeterGain (c : HostSlot)
  | configRequest (f : FuncId)
  | perst (asserted : Bool)
  | functionLevelReset (f : FuncId)
  -- management requests: connection and the request's bytes (R553)
  | mgmtConnect
  | getInfo (c : ConnId) (req : List Byte)
  | setPair (c : ConnId) (req : List Byte)
  | getPair (c : ConnId) (req : List Byte)
  | mgmtAttest (c : ConnId) (req : List Byte)
  | telemetry (c : ConnId) (req : List Byte)
  | layoutGet (c : ConnId) (req : List Byte)
  | layoutSet (c : ConnId) (req : List Byte)
  | layoutCommit
  | pubkeySet (c : ConnId) (req : List Byte)
  | fwBegin (c : ConnId) (req : List Byte)
  | fwData (c : ConnId) (req : List Byte)
  | fwCommit (c : ConnId) (req : List Byte)
  | keyAdd (c : ConnId) (req : List Byte)
  | keyRemove (c : ConnId) (req : List Byte)
  | keyList (c : ConnId) (req : List Byte)
  | netSet (c : ConnId) (req : List Byte)
  | mgmtExport (c : ConnId) (req : List Byte)
  | mgmtImport (c : ConnId) (req : List Byte)
  | recoveryImport (c : ConnId) (req : List Byte)
  -- test state
  | testStateRequest (f : FuncId)
  | testStateEnd (f : FuncId) (retrained : Option BootDetail)
  | loopbackGo (f : FuncId)
  | loopbackEnd (res : LoopInput)
  | hostDirectedLoopback
  | mbistGo (f : FuncId)
  | mbistDone (mismatch : Option (BitVec 40))
  | speedRun (f : FuncId) (t : TileId)
  | speedRunEnd (t : TileId) (res : SpeedInput)
  -- JTAG
  | bypass
  | idcode
  | samplePreload (pads : BitVec 64)
  | extest (pads : BitVec 64)
  | clamp
  | highz
  | regacc (isWrite : Bool) (offset : Nat) (value : BitVec 64)
  -- links
  | pcieLinkTraining (mps : Fin 3) (width : BitVec 5) (speed : BitVec 3)
  | pcieLinkError (f : FuncId) (code : BitVec 32)
  | mgmtLinkChange (link : MgmtLink)
  | mgmtConnectionClose (c : ConnId)
  deriving DecidableEq, Repr

end Sys2Proof
end

