-- ==== Sys2Proof/WellFormed.lean ====
section
/-! DEFINITION. The operands a command can carry: the load checks of R321 on a sequencer instruction's own fields. -/

namespace Sys2Proof

/-- A register group of n registers that starts at r: not at s0 and not past s31 (R321). -/
def groupOk (r : SReg) (n : Nat) : Bool := decide (1 ≤ r.val ∧ r.val + n ≤ 32)

/-- A branch target is an index into a program of at most 8,192 instructions (R295, R321). -/
def targetOk (imm : Word32) : Bool := decide (imm.toNat < 8192)

/-- Whether a command can occur: a sequencer instruction that R321 refuses at load can be held by no store. Every other
command is well formed with all operands. -/
def Instr.wf : Instr → Bool
  | .jmp _ imm => targetOk imm
  | .br _ _ _ _ imm => targetOk imm
  | .loop _ _ imm => targetOk imm
  | .mtile _ rd ra _ _ _ _ => groupOk rd 3 && groupOk ra 4
  | .listMerge _ ra _ => groupOk ra 2
  | .rowfn _ rd _ => groupOk rd 2
  | .fine _ rd _ => groupOk rd 3
  | .copy _ _ _ hub eng => !hub || decide (eng.val < 4)
  | _ => true

end Sys2Proof
end

