-- ==== Sys2Proof/Decode.lean ====
section
/-! DEFINITION. The commands a word spells. The block's table gives no row any bits: its rows are events, which no word of the
table's encodes. Two of the spec's own words name rows: a sequencer instruction (R298, R299) and a microinstruction of the
row-function unit (R180). -/

namespace Sys2Proof

/-- The command that the low nbits of w spell, by the table's bits: none, since no row of the table has bits. -/
def decodeTableWord (_nbits _w : Nat) : Option Instr := none

/-! ## Sequencer instructions (R298, R299) -/

/-- The condition of BR (R299); codes 6 and 7 are not listed. -/
def condOf (fl : BitVec 3) : Option Cond :=
  match fl.toNat with
  | 0 => some .eq | 1 => some .ne | 2 => some .lt | 3 => some .ge | 4 => some .ltu | 5 => some .geu | _ => none

/-- The field of BSEL (R318); codes from 10 on are not listed. -/
def bselOf (fl : BitVec 4) : Option BselField :=
  match fl.toNat with
  | 0 => some .bucket | 1 => some .mActual | 2 => some .nActual | 3 => some .kActual | 4 => some .shareRow0
  | 5 => some .shareRows | 6 => some .shareM | 7 => some .shareK0 | 8 => some .shareK | 9 => some .skip | _ => none

/-- The command of core k that a 64-bit instruction word spells: OP [63:56], RD [55:51], RA [50:46], RB [45:41], FL [40:32],
IMM [31:0] (R298), with the meaning of FL by instruction (R299 to R307). None for an OP or FL that the rules do not list. -/
def decodeSequencer (k : CoreId) (w : Word64) : Option Instr :=
  let rd : SReg := (w.extractLsb' 51 5).toFin
  let ra : SReg := (w.extractLsb' 46 5).toFin
  let rb : SReg := (w.extractLsb' 41 5).toFin
  let fl : BitVec 9 := w.extractLsb' 32 9
  let imm : Word32 := w.extractLsb' 0 32
  let op : OpIdx := w.extractLsb' 0 12
  let set : SetId := if fl.getLsbD 1 then .y else .x
  match (w.extractLsb' 56 8).toNat with
  | 0x00 => some (.nop k)
  | 0x01 => some (.li k rd imm)
  | 0x02 => some (.lih k rd imm)
  | 0x03 => some (.add k rd ra rb imm)
  | 0x04 => some (.sub k rd ra rb)
  | 0x05 => some (.mul k rd ra rb)
  | 0x06 => some (.divu k rd ra rb)
  | 0x07 => some (.and k rd ra rb)
  | 0x08 => some (.or k rd ra rb)
  | 0x09 => some (.xor k rd ra rb)
  | 0x0A => some (.shl k rd ra rb imm)
  | 0x0B => some (.shr k rd ra rb imm)
  | 0x0C => some (.sar k rd ra rb imm)
  | 0x0D => some (.min k rd ra rb)
  | 0x0E => some (.max k rd ra rb)
  | 0x10 => some (.jmp k imm)
  | 0x11 => (condOf (fl.setWidth 3)).map (fun c => .br k c ra rb imm)
  | 0x12 => some (.loop k rd imm)
  | 0x13 => (bselOf (fl.setWidth 4)).map (fun f => .bsel k rd f op)
  | 0x14 => some (.meridian k)
  | 0x15 => some (.fence k (fl.setWidth 5))
  | 0x20 => some (.mtile k rd ra (fl.getLsbD 0) set (fl.getLsbD 2) op)
  | 0x21 => some (if fl.getLsbD 3 then .listMerge k ra op else .drain k set)
  | 0x22 => some (.rowfn k rd op)
  | 0x23 => some (.fine k rd op)
  | 0x24 => some (.copy k ra imm (fl.getLsbD 3) (fl.setWidth 3).toFin)
  | 0x30 => some (.signal k ra rb (fl.setWidth 5) imm)
  | 0x31 => some (.wait k rd ra (fl.getLsbD 0))
  | 0x32 => some (.tag k ra rb (fl.getLsbD 0) imm)
  | _ => none

/-! ## Microinstructions (R180) -/

/-- The command of core k that a 32-bit microinstruction spells: OP [31:26], VD [25:22], VA [21:18], VB [17:14], KIDX [13:10]; TGET
takes the sum with VA = 0 and the maximum with VA = 1 (R180). -/
def decodeMicro (k : CoreId) (w : Word32) : Option Instr :=
  let vd : VReg := (w.extractLsb' 22 4).toFin
  let va : VReg := (w.extractLsb' 18 4).toFin
  let vb : VReg := (w.extractLsb' 14 4).toFin
  let kidx : Fin 16 := (w.extractLsb' 10 4).toFin
  match (w.extractLsb' 26 6).toNat with
  | 0x00 => some (.rfuNop k)
  | 0x01 => some (.ld k vd)
  | 0x02 => some (.lda k vd)
  | 0x03 => some (.st k va)
  | 0x04 => some (.sti k va)
  | 0x05 => some (.rfuMul k vd va vb)
  | 0x06 => some (.div k vd va vb)
  | 0x07 => some (.rfuAdd k vd va vb)
  | 0x08 => some (.rfuSub k vd va vb)
  | 0x09 => some (.mulk k vd va kidx)
  | 0x0A => some (.addk k vd va kidx)
  | 0x0B => some (.neg k vd va)
  | 0x0C => some (.abs k vd va)
  | 0x0D => some (.recip k vd va)
  | 0x0E => some (.sqrt k vd va)
  | 0x0F => some (.rsqrt k vd va)
  | 0x10 => some (.exp2 k vd va)
  | 0x11 => some (.log2 k vd va)
  | 0x12 => some (.tadd k va)
  | 0x13 => some (.tmax k va)
  | 0x14 => if va = 0 then some (.tget k vd false) else if va = 1 then some (.tget k vd true) else none
  | 0x15 => some (.qexp k va)
  | _ => none

end Sys2Proof
end

