-- ==== Sys2Proof/Config.lean ====
section
/-! DEFINITION. What the spec leaves to the implementation or to a standard it does not restate: free values and
uninterpreted functions, each an opaque constant without a body, so that nothing can be proved from a value of it. -/

namespace Sys2Proof.Config

/-- A value the spec calls undefined or does not state: the n-th one drawn (State.freeNext counts them).
DESIGN CHOICE, log entry 5; safe: a claim holds for every value. -/
opaque freeValue : Nat → BitVec 64

/-- SHAKE256 (FIPS 202) of a message; the spec names the standard without restating it (log entry 6). -/
opaque shake256Raw : List Byte → Nat → Byte
/-- CRC-16 of a flit's header and payload (R393 gives neither polynomial nor initial value; log entry 6). -/
opaque crc16 : List Byte → BitVec 16
/-- ML-DSA-65 verification: key, message, context, signature (R272, R543, R553). Log entry 6. -/
opaque mldsaVerify : List Byte → List Byte → List Byte → List Byte → Bool
/-- Byte i of the ML-DSA-65 signature over a message and context with the key generated from a seed (R542, R550, R558). -/
opaque mldsaSignRaw : List Byte → List Byte → List Byte → Nat → Byte
/-- Byte i of the ML-DSA-65 public key generated from a seed, and of the ML-KEM-768 encapsulation key generated from seeds d ‖ z (R542,
R543). -/
opaque mldsaPublicRaw : List Byte → Nat → Byte
opaque kemPublicRaw : List Byte → Nat → Byte
/-- Byte i of the signature with which Dziwald certifies the first 3,200 bytes of an identity certificate (R543). -/
opaque issuerSignRaw : List Byte → Nat → Byte
/-- ML-KEM-768 decapsulation with the key generated from seeds d ‖ z (R542, R545): seeds, ciphertext, to byte i of the shared secret. -/
opaque kemDecapRaw : List Byte → List Byte → Nat → Byte
/-- AES-256-XTS encryption (R427, R439): data key, tweak key, tweak, data unit, to byte i of the ciphertext. -/
opaque xtsRaw : List Byte → List Byte → List Byte → List Byte → Nat → Byte
/-- KMAC128 with customization string G12TAG and output length 64 bits (R428): key, input, to byte i. -/
opaque kmacRaw : List Byte → List Byte → Nat → Byte
/-- AES-256-GCM decryption (R546): key, IV, ciphertext, to byte i of the plaintext. -/
opaque gcmPlainRaw : List Byte → List Byte → List Byte → Nat → Byte
/-- AES-256-GCM tag check (R546): key, IV, additional data, ciphertext, tag. -/
opaque gcmTagOk : List Byte → List Byte → List Byte → List Byte → List Byte → Bool
/-- Dziwald's issuing public keys, published outside the spec (R543, R560, R570). -/
opaque issuingKey : List Byte

/-- The version that a firmware image states; R559 and R570 name it and give the image no layout (log entry 6). -/
opaque fwVersion : List Byte → BitVec 64
/-- Whether the ML-DSA-65 signature that a firmware image carries verifies with a Dziwald issuing key (R559, R570). Log entry 6. -/
opaque fwSignatureOk : List Byte → Bool

/-- The hc on the longest path of the timed walk of R465: image bytes, entry point, largest bucket, and by core the times of its
items, that is issue, work and drains in hc and copies in ns. Which items wait for which is timing between cores; log entry 7. -/
opaque pathHc : List Byte → Nat → Nat → List (Nat × List (Nat × Nat × List Nat × List Nat)) → Nat
/-- The ns of base-die, pass and tier terms on that path (R465). Log entry 7. -/
opaque pathNs : List Byte → Nat → Nat → List (Nat × List (Nat × Nat × List Nat × List Nat)) → Nat
/-- Whether the walk cannot satisfy a WAIT on the object at an address (R465, rule 6). Log entry 7. -/
opaque waitUnmet : List Byte → Nat → Bool
/-- REGION_LEN that the walk takes for a region whose header lies in no plain preload, by image and address: R465 reads descriptors from
preloads and says nothing of region headers. Log entry 85. -/
opaque regionPlanned : List Byte → Nat → Nat
/-- The forecast power in mW of one die in a window (R481), by die (12 is the hub), window and number of thermal actions
applied on it. Log entry 7. -/
opaque forecastPower : Nat → Nat → Nat → Int

/-- Byte offset in the fine store of item i of an operand of a fine-unit operation: OPIDX, role, base offset, LBASE (0 but for
FDOT, R306), index. R188, R277 and R289 give three bases and no layout. Roles: 0 input, 1 auxiliary, 2 output, 3 output exponents,
4 and 5 group exponents and zero points of code rows, 6 to 11 codes and exponents of gradient, first and second moment, 12 master
copy, 13 to 15 code rows, exponents and zero points of the re-quantised copy. Log entry 8. -/
opaque fineElem : Nat → Nat → Nat → Nat → Nat → Nat
/-- Whether a fine-unit operand of a role is in FP32 rather than BF16 (R189 allows both and names no field). Log entry 8. -/
opaque fineIsF32 : Nat → Nat → Bool
/-- Output format of a fine-unit operation (R189): 0 FP32, 1 BF16, 2 INT16. Log entry 8. -/
opaque fineOutFmt : Nat → Nat
/-- GSIZE code, modulo 3, and WBITS code, modulo 8, of the groups and code rows of a fine-unit operation, and whether they have
zero points: R62 makes the bits of the format word that say so zero, and no other field holds them. Log entry 8. -/
opaque fineGsize : Nat → Nat
opaque fineWbits : Nat → Nat
opaque fineWzp : Nat → Bool
/-- FNORM of one token in FP32 (R189 names RMS or layer norm with gain and optional bias, and gives neither formula nor
order of rounding): OPIDX, the token's features, the auxiliary operand, feature index. Log entry 8. -/
opaque fineNorm : Nat → List (BitVec 32) → List (BitVec 32) → Nat → BitVec 32
/-- Overflows on the way to the features of one token in FNORM, which clip (R187). Log entry 8. -/
opaque fineNormClips : Nat → List (BitVec 32) → List (BitVec 32) → Nat
/-- Constants of the AdamW rule of an operation in FP32, in the order β1, β2, lr, c1, c2, ε, λ: R189 names them and gives them no
place. Log entry 8. -/
opaque fineConst : Nat → Nat → BitVec 32
/-- Whether the k-th sum of the AdamW rule is a fused multiply-add with the product before it, rounded once, or a sum of a
product already rounded: R187 gives the lane fused multiply-adds, R189 the steps in order. Log entry 8. -/
opaque fineFused : Nat → Bool
/-- Zero divided by zero, the square root of a negative number: R189 states no result, R187 excludes NaN and infinity. By
operands; FP32. Log entry 8. -/
opaque fineUndefined : BitVec 32 → BitVec 32 → BitVec 32
/-- The re-quantised copy of a group of parameters (R65 names it and gives no rule for codes or exponents): OPIDX, the group,
item (code i, then exponent and zero point). Log entry 8. -/
opaque fineRequant : Nat → List (BitVec 32) → Nat → BitVec 8

/-- Offset of the activation panel of token block n ≥ 1 of a sparse operation from that of block 0, by OPIDX and n: R145 and
R301 give one panel and no stride. Log entry 12. -/
opaque sparsePanel : Nat → Nat → Nat
/-- The same for the activation side array of block n ≥ 1. Log entry 12. -/
opaque sparseSide : Nat → Nat → Nat

/-- Byte of the plain array that a sparse engine's address past 4 MiB would meet: R159 bounds every offset by REGION_LEN and says
nothing of a region that reaches past the plain. Log entry 81. -/
opaque pastPlain : Nat → BitVec 8
/-- The place, counted from the region, that an offset comes to in a region whose REGION_LEN is 0: R159 takes it modulo REGION_LEN. Log
entry 81. -/
opaque noLength : Nat → Nat
/-- The group under which a CSR8D lane promotes records that no count covers, its counts being zero all round the region: R148
gives none. By the record stream's length and the number of records. Log entry 81. -/
opaque countlessGroup : Nat → Nat → Nat

/-- What a hub descriptor of a step reads from host memory once a Function Level Reset has taken the window of the step's function away:
R525 lets the step run to its end and does not say. By offset. Log entry 90. -/
opaque goneHost : Nat → BitVec 8

/-- A register of the row-function unit, a tree's result or the output exponent that a block reads before it has written it:
R180 gives no value, R175 makes results a function of inputs, microcode and constants. By the block's microinstructions and
constants and by register (16 sum, 17 maximum, 18 exponent). Log entry 18. -/
opaque unwritten : List (BitVec 32) → List (BitVec 20) → Nat → BitVec 20

/-- A log-addition whose L leaves −262,143 to 262,143: R168 states no result there. By threshold, the operand with L_max and the
other one: L in [18:0], −262,144 for the zero code, and whether it counts as a clip in [19]. Log entry 15. -/
opaque lnsAddRange : Nat → BitVec 20 → BitVec 20 → BitVec 20

end Sys2Proof.Config
end

