-- ==== Sys2Proof/Machine/State.lean ====
section
/-! DEFINITION. The state of the G12 as plain data: every register, queue, buffer and mode the spec names, grouped by
block; the reasons a command can stop; and State.reset, the "After start" column of the register tables (R7). -/

namespace Sys2Proof.Machine

/-- Why the machine would stop with a fault. The spec describes an outcome for every command, so no meaning raises one. -/
inductive Fault
  /-- Behaviour beyond the thermal trip, which R483 leaves undefined. Raised by no meaning: a tripped module is off, and a
  command that reaches it has no effect. Safe. -/
  | beyondTrip
  deriving DecidableEq, Repr

/-- Why a command has no meaning. -/
inductive Refusal
  /-- Raised by an arm of exec that has no meaning yet, by its mnemonic. Safe. -/
  | notModelled (mnemonic : String)
  /-- Raised by a sequencer instruction whose operands R321 refuses at load (a register group past s31 or at s0, a
  branch target above 8,191, a hub engine above 3): no sequencer store can hold it, and the spec gives it no effect. Safe. -/
  | neverLoaded
  deriving DecidableEq, Repr

/-- Memory as address and byte pairs: addresses strictly rising, no byte equal to zero, which an unlisted address reads. -/
abbrev Mem := List Host.Cell

/-! ## The loaded constellation (R269 to R286, R618), as read from its image -/

/-- A core frame (R274). -/
structure CoreFrame where
  active : Bool
  split : Bool
  used : BitVec 8
  resident : BitVec 8
  cls : BitVec 16
  tagTimeout : BitVec 16
  idleHold : BitVec 16
  entry : List (BitVec 16)
  sreg : List Word64
  tagMode : BitVec 8192
  tagInit : BitVec 4096
  deriving DecidableEq, Repr, Inhabited

/-- An object image (R275). -/
structure ObjImage where
  count : Word32
  target : Word32
  mode : BitVec 8
  timeout : Word32
  deriving DecidableEq, Repr, Inhabited

/-- A tile frame (R275). -/
structure TileFrame where
  tile : Nat
  parkNever : Bool
  objs : List ObjImage
  deriving DecidableEq, Repr, Inhabited

/-- A block of hub object images (R276). -/
structure HubBlock where
  block : Nat
  objs : List ObjImage
  deriving DecidableEq, Repr, Inhabited

/-- A bucket of an operation (R277, R278). -/
structure Bucket where
  m : Nat
  n : Nat
  k : Nat
  deriving DecidableEq, Repr, Inhabited

/-- An operation-table entry (R277). -/
structure Op where
  opidx : Nat
  engine : BitVec 8
  engopt : BitVec 8
  format : Word32
  numeric : Word64
  drain : Word32
  approx : Word64
  buckets : List Bucket
  combineTimeout : Nat
  obase : Nat
  ostride : Nat
  fbase : Nat
  fstride : Nat
  engblk : List Byte
  deriving DecidableEq, Repr, Inhabited

/-- A slice-table entry (R279). -/
structure Slice where
  opidx : Nat
  tile : Nat
  core : Nat
  role : BitVec 8
  part : Nat
  row0 : Nat
  rows : Nat
  k0 : Nat
  klen : Nat
  combineAddr : Nat
  drainOvr : Word32
  bandOff : Nat
  deriving DecidableEq, Repr, Inhabited

/-- A phase word of a function block (R179). -/
structure Phase where
  start : Nat
  proLen : Nat
  bodyLen : Nat
  ecode : Nat
  deriving DecidableEq, Repr, Inhabited

/-- A function block (R179). -/
structure FuncBlock where
  ninstr : Nat
  nphase : Nat
  dt : Nat
  inFmt : Nat
  auxFmt : Nat
  outFmt : Nat
  outLayout : Nat
  lineP : Nat
  bound : Word32
  phases : List Phase
  consts : List Lns
  micro : List Word32
  deriving DecidableEq, Repr, Inhabited

/-- A remote-write window (R283). -/
structure Window where
  base : Nat
  len : Nat
  sources : BitVec 16
  kind : Nat
  arrival : Nat
  deriving DecidableEq, Repr, Inhabited

/-- A stream assignment (R285). -/
structure StreamAssign where
  tile : Nat
  core : Nat
  stream : Nat
  use : Nat
  opidx : Nat
  deriving DecidableEq, Repr, Inhabited

/-- A stream contract (R286). -/
structure Contract where
  id : Nat
  entry : Nat
  maxBucket : Nat
  period : Nat
  deadline : Nat
  deriving DecidableEq, Repr, Inhabited

/-- A plain preload (R618). -/
structure Preload where
  tile : Nat
  core : Nat
  offset : Nat
  bytes : List Byte
  deriving DecidableEq, Repr, Inhabited

/-- A constellation: the configuration image of a partition (R269), with the bytes it was read from. -/
structure Constellation where
  image : List Byte
  digest : List Byte
  tileMask : BitVec 16
  frames : List CoreFrame
  tileFrames : List TileFrame
  hubBlocks : List HubBlock
  ops : List Op
  slices : List Slice
  bands : List Nat
  funcs : List FuncBlock
  programs : List (List Word64)
  windows : List Window
  streams : List StreamAssign
  contracts : List Contract
  preloads : List Preload
  deriving DecidableEq, Repr, Inhabited

/-! ## One core -/

/-- ARR_STATUS.STATE (R98). -/
inductive ArrState | asleep | dawn | running | frozen | idleHold | dusk
  deriving DecidableEq, Repr

/-- Array registers (R97 to R102, R227, R228). -/
structure ArrRegs where
  idleHold : BitVec 16
  planes : BitVec 4
  frontSet : Bool
  share : Bool
  state : ArrState
  beforeFreeze : ArrState
  slots : Word64
  bubbles : Word64
  freezeHc : Word64
  dusks : BitVec 16
  dawns : BitVec 16
  predLost : BitVec 16
  predMadeup : BitVec 16
  predMisses : BitVec 16
  predSkipped : BitVec 16
  replays : Word32
  tolerated : Word32
  deriving DecidableEq, Repr

/-- Feeder registers (R103 to R105, R225, R226). -/
structure FdrRegs where
  amerge : Bool
  wmerge : Bool
  adry : Bool
  wdry : Bool
  alines : Word32
  wlines : Word32
  adrySlots : Word32
  wdrySlots : Word32
  tauA : BitVec 2
  tauSkip : BitVec 2
  tauM : BitVec 4
  tauE : BitVec 8
  skipped : Word32
  gated : Word32
  deriving DecidableEq, Repr

/-- Drain registers (R134, R135, R137, R138). The tags of R136 are those of the array group's sets. -/
structure DrnRegs where
  inflightX : BitVec 16
  inflightY : BitVec 16
  fault : Word32
  records : Word32
  drains : Word32
  deriving DecidableEq, Repr

/-- SPX_STATUS.STATE (R162). -/
inductive SpxState | idle | running | frozen | merging
  deriving DecidableEq, Repr

/-- Sparse-engine registers (R162 to R166). -/
structure SpxRegs where
  band : BitVec 16
  frontSet : Bool
  fmt : BitVec 2
  state : SpxState
  turns : Word64
  nonzero : Word64
  cursorWaits : Word32
  stallHc : Word32
  passes : Word32
  deriving DecidableEq, Repr

/-- RFU_STATUS.STATE (R190). -/
inductive RfuState | idle | running | waitPort | waitRecords
  deriving DecidableEq, Repr

/-- Row-function-unit registers (R190 to R193). -/
structure RfuRegs where
  opidx : BitVec 12
  phase : BitVec 2
  state : RfuState
  elems : Word64
  exactAdds : Word32
  cheapAdds : Word32
  clips : Word32
  deriving DecidableEq, Repr

/-- Plain registers (R260 to R267). The tags of R268 are Core.tags. -/
structure PlnRegs where
  timeout : BitVec 16
  split : Bool
  resident : BitVec 8
  used : BitVec 8
  cls : BitVec 16
  power : BitVec 16
  feedStall : Word32
  otherStall : Word32
  blocks : Word32
  blockHc : Word32
  busyCount : Word32
  busyWord : BitVec 19
  busyPorts : BitVec 6
  reruns : BitVec 16
  detects : BitVec 16
  parWord : BitVec 19
  parPort : BitVec 3
  fault : Word32
  deriving DecidableEq, Repr

/-- SEQ_STATUS.STATE (R325). -/
inductive SeqState | idle | issuing | stalled | blocked | inMeridian | faulted
  deriving DecidableEq, Repr

/-- Sequencer registers (R325 to R329). -/
structure SeqRegs where
  pc : BitVec 13
  entry : BitVec 4
  state : SeqState
  stepno : Word64
  issued : Word64
  queueHc : Word32
  blockHc : Word32
  fault : Word32
  deriving DecidableEq, Repr

/-- Stream-generator registers (R388, R389). -/
structure RngRegs where
  fine : BitVec 16
  drain : BitVec 16
  draws : Word64
  deriving DecidableEq, Repr

/-- What an issued MTILE carries to its engine (R301, R302, R309): registers are read at issue; `onHeld` says that its ADD
continues a set that was held in program order (R109); `ticket` is its place in the core's issue order. -/
structure MtileJob where
  opidx : Nat
  set : SetId
  add : Bool
  hold : Bool
  onHeld : Bool
  m : Nat
  n : Nat
  k : Nat
  m0 : Nat
  n0 : Nat
  lbase : Nat
  a0 : Nat
  a0b : Nat
  a1 : Nat
  a1b : Nat
  a2 : Nat
  a2b : Nat
  a3 : Nat
  a3b : Nat
  invoc : Nat
  drainWord : Word32
  pc : BitVec 13
  ticket : Nat
  deriving DecidableEq, Repr, Inhabited

/-- Progress of one operand stream or side array through its feeder: the bank lines read so far in the present read (R74,
R77, R83, R344). -/
structure Feed where
  lines : List (List Byte)
  deriving DecidableEq, Repr, Inhabited

/-- The instruction a matrix engine runs: its job, the pass under way, whether the pass has opened its set, the slots its
feeders have issued in the pass (R79), the feeders, and the row mask of R208. -/
structure MatRun where
  job : MtileJob
  pass : Nat
  opened : Bool
  slot : Nat
  wfeeds : List Feed
  afeeds : List Feed
  computeRow : List Bool
  deriving DecidableEq, Repr, Inhabited

/-- How far an accumulator set has come (R107, R109, R115). -/
inductive SetPhase | empty | filling | complete | reading
  deriving DecidableEq, Repr, Inhabited

/-- One accumulator set of a core over its cells: the descriptor tag (R106), the plane register, chunk and total of each cell
of the valid extent, row by row (R45, R70, R71; the plane
register of cell (r, c) at index 128 r + c), on the sparse engine the totals of its 32 lanes by lane and column (R139), and
what the drain needs of the pass that filled it, with the ticket of its MTILE. -/
structure AccSet where
  tag : Word64
  phase : SetPhase
  held : Bool
  nrows : Nat
  ncols : Nat
  rows : List Nat
  col0 : Nat
  lbase : Nat
  firstPass : Bool
  drainWord : Word32
  pc : BitVec 13
  ticket : Nat
  planes : List (BitVec 28)
  chunks : List Word32
  totals : List Word64
  laneTotals : List (Nat × List Word64)
  deriving DecidableEq, Repr, Inhabited

/-- A matrix engine of a core: queue of at most four MTILEs (R310), running instruction, earlier ones whose last step has
entered the array while their chunks are not complete, oldest first (R84), the bank lines that ports have written since a pass began, with
which its reads may collide (R251), sets X and Y (R15, R139). -/
structure MatUnit where
  queue : List MtileJob
  running : Option MatRun
  tail : List MatRun
  writes : List (Port × Nat × BitVec 8)
  setX : AccSet
  setY : AccSet
  deriving DecidableEq, Repr

/-- Work of the drain port, in issue order (R310, R312). An automatic drain takes the place of its MTILE and stands for
the passes still to drain. -/
inductive PortItem
  | auto (eng : MatEngine) (set : SetId) (passes : Nat) (ticket : Nat)
  | explicit (eng : MatEngine) (set : SetId) (pc : BitVec 13) (ticket : Nat)
  | merge (op : Nat) (base : Nat) (n : Nat) (cols : Nat) (n0 : Nat) (stride : Nat) (pc : BitVec 13)
  | rowfn (op : Nat) (cols : Nat) (n0 : Nat) (n : Nat) (pc : BitVec 13)
  deriving DecidableEq, Repr

/-- How far a drain is: started and waiting for its set, reading it out, or past the clearing of VALID (orders 2 to 8 of the
drain event table). -/
inductive DrainStage | waiting | reading | cleared
  deriving DecidableEq, Repr

/-- What the drain port is doing: a drain of a set (with the ticket of an explicit DRAIN), a list merge or a row function. -/
inductive PortActive
  | drain (eng : MatEngine) (set : SetId) (isAuto : Bool) (stage : DrainStage) (ticket : Nat)
  | merge (op : Nat)
  | rowfn
  deriving DecidableEq, Repr

/-- A record at its window: where it lies, its tag, whether it has landed, whether it counts in its set's in-flight count
(R116, R117). For a partial-total record nrows, ncols, part are those of R116; for a row-function record they are FIRST_BLOCK,
NBLOCKS and KIND (R174), isNull marks a null arrival (R308), and vals holds the values as they landed: a later record of the
sender may take the same slot before the part has read this one (log entry 17). -/
structure Record where
  base : Nat
  tag : Word64
  nrows : Nat
  ncols : Nat
  part : Nat
  got : Nat
  len : Nat
  landed : Bool
  counted : Bool
  isNull : Bool
  vals : List Byte
  deriving DecidableEq, Repr, Inhabited

/-- One lane of the row-function unit: v0 to v15, none for a void value (R617); the elements fed into its trees in index
order and the results of its trees (R172); its output exponent (R180). -/
structure Lane where
  regs : Vector (Option Lns) 16
  sums : List Lns
  maxs : List Lns
  sum : Lns
  max : Lns
  oexp : BitVec 8
  deriving DecidableEq, Repr

/-- A running row function (R178 to R180, R305): the block of 32 columns, the phase, whether the body runs, the
microinstruction index within it, the first element of this body, counts of LD, LDA and ST in the phase, the phase that
held an STI (R620), and whether the phase waits for the records of the other parts (R174). -/
structure RfuRun where
  opidx : Nat
  cols : Nat
  n0 : Nat
  n : Nat
  block : Nat
  phase : Nat
  inBody : Bool
  upc : Nat
  elem : Nat
  lds : Nat
  ldas : Nat
  sts : Nat
  stiPhase : Option Nat
  waiting : Bool
  finished : Bool
  pc : BitVec 13
  lanes : Vector Lane 32
  deriving DecidableEq, Repr

/-- What a core's sequencer waits for (R313, R347). -/
inductive Blocked
  | none
  | fence (mask : BitVec 5)
  | signal (mask : BitVec 5) (addr : BitVec 56) (addend : Word32) (sent : Bool)
  | wait (rd : SReg) (addr : BitVec 56) (faultto : Bool) (registered : Bool)
  | tag (first : Int) (count : Nat) (full : Bool)
  | meridian
  deriving DecidableEq, Repr

/-- A tagged access that is blocked: port, tag slot, the state of the tag that blocks it, tick since when (R246, R250), and
the engine for port CE. -/
structure TagBlock where
  port : Port
  slot : Nat
  full : Bool
  since : Word64
  eng : Option EngineId
  deriving DecidableEq, Repr

/-- A row mask formed in the step under way (R208), kept for its re-run (R256): the ticket of its MTILE, its operation, the mask
and its counts of rows not active, misses, made up, lost. -/
structure KeptMask where
  ticket : Nat
  opidx : Nat
  rows : List Bool
  skipped : Nat
  misses : Nat
  madeup : Nat
  lost : Nat
  deriving DecidableEq, Repr, Inhabited

/-- One core: sequencer, engines, drain path, plain (R15). `tables` holds the table registers of its cells, one table of 16
entries per column, which every cell of the column holds (R69); `tickets` numbers the engine work of a step in issue order,
`masks` the row masks formed in it; `drLines` are the bank lines and words in them that the DR port's work under way has read or, with true, written; `recSince` is the tick since which its port or row function waits for records (R119,
R174); `reload` names the word in a RESIDENT bank that a second parity detection hit (R258). -/
structure Core where
  sregs : Vector Word64 32
  store : List (Nat × List Word64)
  seq : SeqRegs
  arr : ArrRegs
  fdr : FdrRegs
  drn : DrnRegs
  spx : SpxRegs
  rfu : RfuRegs
  pln : PlnRegs
  rng : RngRegs
  plain : Mem
  tags : BitVec 4096
  tagMode : BitVec 8192
  ag : MatUnit
  sp : MatUnit
  port : List PortItem
  active : Option PortActive
  records : List Record
  readTags : List Word64
  rfuRun : Option RfuRun
  copies : Nat
  fines : Nat
  blocked : Blocked
  tagBlocks : List TagBlock
  taking : Bool
  reported : Bool
  tables : List (List (BitVec 20))
  tickets : Nat
  masks : List KeptMask
  drLines : List (Bool × Nat × BitVec 8)
  recSince : Option Word64
  reload : Option (BitVec 19)
  deriving DecidableEq, Repr

/-! ## Synchronisation objects, copy engines, fine unit, passes, one tile -/

/-- Object mode (R362, R364). -/
inductive ObjMode | idle | level | take | step
  deriving DecidableEq, Repr

/-- A synchronisation object of 64 bytes (R362). -/
structure SyncObj where
  count : Word32
  target : Word32
  mode : ObjMode
  last : Bool
  wrap : Bool
  owner : BitVec 8
  timeout : Word32
  init : Word32
  snap : Word32
  localWaiters : BitVec 64
  remote : Vector (BitVec 16) 8
  stamp : Word64
  deriving DecidableEq, Repr

/-- The timer of a waiter, kept by the object's node in registration order (R371, R372). -/
structure Waiter where
  obj : Nat
  who : WaiterId
  deadline : Option Word64
  since : Word64
  deriving DecidableEq, Repr

/-- SYN_ registers (R384 to R387). -/
structure SynRegs where
  adds : Word32
  releases : Word32
  timeouts : BitVec 16
  wraps : BitVec 16
  waitNs : Word64
  waitSeen : Word64
  fault : Word32
  deriving DecidableEq, Repr

/-- CPY_STATUS.STATE (R354). -/
inductive CpyState | idle | moving | tagBlocked | creditWait | retainWait | faulted
  deriving DecidableEq, Repr, Inhabited

/-- A descriptor handed over to a copy engine (R347): its 64 bytes, its address, the core that gave it, REGION_LEN read at
hand-over (R337). -/
structure CopyJob where
  issuer : Option CoreId
  pc : BitVec 13
  part : Nat
  addr : Nat
  desc : List Byte
  regionLen : Nat
  ordered : Bool
  deriving DecidableEq, Repr, Inhabited

/-- A descriptor in progress (R348): source lines asked for over passes and received, destination writes still to make, the bases
of the data windows it has not yet filled (R333); `chain` says that it has completed and the next of its chain is yet to be
read (R347), `why` what it waits for (R354). -/
structure CopyRun where
  job : CopyJob
  id : Nat
  asked : Bool
  need : List Nat
  got : List (Nat × List Byte)
  todo : List (Nat × List Byte)
  started : Bool
  arrivals : List Nat
  failed : Bool
  chain : Bool
  why : CpyState
  deriving DecidableEq, Repr, Inhabited

/-- The counters of a hub engine, or of the hub's objects, as one partition caused them while confidential mode was in force
(R353, R384). -/
structure PartCounts where
  bytes : Word64
  notifies : Word32
  descs : Word32
  tagNs : Word32
  creditNs : Word32
  adds : Word32
  releases : Word32
  deriving DecidableEq, Repr, Inhabited

/-- A copy engine (R347, R348, R354 to R359): its queue, its four working places, its registers; `seen` is the tick up to which
tagNs and creditNs count. -/
structure CopyEngine where
  queue : List CopyJob
  running : Vector (Option CopyRun) 4
  state : CpyState
  bytes : Word64
  notifies : Word32
  descs : Word32
  tagNs : Word32
  creditNs : Word32
  seen : Word64
  fault : Word32
  fdesc : Word64
  deriving DecidableEq, Repr

/-- A FINE issued to the tile's fine unit (R306). -/
structure FineJob where
  core : Fin 64
  opidx : Nat
  m : Nat
  n : Nat
  k : Nat
  n0 : Nat
  m0 : Nat
  lbase : Nat
  invoc : Nat
  pc : BitVec 13
  deriving DecidableEq, Repr, Inhabited

/-- FIN_STATUS.STATE (R194). -/
inductive FinState | idle | running | waitStore
  deriving DecidableEq, Repr

/-- The fine unit of a tile with its 2 MiB store (R187, R188, R194 to R196). -/
structure FineUnit where
  store : Mem
  queue : List FineJob
  running : Option FineJob
  opidx : BitVec 12
  kind : BitVec 2
  bf16 : Bool
  state : FinState
  fmas : Word64
  clips : Word32
  deriving DecidableEq, Repr

/-! ## Passes in transit and adds in flight -/

/-- Flit types (R393). -/
inductive FlitKind
  | write | readRequest | readResponse | signal | waitRegistration | waitRelease | commitAck | creditReturn | refusal
  deriving DecidableEq, Repr

/-- Who sent a flit, so that its answer finds the sender: a core's sequencer or drain; the same for an arrival's add, which no
SIGNAL of the core waits for; a working place of a copy engine, which remembers the core and the COPY it works for; firmware. -/
inductive Origin
  | core (k : CoreId)
  | arrival (k : CoreId)
  | engine (e : EngineId) (id : Nat) (issuer : Option (CoreId × BitVec 13))
  | firmware
  deriving DecidableEq, Repr

/-- A flit in transit (R393), with its sender. LEN and TYPE of its header are those of payload and kind; xid is echoed in
answers, seqs are its link sequence numbers, one for each pass direction of its route. -/
structure Flit where
  src : NodeId
  dst : NodeId
  part : BitVec 4
  kind : FlitKind
  addr : BitVec 56
  payload : List Byte
  origin : Origin
  xid : BitVec 16
  seqs : List (BitVec 8)
  deriving DecidableEq, Repr

/-- A source router's hold on a remote-write window: the window and its line credits (R376, R406). -/
structure Credit where
  window : Window
  credits : Nat
  deriving DecidableEq, Repr

/-- PAS_ registers of a tile (R411 to R419). -/
structure PasRegs where
  part : BitVec 4
  node : BitVec 4
  pos : BitVec 4
  route : Word64
  cw : BitVec 4
  ccw : BitVec 4
  spoke : BitVec 4
  train : BitVec 50
  retryCw : BitVec 16
  retryCcw : BitVec 16
  retrySpoke : BitVec 16
  unknown : Word32
  filtered : Word32
  fault : Word32
  faddr : BitVec 56
  wakes : BitVec 16
  lastWake : BitVec 16
  hbmSr : Bool
  valley : BitVec 2
  wakeAsked : Word64
  fails : Vector Nat 3
  deriving DecidableEq, Repr

/-- MEM_ registers of a tile (R446 to R449). -/
structure HbmRegs where
  trained : Bool
  state : BitVec 2
  corrected : Word32
  uncorrected : Word32
  fault : Word64
  writeMib : Word32
  readMib : Word32
  readRest : Nat
  writeRest : Nat
  accessed : Bool
  deriving DecidableEq, Repr

/-- PWR_ registers of a tile (R229, R487 to R493); `vnext` is the voltage it takes at its next meridian (R455, R470),
`parkChosen` the choice of R479, `lowered`, `cutMv` and `withheld` what R481 does on the tile in this window, `hotWindow` that its
junction exceeded 100 °C in this window, `enterRec` and `leaveRec` that it enters or leaves RECOVERY at its next meridian
(R214). -/
structure PwrRegs where
  reproFixed : Bool
  tl : BitVec 4
  tlRecovery : BitVec 4
  context : BitVec 2
  vadm : BitVec 10
  vset : BitVec 10
  vnext : BitVec 10
  tjPred : BitVec 16
  tj : BitVec 16
  hotWindow : Bool
  ecore : Word64
  ebase : Word64
  floorHot : BitVec 10
  floorWarm : BitVec 10
  floorCool : BitVec 10
  theta : BitVec 16
  gain : BitVec 16
  gainPending : List (BitVec 16 × Word64)
  toff : BitVec 16
  s70 : Vector (BitVec 16) 8
  s105 : Vector (BitVec 16) 8
  parkChosen : Bool
  lowered : Bool
  cutMv : Nat
  withheld : Bool
  enterRec : Bool
  leaveRec : Bool
  deriving DecidableEq, Repr

/-- A tile: compute die, base die, HBM stack (R13 to R15). `outbox` holds the record lines that wait at the tile's router for
a credit (R377). -/
structure Tile where
  cores : Vector Core 64
  objs : Vector SyncObj 512
  waiters : List Waiter
  hbm : Mem
  engines : Vector CopyEngine 8
  fine : FineUnit
  credits : List Credit
  outbox : List Flit
  syn : SynRegs
  pas : PasRegs
  mem : HbmRegs
  pwr : PwrRegs
  deriving DecidableEq, Repr

/-- An add issued and not yet committed at its object (R366 to R369). `ack` says that a SIGNAL of the core in `src` waits for the commit,
`xid` is the transaction id its acknowledge echoes when it came as a flit (R393). -/
structure PendingAdd where
  obj : ObjId
  addend : Word32
  src : Origin
  ack : Bool
  part : Nat
  xid : BitVec 16
  deriving DecidableEq, Repr

/-! ## Partitions -/

/-- A layout entry (R534). -/
structure LayoutEntry where
  defined : Bool
  confidential : Bool
  requireSigned : Bool
  tiles : BitVec 12
  hubBlocks : BitVec 16
  function : BitVec 8
  g0 : BitVec 16
  gcount : BitVec 16
  nsExtents : BitVec 16
  deriving DecidableEq, Repr, Inhabited

/-- The shape of one operation in a step (R317). -/
structure OpShape where
  opidx : Nat
  bucket : Nat
  m : Nat
  n : Nat
  k : Nat
  skipped : Bool
  deriving DecidableEq, Repr, Inhabited

/-- A clip record (R57) and an approximation record (R223) of one operation in one invocation. -/
structure OpRecord where
  opidx : Nat
  inElems : Nat
  inClips : Nat
  outElems : Nat
  outClips : Nat
  skipElems : Nat
  gated : Nat
  replays : Nat
  tolEvents : Nat
  predSkipped : Nat
  predMisses : Nat
  predMadeup : Nat
  predLost : Nat
  aUsed : Nat
  tl : Nat
  ran : Bool
  deriving DecidableEq, Repr, Inhabited

/-- A step enqueued and not yet closed (R316, R518): its number among all steps, where its completion goes (none once a reset
of the function or the endpoint has discarded it, R525), what it runs, its shapes, its stream, the release tick it took
(R471), whether R473 has held it back. -/
structure Step where
  id : Nat
  cmd : Option HostSlot
  session : Nat
  entry : Nat
  prio : Nat
  args : List Word64
  shapes : List OpShape
  recbuf : Nat
  contract : Option Nat
  tick : Option Word64
  arrival : Word64
  held : Bool
  deriving DecidableEq, Repr

/-- The first fault of a step as it reached the hub (R324). -/
structure StepFault where
  code : BitVec 16
  opidx : BitVec 12
  pc : BitVec 13
  core : CoreId
  deriving DecidableEq, Repr

/-- The step a partition runs: its number, its shares after a re-split (R320), whether it has opened, been re-run, how
far a re-run is, its fault, its accumulated records, the address ranges that its descriptors have begun to write (R324). -/
structure StepRun where
  step : Step
  stepno : Word64
  seed : Word64
  aStep : Nat
  shares : List Slice
  released : Word64
  opened : Bool
  rerun : Bool
  rerunPending : Bool
  detections : Nat
  fault : Option StepFault
  recs : List OpRecord
  outputs : List (Nat × Nat)
  deriving DecidableEq, Repr

/-- An open session (R521): `closing` once it is being closed, with the command to complete when one asked for it. -/
structure Session where
  id : Nat
  contract : Option Nat
  closing : Option (Option HostSlot)
  deriving DecidableEq, Repr

/-- An open stream: its contract and its first and next release tick (R469, R471). -/
structure Stream where
  contract : Nat
  r0 : Nat
  next : Nat
  deriving DecidableEq, Repr

/-- Bind state of a model (R517). -/
inductive BindState | none | binding | bound | failed
  deriving DecidableEq, Repr

/-- A section of a model image that a bind wrote (R546). -/
structure Section where
  index : Nat
  tier : Nat
  node : Nat
  core : Nat
  loc : Nat
  len : Nat
  deriving DecidableEq, Repr, Inhabited

/-- A model of a partition (R517, R547): object id or 0, its state and code, its digests, its sections; `unbinding` that
an unbind waits for the meridian, with the command to complete; `hurt` marks one that R436 treats as damaged. -/
structure Model where
  objId : Word64
  state : BindState
  status : BitVec 16
  digest : List Byte
  contentDigest : List Byte
  sections : List Section
  unbinding : Bool
  unbindCmd : Option HostSlot
  fromStore : Bool
  hurt : Bool
  deriving DecidableEq, Repr

/-- An object of the model store (R438): `lost` are its 4 KiB sectors whose codeword cannot be corrected any more (R425). -/
structure StoreObj where
  id : Word64
  kind : BitVec 8
  sealed : Bool
  bytes : List Byte
  digest : List Byte
  lost : List Nat
  deriving DecidableEq, Repr

/-- Background firmware work of a partition when residency resumes (R445): load, then bind each model in order. -/
inductive ResJob
  | load (id : Word64)
  | bind (id : Word64)
  deriving DecidableEq, Repr

/-- A residency reload as it is recorded (R258, R436): the content digest and section index of the model, with the tick; a plain
preload that was rewritten (R618) has no digest. -/
structure ReloadRecord where
  digest : List Byte
  sectionIx : Nat
  tick : Word64
  deriving DecidableEq, Repr, Inhabited

/-- A partition (R533): layout entry, settings, constellation, models, sessions, steps, namespace. `normMax` holds the largest
row norm m × 2^e of each operation a bind has measured (R205), `damaged` the model, section and code of each repair to come, `resFailed` the object and code of each residency step that failed (R445),
`hurt` the content digests of damaged models that were unbound and not yet bound again (R436); `stepsNext` and `missesNext` count
what falls on or after the end of the window in progress (R8), `reloads` are the residency reloads recorded (R258, R436). -/
structure Partition where
  layout : LayoutEntry
  pseed : Word64
  seed : Word64
  adaptive : Bool
  adaptivePending : Option Bool
  residency : Word64
  pubkeys : Vector (Option (List Byte)) 4
  const : Option Constellation
  errStatements : List (List Byte)
  normMax : List (Nat × Nat × Int)
  models : List Model
  resJobs : List ResJob
  waitingOpens : List (HostSlot × Nat)
  waitingDeletes : List (Option HostSlot × Word64)
  sessions : List Session
  queue : List Step
  run : Option StepRun
  nextStepno : Word64
  streams : List Stream
  aStep : Nat
  aPending : Option Nat
  vadm : BitVec 10
  misses : BitVec 16
  deferred : Word32
  deferredNow : Bool
  stepsDone : Word32
  missesDone : BitVec 16
  stepsNext : Word32
  missesNext : BitVec 16
  reloads : List ReloadRecord
  objects : List StoreObj
  nextObj : Word64
  pfault : Word64
  damaged : List (Nat × Nat × BitVec 16)
  resFailed : List (Word64 × BitVec 16)
  hurt : List (List Byte)
  deriving DecidableEq, Repr

/-! ## Host side -/

/-- A command read from a ring and not yet completed (R511, R512): its slot, its 64 bytes, whether it has started. -/
structure Fetched where
  slot : BitVec 16
  entry : List Byte
  started : Bool
  deriving DecidableEq, Repr, Inhabited

/-- A ring pair (R509, R530): its registers, head and tail, and the commands fetched and not yet completed. -/
structure Ring where
  done : Word32
  mod : BitVec 8
  vector : BitVec 6
  logd : BitVec 4
  enable : Bool
  cplBase : Word64
  cmdBase : Word64
  head : BitVec 16
  tail : BitVec 16
  fetched : List Fetched
  moderating : Option Word64
  deriving DecidableEq, Repr

/-- A host function (R503, R507, R528 to R532): its registers, rings, message counts, the bytes of its MSI-X table, the link
errors reported, its power state (D0, or D3hot when `d3hot` is set) and the code of its Max_Read_Request_Size, 128 bytes × 2^code. -/
structure Func where
  hbBase : Word64
  hbLen : BitVec 48
  rings : Vector Ring 8
  msix : Vector Word32 64
  msixTable : Mem
  errAddr : Word32
  errCode : BitVec 16
  errRange : Bool
  errDoorbell : Bool
  errRefused : Bool
  aer : List Word32
  lastConfig : BitVec 2
  d3hot : Bool
  mrrs : BitVec 3
  deriving DecidableEq, Repr

/-! ## Hub -/

/-- The hub die (R13): objects, tier 2, copy engines, hub registers of passes, tiers and synchronisation. -/
structure Hub where
  objs : Vector SyncObj 2048
  waiters : List Waiter
  lpddr : Mem
  engines : Vector CopyEngine 4
  synAdds : Word32
  synReleases : Word32
  byPart : Vector PartCounts 12
  hlink : BitVec 24
  unknown : Word32
  filtered : Word32
  epoch : Word64
  initGranules : BitVec 10
  trained : Bool
  linkCorrected : Word32
  linkUncorrected : Word32
  lfault : Word64
  spareBlocks : BitVec 16
  ldpcFails : BitVec 16
  ldpcRetries : BitVec 16
  mps : BitVec 4
  width : BitVec 5
  speed : BitVec 3
  endpoint : Bool
  perst : Bool
  loopbackFollower : Bool
  loopbackLead : Bool
  passDown : Bool
  tj : BitVec 16
  tjPred : BitVec 16
  htoff : BitVec 16
  mgain : BitVec 16
  mgainPending : List (BitVec 16 × Word64)
  deriving DecidableEq, Repr

/-! ## Scheduler, boot, record, security, management, test, module -/

/-- What one die or the module drew in the running second of the timebase and its mean in mW over the last completed one,
with the highest junction reading of the second `sec` and of the one before it (R486). -/
structure SecStat where
  uj : Nat
  mean : Nat
  top : Int
  lastTop : Int
  sec : Nat
  deriving DecidableEq, Repr, Inhabited

/-- Scheduler registers and window state (R461 to R486, R494 to R501). `fill` holds the best-effort steps released in this
window, each with its voltage in mV, `room` and `slewRoom` the energy in pJ still free under the allowance and the slew limit, `stopped` and `headed` that
the fill stopped and at which candidate (R472); `secs` holds T0 to T11 and the module; `pending` and `windowPending` are the pairs and
window lengths written, each with the window start it takes effect at (R21, R461). -/
structure Sched where
  budget5 : BitVec 8
  acoustic : BitVec 2
  pending : List ((BitVec 8 × BitVec 2) × Word64)
  windowMs : BitVec 7
  windowPending : List (BitVec 7 × Word64)
  window : Nat
  start : Word64
  lenMs : Nat
  nextStart : Word64
  carry : Nat
  emod : Word64
  lastModUj : Nat
  reserveMw : Word32
  thermWarn : Bool
  thermLimit : Bool
  overhang : Bool
  slewLimited : Bool
  bestVolt : Nat
  fill : List (Nat × Nat)
  room : Int
  slewRoom : Option Int
  stopped : Bool
  headed : Option Nat
  mirror : List Byte
  gen : Word64
  secs : Vector SecStat 13
  deriving DecidableEq, Repr

/-- Settings of one partition in the record (R572 PARTSET). -/
structure PartSet where
  pseed : Word64
  adaptive : Bool
  residency : Word64
  deriving DecidableEq, Repr, Inhabited

/-- The retained-state record (R572), less its constant and derived fields. -/
structure Retained where
  generation : Word64
  bootCount : Word64
  budget5 : BitVec 8
  acoustic : BitVec 2
  windowMs : BitVec 7
  netAddr : Word32
  netPrefix : BitVec 8
  netGateway : Word32
  fwMin : Vector Word64 3
  teardown : BitVec 12
  layoutPending : Bool
  toff : Vector (BitVec 16) 12
  gain : Vector (BitVec 16) 12
  htoff : BitVec 16
  mgain : BitVec 16
  layout : Vector LayoutEntry 12
  partset : Vector PartSet 12
  counters : Vector Word64 16
  opkeys : Vector (Option (List Byte)) 16
  pubkeys : Vector (Option (List Byte)) 48
  deriving DecidableEq, Repr

/-- A firmware slot: version, image, and whether its signature verifies (R570). -/
structure FwSlot where
  version : Word64
  image : List Byte
  verifies : Bool
  deriving DecidableEq, Repr

/-- A firmware component with its two slots (R559, R570), the slot running and the upload in progress. -/
structure FwComp where
  slot0 : FwSlot
  slot1 : FwSlot
  runs1 : Bool
  upload : Option (Nat × Mem)
  deriving DecidableEq, Repr

/-- Start-up state and the SPI NOR (R568 to R577, R581 to R584). A copy that is not valid is none (R573). -/
structure Boot where
  detail : BootDetail
  stage : BitVec 4
  stopped : Bool
  started : Bool
  ready : Bool
  copyA : Option Retained
  copyB : Option Retained
  staging : Option Retained
  restoreGen : Word64
  generation : Word64
  writeFail : Bool
  imported : Bool
  copyIsB : Bool
  writable : Bool
  fw : Vector FwComp 3
  fwTarget : Option (Fin 3)
  recovery : Bool
  deriving DecidableEq, Repr

/-- A scrub record (R540). -/
structure ScrubRecord where
  tick : Word64
  part : Nat
  cause : Nat
  layout : LayoutEntry
  extents : BitVec 16
  deriving DecidableEq, Repr

/-- A LAYOUT_SET under way (R535): the connection and request, the new layout, the partitions torn down, records formed, and the tick
at which the scrub began (R564). -/
structure LayoutJob where
  conn : ConnId
  req : List Byte
  layout : Vector LayoutEntry 12
  torn : BitVec 12
  records : List ScrubRecord
  start : Word64
  deriving DecidableEq, Repr

/-- Security and management state (R541 to R567, R608). `waiting` are the requests that wait for the LAYOUT_SET under way, in the order
in which their last bytes arrived, with whether their connection is still open (R535, R552). -/
structure Mgmt where
  scrubbing : Bool
  scrubs : Word32
  lastUs : Word32
  scrubRecords : List ScrubRecord
  job : Option LayoutJob
  waiting : List (Bool × ConnId × List Byte)
  authFails : BitVec 16
  counterFails : BitVec 16
  accepted : Word32
  conns : Vector Bool 4
  responses : Vector (Option (List Byte)) 4
  portOpen : Bool
  netAddr : Word32
  netPrefix : BitVec 8
  netGateway : Word32
  link : MgmtLink
  deriving DecidableEq, Repr

/-- TST_SPEED of one tile (R599). -/
structure SpeedRegs where
  replays : Word32
  tolEvents : Word32
  mismatch : BitVec 16
  rate : BitVec 16
  result : BitVec 3
  tl : BitVec 4
  volt : BitVec 10
  deriving DecidableEq, Repr

/-- The JTAG instruction in force (R594). -/
inductive TapInstr | bypass | idcode | samplePreload | extest | clamp | highz | regacc
  deriving DecidableEq, Repr

/-- Test state (R585 to R599). `loopRun` holds IFACE and INST of the loop-back that runs and the state its pass had before,
`mbistRun` TARGET and INST of the memory test that runs. -/
structure Test where
  lastCode : BitVec 16
  busy : Bool
  test : Bool
  loopDuration : BitVec 16
  loopDepth : BitVec 2
  loopInst : BitVec 4
  loopIface : BitVec 4
  loopRun : Option (BitVec 4 × BitVec 4 × BitVec 4)
  mbistRun : Option (BitVec 4 × BitVec 4)
  lresErrors : Word32
  lresLanes : BitVec 24
  lresResult : BitVec 3
  mbistAddr : BitVec 40
  mbistResult : BitVec 3
  mbistInst : BitVec 4
  mbistTarget : BitVec 4
  speed : Vector SpeedRegs 12
  tap : TapInstr
  tapData : Word64
  pads : Word64
  deriving DecidableEq, Repr

/-- The module's supply (R454, R482, R605). -/
structure Module where
  v12 : Bool
  regulators : Bool
  heldOff : Bool
  deriving DecidableEq, Repr

/-- What manufacture fixes (R541, R543, R457, R458, R578): root secret, device identity, fused tables, and the factory trims of sensors and
meters, which are in the readings that a command brings (R459, R460; log entry 90). -/
structure Fuses where
  root : BitVec 256
  deviceId : BitVec 128
  s70 : Vector (Vector (BitVec 16) 8) 12
  s105 : Vector (Vector (BitVec 16) 8) 12
  floors : Vector (BitVec 10 × BitVec 10 × BitVec 10) 12
  theta : Vector (BitVec 16) 12
  hubTheta : BitVec 16
  tlRecovery : Vector (BitVec 4) 12
  sensorTrim : Vector (BitVec 16) 12
  meterTrim : Vector (BitVec 16) 12
  hubSensorTrim : BitVec 16
  moduleMeterTrim : BitVec 16
  bootRom : List Byte
  deriving DecidableEq, Repr

/-- The state of the module. `xid` is the transaction id of the next request and `links` the next link sequence number of each
pass direction (R393): of tile n clockwise at n, counter-clockwise at 12 + n, up its spoke at 24 + n, down it at 36 + n.
`pending` is the queue of commands waiting, first in first out; `freeNext` counts the free
values drawn (log entry 5); `badBlocks` are the blocks of tiers 1 and 2 whose read has failed and that have not been written since, with
whether their tag is what failed (R436). -/
structure State where
  module : Module
  fuses : Fuses
  boot : Boot
  tiles : Vector Tile 12
  hub : Hub
  parts : Vector Partition 12
  funcs : Vector Func 13
  sched : Sched
  mgmt : Mgmt
  test : Test
  fabric : List Flit
  xid : BitVec 16
  links : Vector (BitVec 8) 48
  adds : List PendingAdd
  hostMem : Mem
  now : Word64
  badBlocks : List (BitVec 56 × Bool)
  nextId : Nat
  freeNext : Nat
  pending : List Instr
  deriving DecidableEq, Repr

/-! ## Reset -/

/-- An empty accumulator set: VALID = 0 (R108). Its totals are not defined until a pass fills it. -/
def AccSet.reset : AccSet :=
  { tag := 0, phase := .empty, held := false, nrows := 0, ncols := 0, rows := [], col0 := 0, lbase := 0, firstPass := false,
    drainWord := 0, pc := 0, ticket := 0, planes := [], chunks := [], totals := [], laneTotals := [] }

def MatUnit.reset : MatUnit := { queue := [], running := none, tail := [], writes := [], setX := .reset, setY := .reset }

def ArrRegs.reset : ArrRegs :=
  { idleHold := 0, planes := 0, frontSet := false, share := false, state := .asleep, beforeFreeze := .asleep, slots := 0, bubbles := 0, freezeHc := 0,
    dusks := 0, dawns := 0, predLost := 0, predMadeup := 0, predMisses := 0, predSkipped := 0, replays := 0, tolerated := 0 }

def FdrRegs.reset : FdrRegs :=
  { amerge := false, wmerge := false, adry := false, wdry := false, alines := 0, wlines := 0, adrySlots := 0, wdrySlots := 0,
    tauA := 0, tauSkip := 0, tauM := 0, tauE := 0, skipped := 0, gated := 0 }

def DrnRegs.reset : DrnRegs :=
  { inflightX := 0, inflightY := 0, fault := 0, records := 0, drains := 0 }

def SpxRegs.reset : SpxRegs :=
  { band := 0, frontSet := false, fmt := 0, state := .idle, turns := 0, nonzero := 0, cursorWaits := 0, stallHc := 0, passes := 0 }

def RfuRegs.reset : RfuRegs :=
  { opidx := 0, phase := 0, state := .idle, elems := 0, exactAdds := 0, cheapAdds := 0, clips := 0 }

def PlnRegs.reset : PlnRegs :=
  { timeout := 0, split := false, resident := 0, used := 0xFF, cls := 0, power := 0x5555, feedStall := 0, otherStall := 0,
    blocks := 0, blockHc := 0, busyCount := 0, busyWord := 0, busyPorts := 0, reruns := 0, detects := 0, parWord := 0,
    parPort := 0, fault := 0 }

def SeqRegs.reset : SeqRegs :=
  { pc := 0, entry := 0, state := .idle, stepno := 0, issued := 0, queueHc := 0, blockHc := 0, fault := 0 }

def RngRegs.reset : RngRegs := { fine := 0, drain := 0, draws := 0 }

def Core.reset : Core :=
  { sregs := .replicate 32 0, store := [], seq := .reset, arr := .reset, fdr := .reset, drn := .reset, spx := .reset,
    rfu := .reset, pln := .reset, rng := .reset, plain := [], tags := 0, tagMode := 0, ag := .reset, sp := .reset, port := [],
    active := none, records := [], readTags := [], rfuRun := none, copies := 0, fines := 0, blocked := .none, tagBlocks := [],
    taking := false, reported := false, tables := [], tickets := 0, masks := [], drLines := [], recSince := none, reload := none }

def SyncObj.reset : SyncObj :=
  { count := 0, target := 0, mode := .idle, last := false, wrap := false, owner := 0xFF, timeout := 0, init := 0, snap := 0,
    localWaiters := 0, remote := .replicate 8 0, stamp := 0 }

def PartCounts.reset : PartCounts :=
  { bytes := 0, notifies := 0, descs := 0, tagNs := 0, creditNs := 0, adds := 0, releases := 0 }

def CopyEngine.reset : CopyEngine :=
  { queue := [], running := .replicate 4 none, state := .idle, bytes := 0, notifies := 0, descs := 0, tagNs := 0, creditNs := 0,
    seen := 0, fault := 0, fdesc := 0 }

def FineUnit.reset : FineUnit :=
  { store := [], queue := [], running := none, opidx := 0, kind := 0, bf16 := false, state := .idle, fmas := 0, clips := 0 }

/-- The route table of each tile after discovery (R403, R412). -/
def routeTable : Vector Word64 12 :=
  #v[0x4442233333331103, 0x4442333333311023, 0x4443333333110223, 0x4443333331102233, 0x4443333311022333, 0x4443333110223333,
     0x4443331102233333, 0x4443311022333333, 0x4443110223333333, 0x4441102233333333, 0x4441022333333313, 0x4440223333333113]

/-- Fused values of a module whose fuses equal the minimum columns of R456, floors 0.50 V, θ 0, TL_RECOVERY 0. DESIGN
CHOICE, log entry 4: the spec calls them factory and gives bounds only. -/
def Fuses.reset : Fuses :=
  { root := 0, deviceId := 0, s70 := .replicate 12 #v[640, 800, 960, 1120, 1280, 1460, 1600, 1740],
    s105 := .replicate 12 #v[600, 760, 910, 1060, 1210, 1380, 1510, 1640], floors := .replicate 12 (500, 500, 500),
    theta := .replicate 12 0, hubTheta := 0, tlRecovery := .replicate 12 0, sensorTrim := .replicate 12 0, meterTrim := .replicate 12 0,
    hubSensorTrim := 0, moduleMeterTrim := 0, bootRom := [] }

def SynRegs.reset : SynRegs := { adds := 0, releases := 0, timeouts := 0, wraps := 0, waitNs := 0, waitSeen := 0, fault := 0 }

def PasRegs.reset (t : TileId) : PasRegs :=
  { part := 0xF, node := BitVec.ofNat 4 (t.val + 1), pos := BitVec.ofNat 4 t.val, route := routeTable[t], cw := 2, ccw := 2,
    spoke := 2, train := 0x3FFFFFFFFFFFF, retryCw := 0, retryCcw := 0, retrySpoke := 0, unknown := 0, filtered := 0, fault := 0,
    faddr := 0, wakes := 0, lastWake := 0, hbmSr := false, valley := 0, wakeAsked := 0, fails := .replicate 3 0 }

def HbmRegs.reset : HbmRegs :=
  { trained := true, state := 0, corrected := 0, uncorrected := 0, fault := 0, writeMib := 0, readMib := 0, readRest := 0,
    writeRest := 0, accessed := false }

def PwrRegs.reset (f : Fuses) (t : TileId) : PwrRegs :=
  { reproFixed := false, tl := 0, tlRecovery := f.tlRecovery[t], context := 0, vadm := 0, vset := 0x2EE, vnext := 0x2EE, tjPred := 0, tj := 0,
    hotWindow := false, ecore := 0, ebase := 0, floorHot := f.floors[t].2.2, floorWarm := f.floors[t].2.1,
    floorCool := f.floors[t].1, theta := f.theta[t], gain := 0, gainPending := [], toff := 0, s70 := f.s70[t],
    s105 := f.s105[t], parkChosen := false, lowered := false, cutMv := 0, withheld := false, enterRec := false, leaveRec := false }

def Tile.reset (f : Fuses) (t : TileId) : Tile :=
  { cores := .replicate 64 .reset, objs := .replicate 512 .reset, waiters := [], hbm := [], engines := .replicate 8 .reset,
    fine := .reset, credits := [], outbox := [], syn := .reset, pas := .reset t, mem := .reset, pwr := .reset f t }

/-- An undefined layout entry: FUNCTION 0xFF and every other field zero (R534). -/
def LayoutEntry.reset : LayoutEntry :=
  { defined := false, confidential := false, requireSigned := false, tiles := 0, hubBlocks := 0, function := 0xFF, g0 := 0,
    gcount := 0, nsExtents := 0 }

/-- A partition that is not defined, or created empty (R535): PSEED 0, reproducibility mode FIXED, nothing loaded. -/
def Partition.reset : Partition :=
  { layout := .reset, pseed := 0, seed := 0, adaptive := false, adaptivePending := none, residency := 0,
    pubkeys := .replicate 4 none, const := none, errStatements := [], normMax := [], models := [], resJobs := [],
    waitingOpens := [], waitingDeletes := [], sessions := [], queue := [], run := none, nextStepno := 0, streams := [],
    aStep := 0, aPending := none, vadm := 0, misses := 0, deferred := 0, deferredNow := false, stepsDone := 0, missesDone := 0, stepsNext := 0, missesNext := 0, reloads := [], objects := [],
    nextObj := 1, pfault := 0, damaged := [], resFailed := [], hurt := [] }

def Ring.reset : Ring :=
  { done := 0, mod := 0, vector := 0, logd := 0, enable := false, cplBase := 0, cmdBase := 0, head := 0, tail := 0, fetched := [],
    moderating := none }

def Func.reset : Func :=
  { hbBase := 0, hbLen := 0, rings := .replicate 8 .reset, msix := .replicate 64 0, msixTable := [], errAddr := 0, errCode := 0,
    errRange := false, errDoorbell := false, errRefused := false, aer := [], lastConfig := 0, d3hot := false, mrrs := 2 }

/-- The record that manufacture writes as generation 1 into copy A (R577): BUDGET 300 W, class 1, W = 10 ms, NET
192.168.0.10/24, no partition, no key. -/
def Retained.reset : Retained :=
  { generation := 1, bootCount := 0, budget5 := 60, acoustic := 1, windowMs := 10, netAddr := 0xC0A8000A, netPrefix := 24,
    netGateway := 0, fwMin := .replicate 3 0, teardown := 0, layoutPending := false, toff := .replicate 12 0,
    gain := .replicate 12 0, htoff := 0, mgain := 0, layout := .replicate 12 .reset,
    partset := .replicate 12 { pseed := 0, adaptive := false, residency := 0 }, counters := .replicate 16 0,
    opkeys := .replicate 16 none, pubkeys := .replicate 48 none }

def FwComp.reset : FwComp :=
  { slot0 := { version := 0, image := [], verifies := true }, slot1 := { version := 0, image := [], verifies := false },
    runs1 := false, upload := none }

/-- Start-up has completed orders 1 to 10 and order 11 is in progress: STAGE 0xB (R581), generation 2 written into copy B
with BOOT_COUNT 1 (R574, R575). -/
def Boot.reset : Boot :=
  { detail := ⟨0, 0⟩, stage := 0xB, stopped := false, started := true, ready := false, copyA := some .reset,
    copyB := some { Retained.reset with generation := 2, bootCount := 1 }, staging := none, restoreGen := 1, generation := 2,
    writeFail := false, imported := false, copyIsB := true, writable := true, fw := .replicate 3 .reset, fwTarget := none,
    recovery := false }

def Hub.reset : Hub :=
  { objs := .replicate 2048 .reset, waiters := [], lpddr := [], engines := .replicate 4 .reset, synAdds := 0, synReleases := 0,
    byPart := .replicate 12 .reset, hlink := 0xAAAAAA, unknown := 0, filtered := 0, epoch := 1, initGranules := 0, trained := true, linkCorrected := 0,
    linkUncorrected := 0, lfault := 0, spareBlocks := 1024, ldpcFails := 0, ldpcRetries := 0, mps := 0, width := 0, speed := 0,
    endpoint := true, perst := false, loopbackFollower := false, loopbackLead := false, passDown := false, tj := 0, tjPred := 0, htoff := 0, mgain := 0,
    mgainPending := [] }

def Sched.reset : Sched :=
  { budget5 := 60, acoustic := 1, pending := [], windowMs := 10, windowPending := [], window := 0, start := 0, lenMs := 10,
    nextStart := 0, carry := 0, emod := 0, lastModUj := 0, reserveMw := 0xBB80, thermWarn := false, thermLimit := false,
    overhang := false, slewLimited := false, bestVolt := 750, fill := [], room := 0, slewRoom := none, stopped := false, headed := none, mirror := List.replicate 512 0, gen := 0,
    secs := .replicate 13 { uj := 0, mean := 0, top := 0, lastTop := 0, sec := 0 } }

def Mgmt.reset : Mgmt :=
  { scrubbing := false, scrubs := 0, lastUs := 0, scrubRecords := [], job := none, waiting := [], authFails := 0,
    counterFails := 0, accepted := 0, conns := .replicate 4 false, responses := .replicate 4 none, portOpen := false,
    netAddr := 0xC0A8000A, netPrefix := 24, netGateway := 0, link := .down }

def SpeedRegs.reset : SpeedRegs :=
  { replays := 0, tolEvents := 0, mismatch := 0, rate := 0, result := 0, tl := 0, volt := 0x2EE }

def Test.reset : Test :=
  { lastCode := 0, busy := false, test := false, loopDuration := 0, loopDepth := 0, loopInst := 0, loopIface := 0, loopRun := none, mbistRun := none, lresErrors := 0,
    lresLanes := 0, lresResult := 0, mbistAddr := 0, mbistResult := 0, mbistInst := 0, mbistTarget := 0,
    speed := .replicate 12 .reset, tap := .bypass, tapData := 0, pads := 0 }

/-- The module right after start-up orders 1 to 10, before READY: every register at its "After start" entry (R7), the
record of manufacture restored (R577), no partition defined, the queue empty. -/
def State.reset : State :=
  { module := { v12 := true, regulators := true, heldOff := false }, fuses := .reset, boot := .reset,
    tiles := Vector.ofFn (Tile.reset .reset), hub := .reset, parts := .replicate 12 .reset, funcs := .replicate 13 .reset,
    sched := .reset, mgmt := .reset, test := .reset, fabric := [], xid := 0, links := .replicate 48 0, adds := [], hostMem := [], now := 0, badBlocks := [], nextId := 0,
    freeNext := 0, pending := [] }

end Sys2Proof.Machine
end

