-- ==== Sys2Proof/Machine/Ops.lean ====
section
/-! DEFINITION. The named operations over memory, registers and cores that the meanings share: bytes, the sparse
memories, plains with their banks and tags (R230 to R250), step faults (R323, R324), the issue and completion of
sequencer instructions (R309 to R313), flits and adds in transit. -/

namespace Sys2Proof.Machine

/-! ## Numbers and bytes (R2) -/

/-- An addition that stops at the largest value of its width: the counters the spec calls saturating. -/
def satAdd {w : Nat} (x : BitVec w) (n : Nat) : BitVec w :=
  if x.toNat + n < 2 ^ w then BitVec.ofNat w (x.toNat + n) else BitVec.allOnes w

/-- The number that bytes spell, least significant first. -/
def leNat : List Byte → Nat
  | [] => 0
  | b :: bs => b.toNat + 256 * leNat bs

/-- The low k bytes of a number, least significant first. -/
def natLe : Nat → Nat → List Byte
  | 0, _ => []
  | k + 1, n => BitVec.ofNat 8 n :: natLe k (n / 256)

/-- Bits lo to lo + len - 1 of a number. -/
def bitsOf (n lo len : Nat) : Nat := n / 2 ^ lo % 2 ^ len

/-- Bytes off to off + len - 1 of a list, as a number; missing bytes read zero. -/
def fieldAt (bs : List Byte) (off len : Nat) : Nat := leNat ((bs.drop off).take len)

/-- Bytes off to off + len - 1 of a list, filled up with zeros. -/
def sliceAt (bs : List Byte) (off len : Nat) : List Byte :=
  let t := (bs.drop off).take len
  t ++ List.replicate (len - t.length) 0

/-- A field of w bits read as two's complement. -/
def toSigned (n w : Nat) : Int := if n % 2 ^ w < 2 ^ (w - 1) then (n % 2 ^ w : Nat) else (n % 2 ^ w : Nat) - (2 ^ w : Nat)

/-- Rounding up of a quotient. -/
def ceilDiv (a b : Nat) : Nat := (a + b - 1) / b

/-- The text of a list of bytes with the bytes from off replaced. -/
def patch (bs : List Byte) (off : Nat) (new : List Byte) : List Byte := bs.take off ++ new ++ bs.drop (off + new.length)

/-! ## Memory as address and byte pairs -/

/-- One byte of a memory; an unlisted address reads zero. -/
def memGet : Mem → Nat → Byte
  | [], _ => 0
  | (a, b) :: m, x => if a = x then b else memGet m x

/-- Put a pair into its place by address. -/
def memInsert : Mem → Nat → Byte → Mem
  | [], x, b => [(x, b)]
  | (a, c) :: m, x, b => if x < a then (x, b) :: (a, c) :: m else (a, c) :: memInsert m x b

/-- Write one byte: the address's entry goes, and a byte other than zero takes its place. -/
def memPut (m : Mem) (x : Nat) (b : Byte) : Mem :=
  let r := m.filter (fun c => c.1 != x)
  if b = 0 then r else memInsert r x b

/-- Write bytes from an address on. -/
def memWrite : Mem → Nat → List Byte → Mem
  | m, _, [] => m
  | m, a, b :: bs => memWrite (memPut m a b) (a + 1) bs

/-- Read n bytes from an address on. -/
def memRead (m : Mem) (a n : Nat) : List Byte := (List.range n).map (fun i => memGet m (a + i))

/-- Zero the bytes in [a, a + n). -/
def memClear (m : Mem) (a n : Nat) : Mem := m.filter (fun c => decide (c.1 < a) || decide (a + n ≤ c.1))

/-- The canonical form: addresses strictly rising, no zero byte listed. -/
def memWf : Mem → Bool
  | [] => true
  | (a, b) :: m => (b != 0) && m.all (fun c => decide (a < c.1)) && memWf m

/-- Memory of a given size whose content is left open: every byte a free value. -/
def freeMem (n size : Nat) : Mem :=
  (List.range size).filterMap (fun a => let b : Byte := (Config.freeValue (n + a)).truncate 8
    if b = 0 then none else some (a, b))

/-- Bytes left open. -/
def freeBytes (n len : Nat) : List Byte := (List.range len).map (fun i => (Config.freeValue (n + i)).truncate 8)

/-! ## Access to the state's parts -/

def getCore (s : State) (k : CoreId) : Core := s.tiles[k.tile].cores[k.core]

def updTile (s : State) (t : TileId) (f : Tile → Tile) : State :=
  { s with tiles := s.tiles.set t (f s.tiles[t]) }

def updCore (s : State) (k : CoreId) (f : Core → Core) : State :=
  updTile s k.tile (fun t => { t with cores := t.cores.set k.core (f t.cores[k.core]) })

def updPart (s : State) (p : PartId) (f : Partition → Partition) : State :=
  { s with parts := s.parts.set p (f s.parts[p]) }

def updFunc (s : State) (f : FuncId) (g : Func → Func) : State :=
  { s with funcs := s.funcs.set f (g s.funcs[f]) }

def updHub (s : State) (f : Hub → Hub) : State := { s with hub := f s.hub }
def updSched (s : State) (f : Sched → Sched) : State := { s with sched := f s.sched }
def updMgmt (s : State) (f : Mgmt → Mgmt) : State := { s with mgmt := f s.mgmt }
def updBoot (s : State) (f : Boot → Boot) : State := { s with boot := f s.boot }
def updTest (s : State) (f : Test → Test) : State := { s with test := f s.test }

/-- Fold a change over a list of places. -/
def forAll {α : Type} (xs : List α) (f : State → α → State) (s : State) : State := xs.foldl f s

def allTiles : List TileId := List.finRange 12
def allParts : List PartId := List.finRange 12
def allFuncs : List FuncId := List.finRange 13

/-- Core numbers of a tile. -/
def allCores (t : TileId) : List CoreId := (List.finRange 64).map (fun c => ⟨t, c⟩)

/-- The next free value (log entry 5), and the state with it drawn. -/
def drawFree (s : State) : Word64 × State := (Config.freeValue s.freeNext, { s with freeNext := s.freeNext + 1 })

/-- A matrix unit of a core. -/
def matUnit (c : Core) : MatEngine → MatUnit
  | .array => c.ag
  | .sparse => c.sp

def setMatUnit (c : Core) (e : MatEngine) (u : MatUnit) : Core :=
  match e with
  | .array => { c with ag := u }
  | .sparse => { c with sp := u }

/-- A set of a matrix unit. -/
def accSet (u : MatUnit) : SetId → AccSet
  | .x => u.setX
  | .y => u.setY

def setAccSet (u : MatUnit) (i : SetId) (a : AccSet) : MatUnit :=
  match i with
  | .x => { u with setX := a }
  | .y => { u with setY := a }

def otherSet : SetId → SetId
  | .x => .y
  | .y => .x

/-! ## Sequencer registers (R295) -/

/-- s0 reads as zero. -/
def sreg (c : Core) (r : SReg) : Word64 := if r = 0 then 0 else c.sregs[r]

/-- Writes to s0 are ignored. -/
def setSreg (c : Core) (r : SReg) (v : Word64) : Core :=
  if r = 0 then c else { c with sregs := c.sregs.set r v }

/-- Register i places after r in its group; beyond s31 reads zero (a group that R321 refuses). -/
def sregAt (c : Core) (r : SReg) (i : Nat) : Word64 :=
  if h : r.val + i < 32 then sreg c ⟨r.val + i, h⟩ else 0

/-! ## Partitions, steps, shapes -/

/-- The defined partition that owns a tile (R534). -/
def tilePart (s : State) (t : TileId) : Option PartId :=
  allParts.find? (fun p => s.parts[p].layout.defined && s.parts[p].layout.tiles.getLsbD t.val)

/-- The partition number of a tile on the wire: 15 for a tile of no partition (R411). -/
def partNumber (s : State) (t : TileId) : Nat :=
  match tilePart s t with
  | some p => p.val
  | none => 15

/-- The step that a core's partition runs. -/
def coreRun (s : State) (k : CoreId) : Option (PartId × StepRun) :=
  match tilePart s k.tile with
  | none => none
  | some p => match s.parts[p].run with
    | none => none
    | some r => some (p, r)

def findOp (c : Constellation) (opidx : Nat) : Option Op := c.ops.find? (fun o => o.opidx == opidx)

def findShape (r : StepRun) (opidx : Nat) : Option OpShape := r.step.shapes.find? (fun o => o.opidx == opidx)

/-- The current share of an operation that a core holds (R318 to R320). -/
def findShare (r : StepRun) (k : CoreId) (opidx : Nat) : Option Slice :=
  r.shares.find? (fun x => x.opidx == opidx && x.tile == k.tile.val && x.core == k.core.val)

/-- SHARE_M of R318. -/
def shareM (sh : OpShape) (sl : Slice) : Nat := min sl.rows (sh.m - sl.row0)

/-- SHARE_K of R318. -/
def shareK (sh : OpShape) (sl : Slice) : Nat := min sl.klen (sh.k - sl.k0)

/-- Compute die on and tile not parked: PAS_VALLEY.STATE is awake (R419). -/
def tileAwake (s : State) (t : TileId) : Bool := s.tiles[t].pas.valley == 0

/-- The module has its supply and its regulators run (R454, R483). -/
def powered (s : State) : Bool := s.module.v12 && s.module.regulators && !s.module.heldOff

/-! ## Status codes (R10 and the chapters that own the others) -/

def stOk : BitVec 16 := 0x0000
def stRefusedDeadline : BitVec 16 := 0x0101
def stRefusedAnchor : BitVec 16 := 0x0102
def stRefusedStreamDup : BitVec 16 := 0x0103
def stRefusedPlainSpace : BitVec 16 := 0x0104
def stRefusedAnchorMismatch : BitVec 16 := 0x0105
def stRefusedImage : BitVec 16 := 0x0106
def stRefusedBudget : BitVec 16 := 0x0107
def stRefusedPartition : BitVec 16 := 0x0108
def stShapeExceedsPlan : BitVec 16 := 0x0201
def stSyncTimeout : BitVec 16 := 0x0202
def stParityRerun : BitVec 16 := 0x0203
def stStepFault : BitVec 16 := 0x0204
def stDeadlineMiss : BitVec 16 := 0x0205
def stTagTimeout : BitVec 16 := 0x0206
def stPassDown : BitVec 16 := 0x0207
def stHostBadCommand : BitVec 16 := 0x0301
def stHostRingFull : BitVec 16 := 0x0302
def stBindingMismatch : BitVec 16 := 0x0401
def stConfidentialDenied : BitVec 16 := 0x0402
def stSignatureInvalid : BitVec 16 := 0x0403
def stMgmtAuth : BitVec 16 := 0x0501
def stMgmtCounter : BitVec 16 := 0x0502

/-! ## Faults of a step (R323, R324, R329, R331) -/

/-- Record a fault of the step that partition p runs. The first one ends the step; one raised after a parity detection has
begun a re-run is discarded (R324). -/
def raisePart (s : State) (p : PartId) (f : StepFault) : State :=
  updPart s p (fun q => { q with run := q.run.map (fun r =>
    if r.fault.isSome || r.rerunPending then r else { r with fault := some f }) })

/-- Whether faults of the step of core k are discarded, since its attempt is being aborted for a re-run (R324). -/
def aborting (s : State) (k : CoreId) : Bool :=
  match coreRun s k with
  | some (_, r) => r.rerunPending
  | none => false

/-- A fault raised on behalf of core k's step, with the operation and the instruction concerned. -/
def raiseCore (s : State) (k : CoreId) (code : BitVec 16) (opidx : Nat) (pc : BitVec 13) : State :=
  match tilePart s k.tile with
  | none => s
  | some p => raisePart s p { code := code, opidx := BitVec.ofNat 12 opidx, pc := pc, core := k }

/-- Set a bit of SEQ_FAULT with its FAULT_PC (R329). -/
def seqFaultWord (w : Word32) (bit : Nat) (pc : BitVec 13) : Word32 :=
  (w &&& 0x7F) ||| BitVec.ofNat 32 (2 ^ bit) ||| BitVec.ofNat 32 (pc.toNat * 2 ^ 16)

/-- A sequencer fault of core k (R323): its bit and pc are recorded, the core issues nothing more, the step faults. -/
def seqFault (s : State) (k : CoreId) (bit : Nat) (code : BitVec 16) (opidx : Nat) (pc : BitVec 13) : State :=
  if aborting s k then s else
  raiseCore (updCore s k (fun c => { c with seq := { c.seq with fault := seqFaultWord c.seq.fault bit pc, state := .faulted } }))
    k code opidx pc

/-- A plain fault of core k (R239, R243, R244): its bit of PLN_FAULT, and the step faults. -/
def plnFault (s : State) (k : CoreId) (bit : Nat) (code : BitVec 16) (opidx : Nat) (pc : BitVec 13) : State :=
  if aborting s k then s else
  raiseCore (updCore s k (fun c => { c with pln := { c.pln with fault := c.pln.fault ||| BitVec.ofNat 32 (2 ^ bit) } }))
    k code opidx pc

/-- A drain fault of core k (R137): its bit of DRN_FAULT with FAULT_OP, and the step faults. -/
def drnFault (s : State) (k : CoreId) (bit : Nat) (code : BitVec 16) (opidx : Nat) (pc : BitVec 13) : State :=
  if aborting s k then s else
  raiseCore (updCore s k (fun c =>
    let w := (c.drn.fault &&& 0xF) ||| BitVec.ofNat 32 (2 ^ bit + opidx % 4096 * 2 ^ 16)
    { c with drn := { c.drn with fault := w } })) k code opidx pc

/-- A router fault at the source tile of core k (R406, R407, R417, R418): the bit of PAS_FAULT and ADDR. -/
def pasFault (s : State) (k : CoreId) (bit : Nat) (addr : BitVec 56) (opidx : Nat) (pc : BitVec 13) : State :=
  if aborting s k then s else
  raiseCore (updTile s k.tile (fun t => { t with pas :=
    { t.pas with fault := t.pas.fault ||| BitVec.ofNat 32 (2 ^ bit), faddr := addr } })) k stStepFault opidx pc

/-! ## Plains: banks, ports, tags (R230 to R250) -/

/-- Bytes of a plain. -/
def plainSize : Nat := 0x400000

/-- What comes of one access to a bank line: it proceeds, blocks on a tag slot, waits for a RETAIN bank, or faults with a
bit of PLN_FAULT. -/
inductive Access
  | proceeds
  | blocked (slot : Nat)
  | retained
  | faults (bit : Nat)
  deriving DecidableEq, Repr

/-- The id of a port (R233). -/
def portId : Port → Nat
  | .wf => 0 | .af => 1 | .sx => 2 | .dr => 3 | .ce => 4 | .rx => 5

/-- Two bits of PLN_STATE: 0 OFF, 1 ON, 2 RETAIN (R262). -/
def bankPower (c : Core) (bank : Nat) : Nat := c.pln.power.toNat / 4 ^ bank % 4

/-- Class of a bank (R238, R261). -/
def bankClass (c : Core) (bank : Nat) : Nat := c.pln.cls.toNat / 4 ^ bank % 4

/-- The ports a class grants in split mode (R238). -/
def portGranted (p : Port) (cls : Nat) : Bool :=
  match cls with
  | 1 => p == .wf || p == .sx || p == .ce || p == .rx
  | 2 => p == .af || p == .sx || p == .dr || p == .ce || p == .rx
  | 3 => p == .dr || p == .rx || p == .ce
  | _ => false

/-- Tag mode of a slot: 0 untagged, 1 CONSUME, 2 KEEP (R246). -/
def tagModeOf (c : Core) (slot : Nat) : Nat := c.tagMode.toNat / 4 ^ slot % 4

def tagFull (c : Core) (slot : Nat) : Bool := c.tags.getLsbD slot

def setTag (c : Core) (slot : Nat) (full : Bool) : Core :=
  if slot < 4096 then
    { c with tags := if full then c.tags ||| BitVec.ofNat 4096 (2 ^ slot)
                     else c.tags &&& ~~~(BitVec.ofNat 4096 (2 ^ slot)) }
  else c

/-- What an access by a port to the bank line of offset a does (R239, R243, R244, R246, R247). -/
def access (c : Core) (p : Port) (isWrite : Bool) (a : Nat) : Access :=
  let bank := a / 0x80000
  if bankPower c bank = 0 then .faults 2
  else if bankPower c bank = 2 then .retained
  else if c.pln.split && !portGranted p (bankClass c bank) then .faults 4
  else if isWrite && c.pln.resident.getLsbD bank then .faults 3
  else if p == .dr then .proceeds
  else
    let slot := a / 1024
    if tagModeOf c slot = 0 then .proceeds
    else if isWrite then (if tagFull c slot then .blocked slot else .proceeds)
    else if tagFull c slot then .proceeds else .blocked slot

/-- An access of a port on behalf of an engine: one that is noted as blocked stays so until its release (R246, R249). -/
def accessFor (c : Core) (p : Port) (isWrite : Bool) (a : Nat) (e : Option EngineId) : Access :=
  if c.tagBlocks.any (fun b => b.port == p && b.slot == a / 1024 && b.eng == e) then .blocked (a / 1024) else access c p isWrite a

/-- The tag after an access that proceeded: a read of the last bank line of a CONSUME slot empties it, the commit of a
write to the last bank line of a tagged slot fills it (R246). The DR port changes none (R247). -/
def afterAccess (c : Core) (p : Port) (isWrite : Bool) (a : Nat) : Core :=
  let slot := a / 1024
  if p == .dr || a % 1024 < 960 then c
  else if isWrite then (if tagModeOf c slot = 0 then c else setTag c slot true)
  else if tagModeOf c slot = 1 then setTag c slot false else c

/-- The bank lines that [a, a + n) touches, with the part of the range in each: line address, first byte, length. -/
def lineSpans (a n : Nat) : List (Nat × Nat × Nat) :=
  if n = 0 then [] else
  (List.range ((a + n - 1) / 64 - a / 64 + 1)).map (fun i =>
    let l := (a / 64 + i) * 64
    let lo := max a l
    let hi := min (a + n) (l + 64)
    (l, lo, hi - lo))

/-- Change a partition's aggregate of the hub's counters (R353, R384). -/
def updCounts (s : State) (p : Nat) (f : PartCounts → PartCounts) : State :=
  if h : p < 12 then updHub s (fun y => { y with byPart := y.byPart.set p (f y.byPart[p]) }) else s

/-- The members of a list with their places. -/
def indexed {α : Type} (xs : List α) : List (Nat × α) := (List.range xs.length).zip xs

/-! ## Fabric addresses, flits, adds in flight -/

/-- Node id [55:48] of a fabric address (R2). -/
def addrNode (a : BitVec 56) : Nat := a.toNat / 2 ^ 48
/-- Local offset [47:0] of a fabric address (R2). -/
def addrLocal (a : BitVec 56) : Nat := a.toNat % 2 ^ 48

/-- Node of a tile: n + 1 (R14). -/
def tileNode (t : TileId) : NodeId := ⟨t.val + 1, by omega⟩

/-- The tile of a node other than the hub. -/
def nodeTile (n : NodeId) : Option TileId := if h : 0 < n.val then some ⟨n.val - 1, by omega⟩ else none

/-- The base of the synchronisation objects of a node (R360). -/
def objBase : Nat := 0x200000000000

/-- The object at a fabric address, if one lies there (R360, R402). -/
def objAt (a : BitVec 56) : Option ObjId :=
  let n := addrNode a
  let o := addrLocal a
  if h : n < 13 then
    if objBase ≤ o ∧ (o - objBase) % 64 = 0 ∧ (o - objBase) / 64 < (if n = 0 then 2048 else 512) then
      some ⟨⟨n, h⟩, (o - objBase) / 64⟩
    else none
  else none

/-- The fabric address of an object. -/
def objAddr (o : ObjId) : BitVec 56 := BitVec.ofNat 56 (o.node.val * 2 ^ 48 + objBase + 64 * o.num)

def getObj (s : State) (o : ObjId) : Option SyncObj :=
  match nodeTile o.node with
  | none => s.hub.objs[o.num]?
  | some t => s.tiles[t].objs[o.num]?

def setObj (s : State) (o : ObjId) (x : SyncObj) : State :=
  match nodeTile o.node with
  | none => updHub s (fun h => { h with objs := h.objs.setIfInBounds o.num x })
  | some t => updTile s t (fun h => { h with objs := h.objs.setIfInBounds o.num x })

/-- The object of partition p at an address: R323 and R361 refuse any other. -/
def partObj (s : State) (p : PartId) (a : BitVec 56) : Option ObjId :=
  match objAt a with
  | none => none
  | some o => match getObj s o with
    | none => none
    | some x => if x.owner.toNat = p.val then some o else none

/-- Put an entry into a list sorted by a key. -/
def insertBy {α : Type} (key : α → Nat) (x : α) : List α → List α
  | [] => [x]
  | y :: ys => if key x < key y then x :: y :: ys else y :: insertBy key x ys

def sortBy {α : Type} (key : α → Nat) (xs : List α) : List α := xs.foldl (fun r x => insertBy key x r) []

/-- The next and the previous tile of the wheel. -/
def nextTile (t : TileId) : TileId := ⟨(t.val + 1) % 12, by omega⟩
def prevTile (t : TileId) : TileId := ⟨(t.val + 11) % 12, by omega⟩

/-- Entry of a tile's route table for a node (R403): 0 local, 1 clockwise, 2 counter-clockwise, 3 spoke, 4 discard. A node that
the table has no entry for is discarded too. -/
def routeCode (s : State) (t : TileId) (n : Nat) : Nat := if 16 ≤ n then 4 else s.tiles[t].pas.route.toNat / 16 ^ n % 16

/-- Where a router sends a flit for a node next, and over which pass direction (numbered as State.links); none where it delivers
the flit itself or discards it (R403). The hub crossbar has one spoke for each tile. -/
def routeStep (s : State) (at' dst : NodeId) : Option (NodeId × Fin 48) :=
  match nodeTile at' with
  | none => (nodeTile dst).map (fun t => (dst, ⟨36 + t.val, by omega⟩))
  | some t => match routeCode s t dst.val with
    | 1 => some (tileNode (nextTile t), ⟨t.val, by omega⟩)
    | 2 => some (tileNode (prevTile t), ⟨12 + t.val, by omega⟩)
    | 3 => some (0, ⟨24 + t.val, by omega⟩)
    | _ => none

/-- The pass directions that a flit takes from one node to another: no route has more than two (R394, R403). -/
def routeFrom (s : State) : Nat → NodeId → NodeId → List (Fin 48)
  | 0, _, _ => []
  | n + 1, at', dst => match routeStep s at' dst with
    | none => []
    | some (next, l) => l :: routeFrom s n next dst
def route (s : State) (src dst : NodeId) : List (Fin 48) := routeFrom s 2 src dst

/-- A pass direction carries flits: its pass is up at the tile, and in PAS_HLINK for a spoke (R396, R413, R420). -/
def linkUp (s : State) (l : Fin 48) : Bool :=
  let p := s.tiles[l.val % 12].pas
  match l.val / 12 with
  | 0 => p.cw == 2
  | 1 => p.ccw == 2
  | _ => p.spoke == 2 && s.hub.hlink.toNat / 4 ^ (l.val % 12) % 4 == 2

/-- A flit crosses every pass direction of its route: each numbers it (R393 SEQ). -/
def cross (ls : Vector (BitVec 8) 48) (r : List (Fin 48)) : Vector (BitVec 8) 48 := r.foldl (fun v (l : Fin 48) => v.set l (v[l] + 1)) ls

/-- Flits of the channel of requests, writes and signals; the other channel carries the answers (R404). -/
def isRequest : FlitKind → Bool
  | .write | .readRequest | .signal | .waitRegistration => true
  | _ => false

/-- A flit for a node that routers do not deliver to is discarded and counted where it enters (R401, R416). -/
def countUnknown (s : State) (n : NodeId) : State :=
  match nodeTile n with
  | some t => updTile s t (fun x => { x with pas := { x.pas with unknown := satAdd x.pas.unknown 1 } })
  | none => updHub s (fun h => { h with unknown := satAdd h.unknown 1 })

/-- Kinds that take a transaction id of their own; the others echo one (R393). -/
def ownXid (k : FlitKind) : Bool := isRequest k || k == .waitRelease

/-- Send a flit (R393, R401, R404): it is in transit behind the earlier ones of its source and destination. A request takes the
next transaction id, an answer keeps that of what it answers. Each pass direction of its route numbers it as it is sent (DESIGN CHOICE, log
entry 88: R393 numbers a direction's flits and does not say when a forwarding router does). -/
def send (s : State) (f : Flit) : State :=
  if isRequest f.kind && decide (12 < addrNode f.addr) then countUnknown s f.src else
  let r := route s f.src f.dst
  { s with fabric := s.fabric ++ [{ f with seqs := r.map (fun l => s.links[l]), xid := if ownXid f.kind then s.xid else f.xid }],
           xid := if ownXid f.kind then s.xid + 1 else s.xid, links := cross s.links r }

/-- TYPE of a flit's header (R393). -/
def flitType : FlitKind → Byte
  | .write => 1 | .readRequest => 2 | .readResponse => 3 | .signal => 4 | .waitRegistration => 5 | .waitRelease => 6
  | .commitAck => 7 | .creditReturn => 8 | .refusal => 9

/-- ADDR of a flit's header (R393). An answer goes to the node that asked: R393 gives it no place there, and it carries that node with
the local offset that it answers for (DESIGN CHOICE, log entry 88). -/
def flitAddr (f : Flit) : Nat := if isRequest f.kind then f.addr.toNat else f.dst.val * 2 ^ 48 + addrLocal f.addr

/-- Bytes [13:0] of a flit's header on the pass direction of its route with a number (R393): ADDR, source and partition, TYPE, SEQ, LEN,
XID. -/
def flitHead (f : Flit) (hop : Nat) : List Byte :=
  natLe 7 (flitAddr f) ++
  [BitVec.ofNat 8 (f.src.val + 16 * f.part.toNat), flitType f.kind, (f.seqs[hop]?).getD 0, BitVec.ofNat 8 f.payload.length, 0] ++
  natLe 2 f.xid.toNat

/-- The 16 bytes of the header with their CRC (R393). -/
def flitHeader (f : Flit) (hop : Nat) : List Byte :=
  flitHead f hop ++ natLe 2 (Config.crc16 (flitHead f hop ++ f.payload)).toNat

/-- An add that no SIGNAL waits for is not sent as a core's SIGNAL is. -/
def arrivalOrigin (ack : Bool) : Origin → Origin
  | .core k => if ack then .core k else .arrival k
  | o => o

/-- Issue an add to an object (R366, R367, R393): at once in flight at its own node, or as a signal flit to another. -/
def issueAdd (s : State) (src : NodeId) (o : ObjId) (addend : Word32) (from' : Origin) (ack : Bool) (p : Nat) : State :=
  if src = o.node then
    { s with adds := s.adds ++ [{ obj := o, addend := addend, src := arrivalOrigin ack from', ack := ack, part := p, xid := 0 }] }
  else send s { src := src, dst := o.node, part := BitVec.ofNat 4 p, kind := .signal, addr := objAddr o,
                payload := natLe 4 addend.toNat, origin := arrivalOrigin ack from', xid := 0, seqs := [] }

/-! ## Issue and completion of sequencer instructions -/

/-- Work of a class that a core has issued and that has not completed (R300, R311). -/
def classBusy (c : Core) (cls : Nat) : Bool :=
  match cls with
  | 0 => !c.ag.queue.isEmpty || c.ag.running.isSome || !c.ag.tail.isEmpty
  | 1 => !c.sp.queue.isEmpty || c.sp.running.isSome || !c.sp.tail.isEmpty
  | 2 => !c.port.isEmpty || c.active.isSome
  | 3 => c.fines != 0
  | _ => c.copies != 0

/-- Whether any class of a mask is busy. -/
def maskBusy (c : Core) (mask : BitVec 5) : Bool :=
  (List.range 5).any (fun i => mask.getLsbD i && classBusy c i)

/-- Lines of records that core k sent and that have not committed (R183, R368). -/
def linesOut (s : State) (k : CoreId) : Bool :=
  let mine (f : Flit) : Bool := f.kind == .write && f.origin == .core k
  s.tiles[k.tile].outbox.any mine || s.fabric.any mine

/-- Whether a set of the core's array group or sparse engine is held (R303, R315). -/
def anyHeld (c : Core) : Bool := c.ag.setX.held || c.ag.setY.held || c.sp.setX.held || c.sp.setY.held

/-- A core can issue: its step runs, its tile is awake, it is issuing or stalled on a full queue (R309, R325). -/
def canIssue (s : State) (k : CoreId) : Bool :=
  let c := getCore s k
  powered s && tileAwake s k.tile && (c.seq.state == .issuing || c.seq.state == .stalled) && c.blocked == .none

/-- Issue one instruction that completes at once and goes on at pc (R309, R327). -/
def retireAt (c : Core) (pc : BitVec 13) : Core :=
  { c with seq := { c.seq with pc := pc, state := .issuing, issued := c.seq.issued + 1 } }

/-- Issue one instruction and go on at the next. -/
def retire (c : Core) : Core := retireAt c (c.seq.pc + 1)

/-- Issue an instruction that blocks (R313): it is counted, and the pc stays at it until it completes. -/
def block (c : Core) (b : Blocked) (st : SeqState) : Core :=
  { c with blocked := b, seq := { c.seq with state := st, issued := c.seq.issued + 1 } }

/-- A blocking instruction completes: the next one may issue. -/
def unblock (c : Core) : Core :=
  { c with blocked := .none, seq := { c.seq with pc := c.seq.pc + 1, state := .issuing } }

/-- BLOCK_HC grows by the hc that core k was blocked, a time the model leaves free (R328, log entry 10). -/
def countBlocked (s : State) (k : CoreId) : State :=
  let (v, s) := drawFree s
  updCore s k (fun c => { c with seq := { c.seq with blockHc := satAdd c.seq.blockHc v.toNat } })

/-- A blocking instruction of core k completes. -/
def unblockCore (s : State) (k : CoreId) : State := updCore (countBlocked s k) k unblock

/-- Issue stalls on a full queue (R310, R347): nothing issues, QUEUE_HC grows by a time left free (R328). -/
def stall (s : State) (k : CoreId) : State :=
  let (v, s) := drawFree s
  updCore s k (fun c => { c with seq := { c.seq with state := .stalled, queueHc := satAdd c.seq.queueHc v.toNat } })

/-- Set a range of tags (R248). -/
def setTags (c : Core) (first count : Nat) (full : Bool) : Core :=
  (List.range count).foldl (fun c i => setTag c (first + i) full) c

/-- Let core k go on when what it is blocked on has come (R313, R315): a FENCE whose classes are done, a SIGNAL whose mask
is satisfied and whose add can now be sent, a TAG after class DR, a MERIDIAN after everything. -/
def settle (s : State) (k : CoreId) : State :=
  let c := getCore s k
  if c.seq.state == .faulted then s else
  match c.blocked with
  | .none => s
  | .fence m => if maskBusy c m then s else unblockCore s k
  | .signal m a v sent =>
    if sent || maskBusy c m || (m.getLsbD 2 && linesOut s k) then s else
    match objAt a with
    | none => s
    | some o =>
      issueAdd (updCore s k (fun c => { c with blocked := .signal m a v true })) (tileNode k.tile) o v (.core k) true
        (partNumber s k.tile)
  | .tag f n full =>
    if classBusy c 2 then s else unblockCore (updCore s k (fun c => setTags c f.toNat n full)) k
  | .wait _ _ _ _ => s
  | .meridian =>
    if maskBusy c 31 then s
    else updCore s k (fun c => { c with blocked := .none, reported := true, seq := { c.seq with state := .idle } })

end Sys2Proof.Machine
end

