-- ==== Sys2Proof/Machine/Numbers.lean ====
section
/-! DEFINITION. Exact numbers m × 2^e, and the formats of R49: conversion and rounding (R50 to R56), reading (R126, R127),
clip shares (R57), the stream generator F (R380). -/

namespace Sys2Proof.Machine

/-- The exact number m × 2^e. -/
structure Exact where
  m : Int
  e : Int
  deriving DecidableEq, Repr

/-- x × 2^d for any d: exact to the left, toward minus infinity to the right. -/
def shiftInt (x d : Int) : Int := if 0 ≤ d then x * 2 ^ d.toNat else x / 2 ^ (-d).toNat

def dyAdd (x y : Exact) : Exact :=
  let e := min x.e y.e
  { m := shiftInt x.m (x.e - e) + shiftInt y.m (y.e - e), e := e }

def dyMul (x y : Exact) : Exact := { m := x.m * y.m, e := x.e + y.e }

def dyAbs (x : Exact) : Exact := { m := x.m.natAbs, e := x.e }
def dyZero : Exact := { m := 0, e := 0 }

/-- x ≤ y as numbers. -/
def dyLe (x y : Exact) : Bool :=
  let e := min x.e y.e
  decide (shiftInt x.m (x.e - e) ≤ shiftInt y.m (y.e - e))

/-- ⌊log2 |x|⌋ of a non-zero number. -/
def dyLog2 (x : Exact) : Int := (Nat.log2 x.m.natAbs : Int) + x.e

/-- x / y of non-zero numbers, cut after at least 64 quotient bits with a sticky last bit: it rounds to any format of at most 60
bits as the exact quotient does (R189). -/
def dyDiv (x y : Exact) : Exact :=
  let k := 64 + Nat.log2 y.m.natAbs
  let n := x.m.natAbs * 2 ^ k
  let q := n / y.m.natAbs * 2 + (if n % y.m.natAbs = 0 then 0 else 1)
  { m := if decide (x.m < 0) == decide (y.m < 0) then (q : Int) else -(q : Int), e := x.e - y.e - k - 1 }

/-- ⌊√n⌋ from its bits, the highest first. -/
def sqrtBits (n : Nat) : Nat → Nat → Nat
  | 0, r => r
  | i + 1, r => sqrtBits n i (if (r + 2 ^ i) * (r + 2 ^ i) ≤ n then r + 2 ^ i else r)
def natSqrt (n : Nat) : Nat := sqrtBits n (Nat.log2 n / 2 + 1) 0

/-- √x of a positive number, cut after at least 64 bits with a sticky last bit (R189). -/
def dySqrt (x : Exact) : Exact :=
  let odd : Nat := if x.e % 2 = 0 then 0 else 1
  let n := x.m.natAbs * 2 ^ (128 + odd)
  let r := natSqrt n
  { m := 2 * r + (if r * r = n then 0 else 1), e := (x.e - odd) / 2 - 64 - 1 }

/-- The quotient n / 2^k rounded to nearest, ties to even (R51). -/
def rneShift (n : Int) (k : Nat) : Int :=
  let q := n / 2 ^ k
  let r := n % 2 ^ k
  if 2 * r < 2 ^ k then q else if 2 ^ k < 2 * r then q + 1 else if q % 2 = 0 then q else q + 1

/-- x in units of 2^q, rounded to nearest with ties to even. -/
def rneAt (x : Exact) (q : Int) : Int :=
  if q ≤ x.e then shiftInt x.m (x.e - q) else rneShift x.m (q - x.e).toNat

/-- x in units of 2^q, rounded stochastically with the 16-bit r (R54). -/
def stochAt (x : Exact) (q : Int) (r : Nat) : Int :=
  if q ≤ x.e then shiftInt x.m (x.e - q) else
  let k := (q - x.e).toNat
  let lo := x.m / 2 ^ k
  let rest := x.m % 2 ^ k
  if rest = 0 then lo
  else if 2 ^ 16 ≤ rest * 2 ^ 16 / 2 ^ k + r then lo + 1 else lo

/-- Rounding of an output: to nearest even, or stochastic with its r (R60 ORND). -/
inductive Rounding
  | rne
  | stoch (r : Nat)
  deriving DecidableEq, Repr

def roundAt (x : Exact) (q : Int) : Rounding → Int
  | .rne => rneAt x q
  | .stoch r => stochAt x q r

/-- A converted output: its code and whether it is an output clip (R50, R52). -/
structure Conv where
  code : Nat
  clip : Bool
  deriving DecidableEq, Repr

/-- A binary floating format with an 8-bit exponent, bias 127 and p fraction bits: BF16 for 7, FP32 for 23 (R49 to R51). -/
def toFloat (p : Nat) (x : Exact) (rd : Rounding) : Conv :=
  if x.m = 0 then { code := 0, clip := false } else
  let sgn := if x.m < 0 then 2 ^ (p + 8) else 0
  let q := max (dyLog2 x - p) (-126 - (p : Int))
  let n := (roundAt x q rd).natAbs
  let (n, q) := if n = 2 ^ (p + 1) then (2 ^ p, q + 1) else (n, q)
  if n < 2 ^ p then { code := sgn + n, clip := false }
  else
    let ef := q + p + 127
    if 254 < ef then { code := sgn + (254 * 2 ^ p + (2 ^ p - 1)), clip := true }
    else { code := sgn + ef.toNat * 2 ^ p + (n - 2 ^ p), clip := false }

/-- An INT output of b bits with exponent oexp (R49, R50). -/
def toInt (b : Nat) (oexp : Int) (x : Exact) (rd : Rounding) : Conv :=
  let n := roundAt x oexp rd
  let top : Int := 2 ^ (b - 1) - 1
  if top < n then { code := top.toNat, clip := true }
  else if n < -top then { code := ((2 : Int) ^ b - top).toNat, clip := true }
  else { code := (n % 2 ^ b).toNat, clip := false }

/-- The zero code of LNS20 (R49). -/
def lnsZero : Lns := 0x40000

/-- An LNS20 code from a sign and an L already in range. -/
def lnsCode (neg : Bool) (l : Int) : Lns :=
  BitVec.ofNat 20 ((if neg then 2 ^ 19 else 0) + (l % 2 ^ 19).toNat)

/-- 2,048 × log2 n rounded to nearest, for n > 0: ⌊4,096 × log2 n⌋ is ⌊log2 (n^4,096)⌋ (R52). -/
def log2Fine (n : Nat) : Nat := (Nat.log2 (n ^ 4096) + 1) / 2

/-- LNS20 conversion (R52). -/
def toLns (x : Exact) : Conv :=
  if x.m = 0 then { code := lnsZero.toNat, clip := false } else
  let l : Int := 2048 * x.e + log2Fine x.m.natAbs
  if 262143 < l then { code := (lnsCode (decide (x.m < 0)) 262143).toNat, clip := true }
  else if l < -262143 then { code := lnsZero.toNat, clip := true }
  else { code := (lnsCode (decide (x.m < 0)) l).toNat, clip := false }

/-- Output formats OFMT of R60. -/
inductive OutFmt | int4 | int8 | int16 | bf16 | fp32 | lns20
  deriving DecidableEq, Repr

def outFmtOf (n : Nat) : OutFmt :=
  match n with
  | 0 => .int4 | 1 => .int8 | 2 => .int16 | 3 => .bf16 | 4 => .fp32 | _ => .lns20

/-- CONVERT of R125. -/
def convert (f : OutFmt) (oexp : Int) (x : Exact) (rd : Rounding) : Conv :=
  match f with
  | .int4 => toInt 4 oexp x rd
  | .int8 => toInt 8 oexp x rd
  | .int16 => toInt 16 oexp x rd
  | .bf16 => toFloat 7 x rd
  | .fp32 => toFloat 23 x rd
  | .lns20 => toLns x

/-- A binary floating code read as a number; an infinity is the largest finite value with its sign and a NaN is +0, and
both are marked (R127). -/
def ofFloat (p : Nat) (code : Nat) : Exact × Bool :=
  let neg := code / 2 ^ (p + 8) % 2 = 1
  let ef := code / 2 ^ p % 256
  let fr := code % 2 ^ p
  let sg (n : Nat) : Int := if neg then -(n : Int) else n
  if ef = 255 then
    if fr = 0 then ({ m := sg (2 ^ (p + 1) - 1), e := 127 - p }, true) else (dyZero, true)
  else if ef = 0 then ({ m := sg fr, e := -126 - p }, false)
  else ({ m := sg (2 ^ p + fr), e := (ef : Int) - 127 - p }, false)

/-- A signed code of b bits times 2^e. -/
def ofInt (b code : Nat) (e : Int) : Exact := { m := toSigned code b, e := e }

/-- L of an LNS20 code, in [18:0] as two's complement. -/
def lnsL (v : Lns) : Int := toSigned v.toNat 19

/-- Sign of an LNS20 code. -/
def lnsNeg (v : Lns) : Bool := v.getLsbD 19

/-- Both zero codes read as zero (R49, R53). -/
def lnsIsZero (v : Lns) : Bool := v == 0x40000 || v == 0xC0000

/-- Order of two converted values in top-k (R128): a value that a larger one exceeds has the smaller rank. -/
def rankOf (f : OutFmt) (code : Nat) : Int × Int :=
  match f with
  | .int4 => (0, toSigned code 4)
  | .int8 => (0, toSigned code 8)
  | .int16 => (0, toSigned code 16)
  | .bf16 => let n : Int := (code % 2 ^ 15 : Nat); (0, if code / 2 ^ 15 = 1 then -n else n)
  | .fp32 => let n : Int := (code % 2 ^ 31 : Nat); (0, if code / 2 ^ 31 % 2 = 1 then -n else n)
  | .lns20 =>
    let v := BitVec.ofNat 20 code
    if lnsIsZero v then (0, 0)
    else if lnsNeg v then (-1, -(lnsL v)) else (1, lnsL v)

/-- Strictly greater in the order of R128. -/
def rankGt (f : OutFmt) (x y : Nat) : Bool :=
  let a := rankOf f x
  let b := rankOf f y
  decide (b.1 < a.1) || (decide (a.1 = b.1) && decide (b.2 < a.2))

/-- Bytes of an element in a format, two nibbles to a byte for INT4 (R121). -/
def fmtBytes : OutFmt → Nat
  | .int4 => 1
  | .int8 => 1
  | .int16 => 2
  | .bf16 => 2
  | .fp32 => 4
  | .lns20 => 4

/-- The value field of a top-k entry: INT codes sign-extended, LNS20 in the low 20 bits (R129). -/
def entryValue (f : OutFmt) (code : Nat) : Nat :=
  let ext (w : Nat) : Nat := (toSigned code w % 2 ^ 32).toNat
  match f with
  | .int4 => ext 4
  | .int8 => ext 8
  | .int16 => ext 16
  | _ => code

/-- The code of a top-k entry's value field, as entryValue wrote it. -/
def entryCode (f : OutFmt) (v : Nat) : Nat :=
  match f with
  | .int4 => v % 2 ^ 4
  | .int8 => v % 2 ^ 8
  | .int16 => v % 2 ^ 16
  | .bf16 => v % 2 ^ 16
  | .fp32 => v
  | .lns20 => v % 2 ^ 20


/-! ## The stream generator F of R380 -/

def rotl32 (v : Word32) (n : Nat) : Word32 := v.rotateLeft n

/-- The round key of round j. -/
def rngRoundKey (key : Word64) (j : Nat) : Word32 :=
  (if j % 2 = 0 then key.setWidth 32 else (key >>> 32).setWidth 32) + BitVec.ofNat 32 (j * 0x9E3779B9)

/-- Z = F(S, i, C). -/
def rngF (seed : Word64) (stream : Nat) (ctr : Word64) : Word64 :=
  let key := seed ^^^ BitVec.ofNat 64 (stream * 0x9E3779B97F4A7C15)
  let r := (List.range 12).foldl (fun (xy : Word32 × Word32) j =>
    let x := (xy.1 + rotl32 xy.2 7) ^^^ rngRoundKey key j
    (x, rotl32 xy.2 13 ^^^ x)) ((ctr >>> 32).setWidth 32, ctr.setWidth 32)
  BitVec.ofNat 64 (r.1.toNat * 2 ^ 32 + r.2.toNat)

/-- The counter of an output element: invocation, row, column (R55). -/
def rngCounter (invoc row col : Nat) : Word64 :=
  BitVec.ofNat 64 (invoc % 2 ^ 24 * 2 ^ 40 + row % 2 ^ 22 * 2 ^ 18 + col % 2 ^ 18)

/-- r of R55: Z[15:0]. -/
def rngDraw (seed : Word64) (stream invoc row col : Nat) : Nat :=
  (rngF seed stream (rngCounter invoc row col)).toNat % 2 ^ 16

end Sys2Proof.Machine
end

