-- ==== Sys2Proof/Machine/Seq.lean ====
section
/-! DEFINITION. The sequencer's own instructions (R295 to R318): arithmetic, branches, BSEL, MERIDIAN, FENCE, SIGNAL, WAIT
and TAG. -/

namespace Sys2Proof.Machine

abbrev Out := Host.Outcome State Fault Refusal

/-- An instruction that computes sd from the registers and completes at once. -/
def seqCompute (k : CoreId) (rd : SReg) (f : Core → Word64) (s : State) : Out :=
  .next (if canIssue s k then updCore s k (fun c => retire (setSreg c rd (f c))) else s)

/-- An instruction that only chooses the next pc. -/
def seqGoto (k : CoreId) (f : Core → BitVec 13) (s : State) : Out :=
  .next (if canIssue s k then updCore s k (fun c => retireAt c (f c)) else s)

/-- sext(IMM) of R298. -/
def sext (imm : Word32) : Word64 := imm.signExtend 64

/-- A shift amount: (sb + IMM) mod 64 (R299). -/
def shiftAmount (c : Core) (rb : SReg) (imm : Word32) : Nat := (sreg c rb + sext imm).toNat % 64

/-- NOP (R299). -/
def execNop (k : CoreId) (s : State) : Out := seqGoto k (fun c => c.seq.pc + 1) s

/-- LI: sd ← sext(IMM). -/
def execLi (k : CoreId) (rd : SReg) (imm : Word32) (s : State) : Out := seqCompute k rd (fun _ => sext imm) s

/-- LIH: sd ← IMM × 2^32 + sd mod 2^32. -/
def execLih (k : CoreId) (rd : SReg) (imm : Word32) (s : State) : Out :=
  seqCompute k rd (fun c => (imm.setWidth 64 <<< 32) + ((sreg c rd).setWidth 32).setWidth 64) s

/-- ADD: sd ← sa + sb + sext(IMM). -/
def execAdd (k : CoreId) (rd ra rb : SReg) (imm : Word32) (s : State) : Out :=
  seqCompute k rd (fun c => sreg c ra + sreg c rb + sext imm) s

/-- SUB: sd ← sa − sb. -/
def execSub (k : CoreId) (rd ra rb : SReg) (s : State) : Out := seqCompute k rd (fun c => sreg c ra - sreg c rb) s

/-- MUL: sd ← the low 64 bits of sa × sb. -/
def execMul (k : CoreId) (rd ra rb : SReg) (s : State) : Out := seqCompute k rd (fun c => sreg c ra * sreg c rb) s

/-- DIVU: sd ← ⌊sa / sb⌋ unsigned, all ones when sb = 0. -/
def execDivu (k : CoreId) (rd ra rb : SReg) (s : State) : Out :=
  seqCompute k rd (fun c => if sreg c rb = 0 then BitVec.allOnes 64 else sreg c ra / sreg c rb) s

/-- AND. -/
def execAnd (k : CoreId) (rd ra rb : SReg) (s : State) : Out := seqCompute k rd (fun c => sreg c ra &&& sreg c rb) s

/-- OR. -/
def execOr (k : CoreId) (rd ra rb : SReg) (s : State) : Out := seqCompute k rd (fun c => sreg c ra ||| sreg c rb) s

/-- XOR. -/
def execXor (k : CoreId) (rd ra rb : SReg) (s : State) : Out := seqCompute k rd (fun c => sreg c ra ^^^ sreg c rb) s

/-- SHL: sd ← sa shifted left by (sb + IMM) mod 64. -/
def execShl (k : CoreId) (rd ra rb : SReg) (imm : Word32) (s : State) : Out :=
  seqCompute k rd (fun c => sreg c ra <<< shiftAmount c rb imm) s

/-- SHR: the logical right shift. -/
def execShr (k : CoreId) (rd ra rb : SReg) (imm : Word32) (s : State) : Out :=
  seqCompute k rd (fun c => sreg c ra >>> shiftAmount c rb imm) s

/-- SAR: the arithmetic right shift. -/
def execSar (k : CoreId) (rd ra rb : SReg) (imm : Word32) (s : State) : Out :=
  seqCompute k rd (fun c => (sreg c ra).sshiftRight (shiftAmount c rb imm)) s

/-- MIN: the signed minimum. -/
def execMin (k : CoreId) (rd ra rb : SReg) (s : State) : Out :=
  seqCompute k rd (fun c => if (sreg c ra).slt (sreg c rb) then sreg c ra else sreg c rb) s

/-- MAX: the signed maximum. -/
def execMax (k : CoreId) (rd ra rb : SReg) (s : State) : Out :=
  seqCompute k rd (fun c => if (sreg c ra).slt (sreg c rb) then sreg c rb else sreg c ra) s

/-- JMP: pc ← IMM; a target past the largest program is refused at load (R321). -/
def execJmp (k : CoreId) (imm : Word32) (s : State) : Out :=
  if targetOk imm then seqGoto k (fun _ => imm.setWidth 13) s else .refused .neverLoaded

/-- cond(sa, sb) of BR (R299). -/
def condHolds (cond : Cond) (a b : Word64) : Bool :=
  match cond with
  | .eq => a == b
  | .ne => a != b
  | .lt => a.slt b
  | .ge => !a.slt b
  | .ltu => a.ult b
  | .geu => !a.ult b

/-- BR: if cond(sa, sb) then pc ← IMM. -/
def execBr (k : CoreId) (cond : Cond) (ra rb : SReg) (imm : Word32) (s : State) : Out :=
  if targetOk imm then
    seqGoto k (fun c => if condHolds cond (sreg c ra) (sreg c rb) then imm.setWidth 13 else c.seq.pc + 1) s
  else .refused .neverLoaded

/-- LOOP: sd ← sd − 1; if sd ≠ 0 then pc ← IMM. The test reads sd after the write, so a LOOP on s0 falls through (log
entry 11). -/
def execLoop (k : CoreId) (rd : SReg) (imm : Word32) (s : State) : Out :=
  if targetOk imm then
    .next (if canIssue s k then updCore s k (fun c =>
      let c := setSreg c rd (sreg c rd - 1)
      retireAt c (if sreg c rd = 0 then c.seq.pc + 1 else imm.setWidth 13)) else s)
  else .refused .neverLoaded

/-- The value of a BSEL field (R318): share fields read 0 when the core holds no share of the operation. -/
def bselValue (r : StepRun) (k : CoreId) (f : BselField) (opidx : Nat) : Nat :=
  match findShape r opidx with
  | none => 0
  | some sh =>
    let share (g : Slice → Nat) : Nat := match findShare r k opidx with | none => 0 | some sl => g sl
    match f with
    | .bucket => sh.bucket
    | .mActual => sh.m
    | .nActual => sh.n
    | .kActual => sh.k
    | .shareRow0 => share (fun sl => sl.row0)
    | .shareRows => share (fun sl => sl.rows)
    | .shareM => share (fun sl => shareM sh sl)
    | .shareK0 => share (fun sl => sl.k0)
    | .shareK => share (fun sl => shareK sh sl)
    | .skip => if sh.skipped then 1 else 0

/-- BSEL: sd ← a field of the operation's shape and share (R318). -/
def execBsel (k : CoreId) (rd : SReg) (field : BselField) (op : OpIdx) (s : State) : Out :=
  match coreRun s k with
  | none => .next s
  | some (_, r) => seqCompute k rd (fun _ => BitVec.ofNat 64 (bselValue r k field op.toNat)) s

/-- MERIDIAN (R315): it completes once every issued instruction has; found with a set held, it faults the step. -/
def execMeridian (k : CoreId) (s : State) : Out :=
  .next (if canIssue s k then
    let c := getCore s k
    if anyHeld c then seqFault (updCore s k (fun c => { c with seq := { c.seq with issued := c.seq.issued + 1 } })) k 3
      stStepFault 0 c.seq.pc
    else settle (updCore s k (fun c => block c .meridian .inMeridian)) k
  else s)

/-- FENCE (R299, R313): waits for the classes of its mask. -/
def execFence (k : CoreId) (mask : BitVec 5) (s : State) : Out :=
  .next (if canIssue s k then settle (updCore s k (fun c => block c (.fence mask) .blocked)) k else s)

/-- SIGNAL (R299, R313, R366): the add of (sb + sext(IMM)) mod 2^32 goes out once the classes of the mask have completed, and
the SIGNAL completes at its commit. An address that is no object of the partition faults the step (R323). -/
def execSignal (k : CoreId) (ra rb : SReg) (mask : BitVec 5) (imm : Word32) (s : State) : Out :=
  match coreRun s k with
  | none => .next s
  | some (p, _) =>
    if canIssue s k then
      let c := getCore s k
      let a := (sreg c ra).setWidth 56
      match partObj s p a with
      | none => .next (seqFault (updCore s k (fun c => { c with seq := { c.seq with issued := c.seq.issued + 1 } })) k 1
          stStepFault 0 c.seq.pc)
      | some _ =>
        let v := (sreg c rb + sext imm).setWidth 32
        .next (settle (updCore s k (fun c => block c (.signal mask a v false) .blocked)) k)
    else .next s

/-- WAIT (R299, R314, R370): the wait goes to its object, where WAIT_REGISTER (own tile) or the registration flit registers
it. -/
def execWait (k : CoreId) (rd ra : SReg) (faultto : Bool) (s : State) : Out :=
  match coreRun s k with
  | none => .next s
  | some (p, _) =>
    if canIssue s k then
      let c := getCore s k
      let a := (sreg c ra).setWidth 56
      match partObj s p a with
      | none => .next (seqFault (updCore s k (fun c => { c with seq := { c.seq with issued := c.seq.issued + 1 } })) k 1
          stStepFault 0 c.seq.pc)
      | some o =>
        let s := updCore s k (fun c => block c (.wait rd a faultto false) .blocked)
        .next (if o.node = tileNode k.tile then s
          else send s { src := tileNode k.tile, dst := o.node, part := BitVec.ofNat 4 p.val, kind := .waitRegistration,
                        addr := a, payload := [], origin := .core k, xid := 0, seqs := [] })
    else .next s

/-- TAG (R248, R299): a range of slots turns FULL or EMPTY once class DR is done; a range outside slots 0 to 4,095 faults. -/
def execTag (k : CoreId) (ra rb : SReg) (full : Bool) (imm : Word32) (s : State) : Out :=
  .next (if canIssue s k then
    let c := getCore s k
    let first := (sreg c ra + sext imm).toInt
    let n := (sreg c rb).toNat
    if n ≠ 0 ∧ (first < 0 ∨ 4096 < first + n) then
      seqFault (updCore s k (fun c => { c with seq := { c.seq with issued := c.seq.issued + 1 } })) k 0 stStepFault 0 c.seq.pc
    else settle (updCore s k (fun c => block c (.tag first n full) .blocked)) k
  else s)

end Sys2Proof.Machine
end

