-- ==== Sys2Proof/Machine/Sync.lean ====
section
/-! DEFINITION. Synchronisation objects (R360 to R375): adds, waits, releases, expiries. -/

namespace Sys2Proof.Machine

/-- The core and instruction on whose behalf a sender acts. -/
def originCore (s : State) : Origin → Option (CoreId × BitVec 13)
  | .core k => some (k, (getCore s k).seq.pc)
  | .arrival k => some (k, (getCore s k).seq.pc)
  | .engine _ _ i => i
  | .firmware => none

/-- The core that sends, by its sequencer or its drain (R367). -/
def sourceCore : Origin → Option CoreId
  | .core k => some k
  | .arrival k => some k
  | _ => none

/-- Two adds of one source (R367). -/
def sameSource (x y : Origin) : Bool :=
  match x, y with
  | .engine a _ _, .engine b _ _ => a == b
  | _, _ => (sourceCore x).isSome && sourceCore x == sourceCore y

/-- A fault recorded in SYN_FAULT of the object's tile (R365, R370, R387), which faults the step of the sender. -/
def synFault (s : State) (o : ObjId) (bit : Nat) (who : Origin) : State :=
  match originCore s who with
  | none => s
  | some (k, pc) =>
    if aborting s k then s else
    let s := match nodeTile o.node with
      | none => s
      | some t => updTile s t (fun x =>
          let w := (x.syn.fault &&& 0x3) ||| BitVec.ofNat 32 (2 ^ bit + o.num % 512 * 2 ^ 16)
          { x with syn := { x.syn with fault := w } })
    raiseCore s k stStepFault 0 pc

/-- Counters of a node's objects: adds committed, adds that wrapped, releases with count, releases with timeout (R384, R385);
for the hub's objects also in the aggregate of their owner. -/
def countSync (s : State) (o : ObjId) (adds wraps rel tout : Nat) : State :=
  match nodeTile o.node with
  | none =>
    let p := match s.hub.objs[o.num]? with | some x => x.owner.toNat | none => 15
    let s := updHub s (fun h => { h with synAdds := satAdd h.synAdds adds, synReleases := satAdd h.synReleases rel })
    updCounts s p (fun y => { y with adds := satAdd y.adds adds, releases := satAdd y.releases rel })
  | some t => updTile s t (fun x => { x with syn := { x.syn with
      adds := satAdd x.syn.adds adds, releases := satAdd x.syn.releases rel,
      timeouts := satAdd x.syn.timeouts tout, wraps := satAdd x.syn.wraps wraps } })

/-- The waiters a node keeps, in registration order. -/
def nodeWaiters (s : State) (n : NodeId) : List Waiter :=
  match nodeTile n with
  | none => s.hub.waiters
  | some t => s.tiles[t].waiters

def setNodeWaiters (s : State) (n : NodeId) (ws : List Waiter) : State :=
  match nodeTile n with
  | none => updHub s (fun h => { h with waiters := ws })
  | some t => updTile s t (fun x => { x with waiters := ws })

/-- The wait of core k has its outcome (R314, R374): sd takes 0 for count and 1 for timeout, or a timeout faults the step
with FAULTTO; the hc spent blocked count in either case (R328). -/
def completeWait (s : State) (k : CoreId) (timedOut : Bool) : State :=
  let c := getCore s k
  match c.blocked with
  | .wait rd _ faultto _ =>
    if timedOut && faultto then
      seqFault (countBlocked (updCore s k (fun c => { c with blocked := .none })) k) k 5 stSyncTimeout 0 c.seq.pc
    else unblockCore (updCore s k (fun c => setSreg c rd (if timedOut then 1 else 0))) k
  | _ => s

/-- The node and core of a REMOTE entry (R362). -/
def remoteNode (e : BitVec 16) : Nat := e.toNat / 2 ^ 10 % 16
def remoteCore (e : BitVec 16) : Nat := e.toNat % 64

/-- The entry of a remote waiter (R362). -/
def remoteEntry (n : NodeId) (c : Fin 64) : BitVec 16 := BitVec.ofNat 16 (2 ^ 15 + n.val * 2 ^ 10 + c.val)

/-- Tell a remote core its outcome with a wait-release flit (R374, R393). -/
def sendRelease (s : State) (o : ObjId) (e : BitVec 16) (timedOut : Bool) : State :=
  if h : 0 < remoteNode e ∧ remoteNode e < 13 then
    let t : TileId := ⟨remoteNode e - 1, by omega⟩
    let c : Fin 64 := ⟨remoteCore e, Nat.mod_lt _ (by decide)⟩
    send s { src := o.node, dst := tileNode t,
             part := BitVec.ofNat 4 (partNumber s t), kind := .waitRelease,
             addr := objAddr o, payload := [if timedOut then 1 else 0], origin := .core ⟨t, c⟩, xid := 0, seqs := [] }
  else s

/-- Release one waiter of an object with its outcome (R364, R371, R374): its entry is cleared, STATUS.LAST and STAMP are
set, its core is told. -/
def releaseWaiter (s : State) (o : ObjId) (w : WaiterId) (timedOut : Bool) : State :=
  match getObj s o with
  | none => s
  | some x =>
    let s := setNodeWaiters s o.node ((nodeWaiters s o.node).filter (fun y => !(y.obj == o.num && y.who == w)))
    let s := countSync s o 0 0 (if timedOut then 0 else 1) (if timedOut then 1 else 0)
    let x := { x with last := timedOut, stamp := s.now }
    match w with
    | .localCore c =>
      let s := setObj s o { x with localWaiters := x.localWaiters &&& ~~~(BitVec.ofNat 64 (2 ^ c.val)) }
      match nodeTile o.node with
      | none => s
      | some t => completeWait s ⟨t, c⟩ timedOut
    | .remote i =>
      let s := setObj s o { x with remote := x.remote.set i 0 }
      sendRelease s o x.remote[i] timedOut

/-- A wait is satisfied when COUNT ≥ TARGET (R364). -/
def satisfied (x : SyncObj) : Bool := x.target.ule x.count

/-- Release what an add satisfied, in registration order (R364, R372): every waiter under LEVEL and STEP; under TAKE one
after another, each taking TARGET from COUNT, while the wait stays satisfied. -/
def releaseAll (o : ObjId) : List WaiterId → State → State
  | [], s => s
  | w :: ws, s =>
    match getObj s o with
    | none => s
    | some x =>
      if satisfied x then
        let s := if x.mode == .take then setObj s o { x with count := x.count - x.target } else s
        releaseAll o ws (releaseWaiter s o w false)
      else s

/-- Commit an add at its object (R365, R366, R373, R384, R385). -/
def commitAdd (s : State) (a : PendingAdd) : State :=
  match getObj s a.obj with
  | none => s
  | some x =>
    if x.mode == .idle then synFault s a.obj 0 a.src else
    let sum : Int := x.count.toNat + a.addend.toInt
    let wraps := decide (sum < 0 ∨ 2 ^ 32 ≤ sum)
    let s := setObj s a.obj { x with count := x.count + a.addend, wrap := x.wrap || wraps, stamp := s.now }
    let s := countSync s a.obj 1 (if wraps then 1 else 0) 0 0
    let s := releaseAll a.obj (((nodeWaiters s a.obj.node).filter (fun w => w.obj == a.obj.num)).map (fun w => w.who)) s
    if a.ack then
      match a.src with
      | .core k =>
        if tileNode k.tile = a.obj.node then
          match (getCore s k).blocked with
          | .signal _ _ _ true => unblockCore s k
          | _ => s
        else send s { src := a.obj.node, dst := tileNode k.tile, part := BitVec.ofNat 4 a.part, kind := .commitAck,
                      addr := objAddr a.obj, payload := [], origin := .core k, xid := a.xid, seqs := [] }
      | _ => s
    else s

/-- Register a wait at its object (R370, R371): released at once when satisfied, else recorded with its deadline. -/
def registerWait (s : State) (o : ObjId) (k : CoreId) : State :=
  match getObj s o with
  | none => s
  | some x =>
    if x.mode == .idle then synFault s o 0 (.core k) else
    let isLocal := decide (tileNode k.tile = o.node)
    if satisfied x then
      let x := { x with last := false, stamp := s.now, count := if x.mode == .take then x.count - x.target else x.count }
      let s := countSync (setObj s o x) o 0 0 1 0
      if isLocal then completeWait s k false else sendRelease s o (remoteEntry (tileNode k.tile) k.core) false
    else
      let deadline := if x.timeout = 0 then none else some (s.now + BitVec.ofNat 64 (256 * x.timeout.toNat))
      let add (w : WaiterId) (s : State) : State :=
        setNodeWaiters s o.node (nodeWaiters s o.node ++ [{ obj := o.num, who := w, deadline := deadline, since := s.now }])
      if isLocal then
        add (.localCore k.core) (setObj s o { x with localWaiters := x.localWaiters ||| BitVec.ofNat 64 (2 ^ k.core.val) })
      else
        match (List.finRange 8).find? (fun i => !(x.remote[i]).getLsbD 15) with
        | none => synFault s o 1 (.core k)
        | some i => add (.remote i) (setObj s o { x with remote := x.remote.set i (remoteEntry (tileNode k.tile) k.core) })

/-- The adds in flight to an object, with their places in the list of all. -/
def objAdds (s : State) (o : ObjId) : List (Nat × PendingAdd) :=
  ((List.range s.adds.length).zip s.adds).filter (fun x => x.2.obj == o)

/-- OBJECT_ADD_COMMIT (R366 to R374): the i-th add in flight to an object commits. Adds of one source keep their order. -/
def execObjectAddCommit (o : ObjId) (i : Nat) (s : State) : Out :=
  match (objAdds s o)[i]? with
  | none => .next s
  | some (j, a) =>
    if ((objAdds s o).take i).any (fun x => sameSource x.2.src a.src) then .next s
    else .next (commitAdd { s with adds := s.adds.eraseIdx j } a)

/-- WAIT_REGISTER (R370): a WAIT on an object of the core's own tile reaches the object. -/
def execWaitRegister (k : CoreId) (s : State) : Out :=
  match (getCore s k).blocked with
  | .wait rd a f false =>
    match objAt a with
    | none => .next s
    | some o =>
      if o.node = tileNode k.tile then
        .next (registerWait (updCore s k (fun c => { c with blocked := .wait rd a f true })) o k)
      else .next s
  | _ => .next s

/-- WAIT_EXPIRY (R371, R373, R374): a waiter whose deadline has come is released with outcome timeout. -/
def execWaitExpiry (o : ObjId) (w : WaiterId) (s : State) : Out :=
  match (nodeWaiters s o.node).find? (fun y => y.obj == o.num && y.who == w) with
  | none => .next s
  | some y =>
    match y.deadline with
    | none => .next s
    | some d => .next (if d.ule s.now then releaseWaiter s o w true else s)

end Sys2Proof.Machine
end

