-- ==== Sys2Proof/Machine/Copy.lean ====
section
/-! DEFINITION. Copy engines (R332 to R359): the descriptor and its checks, the bytes each kind moves, hand-over, the four
working places, tags, credits and remote reads, completion. -/

namespace Sys2Proof.Machine

/-! ## Places of a fabric address (R332, R402, R423) -/

/-- Where a copy engine's address lies. -/
inductive Place
  | plain (k : CoreId) (off : Nat)
  | hbm (t : TileId) (off : Nat)
  | fine (t : TileId) (off : Nat)
  | lpddr (off : Nat)
  | host (off : Nat)
  deriving DecidableEq, Repr

def tileOfNode (n : Nat) : Option TileId := if h : 1 ≤ n ∧ n ≤ 12 then some ⟨n - 1, by omega⟩ else none

/-- The place at an address; none where nothing a copy may touch lies (R402, R423, R424). -/
def placeOf (a : Nat) : Option Place :=
  let node := a / 2 ^ 48
  let o := a % 2 ^ 48
  if node = 0xF0 then some (.host o)
  else if node = 0 then (if o < 0xBA00000000 then some (.lpddr o) else none)
  else match tileOfNode node with
    | none => none
    | some t =>
      if o < 0x5D0000000 then some (.hbm t o)
      else if 0x100000000000 ≤ o ∧ o < 0x100010000000 then
        let x := o - 0x100000000000
        some (.plain ⟨t, ⟨x / plainSize % 64, Nat.mod_lt _ (by decide)⟩⟩ (x % plainSize))
      else if 0x100010000000 ≤ o ∧ o < 0x100010200000 then some (.fine t (o - 0x100010000000))
      else none

/-- The fabric address of a plain offset. -/
def plainAddr (k : CoreId) (off : Nat) : Nat :=
  (k.tile.val + 1) * 2 ^ 48 + 0x100000000000 + k.core.val * plainSize + off

/-- The node that holds a place; host memory is reached from the hub. -/
def placeNode : Place → NodeId
  | .plain k _ => tileNode k.tile
  | .hbm t _ => tileNode t
  | .fine t _ => tileNode t
  | .lpddr _ => 0
  | .host _ => 0

/-- The node of a copy engine. -/
def engineNode : EngineId → NodeId
  | .tile t _ => tileNode t
  | .hub _ => 0

/-- The tile of a tile engine. -/
def engineTile : EngineId → Option TileId
  | .tile t _ => some t
  | .hub _ => none

def getEngine (s : State) : EngineId → CopyEngine
  | .tile t e => s.tiles[t].engines[e]
  | .hub e => s.hub.engines[e]

def updEngine (s : State) (e : EngineId) (f : CopyEngine → CopyEngine) : State :=
  match e with
  | .tile t i => updTile s t (fun x => { x with engines := x.engines.set i (f x.engines[i]) })
  | .hub i => updHub s (fun h => { h with engines := h.engines.set i (f h.engines[i]) })

/-! ## Fields of a descriptor (R335, R336, R339) -/

def dKind (d : List Byte) : Nat := fieldAt d 0 1
def dChain (d : List Byte) : Bool := fieldAt d 1 1 % 2 = 1
def dOrder (d : List Byte) : Bool := fieldAt d 1 1 / 2 % 2 = 1
def dNotifyAddr (d : List Byte) : BitVec 56 := BitVec.ofNat 56 (fieldAt d 56 7)
def dNotifyN (d : List Byte) : Nat := fieldAt d 63 1
def dSrc (d : List Byte) : Nat := fieldAt d 8 8
def dDst (d : List Byte) : Nat := fieldAt d 16 8
def dLen0 (d : List Byte) : Nat := fieldAt d 4 4
def dCount (d : List Byte) (i : Nat) : Nat := fieldAt d (22 + 2 * i) 2
def dSrcStride (d : List Byte) (i : Nat) : Int := toSigned (fieldAt d (28 + 4 * i) 4) 32
def dDstStride (d : List Byte) (i : Nat) : Int := toSigned (fieldAt d (40 + 4 * i) 4) 32
def dEsize (d : List Byte) : Nat := fieldAt d 2 1
def dCb (d : List Byte) : Nat := fieldAt d 2 1
def dP (d : List Byte) : Nat := fieldAt d 3 1
def dK (d : List Byte) : Nat := fieldAt d 4 3
def dSide (d : List Byte) : Nat := fieldAt d 7 1
def dSkind (d : List Byte) : Nat := dSide d % 4
def dZp (d : List Byte) : Bool := dSide d / 4 % 2 = 1
def dGsize (d : List Byte) : Nat := dSide d / 8 % 4
def dSideDst (d : List Byte) : Nat := fieldAt d 24 8
def dEsrc (d : List Byte) : Nat := fieldAt d 32 8
def dZoff (d : List Byte) : Nat := fieldAt d 40 4
def dCs (d : List Byte) : Nat := fieldAt d 44 4
def dNblk (d : List Byte) : Nat := fieldAt d 48 2
def dLastValid (d : List Byte) : Nat := fieldAt d 50 1
def dRb (d : List Byte) : Nat := fieldAt d 51 1
def dConstExp (d : List Byte) : Byte := BitVec.ofNat 8 (fieldAt d 52 1)
def dConstZp (d : List Byte) : Byte := BitVec.ofNat 8 (fieldAt d 53 1)

/-- g of a GSIZE code (R60). -/
def groupSize (code : Nat) : Nat := 32 * 2 ^ code

/-- An address moved by a signed number of bytes, within 56 bits. -/
def moveAddr (a : Nat) (d : Int) : Nat := (((a : Int) + d) % 2 ^ 56).toNat

/-- The (i3, i2, i1) of a strided kind, i3 outermost (R338). -/
def outerIndices (d : List Byte) : List (Nat × Nat × Nat) :=
  (List.range (dCount d 3)).flatMap (fun i3 => (List.range (dCount d 2)).flatMap (fun i2 =>
    (List.range (dCount d 1)).map (fun i1 => (i3, i2, i1))))

def runStart (base : Nat) (st : Nat → Int) (i : Nat × Nat × Nat) : Nat :=
  moveAddr base (st 1 * i.2.2 + st 2 * i.2.1 + st 3 * i.1)

/-- Element size of a TRANSPOSE in nibbles (R336). -/
def esizeNibbles (d : List Byte) : Nat := 2 ^ dEsize d

/-- Valid lanes of block j (R340). -/
def laneCount (d : List Byte) (j : Nat) : Nat := if j + 1 = dNblk d then dLastValid d else 32

/-- Scale groups G = ⌈K/g⌉ (R340). -/
def dGroups (d : List Byte) : Nat := ceilDiv (dK d) (groupSize (dGsize d))

/-- K4 = K_pad/4 (R340). -/
def dK4 (d : List Byte) : Nat := dGroups d * groupSize (dGsize d) / 4

/-- Address of the codes of lane r of block j. -/
def laneSrc (d : List Byte) (j r : Nat) : Nat := moveAddr (dSrc d) (((j * dRb d + r) * dCs d : Nat) : Int)

/-- Length L of a line of a stream of w-bit codes and p planes (R75, R76). -/
def lineLen (w p : Nat) : Nat := 16 * ceilDiv (4 * w * ceilDiv 32 p) 128

/-- All (block, lane) pairs of a layout descriptor. -/
def laneList (d : List Byte) : List (Nat × Nat) :=
  (List.range (dNblk d)).flatMap (fun j => (List.range (laneCount d j)).map (fun r => (j, r)))

/-! ## Source and destination extents -/

/-- The byte ranges a descriptor reads. -/
def sourceExtents (d : List Byte) (regionLen : Nat) : List (Nat × Nat) :=
  match dKind d with
  | 1 => if dLen0 d = 0 then [] else (outerIndices d).map (fun i => (runStart (dSrc d) (dSrcStride d) i, dLen0 d))
  | 3 => if dLen0 d = 0 then [] else
    (outerIndices d).map (fun i => (runStart (dSrc d) (dSrcStride d) i, ceilDiv (dLen0 d * esizeNibbles d) 2))
  | 4 | 5 =>
    if dK d = 0 then [] else
    let codes := (laneList d).map (fun x => (laneSrc d x.1 x.2, ceilDiv (dK d * dCb d) 8))
    let side (off : Nat) : List (Nat × Nat) :=
      match dSkind d with
      | 0 => (laneList d).map (fun x => (moveAddr (dEsrc d) (((x.1 * dRb d + x.2) * dGroups d + off : Nat) : Int), dGroups d))
      | 1 => (laneList d).map (fun x => (moveAddr (dEsrc d) ((x.1 * dRb d + x.2 + off : Nat) : Int), 1))
      | _ => []
    codes ++ side 0 ++ (if dZp d then side (dZoff d) else [])
  | 6 => [(dSrc d, regionLen)]
  | _ => []

/-- Lines of a DIAG: 0 to NBLK·K4·P − P + 31 (R341). -/
def diagLines (d : List Byte) : Nat := dNblk d * dK4 d * dP d - dP d + 32

/-- Length of the side array in bytes (R342). -/
def sideBytes (d : List Byte) : Nat := 64 * (if dSkind d = 1 then dNblk d else dNblk d * dGroups d)

/-- The span of the ring at a plain offset, or none: the run of consecutive CONSUME slots from the base to another mode or
the end of the bank (R344). -/
def ringSpanBy (mode : Nat → Nat) (off : Nat) : Option Nat :=
  if off % 1024 = 0 ∧ mode (off / 1024) = 1 then
    let slot := off / 1024
    let room := 512 - slot % 512
    some (1024 * (((List.range room).takeWhile (fun i => mode (slot + i) == 1)).length))
  else none

/-- The ring at an offset of a core's plain, by the tag modes in force. -/
def ringSpan (c : Core) (off : Nat) : Option Nat := ringSpanBy (tagModeOf c) off

/-- Place of line t of a stream at a base (R344). -/
def lineOffset (ring : Option Nat) (t len : Nat) : Nat :=
  match ring with
  | none => t * len
  | some span => if span = 0 then t * len else t * len % span

/-- The byte ranges a descriptor writes, with the ring that lies at an offset of a plain. -/
def destExtentsBy (ringAt : CoreId → Nat → Option Nat) (d : List Byte) (regionLen : Nat) : List (Nat × Nat) :=
  match dKind d with
  | 1 | 2 => if dLen0 d = 0 then [] else (outerIndices d).map (fun i => (runStart (dDst d) (dDstStride d) i, dLen0 d))
  | 3 =>
    if dCount d 1 = 0 then [] else
    (List.range (dCount d 3)).flatMap (fun i3 => (List.range (dCount d 2)).flatMap (fun i2 =>
      (List.range (dLen0 d)).map (fun i0 =>
        (runStart (dDst d) (dDstStride d) (i3, i2, i0), ceilDiv (dCount d 1 * esizeNibbles d) 2))))
  | 4 =>
    if dK d = 0 then [] else
    let len := lineLen (dCb d) (dP d)
    let ring := match placeOf (dDst d) with
      | some (.plain k off) => ringAt k off
      | _ => none
    let n := match ring with
      | none => diagLines d * len
      | some span => min span (ceilDiv (diagLines d * len) 1024 * 1024)
    [(dSideDst d, sideBytes d), (dDst d, n)]
  | 5 => if dK d = 0 then [] else [(dSideDst d, sideBytes d), (dDst d, dGroups d * groupSize (dGsize d) * 4 * dCb d)]
  | 6 => [(dDst d, regionLen)]
  | _ => []

/-- The byte ranges a descriptor writes. -/
def destExtents (s : State) (d : List Byte) (regionLen : Nat) : List (Nat × Nat) :=
  destExtentsBy (fun k off => ringSpan (getCore s k) off) d regionLen

/-! ## The checks of R350 -/

/-- The function mapped to a partition. -/
def partFunc (s : State) (p : PartId) : Option FuncId :=
  let f := s.parts[p].layout.function.toNat
  if h : f < 13 then some ⟨f, h⟩ else none

def partHasTile (s : State) (p : PartId) (t : TileId) : Bool := s.parts[p].layout.tiles.getLsbD t.val

/-- A Function Level Reset has discarded the command of the partition's running step: the step runs to its end, and what it writes to host
memory is discarded (R525). -/
def hostMuted (s : State) (p : PartId) : Bool := match s.parts[p].run with | some r => r.step.cmd.isNone | none => false

/-- An extent lies within one target that R332 allows the engine, and within the partition. -/
def extentAllowed (s : State) (e : EngineId) (p : PartId) (isWrite : Bool) (x : Nat × Nat) : Bool :=
  match placeOf x.1, placeOf (x.1 + x.2 - 1) with
  | some (.plain k off), some (.plain k' off') =>
    decide (k.tile = k'.tile) && decide (k.core.val * plainSize + off ≤ k'.core.val * plainSize + off') &&
    partHasTile s p k.tile &&
    (match e with | .hub _ => true | .tile t _ => decide (k.tile = t) || isWrite)
  | some (.hbm t _), some (.hbm t' _) => decide (t = t') && partHasTile s p t
  | some (.fine t _), some (.fine t' _) =>
    decide (t = t') && partHasTile s p t && (match e with | .hub _ => true | .tile u _ => decide (t = u))
  | some (.lpddr a), some (.lpddr b) =>
    let l := s.parts[p].layout
    decide (l.g0.toNat ≤ a / 2 ^ 30) && decide (b / 2 ^ 30 < l.g0.toNat + l.gcount.toNat)
  | some (.host _), some (.host b) =>
    match e, partFunc s p with
    | .hub _, some f => hostMuted s p || decide (b < s.funcs[f].hbLen.toNat)
    | _, _ => false
  | _, _ => false

/-- The remote-write windows of a partition's constellation (R283). -/
def partWindows (s : State) (p : PartId) : List Window :=
  match s.parts[p].const with
  | none => []
  | some c => c.windows

/-- A window that holds [a, a + n) and admits a node. -/
def windowAt (s : State) (p : PartId) (node : NodeId) (a n : Nat) : Option Window :=
  (partWindows s p).find? (fun w => decide (w.base ≤ a) && decide (a + n ≤ w.base + w.len) && w.sources.getLsbD node.val)

/-- The first field of a descriptor that R335 to R339 do not list, by its byte (R350 FORMAT, R358 BYTE). -/
def formatError (d : List Byte) : Option Nat :=
  let f := fieldAt d
  let common : List (Nat × Bool) := [(0, decide (1 ≤ dKind d ∧ dKind d ≤ 6)), (1, decide (f 1 1 < 4))]
  let strided : List (Nat × Bool) :=
    [(2, if dKind d = 3 then decide (f 2 1 ≤ 4) else f 2 1 == 0), (3, f 3 1 == 0),
     (4, if dKind d = 6 then dLen0 d == 0 else !(dKind d == 3 && dEsize d == 0 && dLen0 d % 2 == 1)),
     (8, dKind d == 2 || f 15 1 == 0), (16, f 23 1 == 0),
     (24, if dKind d = 6 then dCount d 1 == 1 else !(dKind d == 3 && dEsize d == 0 && dCount d 1 % 2 == 1)),
     (26, dKind d != 6 || dCount d 2 == 1), (28, dKind d != 6 || dCount d 3 == 1), (30, f 30 2 == 0)]
  let layout : List (Nat × Bool) :=
    [(2, decide (1 ≤ dCb d ∧ dCb d ≤ 16)), (3, if dKind d = 4 then decide (1 ≤ dP d ∧ dP d ≤ 9) else dP d == 0),
     (7, decide (dSkind d ≤ 2 ∧ dGsize d ≤ 2 ∧ dSide d < 32)), (8, f 15 1 == 0), (16, f 23 1 == 0), (24, f 31 1 == 0),
     (32, f 39 1 == 0), (48, if dKind d = 4 then decide (1 ≤ dNblk d) else dNblk d == 1), (50, decide (dLastValid d ≤ 32)),
     (51, dNblk d == 1 || decide (1 ≤ dRb d)), (54, f 54 2 == 0)]
  let own := if dKind d = 4 ∨ dKind d = 5 then layout else strided
  ((common ++ own).find? (fun x => !x.2)).map (fun x => x.1)

/-- The byte of the address field that a failing destination extent belongs to. -/
def destField (d : List Byte) (x : Nat × Nat) : Nat :=
  if (dKind d = 4 ∨ dKind d = 5) ∧ x.1 = dSideDst d then 24 else 16

/-- The byte of the address field that a failing source extent belongs to. -/
def sourceField (d : List Byte) (x : Nat × Nat) : Nat :=
  if (dKind d = 4 ∨ dKind d = 5) ∧ !((laneList d).any (fun y => laneSrc d y.1 y.2 == x.1)) then 32 else 8

/-- The lowest of some bytes: the first failing field of a descriptor (R358). -/
def firstByte (xs : List Nat) : Option Nat := if xs.isEmpty then none else some (xs.foldl min 64)

/-- RANGE of R350: sources, destinations, and the object of NOTIFY (R361). -/
def rangeError (s : State) (e : EngineId) (p : PartId) (d : List Byte) (regionLen : Nat) : Option Nat :=
  let src := ((sourceExtents d regionLen).filter (fun x => !extentAllowed s e p false x)).map (sourceField d)
  let dst := ((destExtents s d regionLen).filter (fun x => !extentAllowed s e p true x ||
    (match e, placeOf x.1, dKind d with
      | .tile t _, some (.plain k _), 4 => decide (k.tile ≠ t)
      | .tile t _, some (.plain k _), 5 => decide (k.tile ≠ t)
      | _, some (.plain _ _), _ => false
      | _, _, 4 => true
      | _, _, 5 => true
      | _, _, _ => false))).map (destField d)
  let side := if dKind d ∈ [4, 5] ∧ dSideDst d / 2 ^ 48 ≠ dDst d / 2 ^ 48 then [24] else []
  let notify := if dNotifyN d ≠ 0 ∧ (partObj s p (dNotifyAddr d)).isNone then [56] else []
  firstByte (src ++ dst ++ side ++ notify)

/-- Whether an address lies in another tile's plain, seen from a tile engine. -/
def remotePlain (e : EngineId) (a : Nat) : Bool :=
  match e, placeOf a with
  | .tile t _, some (.plain k _) => decide (k.tile ≠ t)
  | _, _ => false

/-- WINDOW of R350: each remote plain extent of a tile engine lies wholly within one data window that admits its node. -/
def windowError (s : State) (e : EngineId) (p : PartId) (d : List Byte) (regionLen : Nat) : Option Nat :=
  let ws := (partWindows s p).filter (fun w => w.kind == 1 && w.sources.getLsbD (engineNode e).val)
  if ((destExtents s d regionLen).filter (fun x => remotePlain e x.1)).all (fun x =>
      ws.any (fun w => decide (w.base ≤ x.1) && decide (x.1 + x.2 ≤ w.base + w.len))) then none
  else some 16

def isPlainAddr (a : Nat) : Bool := match placeOf a with | some (.plain _ _) => true | _ => false

/-- ALIGN of R350: plain addresses of DIAG and GATHER and the two of REGION are multiples of 64; a ring base is a multiple
of 1,024 and its span of L. -/
def alignError (s : State) (d : List Byte) : Option Nat :=
  let bad (a : Nat) : Bool := isPlainAddr a && a % 64 != 0
  match dKind d with
  | 6 => if dSrc d % 64 ≠ 0 then some 8 else if dDst d % 64 ≠ 0 then some 16 else none
  | 4 | 5 =>
    let ring := dKind d == 4 && (match placeOf (dDst d) with
      | some (.plain k off) => tagModeOf (getCore s k) (off / 1024) == 1 &&
        (match ringSpan (getCore s k) off with
          | none => true
          | some span => span % lineLen (dCb d) (dP d) != 0)
      | _ => false)
    firstByte ((if bad (dSrc d) then [8] else []) ++ (if bad (dDst d) || ring then [16] else []) ++
      (if bad (dSideDst d) then [24] else []) ++ (if dSkind d ≠ 2 ∧ bad (dEsrc d) then [32] else []))
  | _ => none

/-- The bit of CPY_FAULT and the failing byte of a descriptor, checked in the order of R350; none when it passes. A kind
that moves nothing (R349) has no extents to check. -/
def descError (s : State) (e : EngineId) (p : PartId) (d : List Byte) (regionLen : Nat) : Option (Nat × Nat) :=
  match formatError d with
  | some b => some (0, b)
  | none => match rangeError s e p d regionLen with
    | some b => some (1, b)
    | none => match windowError s e p d regionLen with
      | some b => some (2, b)
      | none => (alignError s d).map (fun b => (3, b))

/-! ## Bytes of memory by place -/

/-- The bus address of a host buffer offset (R508). -/
def hostBus (s : State) (f : FuncId) (o : Nat) : Nat := (s.funcs[f].hbBase.toNat + o) % 2 ^ 64

/-- n bytes at a place that holds no plain ports: HBM, fine store, LPDDR5X, host memory of the partition's function. -/
def tierRead (s : State) (p : PartId) (pl : Place) (n : Nat) : List Byte :=
  match pl with
  | .plain k o => memRead (getCore s k).plain o n
  | .hbm t o => memRead s.tiles[t].hbm o n
  | .fine t o => memRead s.tiles[t].fine.store o n
  | .lpddr o => memRead s.hub.lpddr o n
  | .host o => match partFunc s p with
    | none => List.replicate n 0
    | some f => if hostMuted s p then (List.range n).map (fun i => Config.goneHost (o + i)) else memRead s.hostMem (hostBus s f o) n

/-- Whole MiB in a count of bytes that is kept with its rest (R449). -/
def addMib (mib : Word32) (rest n : Nat) : Word32 × Nat := (satAdd mib ((rest + n) / 2 ^ 20), (rest + n) % 2 ^ 20)

/-- Count bytes of tier 1 read or written; an access ends self-refresh until the next meridian (R409, R449). -/
def countHbm (s : State) (t : TileId) (isWrite : Bool) (n : Nat) : State :=
  updTile s t (fun x =>
    let m := x.mem
    let m := if isWrite then
        let r := addMib m.writeMib m.writeRest n
        { m with writeMib := r.1, writeRest := r.2 }
      else
        let r := addMib m.readMib m.readRest n
        { m with readMib := r.1, readRest := r.2 }
    { x with mem := { m with accessed := true, state := if m.state = 1 then 0 else m.state }, pas := { x.pas with hbmSr := false } })

/-- Bytes put at a place. -/
def putBytes (s : State) (p : PartId) (pl : Place) (bs : List Byte) : State :=
  match pl with
  | .plain k o => updCore s k (fun c => { c with plain := memWrite c.plain o bs })
  | .hbm t o => updTile s t (fun x => { x with hbm := memWrite x.hbm o bs })
  | .fine t o => updTile s t (fun x => { x with fine := { x.fine with store := memWrite x.fine.store o bs } })
  | .lpddr o => updHub s (fun h => { h with lpddr := memWrite h.lpddr o bs })
  | .host o => match partFunc s p with
    | none => s
    | some f => if hostMuted s p then s else { s with hostMem := memWrite s.hostMem (hostBus s f o) bs }

/-- Write bytes at a place without plain ports. -/
def tierWrite (s : State) (p : PartId) (pl : Place) (bs : List Byte) : State :=
  match pl with
  | .hbm t _ => countHbm (putBytes s p pl bs) t true bs.length
  | _ => putBytes s p pl bs

/-- A tier-2 granule that start-up has not written yet makes an access wait (R432). -/
def granuleReady (s : State) (o : Nat) : Bool := decide (o / 2 ^ 30 < s.hub.initGranules.toNat)

/-! ## What a descriptor writes, given its source bytes -/

/-- A source byte from the lines received, by fabric address. -/
def gotByte (got : List (Nat × List Byte)) (a : Nat) : Byte :=
  match got.find? (fun x => x.1 == a / 64 * 64) with
  | none => 0
  | some x => (x.2[a % 64]?).getD 0

/-- A nibble of the stream that starts at an address. -/
def gotNibble (got : List (Nat × List Byte)) (a i : Nat) : Nat :=
  (gotByte got (a + i / 2)).toNat / 16 ^ (i % 2) % 16

/-- A code of w bits at bit i·w of the stream that starts at an address (R38). -/
def gotCode (got : List (Nat × List Byte)) (a w i : Nat) : Nat :=
  let b := i * w
  leNat ((List.range 4).map (fun j => gotByte got (a + b / 8 + j))) / 2 ^ (b % 8) % 2 ^ w

/-- Bytes of a bit field packed from bit 0, in n bytes: fields of w bits each (R38, R75). -/
def packBits (n w : Nat) (xs : List Nat) : List Byte :=
  natLe n (xs.foldr (fun x acc => x % 2 ^ w + acc * 2 ^ w) 0)

/-- The code that lane r of block j gives for element i, zero outside the valid extent (R341, R343). -/
def laneElem (d : List Byte) (got : List (Nat × List Byte)) (j r i : Nat) : Nat :=
  if decide (i < dK d) && decide (r < laneCount d j) then gotCode got (laneSrc d j r) (dCb d) i else 0

/-- Line t of a DIAG (R341). -/
def diagLine (d : List Byte) (got : List (Nat × List Byte)) (t : Nat) : List Byte :=
  let p := dP d
  let k4 := dK4 d
  let rec' := (List.range (ceilDiv 32 p)).flatMap (fun i =>
    let r := t % p + i * p
    (List.range 4).map (fun m =>
      if decide (r < 32) && decide (r ≤ t) && decide ((t - r) / p < dNblk d * k4) then
        let kap := (t - r) / p
        laneElem d got (kap / k4) r (4 * (kap % k4) + m)
      else 0))
  packBits (lineLen (dCb d) p) (dCb d) rec'

/-- The exponent and zero-point bytes of lane r of block j for group γ (R340, R342). -/
def sideEntry (d : List Byte) (got : List (Nat × List Byte)) (j r γ : Nat) : List Byte :=
  if laneCount d j ≤ r then [0, 0] else
  let ix := match dSkind d with
    | 0 => (j * dRb d + r) * dGroups d + γ
    | _ => j * dRb d + r
  match dSkind d with
  | 2 => [dConstExp d, if dZp d then dConstZp d else 0]
  | _ => [gotByte got (moveAddr (dEsrc d) (ix : Nat)),
          if dZp d then gotByte got (moveAddr (dEsrc d) ((ix + dZoff d : Nat) : Int)) else 0]

/-- The side array (R342). -/
def sideArray (d : List Byte) (got : List (Nat × List Byte)) : List Byte :=
  (List.range (dNblk d)).flatMap (fun j =>
    (List.range (if dSkind d = 1 then 1 else dGroups d)).flatMap (fun γ =>
      (List.range 32).flatMap (fun r => sideEntry d got j r γ)))

/-- Consecutive bytes from an address, cut at bank lines. -/
def cutLines (a : Nat) (bs : List Byte) : List (Nat × List Byte) :=
  (lineSpans a bs.length).map (fun x => (x.2.1, (bs.drop (x.2.1 - a)).take x.2.2))

/-- The lines of a DIAG as the bank lines it writes (R232, R338, R344, R345): one run of bytes from the base, in a ring with zeros
to the end of the slot that holds its last line and wrapped at the ring's span. -/
def diagWrites (base : Nat) (ring : Option Nat) (bs : List Byte) : List (Nat × List Byte) :=
  match ring with
  | none => cutLines base bs
  | some span =>
    let all := bs ++ List.replicate (ceilDiv bs.length 1024 * 1024 - bs.length) 0
    if span = 0 then cutLines base all
    else (List.range (ceilDiv all.length span)).flatMap (fun i => cutLines base ((all.drop (i * span)).take span))

/-- The destination writes of a descriptor in their order (R337, R338, R341 to R345). -/
def destWrites (s : State) (d : List Byte) (regionLen : Nat) (got : List (Nat × List Byte)) : List (Nat × List Byte) :=
  match dKind d with
  | 1 => (outerIndices d).flatMap (fun i =>
      let a := runStart (dSrc d) (dSrcStride d) i
      cutLines (runStart (dDst d) (dDstStride d) i) ((List.range (dLen0 d)).map (fun b => gotByte got (a + b))))
  | 2 => (outerIndices d).flatMap (fun i => cutLines (runStart (dDst d) (dDstStride d) i) (List.replicate (dLen0 d) 0))
  | 3 =>
    let e := esizeNibbles d
    (List.range (dCount d 3)).flatMap (fun i3 => (List.range (dCount d 2)).flatMap (fun i2 =>
      (List.range (dLen0 d)).flatMap (fun i0 =>
        let nibs := (List.range (dCount d 1)).flatMap (fun i1 =>
          let a := runStart (dSrc d) (dSrcStride d) (i3, i2, i1)
          (List.range e).map (fun m => gotNibble got a (i0 * e + m)))
        cutLines (runStart (dDst d) (dDstStride d) (i3, i2, i0)) (packBits (ceilDiv nibs.length 2) 4 nibs))))
  | 4 =>
    if dK d = 0 then [] else
    let ring := match placeOf (dDst d) with
      | some (.plain k off) => ringSpan (getCore s k) off
      | _ => none
    cutLines (dSideDst d) (sideArray d got) ++
      diagWrites (dDst d) ring ((List.range (diagLines d)).flatMap (fun t => diagLine d got t))
  | 5 =>
    if dK d = 0 then [] else
    cutLines (dSideDst d) (sideArray d got) ++
      (List.range (dGroups d * groupSize (dGsize d))).flatMap (fun x =>
        cutLines (dDst d + x * 4 * dCb d)
          (packBits (4 * dCb d) (dCb d) ((List.range 32).map (fun c => laneElem d got 0 c x))))
  | 6 => cutLines (dDst d) ((List.range regionLen).map (fun b => gotByte got (dSrc d + b)))
  | _ => []

/-- The lines a descriptor reads, each once, in the order of first use. -/
def sourceLines (d : List Byte) (regionLen : Nat) : List Nat :=
  ((sourceExtents d regionLen).flatMap (fun x => (lineSpans x.1 x.2).map (fun y => y.1))).eraseDups

/-- Where source and destination overlap the destination bytes are undefined (R349): each such byte is a free value of its own,
64 of them to a write, which is at most a bank line. -/
def freeOverlap (src : List (Nat × Nat)) (n0 : Nat) (w : Nat × List Byte) (i : Nat) : Nat × List Byte :=
  (w.1, (List.range w.2.length).map (fun j =>
    if src.any (fun x => decide (x.1 ≤ w.1 + j) && decide (w.1 + j < x.1 + x.2)) then (Config.freeValue (n0 + 64 * i + j)).setWidth 8
    else (w.2[j]?).getD 0))

/-- The writes with the overlapping bytes freed, and the state with the free values drawn. -/
def freeWrites (s : State) (d : List Byte) (regionLen : Nat) (ws : List (Nat × List Byte)) :
    List (Nat × List Byte) × State :=
  let src := sourceExtents d regionLen
  let overlaps := ws.any (fun w => src.any (fun x => decide (x.1 < w.1 + w.2.length) && decide (w.1 < x.1 + x.2)))
  if overlaps then
    (((List.range ws.length).zip ws).map (fun x => freeOverlap src s.freeNext x.2 x.1),
     { s with freeNext := s.freeNext + 64 * ws.length })
  else (ws, s)

/-! ## Accesses to a plain that may collide (R251, R252, R265)

Whether two accesses meet within L_bank is timing. An access to words of a bank line on which another port has an access under way, one
of the two a write, collides on such of these words as a free value chooses (log entry 14): those that collide read as free values,
PLN_BUSY counts them and shows the ports that received BUSY. -/

/-- The words of a bank line for which a test holds. -/
def wordsWhere (f : Nat → Bool) : BitVec 8 := BitVec.ofNat 8 ((List.range 8).foldl (fun r i => if f i then r + 2 ^ i else r) 0)

/-- The words of its bank line that n bytes at offset a of a plain touch. -/
def lineWords (a n : Nat) : BitVec 8 := wordsWhere (fun i => decide (a % 64 < 8 * i + 8) && decide (8 * i < a % 64 + n))

/-- The words of the bank line at a fabric address that some extents touch. -/
def extentWords (line : Nat) (xs : List (Nat × Nat)) : BitVec 8 :=
  let ys := xs.filter (fun x => decide (x.1 < line + 64) && decide (line < x.1 + x.2))
  if ys.isEmpty then 0 else
  wordsWhere (fun i => ys.any (fun x => decide (x.1 < line + 8 * i + 8) && decide (line + 8 * i < x.1 + x.2)))

/-- The words of a bank line that the DR port's work under way has read or written. -/
def drWords (c : Core) (isWrite : Bool) (line : Nat) : BitVec 8 :=
  (c.drLines.filter (fun x => x.1 == isWrite && x.2.1 == line)).foldl (fun m x => m ||| x.2.2) 0

/-- Extents of the descriptors that the engines which reach a plain over CE have under way. -/
def ceExtents (s : State) (k : CoreId) (of : CopyRun → List (Nat × Nat)) : List (Nat × Nat) :=
  (s.tiles[k.tile].engines.toList ++ s.hub.engines.toList).flatMap (fun e => e.running.toList.flatMap (fun r => match r with
    | some r => if r.asked && !r.failed then of r else []
    | none => []))

/-- Other ports with a write under way to the bank line of offset a, with the words that they write: the DR port's work, a
descriptor of a copy engine that reaches this plain over CE, write flits in transit. -/
def writersOf (s : State) (k : CoreId) (p : Port) (a : Nat) : List (Port × BitVec 8) :=
  let line := a / 64 * 64
  let base := plainAddr k line
  let flits (hub : Bool) : List (Nat × Nat) :=
    (s.fabric.filter (fun f => f.kind == .write && decide (f.src = 0) == hub)).map (fun f => (f.addr.toNat, f.payload.length))
  let dest (r : CopyRun) : List (Nat × Nat) := destExtents s r.job.desc r.job.regionLen
  ((if p != .dr then [(Port.dr, drWords (getCore s k) true line)] else []) ++
   (if p != .ce then [(Port.ce, extentWords base (flits true ++ ceExtents s k dest))] else []) ++
   (if p != .rx then [(Port.rx, extentWords base (flits false))] else [])).filter (fun x => x.2 != 0)

/-- Other ports with a read under way of the bank line of offset a, with the words that they read: the DR port's work, and the
descriptors that read over CE. The reads of the feeders and of SX meet later writes when their pass completes. -/
def readersOf (s : State) (k : CoreId) (p : Port) (a : Nat) : List (Port × BitVec 8) :=
  let line := a / 64 * 64
  ((if p != .dr then [(Port.dr, drWords (getCore s k) false line)] else []) ++
   (if p != .ce then [(Port.ce, extentWords (plainAddr k line) (ceExtents s k (fun r => sourceExtents r.job.desc r.job.regionLen)))] else [])).filter
    (fun x => x.2 != 0)

/-- Only accesses in untagged slots collide, or those of which one comes from the DR port (R251). -/
def mayMeet (c : Core) (p q : Port) (a : Nat) : Bool := p == .dr || q == .dr || tagModeOf c (a / 1024) == 0

/-- Number of set bits of a word mask, and the lowest of them. -/
def maskCount (m : BitVec 8) : Nat := ((List.range 8).filter (fun i => m.getLsbD i)).length
def maskFirst (m : BitVec 8) : Nat := ((List.range 8).find? (fun i => m.getLsbD i)).getD 0

/-- PLN_BUSY after collisions of ports p and q on words of a bank line: BUSY goes to the port granted later in each, here by a
free choice that names at least one (R251, R265). -/
def noteBusy (p q : Port) (a choice : Nat) (m : BitVec 8) (c : Core) : Core :=
  let got := choice % 3 + 1
  let bits := (if got % 2 = 1 then 2 ^ portId p else 0) ||| (if 2 ≤ got then 2 ^ portId q else 0)
  { c with pln := { c.pln with
      busyWord := if c.pln.busyPorts = 0 then BitVec.ofNat 19 (a / 64 * 8 + maskFirst m) else c.pln.busyWord,
      busyPorts := c.pln.busyPorts ||| BitVec.ofNat 6 bits, busyCount := satAdd c.pln.busyCount (maskCount m) } }

/-- The words, of those that both touch, on which an access of port p collides with one of port q, and the state with the collision
noted. -/
def meet (s : State) (k : CoreId) (p q : Port) (a : Nat) (both : BitVec 8) : BitVec 8 × State :=
  let (v, s) := drawFree s
  let m : BitVec 8 := v.setWidth 8 &&& both
  if m = 0 then (0, s) else (m, updCore s k (noteBusy p q a (v.toNat / 256) m))

/-- The collisions of an access of port p to some words of the bank line of offset a with those of other ports: the words on which
it meets any of them. -/
def collide (s : State) (k : CoreId) (p : Port) (a : Nat) (words : BitVec 8) (qs : List (Port × BitVec 8)) : BitVec 8 × State :=
  (qs.filter (fun q => mayMeet (getCore s k) p q.1 a && words &&& q.2 != 0)).foldl (fun (r : BitVec 8 × State) q =>
    let x := meet r.2 k p q.1 a (words &&& q.2)
    (r.1 ||| x.1, x.2)) (0, s)

/-- Bytes of a bank line from offset `off` of it on, with those of colliding words free. -/
def spoil (s : State) (m : BitVec 8) (off : Nat) (bs : List Byte) : List Byte × State :=
  if m = 0 then (bs, s) else
  (((List.range bs.length).zip bs).map (fun x =>
    let w := (off + x.1) / 8
    if m.getLsbD w then BitVec.ofNat 8 ((Config.freeValue (s.freeNext + w)).toNat / 256 ^ ((off + x.1) % 8)) else x.2),
   { s with freeNext := s.freeNext + 8 })

/-- An access of the DR port is noted while its work is under way. -/
def noteDr (p : Port) (isWrite : Bool) (a n : Nat) (c : Core) : Core :=
  let x := (isWrite, a / 64 * 64, lineWords a n)
  if p == .dr && !c.drLines.contains x then { c with drLines := x :: c.drLines } else c

/-- A line that a port writes is noted for the reads of the passes under way and, on the DR port, for the other ports. -/
def noteWrite (p : Port) (a n : Nat) (c : Core) : Core :=
  let x := (p, a / 64 * 64, lineWords a n)
  let put (u : MatUnit) : MatUnit :=
    if (u.running.isSome || !u.tail.isEmpty) && !u.writes.contains x then { u with writes := x :: u.writes } else u
  noteDr p true a n { c with ag := put c.ag, sp := put c.sp }

/-- hc that feeders or the other ports waited for grants (R263): arbitration is timing, so each pass or transfer adds a free
amount (log entry 10). -/
def countStall (s : State) (k : CoreId) (feeder : Bool) : State :=
  let (v, s) := drawFree s
  updCore s k (fun c => { c with pln :=
    if feeder then { c.pln with feedStall := satAdd c.pln.feedStall v.toNat }
    else { c.pln with otherStall := satAdd c.pln.otherStall v.toNat } })

/-- CE and RX wait for a grant at each access; the waits of the other ports are counted when their work ends. -/
def countWait (s : State) (k : CoreId) (p : Port) : State := if p == .ce || p == .rx then countStall s k false else s

/-- Read n bytes of one bank line through a port. -/
def readPlain (s : State) (k : CoreId) (p : Port) (a n : Nat) : List Byte × State :=
  let s := countWait s k p
  let x := collide s k p a (lineWords a n) (writersOf s k p a)
  let y := spoil x.2 x.1 (a % 64) (memRead (getCore s k).plain a n)
  (y.1, updCore y.2 k (noteDr p false a n))

/-- A descriptor that has read a line on which a later write met its read: the words that collide read as free values, and what it
has still to write is formed from them. What it has written stays (log entry 14). -/
def spoilRun (s : State) (e : EngineId) (i : Fin 4) (line : Nat) (m : BitVec 8) : State :=
  match (getEngine s e).running[i] with
  | none => s
  | some r =>
    match r.got.find? (fun g => g.1 == line) with
    | none => s
    | some g =>
      if !r.asked || r.failed then s else
      let b := spoil s m 0 g.2
      let got := r.got.map (fun x => if x.1 == line then (x.1, b.1) else x)
      let w := freeWrites b.2 r.job.desc r.job.regionLen (destWrites b.2 r.job.desc r.job.regionLen got)
      let todo := if r.started then w.1.drop (w.1.length - r.todo.length) else r.todo
      updEngine w.2 e (fun x => { x with running := x.running.set i (some { r with got := got, todo := todo }) })

/-- The same for every engine that reaches the plain over CE. -/
def spoilRuns (s : State) (k : CoreId) (a : Nat) (m : BitVec 8) : State :=
  if m = 0 then s else
  (((List.finRange 8).map (fun e => EngineId.tile k.tile e)) ++ (List.finRange 4).map EngineId.hub).foldl (fun s e =>
    (List.finRange 4).foldl (fun s i => spoilRun s e i (plainAddr k (a / 64 * 64)) m) s) s

/-- Write bytes of one bank line through a port: a write always commits (R251). -/
def writePlain (s : State) (k : CoreId) (p : Port) (a : Nat) (bs : List Byte) : State :=
  let s := countWait s k p
  let w := lineWords a bs.length
  let x := collide s k p a w (writersOf s k p a)
  let y := collide x.2 k p a w (readersOf s k p a)
  updCore (spoilRuns y.2 k a y.1) k (fun c => noteWrite p a bs.length { c with plain := memWrite c.plain a bs })

/-- The plain as a pass that has read some bank lines through a port saw it: words on which a write met the read hold free
values. First the state to read from, then the state with the collisions noted. -/
def spoilLines (k : CoreId) (p : Port) (ws : List (Port × Nat × BitVec 8)) : List Nat → State → State → State × State
  | [], r, s => (r, s)
  | a :: ls, r, s =>
    let x := collide s k p a 0xFF (writersOf s k p a ++
      (ws.filter (fun w => w.2.1 == a / 64 * 64 && w.1 != p)).map (fun w => (w.1, w.2.2)))
    if x.1 = 0 then spoilLines k p ws ls r x.2 else
    let b := spoil x.2 x.1 0 (memRead (getCore s k).plain (a / 64 * 64) 64)
    spoilLines k p ws ls (updCore r k (fun c => { c with plain := memWrite c.plain (a / 64 * 64) b.1 })) b.2

/-- A write of the drain or the row-function unit through the DR port (R132, R243, R244): what the bank refuses is
discarded and faults the step; the rest is written. R132 names an offset at or beyond 4 MiB; an access that begins below and
ends beyond it is refused whole (DESIGN CHOICE, log entry 80). -/
def drWrite (s : State) (k : CoreId) (a : Nat) (bs : List Byte) (opidx : Nat) (pc : BitVec 13) : State :=
  if a + bs.length > plainSize then seqFault s k 0 stStepFault opidx pc else
  (lineSpans a bs.length).foldl (fun s (x : Nat × Nat × Nat) =>
    match access (getCore s k) .dr true x.1 with
    | .faults b => plnFault s k b stStepFault opidx pc
    | _ => writePlain s k .dr x.2.1 ((bs.drop (x.2.1 - a)).take x.2.2)) s

/-- A read through the DR port: a bank that refuses reads as zeros and faults the step (R239, R243); one that ends beyond 4 MiB
is refused whole (log entry 80). -/
def drRead (s : State) (k : CoreId) (a n : Nat) (opidx : Nat) (pc : BitVec 13) : List Byte × State :=
  if a + n > plainSize then (List.replicate n 0, seqFault s k 0 stStepFault opidx pc) else
  (lineSpans a n).foldl (fun (r : List Byte × State) (x : Nat × Nat × Nat) =>
    match access (getCore r.2 k) .dr false x.1 with
    | .faults b => (r.1 ++ List.replicate x.2.2 0, plnFault r.2 k b stStepFault opidx pc)
    | _ => let y := readPlain r.2 k .dr x.2.1 x.2.2; (r.1 ++ y.1, y.2)) ([], s)

/-! ## Running descriptors -/

/-- The partition of a job as a place in the table, when it has one. -/
def jobPart (j : CopyJob) : Option PartId := if h : j.part < 12 then some ⟨j.part, h⟩ else none

/-- The origin of a running descriptor's flits. -/
def runOrigin (e : EngineId) (r : CopyRun) : Origin := .engine e r.id (r.job.issuer.map (fun k => (k, r.job.pc)))

/-- A plain fault of the copy's step, recorded in the plain concerned (R350). -/
def copyPlnFault (s : State) (k : CoreId) (bit : Nat) (job : CopyJob) : State :=
  match job.issuer with
  | none => s
  | some c =>
    if aborting s c then s else
    raiseCore (updCore s k (fun x => { x with pln := { x.pln with fault := x.pln.fault ||| BitVec.ofNat 32 (2 ^ bit) } }))
      c stStepFault 0 job.pc

/-- Record that a port is blocked on a tag (R246, R264). -/
def noteTagBlock (s : State) (k : CoreId) (p : Port) (slot : Nat) (e : Option EngineId) : State :=
  updCore s k (fun c =>
    if c.tagBlocks.any (fun b => b.port == p && b.slot == slot && b.eng == e) then c
    else { c with tagBlocks := c.tagBlocks ++ [{ port := p, slot := slot, full := tagFull c slot, since := s.now, eng := e }],
                  pln := { c.pln with blocks := satAdd c.pln.blocks 1 } })

/-- The result of one try of a running descriptor: the run as it now stands, the state, whether it can go on. -/
structure Try where
  run : CopyRun
  state : State
  goes : Bool
  why : CpyState

/-- Read local source lines in order until one waits (R237, R246); lines of other nodes stay in `need` until their
responses arrive. -/
def readLines (e : EngineId) (p : PartId) : List Nat → List Nat → CopyRun → State → Try
  | [], kept, r, s => { run := { r with need := kept }, state := s, goes := kept.isEmpty, why := .moving }
  | a :: as, kept, r, s =>
    match placeOf a with
    | none => readLines e p as kept r s
    | some pl =>
      if placeNode pl ≠ engineNode e then readLines e p as (kept ++ [a]) r s
      else match pl with
        | .plain k o =>
          match accessFor (getCore s k) .ce false o (some e) with
          | .proceeds =>
            let x := readPlain s k .ce o 64
            readLines e p as kept { r with got := r.got ++ [(a, x.1)] } (updCore x.2 k (fun c => afterAccess c .ce false o))
          | .blocked slot => { run := { r with need := kept ++ a :: as }, state := noteTagBlock s k .ce slot (some e),
                               goes := false, why := .tagBlocked }
          | .retained => { run := { r with need := kept ++ a :: as }, state := s, goes := false, why := .retainWait }
          | .faults b => { run := { r with need := [], failed := true }, state := copyPlnFault s k b r.job, goes := false,
                           why := .faulted }
        | .lpddr o =>
          if granuleReady s o then readLines e p as kept { r with got := r.got ++ [(a, tierRead s p pl 64)] } s
          else { run := { r with need := kept ++ a :: as }, state := s, goes := false, why := .moving }
        | .hbm t _ => readLines e p as kept { r with got := r.got ++ [(a, tierRead s p pl 64)] } (countHbm s t false 64)
        | _ => readLines e p as kept { r with got := r.got ++ [(a, tierRead s p pl 64)] } s

/-- Ask the other nodes for their lines (R393 read request). -/
def askLines (e : EngineId) (p : PartId) (r : CopyRun) (s : State) : State :=
  r.need.foldl (fun s a => match placeOf a with
    | none => s
    | some pl => if placeNode pl = engineNode e then s
      else send s { src := engineNode e, dst := placeNode pl, part := BitVec.ofNat 4 p.val, kind := .readRequest,
                    addr := BitVec.ofNat 56 a, payload := [], origin := runOrigin e r, xid := 0, seqs := [] }) s

/-- The credit entry of a source router for the window that holds an address (R406, R377). -/
def creditIx (s : State) (t : TileId) (a : Nat) : Option Nat :=
  (s.tiles[t].credits).findIdx? (fun c => decide (c.window.base ≤ a) && decide (a < c.window.base + c.window.len))

/-- Credits of a window are suspended while its tile is in Valley, and usable again once its banks have left RETAIN (R245, R378,
order 4 of R410). -/
def creditUsable (s : State) (t : TileId) (a : Nat) : Bool :=
  match creditIx s t a with
  | none => false
  | some i =>
    (match (s.tiles[t].credits)[i]? with | some c => decide (0 < c.credits) | none => false) &&
    (match placeOf a with | some (.plain k o) => bankPower (getCore s k) (o / 0x80000) != 2 | _ => true)

/-- Change the credits of a source router for a window. -/
def addCredit (s : State) (t : TileId) (a : Nat) (n : Int) : State :=
  match creditIx s t a with
  | none => s
  | some i => updTile s t (fun x => { x with credits := x.credits.modify i (fun c => { c with credits := (c.credits + n).toNat }) })

/-- Whether a flit of a running descriptor is still in transit. -/
def inTransit (s : State) (e : EngineId) (id : Nat) (k : FlitKind) : Bool :=
  s.fabric.any (fun f => f.kind == k && (match f.origin with | .engine e' id' _ => e == e' && id == id' | _ => false))

/-- Side words of a DIAG or GATHER that a hub engine has sent and that have not committed: its line and record writes wait for
them (R342). -/
def sideOut (s : State) (e : EngineId) (r : CopyRun) (a : Nat) : Bool :=
  let d := r.job.desc
  let side (x : Nat) : Bool := decide (dSideDst d ≤ x) && decide (x < dSideDst d + sideBytes d)
  (dKind d == 4 || dKind d == 5) && !side a &&
  s.fabric.any (fun f => f.kind == .write && side f.addr.toNat && (match f.origin with | .engine e' id' _ => e == e' && r.id == id' | _ => false))

/-- Count what an engine did, for a hub engine also in its partition's aggregate (R353, R355, R356). -/
def countCopy (s : State) (e : EngineId) (p bytes notifies descs : Nat) : State :=
  let s := updEngine s e (fun x => { x with bytes := x.bytes + BitVec.ofNat 64 bytes, notifies := satAdd x.notifies notifies,
                                             descs := satAdd x.descs descs })
  match engineTile e with
  | some _ => s
  | none => updCounts s p (fun y =>
      { y with bytes := y.bytes + BitVec.ofNat 64 bytes, notifies := satAdd y.notifies notifies, descs := satAdd y.descs descs })

/-- Commit or send destination writes in order until one waits (R338, R342, R377, R334). -/
def writeLines (e : EngineId) (p : PartId) : List (Nat × List Byte) → CopyRun → State → Try
  | [], r, s => { run := { r with todo := [] }, state := s, goes := true, why := .moving }
  | (a, bs) :: ws, r, s =>
    let stop (s : State) (why : CpyState) : Try := { run := { r with todo := (a, bs) :: ws }, state := s, goes := false, why := why }
    let node := match placeOf a with | some pl => placeNode pl | none => 0
    let flit : Flit :=
      { src := engineNode e, dst := node, part := BitVec.ofNat 4 p.val, kind := .write, addr := BitVec.ofNat 56 a,
        payload := bs, origin := runOrigin e r, xid := 0, seqs := [] }
    let out (s : State) : State := send s flit
    let count (s : State) : State := countCopy s e p.val bs.length 0 0
    match placeOf a with
    | none => writeLines e p ws r s
    | some pl =>
      if sideOut s e r a then stop s .moving
      else if placeNode pl = engineNode e then
        match pl with
        | .plain k o =>
          match accessFor (getCore s k) .ce true o (some e) with
          | .proceeds =>
            writeLines e p ws r (count (updCore (writePlain s k .ce o bs) k (fun c => afterAccess c .ce true (o + bs.length - 1))))
          | .blocked slot => stop (noteTagBlock s k .ce slot (some e)) .tagBlocked
          | .retained => stop s .retainWait
          | .faults b => { run := { r with todo := [], failed := true }, state := copyPlnFault s k b r.job, goes := false, why := .faulted }
        | .lpddr o => if granuleReady s o then writeLines e p ws r (count (tierWrite s p pl bs)) else stop s .moving
        | _ => writeLines e p ws r (count (tierWrite s p pl bs))
      else match e, pl with
        | .tile t _, .plain _ _ =>
          if creditUsable s t a then writeLines e p ws r (out (addCredit s t a (-1))) else stop s .creditWait
        | .hub _, .plain k o =>
          match access (getCore s k) .ce true o with
          | .retained => stop s .retainWait
          | _ => writeLines e p ws r (out s)
        | _, _ => writeLines e p ws r (out s)

def setRun (s : State) (e : EngineId) (i : Fin 4) (r : Option CopyRun) : State :=
  updEngine s e (fun x => { x with running := x.running.set i r })

/-! ## Waiting (R354, R357, R386) -/

/-- Descriptors in progress. -/
def engineActive (e : CopyEngine) : List CopyRun := e.running.toList.filterMap id

/-- The descriptor in progress that was taken first. -/
def oldestDesc (e : CopyEngine) : Option CopyRun :=
  match engineActive e with
  | [] => none
  | r :: rs => some (rs.foldl (fun a x => if x.id < a.id then x else a) r)

def waitsTag (r : CopyRun) : Bool := r.why == .tagBlocked
def waitsCredit (r : CopyRun) : Bool := r.why == .creditWait || r.why == .retainWait

/-- An engine with TAG_NS and CREDIT_NS up to the present tick (R357): ns with a descriptor that waits. -/
def engineNow (now : Word64) (x : CopyEngine) : CopyEngine :=
  let dt := (now - x.seen).toNat
  { x with seen := now, tagNs := if (engineActive x).any waitsTag then satAdd x.tagNs dt else x.tagNs,
           creditNs := if (engineActive x).any waitsCredit then satAdd x.creditNs dt else x.creditNs }

/-- The same for the aggregate of the partitions whose descriptors wait in a hub engine (R353). -/
def partWaits (now : Word64) (x : CopyEngine) (p : Nat) (y : PartCounts) : PartCounts :=
  let dt := (now - x.seen).toNat
  let mine := (engineActive x).filter (fun r => r.job.part == p)
  { y with tagNs := if mine.any waitsTag then satAdd y.tagNs dt else y.tagNs,
           creditNs := if mine.any waitsCredit then satAdd y.creditNs dt else y.creditNs }

/-- Windows of a router for which a line waits there: one in the outbox, or a tile engine's next write (R377, R378, R386). -/
def waitingWindows (s : State) (t : TileId) : Nat :=
  let engine (x : CopyEngine) : List Nat := ((engineActive x).filter (fun r => r.why == .creditWait)).filterMap (fun r => r.todo.head?.map (fun w => w.1))
  ((s.tiles[t].outbox.map (fun f => f.addr.toNat) ++ s.tiles[t].engines.toList.flatMap engine).filterMap (creditIx s t)).eraseDups.length

/-- SYN_CREDIT of a tile up to the present tick (R386): ns of waiting, summed over windows. -/
def synNow (s : State) (t : TileId) : Word64 :=
  let y := s.tiles[t].syn
  y.waitNs + (s.now - y.waitSeen) * BitVec.ofNat 64 (waitingWindows s t)

def accrueTile (s : State) (t : TileId) : State :=
  updTile s t (fun x => { x with syn := { x.syn with waitNs := synNow s t, waitSeen := s.now } })

/-- Bring the waiting times of an engine up to date, before what it waits for changes. -/
def accrue (s : State) (e : EngineId) : State :=
  let x := getEngine s e
  let s := updEngine s e (engineNow s.now)
  match engineTile e with
  | some t => accrueTile s t
  | none => updHub s (fun h => { h with byPart := Vector.ofFn (fun (p : Fin 12) => partWaits s.now x p.val h.byPart[p]) })

/-- What a flit of a running descriptor waits for at the plain it has reached (R354). -/
def flitWhy (s : State) (e : EngineId) (id : Nat) : Option CpyState :=
  s.fabric.findSome? (fun f => match f.origin with
    | .engine e' id' _ =>
      if e ≠ e' ∨ id ≠ id' then none else
      match f.kind, placeOf f.addr.toNat with
      | .write, some (.plain k o) => at' k o f
      | .readRequest, some (.plain k o) => at' k o f
      | _, _ => none
    | _ => none)
where
  /-- The wait of a flit at offset o of core k. -/
  at' (k : CoreId) (o : Nat) (f : Flit) : Option CpyState :=
    let port := if f.src = 0 then Port.ce else Port.rx
    if (getCore s k).tagBlocks.any (fun b => b.port == port && b.slot == o / 1024 && b.eng == some e) then some .tagBlocked
    else if bankPower (getCore s k) (o / 0x80000) = 2 then some .retainWait else none

/-- STATE of an engine (R354): that of its oldest descriptor in progress (log entry 82). -/
def showEngine (s : State) (e : EngineId) : State :=
  updEngine s e (fun x => { x with state := match oldestDesc x with | some r => r.why | none => .idle })

/-- A descriptor that has faulted while it ran: what it has written stays, and it goes no further (R350, R354). -/
def failRun (s : State) (o : Origin) : State :=
  match o with
  | .engine e id _ => showEngine (updEngine s e (fun x => { x with running := x.running.map (fun r => match r with
      | some r => some (if r.id = id then { r with need := [], todo := [], failed := true, why := .faulted } else r)
      | none => none) })) e
  | _ => s

/-! ## Arrivals (R333, R379) -/

/-- Send the arrival add of a window (R379). -/
def arrive (s : State) (p : PartId) (src : NodeId) (w : Window) (who : Origin) : State :=
  match objAt (BitVec.ofNat 56 w.arrival) with
  | none => s
  | some o => issueAdd s src o 1 who false p.val

/-- The data windows that a descriptor writes into, by their place among the partition's windows (R333): a tile engine's over
RX, or over CE in its own tile, a hub engine's over CE. -/
def arrivalsOf (s : State) (p : PartId) (d : List Byte) (regionLen : Nat) : List Nat :=
  let xs := destExtents s d regionLen
  ((indexed (partWindows s p)).filter (fun w => w.2.kind == 1 && xs.any (fun x =>
    decide (x.1 < w.2.base + w.2.len) && decide (w.2.base < x.1 + x.2)))).map (fun w => w.1)

/-- Whether a write lies in a window. -/
def inWin (w : Window) (a n : Nat) : Bool := decide (a < w.base + w.len) && decide (w.base < a + n)

/-- The last byte of a descriptor into a window has committed. -/
def windowDone (s : State) (e : EngineId) (r : CopyRun) (w : Window) : Bool :=
  r.started && r.todo.all (fun x => !inWin w x.1 x.2.length) &&
  !s.fabric.any (fun f => f.kind == .write && inWin w f.addr.toNat f.payload.length &&
    (match f.origin with | .engine e' id' _ => e == e' && r.id == id' | _ => false))

/-- Send the arrivals of some windows of a descriptor. -/
def sendArrivals (s : State) (e : EngineId) (p : PartId) (r : CopyRun) (ws : List Nat) : State :=
  ws.foldl (fun s i => match (partWindows s p)[i]? with
    | some w => arrive s p ⟨w.base / 2 ^ 48 % 13, Nat.mod_lt _ (by decide)⟩ w (runOrigin e r)
    | none => s) s

/-- Send the arrivals of the windows that a descriptor in progress has filled. -/
def arrivals (e : EngineId) (i : Fin 4) (p : PartId) (s : State) : State :=
  match (getEngine s e).running[i] with
  | none => s
  | some r =>
    if r.failed then s else
    let full (j : Nat) : Bool := match (partWindows s p)[j]? with | some w => windowDone s e r w | none => true
    if !r.arrivals.any full then s else
    setRun (sendArrivals s e p r (r.arrivals.filter full)) e i (some { r with arrivals := r.arrivals.filter (fun j => !full j) })

/-! ## Descriptors read over the CE port (R243, R246, R247, R337, R347) -/

/-- What reading a line on behalf of an engine comes to. -/
inductive LineTry
  | got (bs : List Byte) (s : State)
  | waits (why : CpyState) (s : State)
  | fails (k : CoreId) (bit : Nat)

/-- Read the 64 bytes at an address over the CE port for an engine (none while the descriptor is not yet handed over). -/
def ceLine (e : Option EngineId) (p : PartId) (a : Nat) (s : State) : LineTry :=
  match placeOf a with
  | none => .got (List.replicate 64 0) s
  | some (.plain k o) =>
    match accessFor (getCore s k) .ce false o e with
    | .faults b => .fails k b
    | .blocked slot => .waits .tagBlocked (noteTagBlock s k .ce slot e)
    | .retained => .waits .retainWait s
    | .proceeds => let x := readPlain s k .ce o 64; .got x.1 (updCore x.2 k (fun c => afterAccess c .ce false o))
  | some (.lpddr o) => if granuleReady s o then .got (memRead s.hub.lpddr o 64) s else .waits .moving s
  | some (.hbm t o) => .got (memRead s.tiles[t].hbm o 64) (countHbm s t false 64)
  | some pl => .got (tierRead s p pl 64) s

/-- REGION_LEN in the header of the region that a REGION descriptor moves (R141, R337); other kinds, and a source that R332 does
not allow, read nothing. -/
def regionHeader (e : EngineId) (who : Option EngineId) (p : PartId) (d : List Byte) (s : State) : LineTry :=
  if dKind d = 6 ∧ extentAllowed s e p false (dSrc d, 64) then ceLine who p (dSrc d) s else .got [] s

/-- A descriptor and, for a REGION, its region's header: both are read, or neither is taken. -/
def descLines (e : EngineId) (who : Option EngineId) (p : PartId) (a : Nat) (s : State) : LineTry :=
  match ceLine who p a s with
  | .got d s' =>
    match regionHeader e who p d s' with
    | .got h s'' => .got (d ++ h) s''
    | .waits w _ =>
      match regionHeader e who p d s with
      | .waits _ s'' => .waits w s''
      | _ => .waits w s
    | .fails k b => .fails k b
  | x => x

/-- The REGION_LEN that descLines has read. -/
def lineRegion (bs : List Byte) : Nat := fieldAt bs (64 + 28) 4

/-- Record a failed check (R350, R358, R359), and fault the step of the core that handed the descriptor over. -/
def cpyFault (s : State) (e : EngineId) (job : CopyJob) (bit byte : Nat) : State :=
  match job.issuer with
  | none => s
  | some k =>
    if aborting s k then s else
    let s := updEngine s e (fun x =>
      let w := (x.fault &&& 0xF) ||| BitVec.ofNat 32 (2 ^ bit + byte * 2 ^ 16 + k.core.val * 2 ^ 24)
      { x with fault := w, fdesc := BitVec.ofNat 64 job.addr, state := .faulted })
    raiseCore s k stStepFault 0 job.pc

/-- A new run of a job. -/
def newRun (job : CopyJob) (id : Nat) : CopyRun :=
  { job := job, id := id, asked := false, need := [], got := [], todo := [], started := false, arrivals := [], failed := false,
    chain := false, why := .moving }

/-- A place is free and the COPY it worked for is complete in class CP (R349). -/
def freePlace (s : State) (e : EngineId) (i : Fin 4) (issuer : Option CoreId) : State :=
  let s := showEngine (setRun s e i none) e
  match issuer with
  | none => s
  | some k => settle (updCore s k (fun c => { c with copies := c.copies - 1 })) k

/-- The next descriptor of a chain, once the engine reaches it (R347): it is read over the CE port, checked (R350), and takes the
same place. -/
def chainNext (e : EngineId) (i : Fin 4) (p : PartId) (r : CopyRun) (s : State) : State :=
  let a := r.job.addr + 64
  match descLines e (some e) p a s with
  | .waits why s => showEngine (setRun s e i (some { r with why := why })) e
  | .fails k b => freePlace (copyPlnFault s k b r.job) e i r.job.issuer
  | .got bs s =>
    let d := bs.take 64
    let rl := lineRegion bs
    let job := { r.job with addr := a, desc := d, regionLen := rl, ordered := dOrder d }
    match descError s e p d rl with
    | some (bit, byte) => cpyFault (freePlace s e i r.job.issuer) e job bit byte
    | none => showEngine (setRun { s with nextId := s.nextId + 1 } e i (some (newRun job s.nextId))) e

/-- Let a running descriptor go on as far as it can. -/
def pump (e : EngineId) (i : Fin 4) (s : State) : State :=
  match (getEngine s e).running[i] with
  | none => s
  | some r =>
    if r.failed || !r.asked then s else
    match jobPart r.job with
    | none => s
    | some p =>
      let s := accrue s e
      if r.chain then chainNext e i p r s else
      let t1 := if r.started then { run := r, state := s, goes := true, why := .moving } else readLines e p r.need [] r s
      let t2 :=
        if t1.goes && !t1.run.started then
          let w := freeWrites t1.state r.job.desc r.job.regionLen (destWrites t1.state r.job.desc r.job.regionLen t1.run.got)
          { t1 with run := { t1.run with started := true, todo := w.1 }, state := w.2 }
        else t1
      let t3 := if t2.goes then writeLines e p t2.run.todo t2.run t2.state else t2
      let why := if t3.why == .moving then (flitWhy t3.state e r.id).getD .moving else t3.why
      showEngine (arrivals e i p (setRun t3.state e i (some { t3.run with why := why }))) e

/-- Let every descriptor of an engine go on. -/
def pumpEngine (s : State) (e : EngineId) : State := (List.finRange 4).foldl (fun s i => pump e i s) s

/-- The engines of a tile and of the hub. -/
def tileEngines (t : TileId) : List EngineId := (List.finRange 8).map (fun e => .tile t e)
def hubEngines : List EngineId := (List.finRange 4).map (fun e => .hub e)
def allEngines : List EngineId := hubEngines ++ allTiles.flatMap tileEngines

/-- Let every engine go on: something it may have waited for has come. -/
def pumpAll (s : State) : State := allEngines.foldl pumpEngine s

/-! ## Hand-over (R307, R347, R350) -/

/-- Queue entries of an engine (R347). -/
def queueRoom : EngineId → Nat
  | .tile _ _ => 16
  | .hub _ => 32

/-- COPY (R307): hands the descriptor at sa + sext(IMM) to an engine of the tile, or of the hub. It stalls while the engine's
queue is full or eight copies of the core are outstanding (R310, R347). -/
def execCopy (k : CoreId) (ra : SReg) (imm : Word32) (hub : Bool) (eng : Fin 8) (s : State) : Out :=
  if !(Instr.copy k ra imm hub eng).wf then .refused .neverLoaded else
  match coreRun s k with
  | none => .next s
  | some (p, _) =>
    if !canIssue s k then .next s else
    let c := getCore s k
    let off := (sreg c ra + sext imm).toNat
    let e : EngineId := if hub then .hub ⟨eng.val % 4, Nat.mod_lt _ (by decide)⟩ else .tile k.tile eng
    if plainSize ≤ off ∨ off % 64 ≠ 0 then
      .next (seqFault (updCore s k (fun c => { c with seq := { c.seq with issued := c.seq.issued + 1 } })) k 0 stStepFault 0 c.seq.pc)
    else if queueRoom e ≤ (getEngine s e).queue.length ∨ 8 ≤ c.copies then .next (stall s k)
    else match descLines e none p (plainAddr k off) s with
      | .fails j b =>
        let s := updCore s k retire
        let s := if aborting s k then s else
          updCore s j (fun x => { x with pln := { x.pln with fault := x.pln.fault ||| BitVec.ofNat 32 (2 ^ b) } })
        .next (raiseCore s k stStepFault 0 c.seq.pc)
      | .waits _ s => .next (stall s k)
      | .got bs s =>
        let d := bs.take 64
        let rl := lineRegion bs
        let job : CopyJob := { issuer := some k, pc := c.seq.pc, part := p.val, addr := plainAddr k off, desc := d, regionLen := rl,
                               ordered := dOrder d }
        let s := updCore s k retire
        match descError s e p d rl with
        | some (bit, byte) => .next (cpyFault s e job bit byte)
        | none => .next (updCore (updEngine s e (fun x => { x with queue := x.queue ++ [job] })) k
            (fun c => { c with copies := c.copies + 1 }))

/-! ## Starting and completing a descriptor -/

/-- An earlier descriptor of the engine is still in progress: the order is that of taking (R347 ORDER). -/
def earlierRunning (x : CopyEngine) (id : Nat) : Bool :=
  x.running.toList.any (fun r => match r with | some r => decide (r.id < id) | none => false)

/-- A working place whose descriptor has not begun and is of a kind (the next of a chain). -/
def waitingPlace (x : CopyEngine) (kind : Nat) : Option (Fin 4) :=
  (List.finRange 4).find? (fun i => match x.running[i] with
    | some r => !r.asked && dKind r.job.desc == kind && (!r.job.ordered || !earlierRunning x r.id)
    | none => false)

/-- The aligned 256-byte block of an address (R428). -/
def blockOf (a : BitVec 56) : Nat := a.toNat / 256 * 256

/-- A block lies in tier 1 or tier 2. -/
def inTier (a : BitVec 56) : Bool :=
  match placeOf (blockOf a) with
  | some (.hbm _ _) => true
  | some (.lpddr _) => true
  | _ => false

/-- Some ranges touch a block. -/
def touchesBlock (xs : List (Nat × Nat)) (a : BitVec 56) : Bool :=
  xs.any (fun x => decide (x.1 < blockOf a + 256) && decide (blockOf a < x.1 + x.2))

/-- Some ranges cover a block whole: such a write reads nothing of it (R431). -/
def coversBlock (xs : List (Nat × Nat)) (a : BitVec 56) : Bool :=
  (List.range 256).all (fun i => xs.any (fun x => decide (x.1 ≤ blockOf a + i) && decide (blockOf a + i < x.1 + x.2)))

/-- Reading some ranges and writing others reads a block of a tier and checks its tag (R429, R431). -/
def readsBlock (src dst : List (Nat × Nat)) (a : BitVec 56) : Bool :=
  inTier a && (touchesBlock src a || (touchesBlock dst a && !coversBlock dst a))

/-- The register word of a tier fault: its flag and offset bits [47:8] (R448). -/
def tierFaultWord (w : Word64) (bit : Nat) (a : BitVec 56) : Word64 :=
  (w &&& 0xC000000000000000) ||| BitVec.ofNat 64 (2 ^ bit) ||| BitVec.ofNat 64 (addrLocal a / 256 * 256)

/-- Record a tier error at a block (R425, R447, R448, R452). -/
def noteTierError (s : State) (a : BitVec 56) (integ : Bool) : State :=
  let bit := if integ then 62 else 63
  match placeOf a.toNat with
  | some (.hbm t _) => updTile s t (fun x => { x with mem := { x.mem with
      fault := tierFaultWord x.mem.fault bit a,
      uncorrected := if integ then x.mem.uncorrected else satAdd x.mem.uncorrected 1 } })
  | some (.lpddr _) => updHub s (fun h => { h with
      lfault := tierFaultWord h.lfault bit a,
      linkUncorrected := if integ then h.linkUncorrected else satAdd h.linkUncorrected 1 })
  | _ => s

/-- Count a corrected error at a block that is read or written: SECDED in tier 1, the link in tier 2 (R425, R447, R452). -/
def noteCorrected (src dst : List (Nat × Nat)) (s : State) (a : BitVec 56) : State :=
  match placeOf (blockOf a) with
  | some (.hbm t _) =>
    if readsBlock src dst a then updTile s t (fun x => { x with mem := { x.mem with corrected := satAdd x.mem.corrected 1 } }) else s
  | some (.lpddr _) =>
    if touchesBlock (src ++ dst) a then updHub s (fun h => { h with linkCorrected := satAdd h.linkCorrected 1 }) else s
  | _ => s

/-- A block stays in the state in which its read failed until it is written again (R436). -/
def markBad (s : State) (a : BitVec 56) (integ : Bool) : State :=
  { s with badBlocks := (BitVec.ofNat 56 (blockOf a), integ) :: s.badBlocks.filter (fun x => x.1 != BitVec.ofNat 56 (blockOf a)) }

/-- A block of tier 2 that was written over the link with an error not corrected: it is counted (R452), and its tag no longer fits
its content (DESIGN CHOICE, log entry 78). -/
def noteLinkLost (dst : List (Nat × Nat)) (s : State) (a : BitVec 56) : State :=
  match placeOf (blockOf a) with
  | some (.lpddr _) =>
    if touchesBlock dst a then markBad (updHub s (fun h => { h with linkUncorrected := satAdd h.linkUncorrected 1 })) a true else s
  | _ => s

/-- The block whose read fails: one that the tiers report now, else one that failed before and has not been written since (R436). -/
def failingBlock (s : State) (src dst : List (Nat × Nat)) (tier : TierEvent) : Option (BitVec 56 × Bool) :=
  (tier.failed.toList ++ s.badBlocks).find? (fun x => readsBlock src dst x.1)

/-- Blocks that some ranges cover are written anew. -/
def writeBlocks (s : State) (dst : List (Nat × Nat)) : State :=
  if s.badBlocks.isEmpty then s else { s with badBlocks := s.badBlocks.filter (fun x => !coversBlock dst x.1) }

/-- Some ranges are written: their blocks are whole again, but for those that the link loses. -/
def tierDone (s : State) (dst : List (Nat × Nat)) (tier : TierEvent) : State :=
  tier.linkLost.foldl (noteLinkLost dst) (writeBlocks s dst)

/-- Corrections are counted whether or not a read then fails. -/
def tierCounts (s : State) (src dst : List (Nat × Nat)) (tier : TierEvent) : State := tier.corrected.foldl (noteCorrected src dst) s

/-- Corrections on the link of a write to tier 2 that no operand reports: a free number (R425, R452, log entry 78). -/
def countLink (s : State) : State :=
  let (v, s) := drawFree s
  updHub s (fun h => { h with linkCorrected := satAdd h.linkCorrected v.toNat })

/-- A bound section of a partition's model that holds a block (R436). -/
def boundSection (q : Partition) (a : BitVec 56) : Option (Nat × Model × Section) :=
  (((List.range q.models.length).zip q.models).filterMap (fun m =>
    match m.2.sections.find? (fun x => x.tier != 0x10 && x.node == addrNode a &&
        decide (x.loc < addrLocal a / 256 * 256 + 256) && decide (addrLocal a / 256 * 256 < x.loc + x.len)) with
    | some x => some (m.1, m.2, x)
    | none => none)).head?

/-- A failing block in a bound section marks its model for repair, or as damaged when it was bound from a host buffer
(R436). -/
def damageBlock (s : State) (p : PartId) (a : BitVec 56) (code : BitVec 16) : State :=
  updPart s p (fun q => match boundSection q a with
    | none => q
    | some (i, m, sec) =>
      if m.fromStore then { q with damaged := q.damaged.filter (fun x => (x.1, x.2.1) != (i, sec.index)) ++ [(i, sec.index, code)] }
      else { q with models := q.models.modify i (fun x => { x with state := .failed, status := code, hurt := true }) })

/-- ST_MEM_UNCORRECTABLE and ST_MEM_INTEGRITY (R434). -/
def stMemUncorrectable : BitVec 16 := 0x0208
def stMemIntegrity : BitVec 16 := 0x0209

/-- A descriptor's source read fails (R435): it stops with nothing of the failing block written, and its step faults. -/
def failRead (s : State) (p : PartId) (job : CopyJob) (a : BitVec 56) (integ : Bool) : State :=
  let code := if integ then stMemIntegrity else stMemUncorrectable
  let s := damageBlock (markBad (noteTierError s a integ) a integ) p a code
  match job.issuer with
  | none => s
  | some k => raiseCore s k code 0 job.pc

/-- The step of a descriptor's core keeps the ranges that it begins to write (R324). -/
def noteOutputs (s : State) (p : PartId) (job : CopyJob) (dst : List (Nat × Nat)) : State :=
  if job.issuer.isNone then s else
  updPart s p (fun q => { q with run := q.run.map (fun r => { r with outputs := r.outputs ++ dst }) })

/-- Begin the descriptor in a working place: its local lines are read, other nodes are asked for theirs, and it goes on as
far as it can. A failing block that it reads, or writes in part, stops it first (R431, R435; log entry 78). -/
def beginRun (e : EngineId) (i : Fin 4) (tier : TierEvent) (s : State) : State :=
  match (getEngine s e).running[i] with
  | none => s
  | some r =>
    match jobPart r.job with
    | none => s
    | some p =>
      let d := r.job.desc
      let src := sourceExtents d r.job.regionLen
      let dst := destExtents s d r.job.regionLen
      let r := { r with asked := true, need := sourceLines d r.job.regionLen, arrivals := arrivalsOf s p d r.job.regionLen }
      let s := tierCounts s src dst tier
      match failingBlock s src dst tier with
      | some (a, integ) =>
        failRead (showEngine (setRun s e i (some { r with failed := true, need := [], why := .faulted })) e) p r.job a integ
      | none =>
        let s := noteOutputs (tierDone s dst tier) p r.job dst
        pump e i (setRun (askLines e p r s) e i (some r))

/-- Start the engine's next descriptor of a kind: one that waits in its place, else the one at the front of the queue when a
place is free and its ORDER allows it (R347, R348). -/
def startKind (e : EngineId) (kind : Nat) (tier : TierEvent) (s : State) : State :=
  let x := getEngine s e
  match waitingPlace x kind with
  | some i => beginRun e i tier s
  | none =>
    match x.queue, (List.finRange 4).find? (fun i => (x.running[i]).isNone) with
    | job :: rest, some i =>
      if dKind job.desc = kind ∧ (!job.ordered || x.running.toList.all (fun r => r.isNone)) then
        let s := { s with nextId := s.nextId + 1 }
        let run := newRun job (s.nextId - 1)
        let s := updEngine (accrue s e) e (fun x => { x with queue := rest, running := x.running.set i (some run) })
        beginRun e i tier (showEngine s e)
      else s
    | _, _ => s

/-- MOVE (R337). -/
def execMove (e : EngineId) (tier : TierEvent) (s : State) : Out := .next (startKind e 1 tier s)
/-- ZERO (R337): it reads nothing but the rest of a tier block that it writes in part (R431). Its row has no operand for what the tiers
report: corrections on the link to tier 2 are a free number (log entry 78). -/
def execZero (e : EngineId) (s : State) : Out :=
  let next := match waitingPlace (getEngine s e) 2 with
    | some i => ((getEngine s e).running[i]).map (fun (r : CopyRun) => r.job)
    | none => (getEngine s e).queue.head?
  let toLink := match next with
    | some j => dKind j.desc == 2 && (destExtents s j.desc j.regionLen).any (fun x => x.1 / 2 ^ 48 == 0)
    | none => false
  .next (startKind e 2 .clean (if toLink then countLink s else s))
/-- TRANSPOSE (R337). -/
def execTranspose (e : EngineId) (tier : TierEvent) (s : State) : Out := .next (startKind e 3 tier s)
/-- DIAG (R341, R342, R345). -/
def execDiag (e : EngineId) (tier : TierEvent) (s : State) : Out := .next (startKind e 4 tier s)
/-- GATHER (R343). -/
def execGather (e : EngineId) (tier : TierEvent) (s : State) : Out := .next (startKind e 5 tier s)
/-- REGION (R337, R161). -/
def execRegion (e : EngineId) (tier : TierEvent) (s : State) : Out := .next (startKind e 6 tier s)

/-- DESCRIPTOR_COMPLETE (R349): the last destination write has committed. NOTIFY and what arrivals are left are sent; a chain goes
on with its next descriptor (R347); the end of a chain frees the place and completes the COPY in class CP. -/
def execDescriptorComplete (e : EngineId) (i : Fin 4) (s : State) : Out :=
  match (getEngine s e).running[i] with
  | none => .next s
  | some r =>
    if !r.asked || !r.started || r.failed || r.chain || !r.todo.isEmpty || inTransit s e r.id .write then .next s else
    match jobPart r.job with
    | none => .next s
    | some p =>
      let d := r.job.desc
      let n := dNotifyN d
      let s := countCopy (accrue s e) e p.val 0 (if n = 0 then 0 else 1) 1
      let s := match objAt (dNotifyAddr d) with
        | none => s
        | some o => if n = 0 then s else issueAdd s (engineNode e) o (BitVec.ofNat 32 n) (runOrigin e r) false p.val
      let s := sendArrivals s e p r r.arrivals
      .next (if dChain d then chainNext e i p { r with chain := true, arrivals := [] } s else freePlace s e i r.job.issuer)

end Sys2Proof.Machine
end

