-- ==== Sys2Proof/Machine/Fabric.lean ====
section
/-! DEFINITION. Passes (R391 to R410): which flit is delivered next, the partition filter, the nine flit types, landing of
records, replays and a pass going down. -/

namespace Sys2Proof.Machine

/-- The port by which a flit reaches a plain: RX over passes from tiles, CE for a hub copy engine (R233, R332). -/
def flitPort (f : Flit) : Port := if f.src = 0 then .ce else .rx

/-- The engine of a flit's sender, if it is one. -/
def flitEngine (f : Flit) : Option EngineId :=
  match f.origin with
  | .engine e _ _ => some e
  | _ => none

/-- The plain line a write or read-request flit is for. -/
def flitPlain (f : Flit) : Option (CoreId × Nat) :=
  match f.kind with
  | .write | .readRequest =>
    match placeOf f.addr.toNat with
    | some (.plain k o) => some (k, o)
    | _ => none
  | _ => none

/-- What the access of a flit to its plain comes to. -/
def flitAccess (s : State) (f : Flit) : Option Access :=
  (flitPlain f).map (fun x => access (getCore s x.1) (flitPort f) (f.kind == .write) x.2)

/-- A flit that has arrived and waits in its place: on a tag already noted, on a RETAIN bank, or on a granule that is not
written yet (R377, R334, R432). It does not stop flits of other windows. -/
def flitWaits (s : State) (f : Flit) : Bool :=
  match flitAccess s f, flitPlain f with
  | some (.blocked slot), some (k, _) =>
    (getCore s k).tagBlocks.any (fun b => b.port == flitPort f && b.slot == slot && b.eng == flitEngine f)
  | some .retained, _ => true
  | _, _ => match f.kind, placeOf f.addr.toNat with
    | .write, some (.lpddr o) => !granuleReady s o
    | .readRequest, some (.lpddr o) => !granuleReady s o
    | _, _ => false

/-- What keeps later flits behind a waiting one: its window, else its plain. -/
def flitLane (s : State) (f : Flit) : Nat :=
  match nodeTile f.src with
  | some t => match creditIx s t f.addr.toNat with
    | some i => match (s.tiles[t].credits)[i]? with | some c => c.window.base | none => 0
    | none => f.addr.toNat / plainSize
  | none => f.addr.toNat / plainSize

/-- The first flit in a list that is not behind a waiting one of its lane. -/
def pickFlit (s : State) : List (Nat × Flit) → List Nat → Option (Nat × Flit)
  | [], _ => none
  | (i, f) :: r, lanes =>
    if flitWaits s f || ((flitPlain f).isSome && lanes.contains (flitLane s f)) then pickFlit s r (flitLane s f :: lanes)
    else some (i, f)

/-- The flit that a destination delivers next from a source on a channel (R404): none arrives while a pass of the route is down
(R396). -/
def nextFlit (s : State) (src dst : NodeId) (request : Bool) : Option (Nat × Flit) :=
  if !(route s src dst).all (linkUp s) then none else
  pickFlit s (((List.range s.fabric.length).zip s.fabric).filter (fun x =>
    decide (x.2.src = src) && decide (x.2.dst = dst) && isRequest x.2.kind == request)) []

/-- The owner of a hub resource at an address: granule or object (R407). -/
def hubOwner (s : State) (a : BitVec 56) (p : Nat) : Bool :=
  allParts.any (fun q => q.val == p && s.parts[q].layout.defined &&
    match objAt a with
    | some o => s.parts[q].layout.hubBlocks.getLsbD (o.num / 128)
    | none =>
      let g := addrLocal a / 2 ^ 30
      decide (s.parts[q].layout.g0.toNat ≤ g) && decide (g < s.parts[q].layout.g0.toNat + s.parts[q].layout.gcount.toNat))

/-- The filter of R407: PART is 0xF or the partition of the destination resource. -/
def admitted (s : State) (f : Flit) : Bool :=
  f.part == 0xF ||
  match nodeTile f.dst with
  | some t => (match tilePart s t with | some p => p.val == f.part.toNat | none => false)
  | none => !isRequest f.kind || hubOwner s f.addr f.part.toNat

/-- A flit refused at its destination (R407): dropped, counted, answered with a refusal, its credit returned. -/
def refuseFlit (s : State) (f : Flit) : State :=
  let s := match nodeTile f.dst with
    | some t => updTile s t (fun x => { x with pas := { x.pas with filtered := satAdd x.pas.filtered 1 } })
    | none => updHub s (fun h => { h with filtered := satAdd h.filtered 1 })
  let s := send s { f with src := f.dst, dst := f.src, kind := .refusal, payload := [] }
  if f.kind == .write && (flitPlain f).isSome && f.src != 0 then
    send s { f with src := f.dst, dst := f.src, kind := .creditReturn, payload := [] }
  else s

/-- Something of a sender has committed or waits at its destination: its engine goes on, and its core where it waits for its
record lines (R333, R342, R354, R368). -/
def wakeSender (s : State) (f : Flit) : State :=
  match f.origin with
  | .engine e _ _ => pumpEngine s e
  | .core k => settle s k
  | _ => s

/-- Deliver the next flit of a kind: the rule of its kind, or the refusal of R407. -/
def deliver (src dst : NodeId) (kind : FlitKind) (act : Flit → State → State) (s : State) : Out :=
  match nextFlit s src dst (isRequest kind) with
  | none => .next s
  | some (i, f) =>
    if f.kind != kind then .next s
    else if !admitted s f then .next (refuseFlit { s with fabric := s.fabric.eraseIdx i } f)
    else match flitAccess s f, flitPlain f with
      | some (.blocked slot), some (k, _) => .next (wakeSender (noteTagBlock s k (flitPort f) slot (flitEngine f)) f)
      | _, _ => .next (act f { s with fabric := s.fabric.eraseIdx i })

/-! ## Records (R116, R117, R174, R284) -/

/-- Length of a slot of row-function records (R284). -/
def recordSlot : Nat := 32832

/-- RS of R284: the length of a record for a full pass of an operation's grouping, which is 4,096 cells on the array group and
32 × 32 on the sparse engine. -/
def combineSlot (o : Op) : Nat := 64 * ceilDiv (16 + 8 * (if o.engine = 1 then 1024 else 4096)) 64

/-- The window of a core's plain that holds an offset, of kind combine or row-function record. -/
def recordWindow (s : State) (k : CoreId) (o : Nat) : Option Window :=
  match tilePart s k.tile with
  | none => none
  | some p => (partWindows s p).find? (fun w => w.kind != 1 && decide (w.base ≤ plainAddr k o) &&
      decide (plainAddr k o < w.base + w.len))

/-- The set of a core whose valid tag equals a record's (R117). -/
def tagMatches (c : Core) (tag : Word64) (i : SetId) : Bool :=
  tag.getLsbD 63 && ((accSet c.ag i).tag == tag || (accSet c.sp i).tag == tag)

/-- Change the in-flight counts for a record's tag (R117, R135): one count by name serves the sets of both engines, since DRN_INFLIGHT
has one field for each name (DESIGN CHOICE, log entry 80). -/
def countInflight (c : Core) (tag : Word64) (up : Bool) : Core :=
  let d := c.drn
  let step (x : BitVec 16) : BitVec 16 := if up then x + 1 else if x = 0 then 0 else x - 1
  let d := if tagMatches c tag .x then { d with inflightX := step d.inflightX } else d
  let d := if tagMatches c tag .y then { d with inflightY := step d.inflightY } else d
  { c with drn := d }

/-- NPART of the share an owner core holds of an operation. -/
def ownerParts (s : State) (k : CoreId) (opidx : Nat) : Nat :=
  match coreRun s k with
  | none => 0
  | some (_, r) => match findShare r k opidx with
    | some sl => if sl.role = 1 then sl.part else 0
    | none => 0

def tagOp (tag : Word64) : Nat := tag.toNat / 2 ^ 48 % 2 ^ 12

/-- The header line of a record opens it (R116, R117, R174). Records past NPART or for a set already read fault the owner (R120). -/
def openRecord (s : State) (k : CoreId) (w : Window) (o : Nat) (bs : List Byte) : State :=
  let tag := BitVec.ofNat 64 (fieldAt bs 0 8)
  let nr := fieldAt bs 8 2
  let nc := fieldAt bs 10 2
  let part := fieldAt bs 12 1
  let len := if w.kind = 2 then 16 + 8 * nr * nc else 16 + 128 * nc
  let c := getCore s k
  let counted := w.kind == 2 && (tagMatches c tag .x || tagMatches c tag .y)
  let r : Record :=
    { base := o, tag := tag, nrows := nr, ncols := nc, part := part, got := 0, len := len, landed := false,
      counted := counted, isNull := false, vals := [] }
  let excess := w.kind == 2 && (c.readTags.contains tag ||
    decide (ownerParts s k (tagOp tag) ≤ (c.records.filter (fun x => x.tag == tag)).length))
  let s := updCore s k (fun c =>
    let c := if counted then countInflight c tag true else c
    { c with records := c.records ++ [r] })
  if excess then drnFault s k 2 stStepFault (tagOp tag) c.seq.pc else s

/-- A record whose next line lies at an offset: the lines of a record come in order (R393, R406). -/
def awaitsLine (o : Nat) (x : Record) : Bool := !x.landed && !x.isNull && x.base + x.got == o

/-- A line of a record arrives at offset o of core k (R117): one that no open record awaits is a header; the last byte lands the
record, and the window's ARRIVAL object is signalled. -/
def recordLine (s : State) (k : CoreId) (o : Nat) (bs : List Byte) (f : Flit) : State :=
  match recordWindow s k o with
  | none => s
  | some w =>
    let s := if (getCore s k).records.any (awaitsLine o) then s else openRecord s k w o bs
    match (getCore s k).records.findIdx? (awaitsLine o) with
    | none => s
    | some i =>
      match (getCore s k).records[i]? with
      | none => s
      | some r =>
        let r := { r with got := r.got + bs.length }
        let done := decide (r.len ≤ r.got)
        let s := updCore s k (fun c =>
          let c := if done && r.counted then countInflight c r.tag false else c
          let vals := if done && w.kind == 3 then memRead c.plain (r.base + 16) (128 * r.ncols) else []
          { c with records := c.records.set i { r with landed := done, vals := vals } })
        if done then
          match tilePart s k.tile with
          | none => s
          | some p => arrive s p (tileNode k.tile) w f.origin
        else s

/-- The answer that gives a source router its credit back (R377). -/
def returnCredit (s : State) (f : Flit) : State :=
  if f.src = 0 then s else send s { f with src := f.dst, dst := f.src, kind := .creditReturn, payload := [] }

/-- Bytes committed for a copy engine (R355). -/
def countEngine (s : State) (f : Flit) : State :=
  match flitEngine f with
  | none => s
  | some e => countCopy s e f.part.toNat f.payload.length 0 0

/-- The partition in a flit's header. -/
def flitPart (f : Flit) : Option PartId := if h : f.part.toNat < 12 then some ⟨f.part.toNat, h⟩ else none

/-- A write flit commits at its place (R237, R239, R244, R377, R407); one for an offset that no row of R402 names writes nothing. -/
def commitWrite (f : Flit) (s : State) : State :=
  match placeOf f.addr.toNat with
  | some (.plain k o) =>
    let port := flitPort f
    match access (getCore s k) port true o with
    | .faults b =>
      let s := match originCore s f.origin with
        | none => s
        | some (c, pc) =>
          if aborting s c then s else
          raiseCore (updCore s k (fun x => { x with pln := { x.pln with fault := x.pln.fault ||| BitVec.ofNat 32 (2 ^ b) } }))
            c stStepFault 0 pc
      returnCredit (failRun s f.origin) f
    | _ =>
      let s := updCore (writePlain s k port o f.payload) k (fun c => afterAccess c port true (o + f.payload.length - 1))
      let s := returnCredit (countEngine s f) f
      if port == .rx then recordLine s k o f.payload f else s
  | some pl =>
    match flitPart f with
    | some p => countEngine (tierWrite s p pl f.payload) f
    | none => s
  | none => s

/-- FLIT_WRITE (R407): a write flit reaches its destination, is filtered and commits; records are counted. -/
def execFlitWrite (src dst : NodeId) (s : State) : Out :=
  deliver src dst .write (fun f s => wakeSender (commitWrite f s) f) s

/-- Read one line for a read request: the response carries 64 bytes. -/
def answerRead (f : Flit) (s : State) : State :=
  let respond (s : State) (bs : List Byte) : State :=
    send s { f with src := f.dst, dst := f.src, kind := .readResponse, payload := bs }
  match placeOf f.addr.toNat with
  | some (.plain k o) =>
    match access (getCore s k) .ce false o with
    | .faults b =>
      let s := match originCore s f.origin with
        | none => s
        | some (c, pc) =>
          if aborting s c then s else
          raiseCore (updCore s k (fun x => { x with pln := { x.pln with fault := x.pln.fault ||| BitVec.ofNat 32 (2 ^ b) } }))
            c stStepFault 0 pc
      respond (failRun s f.origin) (List.replicate 64 0)
    | _ =>
      let x := readPlain s k .ce o 64
      respond (updCore x.2 k (fun c => afterAccess c .ce false (o + 63))) x.1
  | some (.hbm t o) => respond (countHbm s t false 64) (memRead s.tiles[t].hbm o 64)
  | some pl => match flitPart f with
    | some p => respond s (tierRead s p pl 64)
    | none => s
  | none => s

/-- FLIT_READ_REQUEST (R393). -/
def execFlitReadRequest (src dst : NodeId) (s : State) : Out := deliver src dst .readRequest answerRead s

/-- The working place of an engine that holds a descriptor. -/
def placeOfRun (x : CopyEngine) (id : Nat) : Option (Fin 4) :=
  (List.finRange 4).find? (fun i => match x.running[i] with | some r => r.id == id | none => false)

/-- A response line reaches the engine that asked (R393). -/
def takeResponse (f : Flit) (s : State) : State :=
  match f.origin with
  | .engine e id _ =>
    match placeOfRun (getEngine s e) id with
    | none => s
    | some i =>
      match (getEngine s e).running[i] with
      | none => s
      | some r =>
        let a := f.addr.toNat
        pump e i (setRun s e i (some { r with need := r.need.filter (fun x => x != a), got := r.got ++ [(a, f.payload)] }))
  | _ => s

/-- FLIT_READ_RESPONSE (R393). -/
def execFlitReadResponse (src dst : NodeId) (s : State) : Out := deliver src dst .readResponse takeResponse s

/-- FLIT_SIGNAL (R369): the add reaches the object's node, where OBJECT_ADD_COMMIT commits it. -/
def execFlitSignal (src dst : NodeId) (s : State) : Out :=
  deliver src dst .signal (fun f s =>
    match objAt f.addr with
    | none => s
    | some o =>
      let a : PendingAdd :=
        { obj := o, addend := BitVec.ofNat 32 (fieldAt f.payload 0 4), src := f.origin,
          ack := match f.origin with | .core _ => true | _ => false, part := f.part.toNat, xid := f.xid }
      { s with adds := s.adds ++ [a] }) s

/-- FLIT_WAIT_REGISTRATION (R370): a remote WAIT reaches its object. -/
def execFlitWaitRegistration (src dst : NodeId) (s : State) : Out :=
  deliver src dst .waitRegistration (fun f s =>
    match f.origin, objAt f.addr with
    | .core k, some o => registerWait s o k
    | _, _ => s) s

/-- FLIT_WAIT_RELEASE (R374): the outcome reaches the waiting core. -/
def execFlitWaitRelease (src dst : NodeId) (s : State) : Out :=
  deliver src dst .waitRelease (fun f s =>
    match f.origin with
    | .core k => completeWait s k (fieldAt f.payload 0 1 == 1)
    | _ => s) s

/-- FLIT_COMMIT_ACK (R369): a SIGNAL to another node completes. -/
def execFlitCommitAck (src dst : NodeId) (s : State) : Out :=
  deliver src dst .commitAck (fun f s =>
    match f.origin with
    | .core k => match (getCore s k).blocked with
      | .signal _ _ _ true => unblockCore s k
      | _ => s
    | _ => s) s

/-- Hand record lines to a tile's router (R377, R406): each goes out with a credit of its window, in order; lines without
one wait in the outbox. -/
def flushLines (t : TileId) : List Flit → List Flit → State → State
  | [], kept, s => updTile s t (fun x => { x with outbox := kept })
  | f :: fs, kept, s =>
    if kept.any (fun g => flitLane s g == flitLane s f) || !creditUsable s t f.addr.toNat then flushLines t fs (kept ++ [f]) s
    else flushLines t fs kept (send (addCredit s t f.addr.toNat (-1)) f)

/-- Let the lines that wait at a router go out as far as their credits allow. -/
def flushOutbox (s : State) (t : TileId) : State := flushLines t s.tiles[t].outbox [] s

/-- Hand a record to the router of core k's tile, one line after another. -/
def sendRecord (s : State) (k : CoreId) (addr : Nat) (bs : List Byte) : State :=
  let part := match tilePart s k.tile with | some p => BitVec.ofNat 4 p.val | none => 0xF
  let dst := match placeOf addr with | some pl => placeNode pl | none => 0
  let fs : List Flit := (cutLines addr bs).map (fun x =>
    { src := tileNode k.tile, dst := dst, part := part, kind := .write, addr := BitVec.ofNat 56 x.1, payload := x.2,
      origin := .core k, xid := 0, seqs := [] })
  let s := accrueTile s k.tile
  flushOutbox (updTile s k.tile (fun t => { t with outbox := t.outbox ++ fs })) k.tile

/-- FLIT_CREDIT_RETURN (R377): the source router has its credit back, and lines that waited for one go on. -/
def execFlitCreditReturn (src dst : NodeId) (s : State) : Out :=
  deliver src dst .creditReturn (fun f s =>
    match nodeTile dst with
    | none => s
    | some t => pumpAll (flushOutbox (addCredit (accrueTile s t) t f.addr.toNat 1) t)) s

/-- FLIT_REFUSAL (R407): the source faults the step that sent the flit, and records ADDR. -/
def execFlitRefusal (src dst : NodeId) (s : State) : Out :=
  deliver src dst .refusal (fun f s =>
    match originCore s f.origin with
    | none => s
    | some (k, pc) => pasFault s k 1 f.addr 0 pc) s

/-! ## Replays and a pass going down (R395, R396) -/

/-- A pass of a tile is down: its state, and PAS_FAULT.DOWN (R413, R417). -/
def endDown (dir : Nat) (x : Tile) : Tile :=
  let p := { x.pas with fault := x.pas.fault ||| 4 }
  { x with pas := match dir with
      | 0 => { p with cw := 0 }
      | 1 => { p with ccw := 0 }
      | _ => { p with spoke := 0 } }

/-- PASS_DOWN (R396): every step in flight faults, and later enqueues and loads are refused. A ring pass reads down at both of
its tiles, a spoke at its tile and in PAS_HLINK (log entry 79). A step that waits for its re-run
faults with the others and is not run again. The fault of each step is recorded for the lowest core of its partition. -/
def passDown (s : State) (t : TileId) (dir : Fin 3) : State :=
  let s := updTile s t (endDown dir.val)
  let s := match dir.val with
    | 0 => updTile s (nextTile t) (endDown 1)
    | 1 => updTile s (prevTile t) (endDown 0)
    | _ => updHub s (fun h => { h with hlink := h.hlink &&& ~~~(BitVec.ofNat 24 (3 * 4 ^ t.val)) })
  let s := updHub s (fun h => { h with passDown := true })
  forAll allParts (fun s p =>
    match allTiles.find? (fun t => partHasTile s p t) with
    | none => s
    | some t' =>
      raisePart (updPart s p (fun q => { q with run := q.run.map (fun r => { r with rerunPending := false }) })) p
        { code := stPassDown, opidx := 0, pc := 0, core := ⟨t', 0⟩ }) s

/-- PASS_REPLAY (R395, R396): a CRC failure makes the sender replay. It is counted where it is received; the sixteenth
replay of a flit that fails in a row takes the pass down, one that succeeds starts the count again. -/
def execPassReplay (t : TileId) (dir : Fin 3) (ok : Bool) (s : State) : Out :=
  if !powered s then .next s else
  let s := updTile s t (fun x =>
    let p := x.pas
    let p := match dir.val with
      | 0 => { p with retryCw := satAdd p.retryCw 1 }
      | 1 => { p with retryCcw := satAdd p.retryCcw 1 }
      | _ => { p with retrySpoke := satAdd p.retrySpoke 1 }
    { x with pas := { p with fails := p.fails.set dir (if ok then 0 else p.fails[dir] + 1) } })
  .next (if s.tiles[t].pas.fails[dir] = 16 then passDown s t dir else s)

end Sys2Proof.Machine
end

