-- ==== Sys2Proof/Machine/Operands.lean ====
section
/-! DEFINITION. The fields of an operation-table entry (R60, R61, R123, R199, R277) as the engines read them. -/

namespace Sys2Proof.Machine

/-! ## Format word (R60) -/

def opWBits (o : Op) : Nat := bitsOf o.format.toNat 0 4 + 1
def opWzp (o : Op) : Bool := o.format.getLsbD 4
def opGroup (o : Op) : Nat := 32 * 2 ^ bitsOf o.format.toNat 5 2
def opABits (o : Op) : Nat := 4 * (bitsOf o.format.toNat 8 2 + 1)
def opAzp (o : Op) : Bool := o.format.getLsbD 10
/-- 0 per token, 1 per group, 2 none. -/
def opAscale (o : Op) : Nat := bitsOf o.format.toNat 11 2
def opOfmt (o : Op) : OutFmt := outFmtOf (bitsOf o.format.toNat 13 3)
def opStoch (o : Op) : Bool := o.format.getLsbD 16
def opStream (o : Op) : Nat := bitsOf o.format.toNat 17 4
def opOexp (o : Op) : Int := toSigned (bitsOf o.format.toNat 24 8) 8

/-- Weight planes p (R32). -/
def opPlanes (o : Op) : Nat := if opWzp o then opWBits o + 1 else opWBits o

/-- Activation mantissa width q (R35). -/
def opQ (o : Op) : Nat := if opAzp o then opABits o + 1 else opABits o

/-! ## Numeric word (R61) -/

def opAnchor (o : Op) : Int := toSigned (bitsOf o.numeric.toNat 0 16) 16
def opAeLo (o : Op) : Int := toSigned (bitsOf o.numeric.toNat 16 8) 8
def opAeHi (o : Op) : Int := toSigned (bitsOf o.numeric.toNat 24 8) 8
def opWeLo (o : Op) : Int := toSigned (bitsOf o.numeric.toNat 32 8) 8
def opWeHi (o : Op) : Int := toSigned (bitsOf o.numeric.toNat 40 8) 8
def opNadd (o : Op) : Nat := bitsOf o.numeric.toNat 48 8

/-! ## Drain word (R123) -/

/-- 0 CONVERT, 1 EXPORT, 2 LIST_MERGE. -/
def dwCmode (w : Word32) : Nat := bitsOf w.toNat 0 2
/-- 0 none, 1 add, 2 multiply. -/
def dwFuse (w : Word32) : Nat := bitsOf w.toNat 3 2
def dwFfmt (w : Word32) : Nat := bitsOf w.toNat 5 3
def dwFexp (w : Word32) : Int := toSigned (bitsOf w.toNat 8 8) 8
def dwFbcast (w : Word32) : Bool := w.getLsbD 16
def dwClipc (w : Word32) : Bool := w.getLsbD 17
def dwWelem (w : Word32) : Bool := w.getLsbD 18
def dwTopk (w : Word32) : Bool := w.getLsbD 19
def dwK (w : Word32) : Nat := bitsOf w.toNat 20 6 + 1
def dwTokenMajor (w : Word32) : Bool := bitsOf w.toNat 26 2 == 1

/-! ## Approximation word (R199) -/

def opTauE (o : Op) : Int := toSigned (bitsOf o.approx.toNat 8 8) 8
def opTauM (o : Op) : Nat := bitsOf o.approx.toNat 16 4
/-- 0 off, 1 pinned, 2 adaptive. -/
def opSkip (o : Op) : Nat := bitsOf o.approx.toNat 22 2
def opAmax (o : Op) : Nat := bitsOf o.approx.toNat 24 2
/-- 0 none, 1 MAKEUP, 2 COUNT, 3 OFF. -/
def opPpol (o : Op) : Nat := bitsOf o.approx.toNat 26 2
def opCheckP (o : Op) : Nat := bitsOf o.approx.toNat 28 4
def opThetaPred (o : Op) : Int := toSigned (bitsOf o.approx.toNat 32 16) 16
def opThetaCheck (o : Op) : Int := toSigned (bitsOf o.approx.toNat 48 16) 16

/-! ## Engine options and engine block (R277) -/

def opTwoShare (o : Op) : Bool := o.engopt.getLsbD 0
/-- R_g and C_g of R72; a sparse pass has 32 lanes and 32 columns (R139). -/
def opRg (o : Op) : Nat := if o.engine = 1 then 32 else if opTwoShare o then 64 else 32
def opCg (o : Op) : Nat := if o.engine = 1 then 32 else if opTwoShare o then 64 else 128
def opPredBase (o : Op) : Nat := fieldAt o.engblk 0 4
def opCheckBase (o : Op) : Nat := fieldAt o.engblk 4 4
def opScoreStride (o : Op) : Nat := fieldAt o.engblk 8 4
def opPbound (o : Op) : Nat := fieldAt o.engblk 12 4
def opNbands (o : Op) : Nat := fieldAt o.engblk 0 2
def opFunc (o : Op) : Nat := fieldAt o.engblk 0 2
def opInBase (o : Op) : Nat := fieldAt o.engblk 4 4
def opInStride (o : Op) : Nat := fieldAt o.engblk 8 4
def opAuxBase (o : Op) : Nat := fieldAt o.engblk 12 4
def opAuxStride (o : Op) : Nat := fieldAt o.engblk 16 4
def opInOff (o : Op) : Nat := fieldAt o.engblk 0 4
def opAuxOff (o : Op) : Nat := fieldAt o.engblk 4 4
def opOutOff (o : Op) : Nat := fieldAt o.engblk 8 4
/-- Fine-unit kind: 0 FDOT, 1 FNORM, 2 FEMB, 3 FOPT. -/
def opFineKind (o : Op) : Nat := bitsOf o.engopt.toNat 0 2
def opFineBf16 (o : Op) : Bool := o.engopt.getLsbD 2

/-- The drain word in force for a share: DRAIN_OVR where it is not zero (R279, R303). -/
def drainOf (o : Op) (sl : Slice) : Word32 := if sl.drainOvr = 0 then o.drain else sl.drainOvr

/-- K_pad of a reduction of length k (R81). -/
def padK (o : Op) (k : Nat) : Nat := opGroup o * ceilDiv k (opGroup o)

/-- Scale groups of a reduction of length k. -/
def groupsOf (o : Op) (k : Nat) : Nat := ceilDiv k (opGroup o)

/-! ## Mantissas (R32 to R44, R202) -/

/-- The weight mantissa of a code with its zero-point byte (R32 to R34, R39); a check operation's code bit is the top plane
of a weight and counts −1 (R207). -/
def weightMantissa (o : Op) (code zp : Nat) : Int :=
  let b := opWBits o
  if opCheckP o ≠ 0 then (if code % 2 = 1 then -1 else 0)
  else if opWzp o then (code % 2 ^ b : Nat) - (zp % 2 ^ b : Nat)
  else if b = 1 then (if code % 2 = 1 then -1 else 1)
  else toSigned code b

/-- The activation mantissa of a code with its zero-point byte (R35): the zero point is signed, in the low w bits of its
byte. -/
def actMantissa (o : Op) (code zp : Nat) : Int :=
  let w := opABits o
  let m := toSigned code w
  if opAzp o then m - toSigned zp (min w 8) else m

/-- Input clipping of R43: the mantissa, its exponent, whether the value changed (R44). -/
def clipAct (o : Op) (m e : Int) : Int × Int × Bool :=
  if opAeHi o < e then
    let v := m * 2 ^ (e - opAeHi o).toNat
    let top : Int := 2 ^ (opQ o - 1)
    let v' := if top - 1 < v then top - 1 else if v < -top then -top else v
    (v', opAeHi o, decide (v' ≠ v))
  else if e < opAeLo o then
    let d := (opAeLo o - e).toNat
    let v := rneShift m d
    (v, opAeLo o, decide (v * 2 ^ d ≠ m))
  else (m, e, false)

/-- τ = TAU_M × 2^(TAU_E + a) of R201. -/
def tauOf (o : Op) (a : Nat) : Exact := { m := opTauM o, e := opTauE o + a }

/-- An activation is skipped when |m × 2^e| < τ (R202). -/
def skips (o : Op) (a : Nat) (m e : Int) : Bool :=
  opSkip o != 0 && !dyLe (tauOf o a) (dyAbs { m := m, e := e })

/-- Promotion of a chunk (R46): shifted, to the right arithmetically; a check operation adds CHECK_P − 1 (R207). -/
def promote (o : Op) (chunk ew ea : Int) : Int :=
  shiftInt chunk (ew + ea - opAnchor o + (if opCheckP o ≠ 0 then (opCheckP o : Int) - 1 else 0))

end Sys2Proof.Machine
end

