-- ==== Sys2Proof/Machine/Region.lean ====
section
/-! DEFINITION. Compressed regions in the plain (R141, R142, R155 to R159): header, lane entries, the lanes of a band. -/

namespace Sys2Proof.Machine

/-- A compressed region in the plain: its offset and REGION_LEN, and the header fields that lead into it (R141). -/
structure Region where
  base : Nat
  len : Nat
  bandOff : Nat
  recBase : Nat
  valBase : Nat
  expBase : Nat

/-- The region at an offset of core c's plain. The header gives its offsets and length; FMT, WBITS, GSIZE, K and NBANDS are the
operation's, which a region that was copied and not bound may contradict (DESIGN CHOICE, log entry 80). -/
def regionAt (c : Core) (base : Nat) : Region :=
  let h := memRead c.plain base 64
  { base := base, len := fieldAt h 28 4, bandOff := fieldAt h 12 4, recBase := fieldAt h 16 4, valBase := fieldAt h 20 4,
    expBase := fieldAt h 24 4 }

/-- Byte of the plain at an offset; one past its end is not stated (log entry 81). -/
def plainByte (c : Core) (a : Nat) : Byte := if a < plainSize then memGet c.plain a else Config.pastPlain a

/-- Byte at an offset of the region, taken modulo REGION_LEN (R159). With REGION_LEN 0, which leaves the remainder undefined,
the place is open (log entry 81). -/
def regionByte (c : Core) (r : Region) (off : Nat) : Nat :=
  (plainByte c (r.base + (if r.len = 0 then Config.noLength off else off % r.len))).toNat

def regionNat (c : Core) (r : Region) (off n : Nat) : Nat :=
  (List.range n).foldr (fun i acc => regionByte c r (off + i) + 256 * acc) 0

/-- A lane entry of a band (R142). -/
structure LaneEntry where
  recOff : Nat
  valOff : Nat
  expOff : Nat
  row : Nat
  valid : Bool
  seg : Bool
  nnz : Nat
  start : Nat

def laneEntry (c : Core) (r : Region) (band lane : Nat) : LaneEntry :=
  let o := r.bandOff + (band * 32 + lane) * 32
  let f := regionNat c r
  { recOff := f o 4, valOff := f (o + 4) 4, expOff := f (o + 8) 4, row := f (o + 12) 3, valid := f (o + 15) 1 % 2 == 1,
    seg := f (o + 15) 1 / 2 % 2 == 1, nnz := f (o + 16) 2 % 2 ^ 13, start := f (o + 18) 3 % 2 ^ 17 }

/-- Lanes of a band that are fed: VALID with a ROW below M (R155, R159). M is the step's M of the operation; the effective extent
and m0 of the instruction select no rows (DESIGN CHOICE, log entry 80). -/
def liveLanes (c : Core) (r : Region) (band m : Nat) : List (Nat × LaneEntry) :=
  ((List.range 32).map (fun l => (l, laneEntry c r band l))).filter (fun x => x.2.valid && decide (x.2.row < m))

/-- Lanes that the drain sees: a segment lane is merged into the lowest segment lane of its row (R156). A lane of the same ROW
without SEG takes no part in the merge (DESIGN CHOICE, log entry 80). -/
def drainLanes (ls : List (Nat × LaneEntry)) : List (Nat × LaneEntry) :=
  ls.filter (fun x => !(x.2.seg && ls.any (fun y => y.2.seg && y.2.row == x.2.row && decide (y.1 < x.1))))

/-- A band with lanes that are merged into another (R149, R156). -/
def mergesLanes (live : List (Nat × LaneEntry)) : Bool := decide ((drainLanes live).length < live.length)

end Sys2Proof.Machine
end

