-- ==== Sys2Proof/Machine/Array.lean ====
section
/-! DEFINITION. The array group (R66 to R105) and what it shares with the sparse engine: issue of MTILE (R301 to R303, R308,
R323), accumulator sets and tags (R106 to R112), feeders, skip and predictor (R201 to R212), timing errors (R213 to R218). -/

namespace Sys2Proof.Machine

/-! ## Lookups -/

def coreConst (s : State) (k : CoreId) : Option Constellation :=
  match tilePart s k.tile with
  | none => none
  | some p => s.parts[p].const

def coreOp (s : State) (k : CoreId) (opidx : Nat) : Option Op :=
  match coreConst s k with
  | none => none
  | some c => findOp c opidx

/-- A change to the record of an operation in the running step (R57, R223). -/
def updRec (s : State) (k : CoreId) (opidx : Nat) (f : OpRecord → OpRecord) : State :=
  match tilePart s k.tile with
  | none => s
  | some p => updPart s p (fun q => { q with run := q.run.map (fun r =>
      { r with recs := r.recs.map (fun x => if x.opidx = opidx then f x else x) }) })

/-- An invocation of an operation begins on a core: its record takes the tolerance line in force on the tile (R219, R223). -/
def beginOp (s : State) (k : CoreId) (opidx : Nat) : State :=
  let tl := s.tiles[k.tile].pwr.tl.toNat
  updRec s k opidx (fun x => { x with ran := true, tl := max x.tl tl })

/-- The a in force for an operation (R201): 0 unless its skip is adaptive; the step's a is 0 in a FIXED partition. -/
def stepA (r : StepRun) (o : Op) : Nat := if opSkip o = 2 then min r.aStep (opAmax o) else 0

/-! ## Issue of MTILE -/

/-- Passes of an instruction: P_M × P_N on the array group (R81), bands times token blocks on the sparse engine (R151). -/
def passCount (o : Op) (m n : Nat) : Nat :=
  if o.engine = 1 then opNbands o * ceilDiv n 32 else ceilDiv m (opRg o) * ceilDiv n (opCg o)

/-- Row blocks (array group) or bands (sparse engine): the inner loop of the passes. -/
def innerCount (o : Op) (m : Nat) : Nat := if o.engine = 1 then opNbands o else ceilDiv m (opRg o)

/-- s(r + i) split into its low and high halves. -/
def lowHalf (c : Core) (r : SReg) (i : Nat) : Nat := (sregAt c r i).toNat % 2 ^ 32
def highHalf (c : Core) (r : SReg) (i : Nat) : Nat := (sregAt c r i).toNat / 2 ^ 32

/-- Base of stream i of a pair of base and stride (R301), modulo 2^32. -/
def streamBase (base stride i : Nat) : Nat := (base + i * stride) % 2 ^ 32

/-- Weight streams of the grouping that carry a row of the instruction. -/
def weightStreams (o : Op) (m : Nat) : Nat := if opTwoShare o && decide (32 < m) then 2 else 1

/-- S_A of R301. -/
def actPerBlock (o : Op) : Nat := if opTwoShare o then 2 else 4

/-- Activation streams that carry a column of the instruction: stream i of block n is σ = n × S_A + i (R301). -/
def actStreams (o : Op) (n : Nat) : List Nat :=
  (List.range (ceilDiv n (opCg o) * actPerBlock o)).filter (fun g =>
    decide (g / actPerBlock o * opCg o + 32 * (g % actPerBlock o) < n))

/-- Every plain offset that an MTILE names lies below 4 MiB and is aligned (R323 ADDR). -/
def mtileAddrOk (o : Op) (j : MtileJob) : Bool :=
  let ok (a : Nat) : Bool := decide (a < plainSize) && a % 64 == 0
  decide (j.lbase < plainSize) && j.lbase % 8 == 0 &&
  (if o.engine = 1 then ok j.a0 && ok j.a1 && ok j.a3
   else (List.range (weightStreams o j.m)).all (fun i => ok (streamBase j.a0 j.a0b i) && ok (streamBase j.a1 j.a1b i)) &&
     (actStreams o j.n).all (fun g => ok (streamBase j.a2 j.a2b g) && ok (streamBase j.a3 j.a3b g)))

/-- A null arrival at the window that holds an address (R308, R379): a signal to its ARRIVAL object and no bytes; a
row-function part counts it as a record without block sums. With no admitting window the step faults. -/
def nullArrival (s : State) (k : CoreId) (addr : Nat) (opidx : Nat) (pc : BitVec 13) (tag : Word64) (kind : Nat) : State :=
  match tilePart s k.tile with
  | none => s
  | some p =>
    match windowAt s p (tileNode k.tile) addr 1 with
    | none => pasFault s k 0 (BitVec.ofNat 56 addr) opidx pc
    | some w =>
      let s := arrive s p (tileNode k.tile) w (.core k)
      if w.kind = 3 then
        match placeOf addr with
        | some (.plain d o) =>
          let r : Record :=
            { base := o, tag := tag, nrows := 0, ncols := 0, part := kind, got := 0, len := 0, landed := true, counted := false,
              isNull := true, vals := [] }
          updCore s d (fun c => { c with records := c.records ++ [r] })
        | _ => s
      else s

/-- The slot of a contributor's record in its owner's window (R284). -/
def recordAddr (o : Op) (sl : Slice) : Nat := sl.combineAddr + sl.part * combineSlot o

/-- Set or clear the hold on a set (R303). -/
def setHeld (c : Core) (e : MatEngine) (i : SetId) (h : Bool) : Core :=
  let u := matUnit c e
  setMatUnit c e (setAccSet u i { accSet u i with held := h })

/-- The descriptor tag of a pass (R106). -/
def makeTag (opidx invoc pass : Nat) : Word64 :=
  BitVec.ofNat 64 (2 ^ 63 + opidx % 2 ^ 12 * 2 ^ 48 + invoc % 2 ^ 24 * 2 ^ 24 + pass % 2 ^ 24)

def tagValid (t : Word64) : Bool := t.getLsbD 63
def clearValid (t : Word64) : Word64 := t &&& 0x7FFFFFFFFFFFFFFF

/-- MTILE (R301 to R303, R308 to R310, R323): the shape is clamped to the step's, the operand offsets are taken, and the
instruction joins its engine's queue with its automatic drains in the drain port's order. A zero extent completes at issue. -/
def execMtile (k : CoreId) (rd ra : SReg) (add : Bool) (set : SetId) (hold : Bool) (op : OpIdx) (s : State) : Out :=
  if !(Instr.mtile k rd ra add set hold op).wf then .refused .neverLoaded else
  match coreRun s k, coreOp s k op.toNat with
  | some (_, r), some o =>
    if !canIssue s k || decide (1 < o.engine) then .next s else
    let c := getCore s k
    let eng : MatEngine := if o.engine = 1 then .sparse else .array
    let sh := findShape r op.toNat
    let sl := findShare r k op.toNat
    let sm := match sh, sl with | some h, some l => shareM h l | _, _ => 0
    let sk := match sh, sl with | some h, some l => shareK h l | _, _ => 0
    let na := match sh with | some h => h.n | none => 0
    let m := min (lowHalf c rd 0) (sm - highHalf c rd 0)
    let n := min (lowHalf c rd 1) (na - highHalf c rd 1)
    let dw := match sl with | some l => drainOf o l | none => o.drain
    let j : MtileJob :=
      { opidx := op.toNat, set := set, add := add, hold := hold, onHeld := add && (accSet (matUnit c eng) set).held, m := m, n := n, k := min (lowHalf c rd 2) sk,
        m0 := highHalf c rd 0, n0 := highHalf c rd 1, lbase := highHalf c rd 2,
        a0 := lowHalf c ra 0, a0b := highHalf c ra 0, a1 := lowHalf c ra 1, a1b := highHalf c ra 1,
        a2 := lowHalf c ra 2, a2b := highHalf c ra 2, a3 := lowHalf c ra 3, a3b := highHalf c ra 3,
        invoc := r.stepno.toNat % 2 ^ 24, drainWord := dw, pc := c.seq.pc, ticket := c.tickets }
    if m = 0 ∨ n = 0 then
      let s := updCore s k retire
      match sl with
      | some l => .next (if dwCmode dw = 1 && !hold then nullArrival s k (recordAddr o l) op.toNat c.seq.pc 0 0 else s)
      | none => .next s
    else
      let issued := updCore s k (fun c => { c with seq := { c.seq with issued := c.seq.issued + 1 } })
      let u := matUnit c eng
      let passes := passCount o m n
      if !mtileAddrOk o j then .next (seqFault issued k 0 stStepFault op.toNat c.seq.pc)
      else if (add || hold) && decide (1 < passes) then .next (seqFault issued k 2 stStepFault op.toNat c.seq.pc)
      else if ((accSet u set).held && !add) || (decide (1 < passes) && (accSet u (otherSet set)).held) then
        .next (seqFault issued k 3 stStepFault op.toNat c.seq.pc)
      else if 4 ≤ u.queue.length then .next (stall s k)
      else .next (updCore s k (fun c =>
        let c := setMatUnit c eng { u with queue := u.queue ++ [j] }
        let c := if hold then setHeld c eng set true else if add then setHeld c eng set false else c
        let c := if hold then c else { c with port := c.port ++ [.auto eng set passes j.ticket] }
        retire { c with tickets := c.tickets + 1 }))
  | _, _ => .next s

/-! ## Feeders (R74 to R83, R344, R345) -/

/-- One stream of bank lines for a feeder: its port, base, ring span, and how many bank lines the pass needs of it. -/
structure StreamSpec where
  port : Port
  base : Nat
  ring : Option Nat
  need : Nat

/-- Bank lines that hold the first n lines of len bytes. -/
def bankLines (n len : Nat) : Nat := ceilDiv (n * len) 64

/-- Steps S of one pass (R81). -/
def passSteps (o : Op) (job : MtileJob) : Nat := padK o job.k / 4 * opPlanes o

/-- Slots of one pass, in each of which a line of every stream enters (R75, R79): S − p + 32, none with K = 0. -/
def passSlots (o : Op) (job : MtileJob) : Nat := if groupsOf o job.k = 0 then 0 else passSteps o job - opPlanes o + 32

/-- Side words that the lines of the first t slots need: the group of the latest k-group they open (R77). -/
def sideWords (o : Op) (job : MtileJob) (t : Nat) : Nat :=
  min (groupsOf o job.k) ((t - 1) / opPlanes o * 4 / opGroup o + 1)

/-- The weight streams of pass (n, j) for its first t slots: side words up to row block j, lines up to line j·S + t; a finished
ring is emptied to the end of its slot (R345). -/
def weightSpecs (c : Core) (o : Op) (job : MtileJob) (j t : Nat) : List StreamSpec :=
  let g := groupsOf o job.k
  if g = 0 then [] else
  let n := j * passSteps o job + t
  let len := lineLen (opWBits o) (opPlanes o)
  let last := j + 1 == innerCount o job.m && t == passSlots o job
  (List.range (weightStreams o job.m)).flatMap (fun i =>
    let base := streamBase job.a0 job.a0b i
    let ring := ringSpan c base
    let need := if ring.isSome && last then ceilDiv (n * len) 1024 * 16 else bankLines n len
    [{ port := .wf, base := streamBase job.a1 job.a1b i, ring := none, need := j * g + sideWords o job t },
     { port := .wf, base := base, ring := ring, need := need }])

/-- The activation streams of column block n for the first t slots of a pass (R77, R301). -/
def actSpecs (c : Core) (o : Op) (job : MtileJob) (n t : Nat) : List StreamSpec :=
  if groupsOf o job.k = 0 then [] else
  let len := lineLen (opABits o) (opPlanes o)
  ((actStreams o job.n).filter (fun x => x / actPerBlock o == n)).flatMap (fun x =>
    let base := streamBase job.a2 job.a2b x
    let ring := ringSpan c base
    let need := if ring.isSome && t == passSlots o job then ceilDiv (t * len) 1024 * 16 else bankLines t len
    [{ port := .af, base := streamBase job.a3 job.a3b x, ring := none, need := if opAscale o = 1 then sideWords o job t else 1 },
     { port := .af, base := base, ring := ring, need := need }])

/-- The plain offset of bank line q of a stream (R344). -/
def specOffset (sp : StreamSpec) (q : Nat) : Nat := sp.base + lineOffset sp.ring q 64

/-- Read bank lines of one stream in order until n more are in or one blocks or faults (R79, R239, R243, R246). -/
def feedLines (k : CoreId) (opidx : Nat) (pc : BitVec 13) (sp : StreamSpec) : Nat → Feed → State → Feed × State
  | 0, f, s => (f, s)
  | n + 1, f, s =>
    let a := specOffset sp f.lines.length
    if plainSize ≤ a then (f, seqFault s k 0 stStepFault opidx pc) else
    match accessFor (getCore s k) sp.port false a none with
    | .proceeds =>
      let x := readPlain s k sp.port a 64
      feedLines k opidx pc sp n { lines := f.lines ++ [x.1] } (updCore x.2 k (fun c => afterAccess c sp.port false a))
    | .blocked slot => (f, noteTagBlock s k sp.port slot none)
    | .retained => (f, s)
    | .faults b => (f, plnFault s k b stStepFault opidx pc)

/-- Feed every stream of a list as far as it goes. -/
def feedAll (k : CoreId) (opidx : Nat) (pc : BitVec 13) : List StreamSpec → List Feed → State → List Feed × State
  | [], _, s => ([], s)
  | sp :: sps, fs, s =>
    let f := (fs.head?).getD { lines := [] }
    let r := feedLines k opidx pc sp (sp.need - f.lines.length) f s
    let t := feedAll k opidx pc sps fs.tail r.2
    (r.1 :: t.1, t.2)

/-- Whether every stream has the lines the pass needs. -/
def fed (sps : List StreamSpec) (fs : List Feed) : Bool :=
  decide (sps.length = fs.length) && (sps.zip fs).all (fun x => decide (x.1.need ≤ x.2.lines.length))

/-- Byte x of a stream that has been fed. -/
def feedByte (f : Feed) (x : Nat) : Byte := (((f.lines[x / 64]?).getD [])[x % 64]?).getD 0

/-- Code m of lane r's record for stream k-group kap: line kap·p + r, record r / p (R75). -/
def feedCode (f : Feed) (w p r kap m : Nat) : Nat :=
  let b := (kap * p + r) * lineLen w p * 8 + r / p * 4 * w + w * m
  leNat ((List.range 4).map (fun i => feedByte f (b / 8 + i))) / 2 ^ (b % 8) % 2 ^ w

/-- Exponent and zero-point bytes of lane r in side word i (R77). -/
def sideExp (f : Feed) (i r : Nat) : Int := toSigned (feedByte f (64 * i + 2 * r)).toNat 8
def sideZp (f : Feed) (i r : Nat) : Nat := (feedByte f (64 * i + 2 * r + 1)).toNat

/-! ## Sets: opening a pass (R107 to R112) -/

/-- The set of a pass: the named one for even passes, the other for odd ones (R81). -/
def passSet (j : MtileJob) (pass : Nat) : SetId := if pass % 2 = 0 then j.set else otherSet j.set

/-- Whether a pass may open its set: VALID is 0, or ADD continues the total of a held set (R109). -/
def setFree (u : MatUnit) (j : MtileJob) (pass : Nat) : Bool := !tagValid (accSet u (passSet j pass)).tag || (j.add && j.onHeld)

/-- Open a set for a pass: the tag is written with VALID (R107). Under ADD the total stays; else it is to be written anew. -/
def openSet (c : Core) (e : MatEngine) (j : MtileJob) (pass : Nat) : Core :=
  let u := matUnit c e
  let i := passSet j pass
  let a := accSet u i
  let a := { a with tag := makeTag j.opidx j.invoc pass, phase := .filling, drainWord := j.drainWord, pc := j.pc, lbase := j.lbase,
                     ticket := j.ticket }
  let a := if j.add then a else { a with chunks := [], totals := [], laneTotals := [], nrows := 0, ncols := 0 }
  setMatUnit c e (setAccSet u i a)

/-- Column block of a pass and its place in the inner loop (R81, R151). -/
def passBlock (o : Op) (j : MtileJob) (pass : Nat) : Nat × Nat := (pass / innerCount o j.m, pass % innerCount o j.m)

/-- A bubble (R79): every feeder holds its next line; the slots that pass and which kind of feeder lacked its line are counted
(R100, R103, R105), the time left free (log entry 10). -/
def bubble (s : State) (k : CoreId) (wOk aOk : Bool) : State :=
  let (v, s) := drawFree s
  updCore s k (fun c =>
    let d := c.fdr
    let d := if wOk then d else { d with wdry := true, wdrySlots := satAdd d.wdrySlots v.toNat }
    let d := if aOk then d else { d with adry := true, adrySlots := satAdd d.adrySlots v.toNat }
    { c with fdr := d, arr := { c.arr with bubbles := c.arr.bubbles + v } })

/-- Issue slots of a pass: in each slot every feeder has its line, or all of them issue a bubble and hold (R79). -/
def feedSlots (k : CoreId) (o : Op) (n j : Nat) : Nat → MatRun → State → MatRun × State
  | 0, r, s => (r, s)
  | fuel + 1, r, s =>
    let c := getCore s k
    let ws := weightSpecs c o r.job j (r.slot + 1)
    let xs := actSpecs c o r.job n (r.slot + 1)
    let w := feedAll k r.job.opidx r.job.pc ws r.wfeeds s
    let a := feedAll k r.job.opidx r.job.pc xs r.afeeds w.2
    let r := { r with wfeeds := w.1, afeeds := a.1 }
    if fed ws w.1 && fed xs a.1 then feedSlots k o n j fuel { r with slot := r.slot + 1 } a.2
    else (r, bubble a.2 k (fed ws w.1) (fed xs a.1))

/-- Slots a to b of pass (n, j) have been issued: the steps among them and the lines first read in them are counted (R83, R99,
R104). -/
def countSlots (o : Op) (job : MtileJob) (n j a b : Nat) (c : Core) : Core :=
  let steps := min b (passSteps o job) - min a (passSteps o job)
  let fresh := if j = 0 then b - a else max b (32 - opPlanes o) - max a (32 - opPlanes o)
  let acts := ((actStreams o job.n).filter (fun x => x / actPerBlock o == n)).length
  { c with arr := { c.arr with slots := c.arr.slots + BitVec.ofNat 64 steps },
           fdr := { c.fdr with wlines := satAdd c.fdr.wlines (weightStreams o job.m * fresh),
                               alines := satAdd c.fdr.alines (acts * (b - a)) } }

/-- Two consecutive instructions overlap without an idle slot (R84): WBITS, WZP, ABITS, AZP and grouping agree. -/
def sameForm (a b : Op) : Bool :=
  opWBits a == opWBits b && opWzp a == opWzp b && opABits a == opABits b && opAzp a == opAzp b && opTwoShare a == opTwoShare b

/-- Every line of the pass under way has been issued: its last step has entered the array. -/
def lastStepIn (o : Op) (r : MatRun) : Bool := r.opened && decide (passSlots o r.job ≤ r.slot)

/-- FDR_STATUS.AMERGE and WMERGE (R83, R84, R103): shown from the last line of one read of a stream until the pass it ends is
complete, where the next read follows at once (DESIGN CHOICE, log entry 46). The weight stream runs on within a column block. -/
def markMerge (s : State) (k : CoreId) : State :=
  let c := getCore s k
  let op (r : MatRun) : Option Op := coreOp s k r.job.opidx
  let follows := match c.ag.tail.getLast?, c.ag.running with
    | some a, some b => (match op a, op b with
      | some x, some y => b.opened && a.job.k != 0 && b.job.k != 0 && sameForm x y
      | _, _ => false)
    | _, _ => false
  let next := match c.ag.running with
    | some r => (match op r with
      | some o => lastStepIn o r && decide (r.job.k ≠ 0) && decide (r.pass + 1 < passCount o r.job.m r.job.n) && setFree c.ag r.job (r.pass + 1)
      | none => false)
    | none => false
  let again := match c.ag.running with
    | some r => (match op r with | some o => decide ((r.pass + 1) % innerCount o r.job.m = 0) | none => false)
    | none => false
  updCore s k (fun c => { c with fdr := { c.fdr with amerge := follows || next, wmerge := follows || (next && again) } })

/-- Feed the pass of one run as far as its lines go: the run, and whether every slot of the pass has been issued. -/
def feedRun (k : CoreId) (r : MatRun) (s : State) : MatRun × Bool × State :=
  match coreOp s k r.job.opidx with
  | none => (r, true, s)
  | some o =>
    let (n, j) := passBlock o r.job r.pass
    let x := feedSlots k o n j (passSlots o r.job - r.slot) r s
    (x.1, lastStepIn o x.1, updCore x.2 k (countSlots o r.job n j r.slot x.1.slot))

/-- Feed the last slots of the runs in the tail, oldest first: where one lacks a line every feeder holds (R79, R84). -/
def feedTail (k : CoreId) : List MatRun → State → List MatRun × Bool × State
  | [], s => ([], true, s)
  | r :: rs, s =>
    let x := feedRun k r s
    if !x.2.1 then (x.1 :: rs, false, x.2.2) else
    let y := feedTail k rs x.2.2
    (x.1 :: y.1, y.2)

/-- Run the feeders of the array group: the tail first, then the pass under way (R79, R83, R84). -/
def feedPass (s : State) (k : CoreId) : State :=
  let t := feedTail k (getCore s k).ag.tail s
  let s := updCore t.2.2 k (fun c => { c with ag := { c.ag with tail := t.1 } })
  let s := match (getCore s k).ag.running with
    | none => s
    | some r =>
      if !r.opened || !t.2.1 then s else
      let x := feedRun k r s
      updCore x.2.2 k (fun c => { c with ag := { c.ag with running := some x.1 } })
  markMerge s k

/-- A matrix engine freezes on a set that is not drained (R86, R109, R152). What STATE read before is kept for an instruction with
K = 0, which goes on without a dawn or a step (R93). -/
def freezeUnit (e : MatEngine) (c : Core) : Core :=
  match e with
  | .array =>
    { c with arr := { c.arr with state := .frozen, beforeFreeze := if c.arr.state == .frozen then c.arr.beforeFreeze else c.arr.state } }
  | .sparse => { c with spx := { c.spx with state := .frozen } }

/-- STATE of the array group as it opens a pass: running, or with K = 0, which issues no slot, as before (log entry 80). -/
def openState (a : ArrRegs) (k : Nat) : ArrState :=
  if k ≠ 0 then .running else if a.state == .frozen then a.beforeFreeze else a.state

/-- STATE of the sparse engine in a pass. The merge of R151 lies within the pass and has no event of its own, so a pass with merged
lanes reads running or merging by a free value (R162; DESIGN CHOICE, log entry 80). -/
def sparseState (s : State) (k : CoreId) (j : MtileJob) (band : Nat) : SpxState × State :=
  let c := getCore s k
  let m := match (coreRun s k).bind (fun x => findShape x.2 j.opidx) with | some sh => sh.m | none => 0
  if j.k != 0 && mergesLanes (liveLanes c (regionAt c j.a0) band m) then
    let (v, s) := drawFree s
    (if v.getLsbD 0 then .merging else .running, s)
  else (.running, s)

/-- Open the pass under way of a matrix engine if its set is free, else freeze (R86, R109, R152); the time frozen is left
free (R101, R165, log entry 10). -/
def tryOpen (s : State) (k : CoreId) (e : MatEngine) : State :=
  let u := matUnit (getCore s k) e
  match u.running with
  | none => s
  | some r =>
    if r.opened then s
    else if setFree u r.job r.pass then
      let (v, s) := drawFree s
      let band := match coreOp s k r.job.opidx with | some o => (passBlock o r.job r.pass).2 | none => 0
      let (spx, s) : SpxState × State := match e with | .array => (.running, s) | .sparse => sparseState s k r.job band
      let s := updCore s k (fun c =>
        let c := openSet c e r.job r.pass
        let u := matUnit c e
        let c := setMatUnit c e { u with running := some { r with opened := true } }
        let front := passSet r.job r.pass == .y
        match e with
        | .array =>
          let hc := if c.arr.state == .frozen then c.arr.freezeHc + v else c.arr.freezeHc
          { c with arr := { c.arr with state := openState c.arr r.job.k, frontSet := front, freezeHc := hc } }
        | .sparse =>
          let hc := if c.spx.state == .frozen then satAdd c.spx.stallHc v.toNat else c.spx.stallHc
          { c with spx := { c.spx with state := spx, frontSet := front, stallHc := hc, band := BitVec.ofNat 16 band } })
      match e with
      | .array => feedPass s k
      | .sparse => s
    else updCore s k (freezeUnit e)

/-! ## Row mask of the predictor (R208 to R211) -/

/-- An INT16 score of a row and column, at base + row × SCORE_STRIDE + 2 × column. -/
def scoreAt (c : Core) (base stride row col : Nat) : Int := toSigned (leNat (memRead c.plain (base + row * stride + 2 * col) 2)) 16

/-- A row of the mask (R208): active, missed, made up. -/
structure RowMark where
  active : Bool
  miss : Bool
  madeUp : Bool

/-- What the mask of an instruction's rows counts: rows not active, misses, made up, lost. -/
structure MaskCount where
  skipped : Nat
  misses : Nat
  madeup : Nat
  lost : Nat

/-- The mask of one block of rows from (active, miss) of each (R208): under MAKEUP the first ⌊skipped/4⌋ misses are made up. -/
def maskBlock (ppol : Nat) (rows : List (Bool × Bool)) : List RowMark :=
  let skipped := (rows.filter (fun x => !x.1)).length
  let budget := if ppol = 1 then skipped / 4 else 0
  (rows.foldl (fun (acc : List RowMark × Nat) x =>
    let up := x.2 && decide (acc.2 < budget)
    (acc.1 ++ [{ active := x.1, miss := x.2, madeUp := up }], if up then acc.2 + 1 else acc.2)) ([], 0)).1

/-- Rows of a core's share, cut into the operation's blocks of 256 rows. -/
def maskRows (sl : Slice) (rows : Nat) : List (List Nat) :=
  if rows = 0 then [] else
  let first := sl.row0 / 256
  let last := (sl.row0 + rows - 1) / 256
  (List.range (last - first + 1)).map (fun b => (List.range rows).filter (fun r => (sl.row0 + r) / 256 == first + b))

/-- The row mask of a share for the token columns of an instruction, and the counts of the instruction's rows (R208, R210): the
mask is formed over whole blocks, whichever of their rows the instruction covers. Every row is computed without a predictor. -/
def rowMask (c : Core) (o : Op) (sl : Slice) (sh : OpShape) (j : MtileJob) : List Bool × MaskCount :=
  if opPpol o = 0 then (List.replicate j.m true, { skipped := 0, misses := 0, madeup := 0, lost := 0 }) else
  let status (row : Nat) : Bool × Bool :=
    let active := (List.range j.n).any (fun n =>
      decide (opThetaPred o ≤ scoreAt c (opPredBase o) (opScoreStride o) row (j.n0 + n)))
    let miss := opPpol o != 3 && !active && (List.range j.n).any (fun n =>
      decide (opThetaCheck o ≤ scoreAt c (opCheckBase o) (opScoreStride o) row (j.n0 + n)))
    (active, miss)
  let marks := (((maskRows sl (shareM sh sl)).flatMap (fun rows => maskBlock (opPpol o) (rows.map status))).drop j.m0).take j.m
  let count (f : RowMark → Bool) : Nat := (marks.filter f).length
  (marks.map (fun x => x.active || x.madeUp),
   { skipped := count (fun x => !x.active), misses := count (fun x => x.miss), madeup := count (fun x => x.madeUp),
     lost := count (fun x => x.miss && !x.madeUp) })

/-- The bank lines of the scores that the mask of an instruction reads: those of every row of its share (R208). -/
def scoreLines (o : Op) (sl : Slice) (sh : OpShape) (j : MtileJob) : List Nat :=
  if opPpol o = 0 then [] else
  let bases := if opPpol o = 3 then [opPredBase o] else [opPredBase o, opCheckBase o]
  bases.flatMap (fun b => (List.range (shareM sh sl)).flatMap (fun r =>
    (lineSpans (b + r * opScoreStride o + 2 * j.n0) (2 * j.n)).map (fun x => x.1)))

/-- The first score line that port AF cannot read, with what its access comes to. -/
def scoreAccess (c : Core) (ls : List Nat) : Option (Access × Nat) :=
  (ls.map (fun a => (accessFor c .af false a none, a))).find? (fun x => x.1 != .proceeds)

/-! ## MTILE_START -/

/-- A new run of the job at the front of a queue. -/
def newMatRun (j : MtileJob) (mask : List Bool) : MatRun :=
  { job := j, pass := 0, opened := false, slot := 0, wfeeds := [], afeeds := [], computeRow := mask }

/-- Count the row mask in the operation's record (R223). -/
def recordMask (s : State) (k : CoreId) (m : KeptMask) : State :=
  updRec s k m.opidx (fun x => { x with
    predSkipped := x.predSkipped + m.skipped, predMisses := x.predMisses + m.misses,
    predMadeup := x.predMadeup + m.madeup, predLost := x.predLost + m.lost })

/-- Form the row mask of an instruction: its score lines are read on AF, ARR_PRED counts it (R208, R227), and it is kept for a
re-run of the step. -/
def formMask (s : State) (k : CoreId) (o : Op) (sl : Slice) (sh : OpShape) (j : MtileJob) : State :=
  let y := spoilLines k .af [] (scoreLines o sl sh j) s s
  let x := rowMask (getCore y.1 k) o sl sh j
  updCore y.2 k (fun c =>
    let c := (scoreLines o sl sh j).foldl (fun c a => afterAccess c .af false a) c
    { c with arr := { c.arr with predSkipped := satAdd c.arr.predSkipped x.2.skipped, predMisses := satAdd c.arr.predMisses x.2.misses,
                                 predMadeup := satAdd c.arr.predMadeup x.2.madeup, predLost := satAdd c.arr.predLost x.2.lost },
             masks := c.masks ++ [{ ticket := j.ticket, opidx := j.opidx, rows := x.1, skipped := x.2.skipped, misses := x.2.misses,
                                    madeup := x.2.madeup, lost := x.2.lost }] })

/-- The mask that an MTILE's first attempt formed in this step (R256). -/
def keptMask (c : Core) (j : MtileJob) : Option KeptMask := c.masks.find? (fun m => m.ticket == j.ticket && m.opidx == j.opidx)

/-- The front MTILE of an engine may follow: nothing runs, or on the array group the last step of the running instruction has
entered cell (0, 0), where the two agree in form, else its last line (R84). -/
def mayFollow (s : State) (k : CoreId) (e : MatEngine) : Bool :=
  let u := matUnit (getCore s k) e
  match u.running with
  | none => true
  | some r => match e with
    | .sparse => false
    | .array => match coreOp s k r.job.opidx, u.queue.head?.bind (fun j => coreOp s k j.opidx) with
      | some o, some next =>
        r.opened && r.pass + 1 == passCount o r.job.m r.job.n &&
          decide ((if sameForm o next then passSteps o r.job else passSlots o r.job) ≤ r.slot)
      | _, _ => false

/-- A dawn that an MTILE with steps goes through, with its group asleep or in dusk (R88, R93, R102). -/
def dawnFor (c : Core) (j : MtileJob) : BitVec 16 :=
  if (c.arr.state == .asleep || c.arr.state == .dusk) && j.k != 0 then satAdd c.arr.dawns 1 else c.arr.dawns

/-- The front MTILE needs a set that is not drained: its engine freezes before its first pass, and its queue entry stays (R86,
R109, R152). With K = 0 the group goes through no dawn (R93). -/
def freezeFront (s : State) (k : CoreId) (e : MatEngine) (j : MtileJob) : State :=
  updCore s k (fun c => match e with
    | .array => let d := dawnFor c j
      freezeUnit .array { c with arr := { c.arr with dawns := d } }
    | .sparse => freezeUnit .sparse c)

/-- Engine registers as an instruction begins (R98, R162, R225). FMT stays when the sparse engine is idle again: R162 does not say
when it returns to 0b00 (DESIGN CHOICE, log entry 80). A K = 0 instruction, which issues no slot, sets PLANES, SHARE
and FRONT_SET too and leaves STATE: R98 does not say what it shows (DESIGN CHOICE, log entry 80). -/
def beginRegs (o : Op) (r : StepRun) (j : MtileJob) (e : MatEngine) (c : Core) : Core :=
  match e with
  | .array =>
    let f := if opSkip o = 0 then c.fdr else
      { c.fdr with tauA := BitVec.ofNat 2 (stepA r o), tauSkip := BitVec.ofNat 2 (opSkip o), tauM := BitVec.ofNat 4 (opTauM o),
                   tauE := BitVec.ofInt 8 (opTauE o) }
    { c with fdr := f,
             arr := { c.arr with dawns := dawnFor c j, share := opTwoShare o, planes := BitVec.ofNat 4 (opPlanes o),
                                 state := if j.k = 0 || c.arr.state == .frozen then c.arr.state else .running } }
  | .sparse =>
    { c with spx := { c.spx with fmt := BitVec.ofNat 2 o.engopt.toNat, state := if c.spx.state == .frozen then .frozen else .running } }

/-- Begin the front MTILE of an engine's queue (R85, R88, R107, R112, R208, R310): the engine can take it and its first pass may
open its set, else the engine freezes. An asleep array group goes through dawn first, unless K = 0 (R93). -/
def startEngine (s : State) (k : CoreId) (eng : MatEngine) : State :=
  let c := getCore s k
  let u := matUnit c eng
  match u.queue, coreRun s k with
  | j :: rest, some (_, r) =>
    match coreOp s k j.opidx, findShare r k j.opidx, findShape r j.opidx with
    | some o, some sl, some sh =>
      if !mayFollow s k eng then s
      else if j.add && !tagValid (accSet u j.set).tag then drnFault s k 0 stStepFault j.opidx j.pc
      else if !setFree u j 0 then freezeFront s k eng j
      else match if (keptMask c j).isSome then none else scoreAccess c (scoreLines o sl sh j) with
        | some (.faults b, _) => plnFault s k b stStepFault j.opidx j.pc
        | some (.blocked slot, _) => noteTagBlock s k .af slot none
        | some _ => s
        | none =>
          let s := if opPpol o = 0 || (keptMask c j).isSome then s else formMask s k o sl sh j
          let mask := if opPpol o = 0 then none else keptMask (getCore s k) j
          let s := match mask with | some m => recordMask s k m | none => s
          let s := beginOp s k j.opidx
          let s := updCore s k (fun c =>
            let u := matUnit c eng
            let run := newMatRun j (match mask with | some m => m.rows | none => List.replicate j.m true)
            beginRegs o r j eng (setMatUnit c eng
              { u with queue := rest, running := some run, tail := u.tail ++ u.running.toList }))
          tryOpen s k eng
    | _, _, _ => s
  | _, _ => s

/-- MTILE_START (R85, R310): the front MTILE of an engine's queue begins, or its engine freezes on a set that is not drained. -/
def execMtileStart (k : CoreId) (eng : MatEngine) (s : State) : Out :=
  .next (if powered s && tileAwake s k.tile then startEngine s k eng else s)

/-! ## What a pass of the array group computes -/

/-- An activation of lane r (column) for element x of the reduction: mantissa and exponent after de-quantisation, clipping,
padding and skip, with whether it clipped and whether it was skipped (R40, R43, R44, R202). -/
def actElement (o : Op) (a kLen : Nat) (code : Nat) (zp : Nat) (e : Int) (x : Nat) : Int × Int × Bool × Bool :=
  if kLen ≤ x then (0, e, false, false) else
  let c := clipAct o (actMantissa o code zp) (if opAscale o = 2 then 0 else e)
  let sk := skips o a c.1 c.2.1
  (if sk then 0 else c.1, c.2.1, c.2.2, sk)

/-! ### Bit planes (R67 to R71) -/

/-- The table builder uses SGN mode for 1-bit symmetric weights, BIN mode for all others and for a check operation (R69, R207). -/
def sgnMode (o : Op) : Bool := opPlanes o == 1 && opCheckP o == 0

/-- Bit π of a weight mantissa in p-bit two's complement; for a 1-bit symmetric weight its code bit (R68). -/
def planeBit (o : Op) (π : Nat) (m : Int) : Nat :=
  if sgnMode o then (if m < 0 then 1 else 0) else (m % 2 ^ opPlanes o).toNat / 2 ^ π % 2

/-- The 4-bit index of a cell in the step of plane π: bit j is that of element j of the k-group (R68). -/
def planeIndex (o : Op) (π : Nat) (ws : List Int) : Nat := ws.foldr (fun m acc => planeBit o π m + 2 * acc) 0

/-- Width of a table entry: q + 2 bits in BIN mode, q + 3 in SGN mode (R69). -/
def entryBits (o : Op) : Nat := opQ o + (if sgnMode o then 3 else 2)

/-- Entry T[i] of a column's table for four activation mantissas (R69). -/
def tableEntry (o : Op) (xs : List Int) (i : Nat) : BitVec 20 :=
  let t := ((List.range xs.length).zip xs).foldl (fun t x =>
    let b : Int := (i / 2 ^ x.1 % 2 : Nat)
    t + (if sgnMode o then 1 - 2 * b else b) * x.2) 0
  BitVec.ofInt 20 (toSigned (t % 2 ^ entryBits o).toNat (entryBits o))

/-- The plane register after a step of its k-group (R70). -/
def planeStep (o : Op) (first : Bool) (P : BitVec 28) (t : BitVec 20) : BitVec 28 :=
  let t := t.signExtend 28
  if first then (if sgnMode o then t else -t) else P + P + t

/-- The plane register after the p steps of a k-group; step i carries plane p − 1 − i (R67, R70, R71). -/
def planeSum (o : Op) (ws xs : List Int) : BitVec 28 :=
  (List.range (opPlanes o)).foldl (fun P i =>
    planeStep o (i == 0) P (tableEntry o xs (planeIndex o (opPlanes o - 1 - i) ws))) 0

/-- What a cell works on in k-group kg of its pass: its four weight and its four activation mantissas. `kap0` is the first k-group
of the row block in the weight stream. -/
structure CellFeed where
  weights : Nat → List Int
  acts : Nat → List Int
  expW : Nat → Int
  expA : Nat → Int

def cellFeed (o : Op) (a kLen : Nat) (wl wside al aside : Feed) (j r c : Nat) : CellFeed :=
  let p := opPlanes o
  let groups := groupsOf o kLen
  let kap0 := j * (padK o kLen / 4)
  let ia (γ : Nat) : Nat := if opAscale o = 1 then γ else 0
  let el (kg m : Nat) : Nat := 4 * kg + m
  { weights := fun kg => (List.range 4).map (fun m =>
      if kLen ≤ el kg m then 0 else
        weightMantissa o (feedCode wl (opWBits o) p r (kap0 + kg) m) (sideZp wside (j * groups + el kg m / opGroup o) r)),
    acts := fun kg => (List.range 4).map (fun m =>
      (actElement o a kLen (feedCode al (opABits o) p c kg m) (sideZp aside (ia (el kg m / opGroup o)) c)
        (sideExp aside (ia (el kg m / opGroup o)) c) (el kg m)).1),
    expW := fun γ => sideExp wside (j * groups + γ) r,
    expA := fun γ => (clipAct o 0 (if opAscale o = 2 then 0 else sideExp aside (ia γ) c)).2.1 }

/-- The chunk of a scale group: the plane registers of its k-groups added one after another (R41, R70). -/
def cellChunk (o : Op) (x : CellFeed) (γ : Nat) : Word32 :=
  (List.range (opGroup o / 4)).foldl (fun ch i =>
    let kg := γ * (opGroup o / 4) + i
    ch + (planeSum o (x.weights kg) (x.acts kg)).signExtend 32) 0

/-- What the whole reduction of a pass adds to the total of a cell: chunk by chunk, promoted (R46, R48, R110). -/
def cellTotal (o : Op) (x : CellFeed) (groups : Nat) : Int :=
  ((List.range groups).map (fun γ => promote o (cellChunk o x γ).toInt (x.expW γ) (x.expA γ))).foldl (· + ·) 0

/-- Counts of one column of activations: elements, clips, skipped, gated k-groups (R44, R203, R206). -/
structure ColCount where
  elems : Nat
  clips : Nat
  skipped : Nat
  gated : Nat

def columnCount (o : Op) (a kLen : Nat) (al aside : Feed) (c : Nat) : ColCount :=
  let p := opPlanes o
  let g := opGroup o
  let el (x : Nat) := actElement o a kLen (feedCode al (opABits o) p c (x / 4) (x % 4))
    (sideZp aside (if opAscale o = 1 then x / g else 0) c) (sideExp aside (if opAscale o = 1 then x / g else 0) c) x
  let xs := (List.range kLen).map el
  { elems := kLen, clips := (xs.filter (fun v => v.2.2.1)).length, skipped := (xs.filter (fun v => v.2.2.2)).length,
    gated := ((List.range (padK o kLen / 4)).filter (fun kg => (List.range 4).all (fun m => (el (4 * kg + m)).1 == 0))).length }

/-- A total of a set by row and column of its extent; a cell outside it holds an undefined value, here a free one (R92). -/
def oldTotal (s : State) (a : AccSet) (r c : Nat) : Word64 :=
  if r < a.nrows ∧ c < a.ncols then (a.totals[r * a.ncols + c]?).getD (Config.freeValue (s.freeNext + r * 4096 + c))
  else Config.freeValue (s.freeNext + r * 4096 + c)

/-- Feeds of stream i: side array and lines. -/
def feedPair (fs : List Feed) (i : Nat) : Feed × Feed :=
  ((fs[2 * i]?).getD { lines := [] }, (fs[2 * i + 1]?).getD { lines := [] })

/-- What tolerated chunk-adder errors added to the chunk of an element, promoted with the exponents of a group that the model
leaves open (R216, R218). -/
def chunkError (s : State) (o : Op) (a : AccSet) (i : Nat) : Int :=
  match a.chunks[i]? with
  | none => 0
  | some d =>
    if d = 0 then 0 else
    let span := (opWeHi o + opAeHi o - opWeLo o - opAeLo o + 1).toNat
    shiftInt d.toInt (opWeLo o + opAeLo o - opAnchor o + ((Config.freeValue (s.freeNext + 8192 + i)).toNat % span : Nat))

/-- The last k-group of a pass for which a column's table is built: one that is zero-gated leaves table and plane registers as they
are (R69, R70, R203). -/
def lastBuilt (o : Op) (kLen : Nat) (x : CellFeed) : Option Nat :=
  (List.range (padK o kLen / 4)).reverse.find? (fun kg => (x.acts kg).any (fun m => m != 0))

/-- The set of a pass with its extent and totals as the pass leaves them (R92, R93, R110, R111); a row that is not fed keeps its
plane registers and has total 0 (R209). -/
def fillSet (s : State) (k : CoreId) (o : Op) (r : StepRun) (sl : Slice) (run : MatRun) : AccSet :=
  let job := run.job
  let (n, j) := passBlock o job run.pass
  let a := accSet (matUnit (getCore s k) .array) (passSet job run.pass)
  let nr := min (opRg o) (job.m - j * opRg o)
  let nc := min (opCg o) (job.n - n * opCg o)
  let rows := (List.range nr).map (fun i => j * opRg o + i)
  let cell (rl c : Nat) : CellFeed :=
    let wf := feedPair run.wfeeds (rl / 32)
    let af := feedPair run.afeeds (c / 32)
    cellFeed o (stepA r o) job.k wf.2 wf.1 af.2 af.1 j (rl % 32) (c % 32)
  let totals := rows.flatMap (fun m => (List.range nc).map (fun c =>
    let rl := m - j * opRg o
    let old : Word64 := if job.add then oldTotal s a rl c else 0
    if !((run.computeRow[m]?).getD true) then 0
    else if job.k = 0 then old
    else
      old + BitVec.ofInt 64 (cellTotal o (cell rl c) (groupsOf o job.k) + chunkError s o a (rl * nc + c))))
  let fed (rl : Nat) : Bool := decide (rl < nr) && (run.computeRow[j * opRg o + rl]?).getD true
  let planes := if job.k = 0 then a.planes else (List.range (max a.planes.length (128 * nr))).map (fun i =>
    let x := cell (i / 128) (i % 128)
    match if fed (i / 128) && decide (i % 128 < nc) then lastBuilt o job.k x else none with
    | some kg => planeSum o (x.weights kg) (x.acts kg)
    | none => (a.planes[i]?).getD 0)
  { a with phase := .complete, nrows := nr, ncols := nc, rows := rows.map (fun m => sl.row0 + job.m0 + m),
           col0 := job.n0 + n * opCg o, firstPass := j == 0, lbase := job.lbase, planes := planes, chunks := [], totals := totals }

/-- The table registers of the columns after a pass: the last table built for each (R69, R203). -/
def lastTables (o : Op) (r : StepRun) (run : MatRun) (old : List (List (BitVec 20))) : List (List (BitVec 20)) :=
  let n := (passBlock o run.job run.pass).1
  let nc := min (opCg o) (run.job.n - n * opCg o)
  (List.range (max old.length nc)).map (fun c =>
    let af := feedPair run.afeeds (c / 32)
    let x := cellFeed o (stepA r o) run.job.k { lines := [] } { lines := [] } af.2 af.1 0 0 (c % 32)
    match if c < nc then lastBuilt o run.job.k x else none with
    | some kg => (List.range 16).map (tableEntry o (x.acts kg))
    | none => (old[c]?).getD (List.replicate 16 0))

/-- Whether this pass counts the activations of its columns: the share includes row 0 of the operation, and the pass holds
the first rows of the share (R58). -/
def countsInputs (sl : Slice) (job : MtileJob) (j : Nat) : Bool := sl.row0 == 0 && job.m0 == 0 && j == 0

/-- Counters of a finished array pass (R57, R58, R206, R226); a skipped element is counted once for the operation, as IN_ELEMS
is. -/
def countPass (s : State) (k : CoreId) (o : Op) (r : StepRun) (sl : Slice) (run : MatRun) : State :=
  let job := run.job
  if job.k = 0 then s else
  let (n, j) := passBlock o job run.pass
  let nc := min (opCg o) (job.n - n * opCg o)
  let cols := (List.range nc).map (fun c =>
    let af := feedPair run.afeeds (c / 32)
    columnCount o (stepA r o) job.k af.2 af.1 (c % 32))
  let sum (f : ColCount → Nat) : Nat := (cols.map f).foldl (· + ·) 0
  let gated := sum (fun x => x.gated) * (if opTwoShare o && decide (32 < job.m - j * opRg o) then 2 else 1)
  let skipped := if opSkip o = 0 then 0 else sum (fun x => x.skipped)
  let ins := countsInputs sl job j
  let s := updCore s k (fun c => { c with
    fdr := { c.fdr with skipped := satAdd c.fdr.skipped (if ins then skipped else 0), gated := satAdd c.fdr.gated gated } })
  updRec s k job.opidx (fun x => { x with
    inElems := x.inElems + (if ins then sum (fun y => y.elems) else 0),
    inClips := x.inClips + (if ins then sum (fun y => y.clips) else 0),
    skipElems := x.skipElems + (if ins then skipped else 0),
    gated := x.gated + gated, aUsed := stepA r o })

/-- The engine goes on after a pass: the next pass opens its set or freezes; after the last the instruction completes in its
class (R86, R311). A frozen engine stays so until its front MTILE can start. PLANES and FRONT_SET keep the instruction's p and set until
its last PASS_COMPLETE: R98 does not say what they read once its last step has left cell (0, 0) (DESIGN CHOICE, log entry 80). -/
def nextPass (s : State) (k : CoreId) (e : MatEngine) (o : Op) (run : MatRun) : State :=
  let job := run.job
  let pass := run.pass + 1
  if pass < passCount o job.m job.n then
    let keep := if pass % innerCount o job.m = 0 then [] else run.wfeeds
    let run := { run with pass := pass, opened := false, slot := 0, wfeeds := keep, afeeds := [] }
    tryOpen (updCore s k (fun c => setMatUnit c e { matUnit c e with running := some run })) k e
  else
    settle (updCore s k (fun c =>
      let c := setMatUnit c e { matUnit c e with running := none }
      match e with
      | .array => { c with arr := { c.arr with planes := 0, state := if c.arr.state == .running then .idleHold else c.arr.state } }
      | .sparse => { c with spx := { c.spx with state := if c.spx.state == .frozen then .frozen else .idle } })) k

/-- The instruction whose chunks are still to be completed first: the one in the tail, else the running one. -/
def oldestRun (u : MatUnit) : Option MatRun :=
  match u.tail with
  | r :: _ => some r
  | [] => u.running

/-- A set that a following ADD has opened again before the pass that fills it was complete stays open (R84, R109). -/
def keepOpen (u : MatUnit) (i : SetId) (a filled : AccSet) : AccSet :=
  let later := u.tail.tail ++ (if u.tail.isEmpty then [] else u.running.toList)
  if later.any (fun r => r.opened && passSet r.job r.pass == i) then { filled with phase := .filling, lbase := a.lbase } else filled

/-- A feeder's lines with those words free on which a write met their read while the pass ran (R251). -/
def spoilFeed (k : CoreId) (ws : List (Port × Nat × BitVec 8)) (sp : StreamSpec) (f : Feed) (s : State) : Feed × State :=
  (List.range f.lines.length).foldl (fun (acc : Feed × State) i =>
    let a := specOffset sp i
    let x := collide acc.2 k sp.port a 0xFF ((ws.filter (fun w => w.2.1 == a)).map (fun w => (w.1, w.2.2)))
    if x.1 = 0 then (acc.1, x.2) else
    let b := spoil x.2 x.1 0 ((acc.1.lines[i]?).getD [])
    ({ lines := acc.1.lines.set i b.1 }, b.2)) (f, s)

def spoilFeeds (k : CoreId) (ws : List (Port × Nat × BitVec 8)) : List StreamSpec → List Feed → State → List Feed × State
  | sp :: sps, f :: fs, s =>
    let x := spoilFeed k ws sp f s
    let y := spoilFeeds k ws sps fs x.2
    (x.1 :: y.1, y.2)
  | _, fs, s => (fs, s)

/-- A run with the lines of its pass as its feeders received them. -/
def spoilPass (s : State) (k : CoreId) (o : Op) (run : MatRun) : MatRun × State :=
  let c := getCore s k
  if c.ag.writes.isEmpty then (run, s) else
  let (n, j) := passBlock o run.job run.pass
  let w := spoilFeeds k c.ag.writes (weightSpecs c o run.job j run.slot) run.wfeeds s
  let a := spoilFeeds k c.ag.writes (actSpecs c o run.job n run.slot) run.afeeds w.2
  ({ run with wfeeds := w.1, afeeds := a.1 }, a.2)

/-- PASS_COMPLETE on the array group (R81, R85, R110): the oldest pass whose last step has entered the array is complete. -/
def arrayPassComplete (s : State) (k : CoreId) : State :=
  let c := getCore s k
  match oldestRun c.ag, coreRun s k with
  | some run, some (_, r) =>
    match coreOp s k run.job.opidx, findShare r k run.job.opidx with
    | some o, some sl =>
      if !lastStepIn o run then s else
      let i := passSet run.job run.pass
      let y := spoilPass s k o run
      let run := y.1
      let s := countStall y.2 k true
      let filled := keepOpen c.ag i (accSet c.ag i) (fillSet s k o r sl run)
      let s := countPass { s with freeNext := s.freeNext + 16384 } k o r sl run
      let s := updCore s k (fun c => { c with ag := { setAccSet c.ag i filled with writes := if c.ag.tail.isEmpty then [] else c.ag.writes },
                                              tables := if run.job.k = 0 then c.tables else lastTables o r run c.tables })
      markMerge (if c.ag.tail.isEmpty then nextPass s k .array o run
        else settle (updCore s k (fun c => { c with ag := { c.ag with tail := c.ag.tail.tail } })) k) k
    | _, _ => s
  | _, _ => s

/-! ## DUSK and timing errors -/

/-- DUSK (R89, R102): an idle array group with nothing queued powers down. -/
def execDusk (k : CoreId) (s : State) : Out :=
  let c := getCore s k
  if c.arr.state == .idleHold && c.ag.queue.isEmpty && c.ag.running.isNone && c.ag.tail.isEmpty then
    .next (updCore s k (fun c => { c with arr := { c.arr with state := .asleep, dusks := satAdd c.arr.dusks 1 } }))
  else .next s

/-- Whether a timing error is tolerated (R215 to R217): not in SERVICE, not in a FIXED partition, a tolerance line above 0,
bits below the line only, in a plane or chunk adder. -/
def tolerates (t : Tile) (stage : TimingStage) (diff : Word32) : Bool :=
  t.pwr.context != 0 && !t.pwr.reproFixed && (stage == .planeAdder || stage == .chunkAdder) && decide (diff.toNat < 2 ^ t.pwr.tl.toNat) && diff != 0

/-- The change a tolerated error makes to a register: any value its differing bits allow (R216, R218), times the doublings of
later planes for the plane register. -/
def errorAmount (o : Op) (stage : TimingStage) (diff : Word32) (v : Word64) : Int :=
  let d : Int := ((v.toNat % (2 * diff.toNat + 1) : Nat) : Int) - diff.toNat
  match stage with
  | .planeAdder => d * 2 ^ (v.toNat / 2 ^ 32 % opPlanes o)
  | _ => d

/-- The operation whose invocation an error concerns (R223): that of the engine's instruction, of the drain or merge under way, or of
the row function. -/
def timingOp (c : Core) (eng : MatEngine) (stage : TimingStage) : Option Nat :=
  match stage with
  | .drain => match c.active with
    | some (.drain e i _ _ _) => some (tagOp (accSet (matUnit c e) i).tag)
    | some (.merge op) => some op
    | _ => none
  | .rowfn => c.rfuRun.map (fun r => r.opidx)
  | _ => (oldestRun (matUnit c eng)).map (fun r => r.job.opidx)

/-- A replayed error (R215, R228): the stall of 2 hc counts in ARR_FREEZE, the replay in ARR_REPLAY and in its record. -/
def replay (s : State) (k : CoreId) (op : Option Nat) : State :=
  let s := updCore s k (fun c =>
    { c with arr := { c.arr with replays := satAdd c.arr.replays 1, freezeHc := c.arr.freezeHc + 2 } })
  match op with
  | some n => updRec s k n (fun x => { x with replays := x.replays + 1 })
  | none => s

/-- TIMING_ERROR (R213 to R218): replayed with a stall of 2 hc, or tolerated under a tolerance line, where it adds to the
chunk of one element of the set being filled. In CALIBRATION and TEST the self-check pattern runs in place of an operation (R580, R593): a
tolerated error changes that pattern's outputs only. -/
def execTimingError (k : CoreId) (eng : MatEngine) (set : SetId) (elem : Nat) (stage : TimingStage) (diff : Word32)
    (s : State) : Out :=
  let c := getCore s k
  if !powered s || !tileAwake s k.tile then .next s else
  let op := timingOp c eng stage
  let filling := (oldestRun (matUnit c eng)).isSome && (accSet (matUnit c eng) set).phase == .filling
  match (op.bind (fun n => coreOp s k n)) with
  | some o =>
    if filling && tolerates s.tiles[k.tile] stage diff then
      let (v, s) := drawFree s
      let s := updCore s k (fun c =>
        let u := matUnit c eng
        let a := accSet u set
        let ch := if elem < a.chunks.length then a.chunks else a.chunks ++ List.replicate (elem + 1 - a.chunks.length) 0
        let ch := ch.modify elem (fun x => x + BitVec.ofInt 32 (errorAmount o stage diff v))
        let c := if elem < 4096 then setMatUnit c eng (setAccSet u set { a with chunks := ch }) else c
        { c with arr := { c.arr with tolerated := satAdd c.arr.tolerated 1 } })
      .next (updRec s k o.opidx (fun x => { x with tolEvents := x.tolEvents + 1, tl := max x.tl (s.tiles[k.tile].pwr.tl.toNat) }))
    else .next (replay s k op)
  | none =>
    if tolerates s.tiles[k.tile] stage diff then
      .next (updCore s k (fun c => { c with arr := { c.arr with tolerated := satAdd c.arr.tolerated 1 } }))
    else .next (replay s k op)

end Sys2Proof.Machine
end

