-- ==== Sys2Proof/Machine/Port.lean ====
section
/-! DEFINITION. The drain port of a core: which drain waits for what (R115, R118, R119, R134), and since when its port or row
function waits for records. -/

namespace Sys2Proof.Machine

/-- The set whose drain the port would release next: a started explicit DRAIN, or the automatic drain at the port's front
when nothing is active (R312). Gives engine, set, whether automatic, ticket. -/
def nextDrain (c : Core) : Option (MatEngine × SetId × Bool × Nat) :=
  match c.active with
  | some (.drain e i a .waiting t) => some (e, i, a, t)
  | some _ => none
  | none => match c.port with
    | .auto e i _ t :: _ => some (e, i, true, t)
    | _ => none

/-- An engine still has to run an MTILE on the set that was issued before an explicit DRAIN of ticket t (R115). -/
def jobAhead (u : MatUnit) (i : SetId) (t : Nat) : Bool :=
  u.queue.any (fun j => j.set == i && decide (j.ticket < t)) ||
  (match u.running with
   | some r => r.job.set == i && decide (r.job.ticket < t)
   | none => false) ||
  u.tail.any (fun r => r.job.set == i && decide (r.job.ticket < t))

/-- The tail marker and last promotion of the work a drain is for are past (R115): an automatic drain reads the set that its
own MTILE filled, an explicit one the set as every earlier MTILE left it. -/
def tailPast (c : Core) (d : MatEngine × SetId × Bool × Nat) : Bool :=
  let u := matUnit c d.1
  let a := accSet u d.2.1
  a.phase == .complete && (if d.2.2.1 then a.ticket == d.2.2.2 else !jobAhead u d.2.1 d.2.2.2)

/-- The records that a drain combines: landed, with the set's tag (R118). -/
def landedRecords (c : Core) (tag : Word64) : List Record :=
  c.records.filter (fun r => r.tag == tag && r.landed && !r.isNull)

/-- In-flight arrival count of a set (R117). -/
def inflightOf (c : Core) : SetId → BitVec 16
  | .x => c.drn.inflightX
  | .y => c.drn.inflightY

/-- NPART of the owner of an operation whose drain converts; none combine otherwise (R118). -/
def combineParts (s : State) (k : CoreId) (a : AccSet) : Nat :=
  if dwCmode a.drainWord = 1 then 0 else ownerParts s k (tagOp a.tag)

/-- Records still to come for a drain whose set is otherwise ready (R118). -/
def recordsMissing (s : State) (k : CoreId) (d : MatEngine × SetId × Bool × Nat) : Bool :=
  let c := getCore s k
  let a := accSet (matUnit c d.1) d.2.1
  let n := combineParts s k a
  n != 0 && (decide ((landedRecords c a.tag).length < n) || inflightOf c d.2.1 != 0)

/-- The drain waits for landed records or an in-flight count of zero: DRN_STATUS.WAIT_REC (R134). -/
def waitRec (s : State) (k : CoreId) : Bool :=
  match nextDrain (getCore s k) with
  | some d => tailPast (getCore s k) d && recordsMissing s k d
  | none => false

/-- The drain waits for a tail marker or the final promotion: DRN_STATUS.WAIT_TAIL (R134). -/
def waitTail (s : State) (k : CoreId) : Bool :=
  match nextDrain (getCore s k) with
  | some d => !tailPast (getCore s k) d
  | none => false

/-- A row function waits for the other parts' records (R174). -/
def rowfnWaits (c : Core) : Bool :=
  match c.rfuRun with
  | some r => r.waiting
  | none => false

/-- Keep the tick since which core k waits for records. The COMBINE_TIMEOUT of a drain runs once its set is otherwise ready, not
while the tail marker is still outstanding, which R119 leaves open (DESIGN CHOICE, log entry 80). -/
def markRecWait (s : State) (k : CoreId) : State :=
  let w := waitRec s k || rowfnWaits (getCore s k)
  updCore s k (fun c => { c with recSince := if w then some (c.recSince.getD s.now) else none })

/-- Explicit DRAINs, merges and row functions that wait in the port's queue (R310). -/
def portQueued (c : Core) : Nat :=
  (c.port.filter (fun x => match x with | .auto .. => false | _ => true)).length

end Sys2Proof.Machine
end

