-- ==== Sys2Proof/Machine/Drain.lean ====
section
/-! DEFINITION. The drain (R115 to R138): DRAIN and LIST_MERGE, the release of a set with read-out, combine, conversion,
fused operation, top-k and write, and what ends a drain. -/

namespace Sys2Proof.Machine

/-! ## Issue (R303, R304, R310, R323) -/

/-- DRAIN (R304): an explicit drain of the held set joins the port's queue; a set that is not held faults the step, and one
whose VALID is 0 on both engines sets DRN_FAULT.TAG_INVALID too (R120). Where both engines hold a set of that name, it is the array group's (log entry 13). -/
def execDrain (k : CoreId) (set : SetId) (s : State) : Out :=
  .next (if canIssue s k then
    let c := getCore s k
    let e : Option MatEngine :=
      if (accSet c.ag set).held then some .array else if (accSet c.sp set).held then some .sparse else none
    match e with
    | none =>
      let s := seqFault (updCore s k (fun c => { c with seq := { c.seq with issued := c.seq.issued + 1 } })) k 4 stStepFault 0 c.seq.pc
      if tagValid (accSet c.ag set).tag || tagValid (accSet c.sp set).tag then s
      else drnFault s k 0 stStepFault (tagOp (accSet c.ag set).tag) c.seq.pc
    | some e =>
      if 16 ≤ portQueued c then stall s k
      else updCore s k (fun c =>
        let c := setHeld c e set false
        retire { c with port := c.port ++ [.explicit e set c.seq.pc c.tickets], tickets := c.tickets + 1 })
  else s)

/-- LIST_MERGE (R304, R323): a merge of n lists for the columns of the effective extent joins the port's queue; with no column it
completes at once (R308, R138). -/
def execListMerge (k : CoreId) (ra : SReg) (op : OpIdx) (s : State) : Out :=
  if !(Instr.listMerge k ra op).wf then .refused .neverLoaded else
  match coreRun s k with
  | none => .next s
  | some (_, r) =>
    .next (if canIssue s k then
      let c := getCore s k
      let base := lowHalf c ra 0
      let n := highHalf c ra 0 % 2 ^ 16
      let stride := lowHalf c ra 1
      let n0 := highHalf c ra 1
      let na := match findShape r op.toNat with | some h => h.n | none => 0
      let cols := min stride (na - n0)
      if cols = 0 then updCore s k (fun c => retire { c with drn := { c.drn with drains := satAdd c.drn.drains 1 } })
      else if plainSize ≤ base ∨ base % 8 ≠ 0 then
        seqFault (updCore s k (fun c => { c with seq := { c.seq with issued := c.seq.issued + 1 } })) k 0 stStepFault op.toNat c.seq.pc
      else if 16 ≤ portQueued c then stall s k
      else updCore s k (fun c =>
        retire { c with port := c.port ++ [.merge op.toNat base n cols n0 stride c.seq.pc], tickets := c.tickets + 1 })
    else s)

/-! ## Element addresses and writes (R126, R132) -/

/-- Offset of element (m, n) in a layout: base + major × stride + minor × size. -/
def layoutOffset (tokenMajor : Bool) (base stride m n size : Nat) : Nat :=
  if tokenMajor then base + n * stride + m * size else base + m * stride + n * size

/-- Write one converted element at (m, n) (R132): INT4 writes a nibble, the even index along the contiguous dimension low;
the other formats write their bytes. -/
def writeElement (s : State) (k : CoreId) (f : OutFmt) (tokenMajor : Bool) (base stride m n code opidx : Nat) (pc : BitVec 13) :
    State :=
  match f with
  | .int4 =>
    let minor := if tokenMajor then m else n
    let a := if tokenMajor then base + n * stride + m / 2 else base + m * stride + n / 2
    let old := (memGet (getCore s k).plain a).toNat
    let b := if minor % 2 = 0 then old / 16 * 16 + code % 16 else code % 16 * 16 + old % 16
    drWrite s k a [BitVec.ofNat 8 b] opidx pc
  | _ => drWrite s k (layoutOffset tokenMajor base stride m n (fmtBytes f)) (natLe (fmtBytes f) code) opidx pc

/-- Bytes of a fused element (R123 FFMT). -/
def fuseBytes (ffmt : Nat) : Nat :=
  match ffmt with
  | 1 => 1 | 2 => 2 | 3 => 2 | _ => 4

/-- The value of a fused element, and whether it was an infinity or a NaN (R126, R127). -/
def fuseValue (w : Word32) (code : Nat) : Exact × Bool :=
  match dwFfmt w with
  | 1 => (ofInt 8 code (dwFexp w), false)
  | 2 => (ofInt 16 code (dwFexp w), false)
  | 3 => ofFloat 7 code
  | _ => ofFloat 23 code

/-- V with the fused element of (m, n), formed exactly (R126), and whether that element counts as a clip. -/
def fuse (s : State) (k : CoreId) (o : Op) (w : Word32) (v : Exact) (m n : Nat) (pc : BitVec 13) : Exact × Bool × State :=
  if dwFuse w = 0 then (v, false, s) else
  let fb := fuseBytes (dwFfmt w)
  let a := if dwFbcast w then o.fbase + m * o.fstride else layoutOffset (dwTokenMajor w) o.fbase o.fstride m n fb
  let r := drRead s k a fb o.opidx pc
  let f := fuseValue w (leNat r.1)
  (if dwFuse w = 1 then dyAdd v f.1 else dyMul v f.1, f.2, r.2)

/-! ## Top-k (R128 to R130) -/

/-- A candidate of a top-k list: code in the output format, position. -/
abbrev Candidate := Nat × Nat

/-- x ranks before y: the larger value, on equal values the lower position (R128). -/
def ranksBefore (f : OutFmt) (x y : Candidate) : Bool :=
  rankGt f x.1 y.1 || (!rankGt f y.1 x.1 && decide (x.2 < y.2))

def rankInsert (f : OutFmt) (x : Candidate) : List Candidate → List Candidate
  | [] => [x]
  | y :: r => if ranksBefore f x y then x :: y :: r else y :: rankInsert f x r

/-- The k first candidates in rank order. -/
def topOf (f : OutFmt) (k : Nat) (xs : List Candidate) : List Candidate :=
  (xs.foldl (fun acc x => rankInsert f x acc) []).take k

/-- The bytes of a list of k entries (R129). -/
def listBytes (f : OutFmt) (k : Nat) (xs : List Candidate) : List Byte :=
  (xs.flatMap (fun x => natLe 4 x.2 ++ natLe 4 (entryValue f x.1))) ++
  (List.replicate (k - xs.length) (natLe 4 0xFFFFFFFF ++ natLe 4 0)).flatten

/-- The candidates that a list of k entries holds (R130). -/
def listEntries (f : OutFmt) (k : Nat) (bs : List Byte) : List Candidate :=
  ((List.range k).map (fun i => (entryCode f (fieldAt bs (8 * i + 4) 4), fieldAt bs (8 * i) 4))).filter
    (fun x => x.2 != 0xFFFFFFFF)

/-- Merge new candidates of a token column with the list its earlier passes wrote, and write the list (R128, R301). -/
def writeTopk (s : State) (k : CoreId) (o : Op) (w : Word32) (lbase n : Nat) (first : Bool) (new : List Candidate)
    (pc : BitVec 13) : State :=
  let kk := dwK w
  let a := lbase + 8 * kk * n
  let r := if first then ([], s) else drRead s k a (8 * kk) o.opidx pc
  let old := if first then [] else listEntries (opOfmt o) kk r.1
  drWrite r.2 k a (listBytes (opOfmt o) kk (topOf (opOfmt o) kk (old ++ new))) o.opidx pc

/-- A merge of lists (R130, R304): for each column the top k of the union of its n lists. -/
def runMerge (s : State) (k : CoreId) (o : Op) (w : Word32) (base n cols n0 stride : Nat) (pc : BitVec 13) : State :=
  let kk := dwK w
  (List.range cols).foldl (fun s i =>
    let c := n0 + i
    let r := (List.range n).foldl (fun (acc : List Candidate × State) j =>
      let x := drRead acc.2 k (base + 8 * kk * (j * stride + c - n0)) (8 * kk) o.opidx pc
      (acc.1 ++ listEntries (opOfmt o) kk x.1, x.2)) ([], s)
    drWrite r.2 k (o.obase + c * o.ostride) (listBytes (opOfmt o) kk (topOf (opOfmt o) kk r.1)) o.opidx pc) s

/-! ## Combine (R118, R120) -/

/-- The totals that a landed record carries, read from the owner's plain. -/
def readRecord (s : State) (k : CoreId) (r : Record) (n opidx : Nat) (pc : BitVec 13) : List Word64 × State :=
  let x := drRead s k (r.base + 16) (8 * n) opidx pc
  ((List.range n).map (fun i => BitVec.ofNat 64 (fieldAt x.1 (8 * i) 8)), x.2)

/-- Add the totals of the landed records into a set's totals, element by element; a record of another extent faults the
step (R118, R120). -/
def combine (k : CoreId) (a : AccSet) : List Record → List Word64 × State → List Word64 × State
  | [], acc => acc
  | r :: rs, acc =>
    if r.nrows ≠ a.nrows ∨ r.ncols ≠ a.ncols then combine k a rs (acc.1, drnFault acc.2 k 1 stStepFault (tagOp a.tag) a.pc)
    else
      let x := readRecord acc.2 k r (a.nrows * a.ncols) (tagOp a.tag) a.pc
      combine k a rs (List.zipWith (· + ·) acc.1 x.1, x.2)

/-! ## Conversion of a set (R125 to R132) -/

/-- What read-out has done so far: the state, the output clips, and the candidates by token column. -/
structure ReadOut where
  s : State
  clips : Nat
  tops : List (Nat × Candidate)

/-- INVOC of a tag (R106). -/
def tagInvoc (t : Word64) : Nat := t.toNat / 2 ^ 24 % 2 ^ 24

/-- One element of a set: exact value, fused operation, one rounding, write, candidate (R125 to R128, R132). Under FBCAST an
infinite or NaN fused value counts one clip for each output element that uses it (R127; DESIGN CHOICE, log entry 80). A sparse lane whose
ROW, wrong metadata, lies below the share's first row is written at feature row 0 of the share, so that no write leaves the output
(R159; DESIGN CHOICE, log entry 81). -/
def drainElement (k : CoreId) (o : Op) (sl : Slice) (seed : Word64) (a : AccSet) (ts : List Word64) (acc : ReadOut) (i : Nat) :
    ReadOut :=
  let w := a.drainWord
  let row := (a.rows[i / a.ncols]?).getD 0
  let m := row - sl.row0
  let n := a.col0 + i % a.ncols
  let v : Exact := { m := ((ts[i]?).getD 0).toInt, e := opAnchor o }
  let f := fuse acc.s k o w v m n a.pc
  let rd : Rounding := if opStoch o then .stoch (rngDraw seed (opStream o) (tagInvoc a.tag) row n) else .rne
  let cv := convert (opOfmt o) (opOexp o) f.1 rd
  let s := if dwWelem w then
      writeElement f.2.2 k (opOfmt o) (dwTokenMajor w) o.obase o.ostride m n cv.code o.opidx a.pc
    else f.2.2
  { s := s, clips := acc.clips + (if f.2.1 then 1 else 0) + (if cv.clip then 1 else 0),
    tops := if dwTopk w then acc.tops ++ [(n, (cv.code, row))] else acc.tops }

/-- CONVERT (R125 to R132): every element of the valid extent, then the lists; clips and elements are counted. -/
def convertSet (s : State) (k : CoreId) (o : Op) (sl : Slice) (seed : Word64) (a : AccSet) (ts : List Word64) : State :=
  let total := a.nrows * a.ncols
  let r := (List.range total).foldl (drainElement k o sl seed a ts) { s := s, clips := 0, tops := [] }
  let s := if dwTopk a.drainWord then
      (List.range a.ncols).foldl (fun s c =>
        let n := a.col0 + c
        writeTopk s k o a.drainWord a.lbase n a.firstPass ((r.tops.filter (fun x => x.1 == n)).map (fun x => x.2)) a.pc) r.s
    else r.s
  let s := if opStoch o then
      updCore s k (fun c => { c with rng := { c.rng with draws := c.rng.draws + BitVec.ofNat 64 total } })
    else s
  updRec s k o.opidx (fun x => { x with
    outElems := x.outElems + total, outClips := x.outClips + (if dwClipc a.drainWord then r.clips else 0) })

/-- The partial-total record of a set (R116). -/
def exportRecord (a : AccSet) (part : Nat) : List Byte :=
  natLe 8 a.tag.toNat ++ natLe 2 a.nrows ++ natLe 2 a.ncols ++ [BitVec.ofNat 8 part, 0, 0, 0] ++
  (a.totals.flatMap (fun t => natLe 8 t.toNat))

/-- EXPORT (R116, R117, R406): the record goes to the owner's combine window, with no rounding and no clip. -/
def exportSet (s : State) (k : CoreId) (o : Op) (sl : Slice) (a : AccSet) : State :=
  let bs := exportRecord a sl.part
  let ad := recordAddr o sl
  match tilePart s k.tile with
  | none => s
  | some p => match windowAt s p (tileNode k.tile) ad bs.length with
    | none => pasFault s k 0 (BitVec.ofNat 56 ad) (tagOp a.tag) a.pc
    | some _ => sendRecord s k ad bs

/-- Read-out of a released set (R115 to R132): combined with the landed records at an owner, then exported or converted.
The records of its tag are used up, and its tag is kept as read (R120). -/
def readOut (s : State) (k : CoreId) (d : MatEngine × SetId × Bool × Nat) (o : Op) (sl : Slice) (seed : Word64) : State :=
  let c := getCore s k
  let a := accSet (matUnit c d.1) d.2.1
  let parts := combineParts s k a
  let recs := if parts = 0 then [] else landedRecords c a.tag
  let combined := (recs.filter (fun r => r.nrows == a.nrows && r.ncols == a.ncols)).length
  let s := updCore s k (fun c =>
    let c := setMatUnit c d.1 (setAccSet (matUnit c d.1) d.2.1 { a with phase := .reading })
    { c with active := some (.drain d.1 d.2.1 d.2.2.1 .reading d.2.2.2),
             records := if parts = 0 then c.records else c.records.filter (fun r => !(r.tag == a.tag && r.landed)),
             readTags := if parts = 0 then c.readTags else c.readTags ++ [a.tag],
             drn := { c.drn with records := satAdd c.drn.records combined } })
  if dwCmode a.drainWord = 1 then exportSet s k o sl a
  else
    let x := combine k a recs (a.totals, s)
    convertSet x.2 k o sl seed a x.1

/-! ## Events of a drain -/

/-- SET_RELEASE (R115, R118, R303, R312): the next drain's set is complete, its records have landed and nothing is in flight;
the set is read out. A DRAIN of a set whose VALID is 0 faults the step (R120). -/
def execSetRelease (k : CoreId) (eng : MatEngine) (set : SetId) (s : State) : Out :=
  if !powered s || !tileAwake s k.tile then .next s else
  let c := getCore s k
  match nextDrain c, coreRun s k with
  | some d, some (_, r) =>
    let a := accSet (matUnit c eng) set
    if d.1 ≠ eng ∨ d.2.1 ≠ set then .next s
    else if !d.2.2.1 && !jobAhead (matUnit c eng) set d.2.2.2 && !tagValid a.tag then
      .next (drnFault s k 0 stStepFault (tagOp a.tag) a.pc)
    else if !tailPast c d then .next s
    else if recordsMissing s k d then .next (markRecWait s k)
    else match coreOp s k (tagOp a.tag), findShare r k (tagOp a.tag) with
      | some o, some sl => .next (markRecWait (readOut s k d o sl r.seed) k)
      | _, _ => .next s
  | _, _ => .next s

/-- A frozen engine goes on: the pass that waits for its set opens it, or the front MTILE begins (R86, R109, R152). -/
def thaw (s : State) (k : CoreId) (e : MatEngine) : State :=
  let c := getCore s k
  let frozen : Bool := match e with
    | .array => c.arr.state == .frozen
    | .sparse => c.spx.state == .frozen
  match (matUnit c e).running with
  | some r => if !r.opened then tryOpen s k e else if frozen then startEngine s k e else s
  | none => if frozen then startEngine s k e else s

/-- VALID_CLEAR (R107, R109, R122): the last total is read; the set is free, and a frozen engine goes on with it. -/
def execValidClear (k : CoreId) (eng : MatEngine) (set : SetId) (s : State) : Out :=
  let c := getCore s k
  match c.active with
  | some (.drain e i au .reading t) =>
    if e ≠ eng ∨ i ≠ set then .next s else
    let a := accSet (matUnit c eng) set
    .next (thaw (updCore s k (fun c =>
      let c := setMatUnit c eng (setAccSet (matUnit c eng) set { a with tag := clearValid a.tag, phase := .empty })
      { c with active := some (.drain e i au .cleared t) })) k eng)
  | _ => .next s

/-- The automatic drain at the port's front has ended: the next pass's takes its place, on the other set (R81, R312). -/
def afterAuto : List PortItem → List PortItem
  | .auto e i n t :: r => if n ≤ 1 then r else .auto e (otherSet i) (n - 1) t :: r
  | r => r

/-- DRAIN_COMPLETE (R122, R133, R138, R311): the last write of a drain or a merge has committed, or an EXPORT has handed its
last line to the router; class DR goes on. -/
def execDrainComplete (k : CoreId) (s : State) : Out :=
  let finish (f : Core → Core) : Out :=
    .next (markRecWait (settle (countStall (updCore s k (fun c => { f c with drLines := [] })) k false) k) k)
  match (getCore s k).active with
  | some (.drain _ _ true .cleared _) => finish (fun c => { c with active := none, port := afterAuto c.port })
  | some (.drain _ _ false .cleared _) =>
    finish (fun c => { c with active := none, drn := { c.drn with drains := satAdd c.drn.drains 1 } })
  | some (.merge _) => finish (fun c => { c with active := none, drn := { c.drn with drains := satAdd c.drn.drains 1 } })
  | _ => .next s

/-- The operation and pc of what waits for records on core k. -/
def recWaiter (s : State) (k : CoreId) : Option (Nat × BitVec 13) :=
  let c := getCore s k
  if waitRec s k then
    (nextDrain c).map (fun d => let a := accSet (matUnit c d.1) d.2.1; (tagOp a.tag, a.pc))
  else match c.rfuRun with
    | some r => if r.waiting then some (r.opidx, r.pc) else none
    | none => none

end Sys2Proof.Machine
end

