-- ==== Sys2Proof/Machine/Lns.lean ====
section
/-! DEFINITION. Arithmetic on LNS20 (R167 to R172, R176, R177, R620): the fixed tables as the nearest integers the spec defines,
computed by exact integer arithmetic; the steps; conversion in and out; the canonical tree. -/

namespace Sys2Proof.Machine

/-! ## The antilog table A (R176) -/

/-- ⌊n^(1/2^k)⌋ by repeated square roots. -/
def rootPow : Nat → Nat → Nat
  | 0, n => n
  | k + 1, n => rootPow k (Nat.sqrt n)

/-- A[j]: the nearest integer to 2^(23 + j/2,048), from ⌊2^(24 + j/2,048)⌋. -/
def antilog (j : Nat) : Nat := (rootPow 11 (2 ^ (2048 * 24 + j)) + 1) / 2

/-- The value of a code: ±A[L mod 2,048] × 2^(⌊L/2,048⌋ − 23); zero for the zero codes (R53, R176). -/
def lnsValue (v : Lns) : Exact :=
  if lnsIsZero v then dyZero else
  let l := lnsL v
  let a : Int := antilog (l % 2048).toNat
  { m := if lnsNeg v then -a else a, e := l / 2048 - 23 }

/-! ## Tables F+, F−, LG, G (R169, R170) -/

/-- 2^256 as the unit of the fixed-point arithmetic below. -/
def fixOne : Nat := 2 ^ 256

/-- The first n bits after the point of log2 (m / 2^256), for m in [2^256, 2^257). -/
def logBits : Nat → Nat → Nat
  | 0, _ => 0
  | n + 1, m =>
    let q := m * m / fixOne
    if 2 * fixOne ≤ q then 2 ^ n + logBits n (q / 2) else logBits n q

/-- 2^48 × log2 (m / 2^256), for m in [2^255, 2^257]. -/
def logFix (m : Nat) : Int :=
  if 2 * fixOne ≤ m then 2 ^ 48 else if fixOne ≤ m then logBits 48 m else (logBits 48 (2 * m) : Int) - 2 ^ 48

/-- 2^256 × 2^(−u/16). -/
def powNeg (u : Nat) : Nat := rootPow 4 (2 ^ (4096 - u))

/-- 2^256 × ln 2, from the series of 1/(k × 2^k). -/
def lnTwo : Nat := ((List.range 260).map (fun k => fixOne / ((k + 1) * 2 ^ (k + 1)))).foldl (· + ·) 0

/-- x / 2^33 to the nearest integer: from 2^48 to 2^15 units. -/
def toUnits (x : Int) : Int := (x + 2 ^ 32) / 2 ^ 33

/-- Breakpoints in units of 1/2,048, shared by F+ and F− from 4 on (R169). -/
def tailPoint (j : Nat) : Nat :=
  if j < 48 then 8192 + 512 * (j - 32) else if j < 64 then 16384 + 1024 * (j - 48) else 32768

def plusPoint (j : Nat) : Nat := if j < 32 then 256 * j else tailPoint j
def minusPoint (j : Nat) : Nat := if j < 16 then 2048 + 128 * j else if j < 32 then 4096 + 256 * (j - 16) else tailPoint j
def cancelPoint (j : Nat) : Nat := 128 * j

/-- 2^48 × log2 (1 + 2^−Δ), Δ in units of 1/2,048 at a breakpoint. -/
def plusFix (p : Nat) : Int := logFix (fixOne + powNeg (p / 128))
/-- 2^48 × log2 (1 − 2^−Δ). -/
def minusFix (p : Nat) : Int := logFix (fixOne - powNeg (p / 128))
/-- 2^48 × log2 ((1 − 2^−Δ)/Δ), with g(0) = log2 (ln 2). -/
def cancelFix (p : Nat) : Int :=
  if p = 0 then logFix lnTwo else logFix ((fixOne - powNeg (p / 128)) * 2048 / p)

/-- LG[D]: the nearest integer to 2^15 × log2 D, from ⌊2^16 × log2 D⌋ = ⌊log2 (D^65,536)⌋. -/
def lgTable (d : Nat) : Int := ((Nat.log2 (d ^ 65536) + 1) / 2 : Nat)

/-- The interval of a table that holds D: the last breakpoint not above it, of n (R169). -/
def intervalOf (point : Nat → Nat) (n d : Nat) : Nat :=
  (List.range n).foldl (fun acc j => if point j ≤ d then j else acc) 0

/-- base + F_j + S_j × r, divided by 16 and rounded to nearest with ties to even: L_corr of R169 and R170. -/
def interpolate (point : Nat → Nat) (fix : Nat → Int) (n : Nat) (base : Int) (d : Nat) : Int :=
  let j := intervalOf point n d
  let lo := point j
  let w := point (j + 1) - lo
  let f := toUnits (fix lo)
  let s := toUnits (fix (point (j + 1)) - fix lo)
  rneShift ((base + f) * w + s * (d - lo : Nat)) (Nat.log2 (16 * w))

def corrPlus (d : Nat) : Int := interpolate plusPoint plusFix 64 0 d
def corrMinus (d : Nat) : Int := interpolate minusPoint minusFix 64 0 d
def corrCancel (d : Nat) : Int := interpolate cancelPoint cancelFix 16 (lgTable d - 11 * 2 ^ 15) d

/-! ## Operations -/

/-- The result of a step: its code, whether it counts as a clip. -/
structure LnsOut where
  code : Lns
  clip : Bool
  deriving DecidableEq, Repr

/-- 0xC_0000 is read as zero and produced by no unit (R53). -/
def lnsNorm (v : Lns) : Lns := if lnsIsZero v then lnsZero else v

/-- A sign and an L, saturated or flushed under R167. -/
def lnsPack (neg : Bool) (l : Int) : LnsOut :=
  if 262143 < l then { code := lnsCode neg 262143, clip := true }
  else if l < -262143 then { code := lnsZero, clip := true }
  else { code := lnsCode neg l, clip := false }

/-- Product (R167). -/
def lnsMul (x y : Lns) : LnsOut :=
  if lnsIsZero x || lnsIsZero y then { code := lnsZero, clip := false }
  else lnsPack (lnsNeg x != lnsNeg y) (lnsL x + lnsL y)

/-- Quotient (R167). -/
def lnsDiv (x y : Lns) : LnsOut :=
  if lnsIsZero x then { code := lnsZero, clip := false }
  else if lnsIsZero y then { code := lnsCode (lnsNeg x) 262143, clip := true }
  else lnsPack (lnsNeg x != lnsNeg y) (lnsL x - lnsL y)

/-- Reciprocal (R167). -/
def lnsRecip (x : Lns) : LnsOut :=
  if lnsIsZero x then { code := lnsCode false 262143, clip := true } else lnsPack (lnsNeg x) (-(lnsL x))

/-- Negation (R167); zero stays zero (R53). -/
def lnsNegate (x : Lns) : LnsOut :=
  { code := if lnsIsZero x then lnsZero else lnsCode (!lnsNeg x) (lnsL x), clip := false }

/-- Absolute value (R167). -/
def lnsAbs (x : Lns) : LnsOut :=
  { code := if lnsIsZero x then lnsZero else lnsCode false (lnsL x), clip := false }

/-- A log-addition with its path: exact or cancellation, else cheap (R168, R192). -/
structure LnsSum where
  code : Lns
  clip : Bool
  exactPath : Bool
  deriving DecidableEq, Repr

/-- x ⊕ y with threshold D_t (R168 to R170). A sum beyond the range of L has no stated result (log entry 15). -/
def lnsAdd (dt : Nat) (x y : Lns) : LnsSum :=
  if lnsIsZero x then { code := lnsNorm y, clip := false, exactPath := false }
  else if lnsIsZero y then { code := lnsNorm x, clip := false, exactPath := false }
  else
    let big := if lnsL y ≤ lnsL x then x else y
    let small := if lnsL y ≤ lnsL x then y else x
    let lmax := max (lnsL x) (lnsL y)
    let d := (lmax - min (lnsL x) (lnsL y)).toNat
    if 2048 * dt < d then { code := big, clip := false, exactPath := false }
    else if lnsNeg x != lnsNeg y && d == 0 then { code := lnsZero, clip := false, exactPath := false }
    else
      let corr := if lnsNeg x == lnsNeg y then corrPlus d else if d < 2048 then corrCancel d else corrMinus d
      let l := lmax + corr
      if 262143 < l ∨ l < -262143 then
        let v := Config.lnsAddRange dt big small
        let l := (v.setWidth 19).toInt
        { code := if l = -262144 then lnsZero else lnsCode (lnsNeg big) l, clip := v.getLsbD 19, exactPath := true }
      else { code := lnsCode (lnsNeg big) l, clip := false, exactPath := true }

/-- The larger in signed magnitude; a tie keeps the left operand (R172). -/
def lnsMax (x y : Lns) : Lns := if rankGt .lns20 y.toNat x.toNat then y else x

/-- SQRT (R177): L/2, odd L to the even neighbour; the root of zero is zero (log entry 16). -/
def lnsSqrt (x : Lns) : LnsOut :=
  { code := if lnsIsZero x then lnsZero else lnsCode false (rneShift (lnsL x) 1), clip := false }

/-- RSQRT (R177). -/
def lnsRsqrt (x : Lns) : LnsOut :=
  if lnsIsZero x then { code := lnsCode false 262143, clip := true }
  else { code := lnsCode false (rneShift (-(lnsL x)) 1), clip := false }

/-- EXP2 (R177): 2^x through table A; saturates with a clip, underflows to zero without one. -/
def lnsExp2 (x : Lns) : LnsOut :=
  let v := lnsValue x
  let t : Exact := { m := v.m, e := v.e + 11 }
  if !dyLe t { m := 262143, e := 0 } then { code := lnsCode false 262143, clip := true }
  else if !dyLe { m := -262143, e := 0 } t then { code := lnsZero, clip := false }
  else { code := lnsCode false (rneAt t 0), clip := false }

/-- LOG2 (R177): L/2,048 converted under R52. -/
def lnsLog2 (x : Lns) : LnsOut :=
  if lnsIsZero x then { code := lnsCode true 262143, clip := true }
  else let c := toLns { m := lnsL x, e := -11 }
    { code := BitVec.ofNat 20 c.code, clip := c.clip }

/-! ## Conversion in and out, QEXP (R176, R620) -/

/-- An input or auxiliary element into LNS20: format 1 LNS20, 2 BF16, 3 FP32 (R176, R179). -/
def lnsIn (fmt code : Nat) : LnsOut :=
  if fmt = 1 then { code := lnsNorm (BitVec.ofNat 20 code), clip := false }
  else
    let f := if fmt = 2 then ofFloat 7 code else ofFloat 23 code
    let c := toLns f.1
    { code := BitVec.ofNat 20 c.code, clip := f.2 || c.clip }

/-- Width of an INT output format: 3 INT4, 4 INT8, 5 INT16 (R179). -/
def intWidth (fmt : Nat) : Nat := if fmt = 3 then 4 else if fmt = 4 then 8 else 16

/-- An output element: 1 LNS20, 2 BF16, else INT under the lane's exponent (R176). -/
def lnsConvOut (fmt : Nat) (oexp : Int) (v : Lns) : Conv :=
  if fmt = 1 then { code := (lnsNorm v).toNat, clip := false }
  else if fmt = 2 then toFloat 7 (lnsValue v) .rne
  else toInt (intWidth fmt) oexp (lnsValue v) .rne

/-- QEXP: the smallest E with |va| ≤ (2^(w−1) − 1) × 2^E, from −128 to 127 (R620). -/
def qexp (w : Nat) (v : Lns) : Int :=
  let a := dyAbs (lnsValue v)
  match (List.range 255).find? (fun i => dyLe a { m := 2 ^ (w - 1) - 1, e := (i : Int) - 128 }) with
  | some i => (i : Int) - 128
  | none => 127

/-! ## The canonical tree (R172) -/

/-- The least h = 2^(⌈log2 m⌉ − 1) at which a list of m ≥ 2 elements is cut. -/
def cutPoint (m : Nat) : Nat := 2 ^ Nat.log2 (m - 1)

/-- The reduction of a list over an operation that counts as it goes; fuel bounds the depth. -/
def pairTree {α : Type} (op : α → Lns → Lns → Lns × α) : Nat → List Lns → α → Lns × α
  | _, [], a => (lnsZero, a)
  | _, [x], a => (x, a)
  | 0, x :: _, a => (x, a)
  | fuel + 1, xs, a =>
    let h := cutPoint xs.length
    let l := pairTree op fuel (xs.take h) a
    let r := pairTree op fuel (xs.drop h) l.2
    op r.2 l.1 r.1

/-- Cut a list into blocks of 256 (R172). -/
def blocksOf (xs : List Lns) : List (List Lns) :=
  (List.range (ceilDiv xs.length 256)).map (fun b => (xs.drop (256 * b)).take 256)

/-- Additions of a tree: exact and cheap paths, clips. -/
structure AddCount where
  exactAdds : Nat
  cheapAdds : Nat
  clips : Nat
  deriving DecidableEq, Repr

def AddCount.zero : AddCount := { exactAdds := 0, cheapAdds := 0, clips := 0 }

/-- ⊕ that counts its path. -/
def countedAdd (dt : Nat) (a : AddCount) (x y : Lns) : Lns × AddCount :=
  let r := lnsAdd dt x y
  (r.code, { exactAdds := a.exactAdds + (if r.exactPath then 1 else 0), cheapAdds := a.cheapAdds + (if r.exactPath then 0 else 1),
             clips := a.clips + (if r.clip then 1 else 0) })

/-- pairsum of R172. -/
def pairSum (dt : Nat) (xs : List Lns) (a : AddCount) : Lns × AddCount := pairTree (countedAdd dt) 20 xs a

/-- The maximum over the same tree. -/
def pairMax (xs : List Lns) : Lns := (pairTree (fun (u : Unit) x y => (lnsMax x y, u)) 20 xs ()).1

end Sys2Proof.Machine
end

