-- ==== Sys2Proof/Machine/Rfu.lean ====
section
/-! DEFINITION. The row-function unit (R167 to R185, R305, R617, R620): ROWFN, the start of port work, the microinstructions
that its 32 lanes run, the records of a split function, ROWFN_COMPLETE. -/

namespace Sys2Proof.Machine

/-! ## Parts of a split row function (R174, R279, R284) -/

/-- The parts of a row function in the order of their elements. -/
def rowParts (c : Constellation) (opidx : Nat) : List Slice :=
  sortBy (fun x => x.k0) (c.slices.filter (fun x => x.opidx == opidx && x.role == 3))

/-- The core of a share. -/
def sliceCore (sl : Slice) : Option CoreId :=
  if h : sl.tile < 12 ∧ sl.core < 64 then some ⟨⟨sl.tile, h.1⟩, ⟨sl.core, h.2⟩⟩ else none

/-- The row-function record window of a core for a sender: the first of KIND 0x03 that admits the sender's node (log
entry 17). -/
def rowWindow (s : State) (p : PartId) (dst : CoreId) (src : NodeId) : Option Window :=
  (partWindows s p).find? (fun w => w.kind == 3 && decide (plainAddr dst 0 ≤ w.base) && decide (w.base < plainAddr dst plainSize) &&
    w.sources.getLsbD src.val)

/-- The slot of part i's record at part j: one slot per other part, in order (log entry 17). -/
def rowSlot (i j : Nat) : Nat := if i < j then i else i - 1

/-- The place of a core among the parts. -/
def partIndex (ps : List Slice) (k : CoreId) : Option Nat :=
  ps.findIdx? (fun x => x.tile == k.tile.val && x.core == k.core.val)

/-- The addresses to which part i on core k sends its records, with the core of each; none where no window admits it. -/
def rowTargets (s : State) (p : PartId) (ps : List Slice) (k : CoreId) (i : Nat) : List (CoreId × Option Nat) :=
  (((List.range ps.length).zip ps).filter (fun x => x.1 != i)).filterMap (fun x =>
    (sliceCore x.2).map (fun d => (d, (rowWindow s p d (tileNode k.tile)).map (fun w => w.base + rowSlot i x.1 * recordSlot))))

/-- The record kinds that a phase sends: 0 for its sum tree, 1 for its maximum tree (R174, R180). -/
def phaseKinds (f : FuncBlock) (ph : Phase) : List Nat :=
  let ws := ((f.micro.drop ph.start).take (ph.proLen + ph.bodyLen)).map (fun w => w.toNat / 2 ^ 26)
  (if ws.contains 0x12 then [0] else []) ++ (if ws.contains 0x13 then [1] else [])

/-- Send a null arrival to each other part (R308). -/
def nullParts (s : State) (k : CoreId) (p : PartId) (ps : List Slice) (i opidx : Nat) (pc : BitVec 13) (tag : Word64)
    (kind : Nat) : State :=
  (rowTargets s p ps k i).foldl (fun s t =>
    match t.2 with
    | some a => nullArrival s k a opidx pc tag kind
    | none => pasFault s k 0 (BitVec.ofNat 56 (plainAddr t.1 0)) opidx pc) s

/-- The null arrivals of a part with no element: one for each record it would have sent (R308). -/
def nullRowfn (s : State) (k : CoreId) (opidx cols invoc : Nat) (pc : BitVec 13) : State :=
  match tilePart s k.tile, coreConst s k, coreOp s k opidx with
  | some p, some c, some o =>
    let ps := rowParts c opidx
    match partIndex ps k, c.funcs[opFunc o]? with
    | some i, some f =>
      if ps.length ≤ 1 then s else
      (List.range (ceilDiv cols 32)).foldl (fun s _ =>
        ((List.range f.nphase).zip f.phases).foldl (fun s x =>
          (phaseKinds f x.2).foldl (fun s kind => nullParts s k p ps i opidx pc (makeTag opidx invoc x.1) kind) s) s) s
    | _, _ => s
  | _, _, _ => s

/-! ## ROWFN -/

/-- ROWFN (R305, R308, R310): a row function over N_eff columns and the part's elements joins the drain port's queue. -/
def execRowfn (k : CoreId) (rd : SReg) (op : OpIdx) (s : State) : Out :=
  if !(Instr.rowfn k rd op).wf then .refused .neverLoaded else
  match coreRun s k with
  | none => .next s
  | some (_, r) =>
    .next (if canIssue s k then
      let c := getCore s k
      let na := match findShape r op.toNat with | some h => h.n | none => 0
      let sk := match findShape r op.toNat, findShare r k op.toNat with | some h, some l => shareK h l | _, _ => 0
      let n0 := highHalf c rd 0
      let cols := min (lowHalf c rd 0) (na - n0)
      let n := min (sregAt c rd 1).toNat sk
      if cols = 0 ∨ n = 0 then nullRowfn (updCore s k retire) k op.toNat cols (r.stepno.toNat % 2 ^ 24) c.seq.pc
      else if 16 ≤ portQueued c then stall s k
      else updCore s k (fun c =>
        retire { c with port := c.port ++ [.rowfn op.toNat cols n0 n c.seq.pc], tickets := c.tickets + 1,
                        rfu := { c.rfu with state := if c.rfu.state == .idle then .waitPort else c.rfu.state } })
    else s)

/-! ## Start of port work -/

/-- A lane before its first microinstruction: registers, trees and exponent hold nothing the spec states. What a block reads
before it has written it is a free function of the block alone, so that a result depends on nothing but what R175 names (log
entry 18). -/
def freshLane (f : FuncBlock) : Lane :=
  let v (i : Nat) : Lns := Config.unwritten f.micro f.consts i
  { regs := Vector.ofFn (fun i => some (v i.val)), sums := [], maxs := [], sum := v 16, max := v 17, oexp := (v 18).setWidth 8 }

/-- Enter a phase: its prologue, or its body where it has none (R179). -/
def enterPhase (f : FuncBlock) (p : Nat) (r : RfuRun) : RfuRun :=
  let pro := match f.phases[p]? with | some ph => ph.proLen | none => 0
  { r with phase := p, inBody := pro == 0, upc := 0, elem := 0, lds := 0, ldas := 0, sts := 0, waiting := false }

/-- Set the running row function of a core, with RFU_STATUS.PHASE and STATE (R190). -/
def setRfu (s : State) (k : CoreId) (r : RfuRun) : State :=
  updCore s k (fun c => { c with rfuRun := some r, rfu :=
    { c.rfu with opidx := BitVec.ofNat 12 r.opidx, phase := BitVec.ofNat 2 r.phase,
                 state := if r.waiting then .waitRecords else .running } })

/-- DRAIN_PORT_START (R304, R310, R312): the port takes the next queued DRAIN, merge or row function in issue order. -/
def execDrainPortStart (k : CoreId) (s : State) : Out :=
  if !powered s || !tileAwake s k.tile then .next s else
  let c := getCore s k
  match c.active, c.port with
  | none, .explicit e i _ t :: rest =>
    .next (markRecWait (updCore s k (fun c => { c with port := rest, active := some (.drain e i false .waiting t) })) k)
  | none, .merge op base n cols n0 stride pc :: rest =>
    match coreOp s k op, coreRun s k with
    | some o, some (_, r) =>
      let w := match findShare r k op with | some sl => drainOf o sl | none => o.drain
      let s := updCore s k (fun c => { c with port := rest, active := some (.merge op) })
      .next (runMerge (beginOp s k op) k o w base n cols n0 stride pc)
    | _, _ => .next s
  | none, .rowfn op cols n0 n pc :: rest =>
    match coreOp s k op, coreConst s k with
    | some o, some cst =>
      match cst.funcs[opFunc o]? with
      | some f =>
        let run : RfuRun :=
          { opidx := op, cols := cols, n0 := n0, n := n, block := 0, phase := 0, inBody := false, upc := 0, elem := 0, lds := 0,
            ldas := 0, sts := 0, stiPhase := none, waiting := false, finished := false, pc := pc,
            lanes := .replicate 32 (freshLane f) }
        let s := updCore s k (fun c => { c with port := rest, active := some .rowfn })
        .next (setRfu (beginOp s k op) k (enterPhase f 0 run))
      | none => .next s
    | _, _ => .next s
  | _, _ => .next s

/-! ## The context of a microinstruction -/

/-- What a microinstruction works with: the running function, its operation, its function block. -/
structure RfuCtx where
  run : RfuRun
  op : Op
  f : FuncBlock

def rfuCtx (s : State) (k : CoreId) : Option RfuCtx :=
  match (getCore s k).rfuRun with
  | none => none
  | some r => match coreOp s k r.opidx, coreConst s k with
    | some o, some c => match c.funcs[opFunc o]? with
      | some f => some { run := r, op := o, f := f }
      | none => none
    | _, _ => none

/-- Lanes that carry a token column of the block. -/
def validLanes (r : RfuRun) : List (Fin 32) := (List.finRange 32).filter (fun j => decide (32 * r.block + j.val < r.cols))

/-- The token column of a lane within the operation. -/
def laneCol (r : RfuRun) (j : Fin 32) : Nat := r.n0 + 32 * r.block + j.val

/-- Count the paths and clips of a microinstruction (R57, R182, R192, R193). -/
def countRfu (s : State) (k : CoreId) (opidx : Nat) (a : AddCount) : State :=
  let s := updCore s k (fun c => { c with rfu := { c.rfu with
    exactAdds := satAdd c.rfu.exactAdds a.exactAdds, cheapAdds := satAdd c.rfu.cheapAdds a.cheapAdds,
    clips := satAdd c.rfu.clips a.clips } })
  updRec s k opidx (fun x => { x with outClips := x.outClips + a.clips })

/-! ## The stream of activation lines (R182) -/

/-- Offset and length of the lines of the block's stream. -/
def lineStream (o : Op) (f : FuncBlock) (r : RfuRun) : Nat × Nat :=
  let la := lineLen (intWidth f.outFmt) f.lineP
  (o.obase + (r.n0 + 32 * r.block) / 32 * o.ostride, (ceilDiv r.n 4 * f.lineP - f.lineP + 32) * la)

/-- Zero the lines of a stream, one after another, before its first element is written. -/
def clearLines (s : State) (k : CoreId) (o : Op) (f : FuncBlock) (r : RfuRun) : State :=
  let la := lineLen (intWidth f.outFmt) f.lineP
  let st := lineStream o f r
  (List.range (st.2 / la)).foldl (fun s i => drWrite s k (st.1 + i * la) (List.replicate la 0) r.opidx r.pc) s

/-- Write an INT code of lane j at reduction position i into its stream (R75, R76, R182). -/
def writeLineCode (s : State) (k : CoreId) (o : Op) (f : FuncBlock) (r : RfuRun) (j i code : Nat) : State :=
  let w := intWidth f.outFmt
  let la := lineLen w f.lineP
  let st := lineStream o f r
  let bit := (i / 4 * f.lineP + j) * la * 8 + j / f.lineP * 4 * w + w * (i % 4)
  let a := st.1 + bit / 8
  if w = 4 then
    let old := (memGet (getCore s k).plain a).toNat
    let b := if bit % 8 = 0 then old / 16 * 16 + code % 16 else code % 16 * 16 + old % 16
    drWrite s k a [BitVec.ofNat 8 b] r.opidx r.pc
  else drWrite s k a (natLe (w / 8) code) r.opidx r.pc

/-- The side word of a stream: each lane's output exponent and zero zero points, at the first 64-byte boundary after the last
line (R182). -/
def writeSideWord (s : State) (k : CoreId) (o : Op) (f : FuncBlock) (r : RfuRun) : State :=
  let st := lineStream o f r
  let a := ceilDiv (st.1 + st.2) 64 * 64
  let valid := validLanes r
  drWrite s k a ((List.finRange 32).flatMap (fun j => if valid.contains j then [(r.lanes[j]).oexp, 0] else [0, 0])) r.opidx r.pc

/-! ## End of a phase (R172, R174) -/

/-- Go on after a phase whose trees are reduced: the next phase, the next block of 32 columns, or the end (R179, R305). -/
def nextPhase (s : State) (k : CoreId) (x : RfuCtx) : State :=
  let r := x.run
  let lanes := r.lanes.map (fun l => { l with sums := [], maxs := [] })
  let r := { r with lanes := lanes, waiting := false }
  if r.phase + 1 < x.f.nphase then setRfu s k (enterPhase x.f (r.phase + 1) r)
  else
    let s := if x.f.outLayout = 2 then writeSideWord s k x.op x.f r else s
    if 32 * (r.block + 1) < r.cols then
      setRfu s k (enterPhase x.f 0 { r with block := r.block + 1, stiPhase := none, lanes := .replicate 32 (freshLane x.f) })
    else setRfu s k { r with finished := true }

/-- Block sums of one lane, and what their additions count. -/
def blockSums (dt : Nat) (l : Lane) (a : AddCount) : List Lns × AddCount :=
  (blocksOf l.sums).foldl (fun (acc : List Lns × AddCount) b => let r := pairSum dt b acc.2; (acc.1 ++ [r.1], r.2)) ([], a)

/-- The record of a part (R174). -/
def rowRecord (tag : Word64) (first kind : Nat) (values : List (List Lns)) : List Byte :=
  natLe 8 tag.toNat ++ natLe 2 first ++ natLe 2 values.length ++ [BitVec.ofNat 8 kind, 0, 0, 0] ++
  values.flatMap (fun row => row.flatMap (fun v => natLe 4 v.toNat))

/-- Send a record to every other part (R174, R406). -/
def sendParts (s : State) (k : CoreId) (p : PartId) (ps : List Slice) (i opidx : Nat) (pc : BitVec 13) (bs : List Byte) : State :=
  (rowTargets s p ps k i).foldl (fun s t =>
    match t.2 with
    | some a =>
      match windowAt s p (tileNode k.tile) a bs.length with
      | some _ => sendRecord s k a bs
      | none => pasFault s k 0 (BitVec.ofNat 56 a) opidx pc
    | none => pasFault s k 0 (BitVec.ofNat 56 (plainAddr t.1 0)) opidx pc) s

/-- Row b of the values of all lanes; lanes without a value send zero. -/
def laneRow (r : RfuRun) (f : Lane → List Lns) (b : Nat) : List Lns :=
  r.lanes.toList.map (fun l => ((f l)[b]?).getD lnsZero)

/-- The tag of the records of a phase (R174). -/
def phaseTag (sr : StepRun) (r : RfuRun) : Word64 := makeTag r.opidx (sr.stepno.toNat % 2 ^ 24) r.phase

/-- Whether a tree was fed in the phase. -/
def fedSum (r : RfuRun) : Bool := r.lanes.toList.any (fun l => !l.sums.isEmpty)
def fedMax (r : RfuRun) : Bool := r.lanes.toList.any (fun l => !l.maxs.isEmpty)

/-- Map the lanes that carry a column, and count. -/
def mapLanes (r : RfuRun) (g : Fin 32 → Lane → AddCount → Lane × AddCount) : RfuRun × AddCount :=
  (validLanes r).foldl (fun (acc : RfuRun × AddCount) j =>
    let x := g j acc.1.lanes[j] acc.2
    ({ acc.1 with lanes := acc.1.lanes.set j x.1 }, x.2)) (r, .zero)

/-- The end of a phase (R172, R174): its trees are reduced; the parts of a split send their block sums and maximum and wait. -/
def endPhase (s : State) (k : CoreId) (x : RfuCtx) : State :=
  let r := x.run
  if !fedSum r && !fedMax r then nextPhase s k x else
  match coreRun s k, coreConst s k with
  | some (p, sr), some c =>
    let ps := rowParts c r.opidx
    match partIndex ps k with
    | some i =>
      if ps.length ≤ 1 then endWhole s k x
      else
        let y := mapLanes r (fun _ l a =>
          let b := blockSums x.f.dt l a
          ({ l with sums := b.1, maxs := if l.maxs.isEmpty then [] else [pairMax ((blocksOf l.maxs).map pairMax)] }, b.2))
        let r' := { y.1 with waiting := true }
        let first := (match ps[i]? with | some sl => sl.k0 | none => 0) / 256
        let s := countRfu s k r.opidx y.2
        let tag := phaseTag sr r
        let s := if fedSum r then
            sendParts s k p ps i r.opidx r.pc (rowRecord tag first 0 ((List.range (ceilDiv r.n 256)).map (laneRow r' (fun l => l.sums))))
          else s
        let s := if fedMax r then sendParts s k p ps i r.opidx r.pc (rowRecord tag first 1 [laneRow r' (fun l => l.maxs) 0]) else s
        markRecWait (setRfu s k r') k
    | none => endWhole s k x
  | _, _ => s
where
  /-- A function that is not split: the whole tree is reduced at once. -/
  endWhole (s : State) (k : CoreId) (x : RfuCtx) : State :=
    let y := mapLanes x.run (fun _ l a =>
      let b := blockSums x.f.dt l a
      let t := pairSum x.f.dt b.1 b.2
      ({ l with sum := if l.sums.isEmpty then l.sum else t.1,
                max := if l.maxs.isEmpty then l.max else pairMax ((blocksOf l.maxs).map pairMax) }, t.2))
    nextPhase (countRfu s k x.run.opidx y.2) k { x with run := y.1 }

/-- The record that another part sent for the phase, if it has landed. -/
def partRecord (c : Core) (base : Nat) (tag : Word64) (kind : Nat) : Option Record :=
  c.records.find? (fun r => r.base == base && r.tag == tag && r.part == kind && r.landed)

/-- The values that a record carries, by block and lane (R174): those that landed, whatever has been written to its slot since
(log entry 17). A null arrival carries none. -/
def recordValues (r : Record) : List (List Lns) :=
  (List.range (if r.isNull then 0 else r.ncols)).map (fun b =>
    (List.range 32).map (fun j => BitVec.ofNat 20 (fieldAt r.vals (128 * b + 4 * j) 4)))

/-- Records awaited of the other parts for one tree: part index and the slot's plain offset. -/
def awaitedSlots (s : State) (p : PartId) (ps : List Slice) (k : CoreId) (i : Nat) : List (Nat × Option Nat) :=
  (((List.range ps.length).zip ps).filter (fun x => x.1 != i)).map (fun x =>
    (x.1, match sliceCore x.2 with
      | none => none
      | some d => match rowWindow s p k (tileNode d.tile) with
        | none => none
        | some w => some (w.base + rowSlot x.1 i * recordSlot - plainAddr k 0)))

/-- The values of every part for one tree, in the order of the parts, and the state with the records used up. -/
def gatherParts (k : CoreId) (tag : Word64) (kind n i : Nat) (own : List (List Lns)) (slots : List (Nat × Option Nat))
    (s : State) : List (List Lns) × State :=
  (List.range n).foldl (fun (acc : List (List Lns) × State) q =>
    if q = i then (acc.1 ++ own, acc.2) else
    match (slots.find? (fun x => x.1 == q)) with
    | some (_, some b) =>
      match partRecord (getCore acc.2 k) b tag kind with
      | some rec =>
        (acc.1 ++ recordValues rec, updCore acc.2 k (fun c => { c with records := c.records.erase rec }))
      | none => acc
    | _ => acc) ([], s)

/-- A part that waits goes on once every other part's record has landed: the outer tree over all block sums is reduced
(R174). -/
def resumeRfu (s : State) (k : CoreId) : State :=
  match rfuCtx s k, coreRun s k, coreConst s k with
  | some x, some (p, sr), some c =>
    let r := x.run
    if !r.waiting then s else
    let ps := rowParts c r.opidx
    match partIndex ps k with
    | none => s
    | some i =>
      let slots := awaitedSlots s p ps k i
      let tag := phaseTag sr r
      let have' (kind : Nat) : Bool := slots.all (fun y => match y.2 with
        | some b => (partRecord (getCore s k) b tag kind).isSome
        | none => false)
      if (fedSum r && !have' 0) || (fedMax r && !have' 1) then s else
      let blocks := ceilDiv r.n 256
      let gs := if fedSum r then
          gatherParts k tag 0 ps.length i ((List.range blocks).map (laneRow r (fun l => l.sums))) slots s
        else ([], s)
      let gm := if fedMax r then gatherParts k tag 1 ps.length i [laneRow r (fun l => l.maxs) 0] slots gs.2 else ([], gs.2)
      let y := mapLanes r (fun j l a =>
        let t := pairSum x.f.dt (gs.1.map (fun row => (row[j.val]?).getD lnsZero)) a
        ({ l with sum := if fedSum r then t.1 else l.sum,
                  max := if fedMax r then pairMax (gm.1.map (fun row => (row[j.val]?).getD lnsZero)) else l.max },
         if fedSum r then t.2 else a))
      markRecWait (nextPhase (countRfu gm.2 k r.opidx y.2) k { x with run := y.1 }) k
  | _, _, _ => s

/-- After a microinstruction: the next one of the prologue or body, the next body, or the end of the phase (R179). -/
def advanceRfu (s : State) (k : CoreId) (x : RfuCtx) : State :=
  let r := x.run
  let ph := (x.f.phases[r.phase]?).getD { start := 0, proLen := 0, bodyLen := 0, ecode := 0 }
  let r' := { r with upc := r.upc + 1 }
  if !r.inBody then
    setRfu s k (if r'.upc < ph.proLen then r' else { r' with inBody := true, upc := 0 })
  else if r'.upc < ph.bodyLen then setRfu s k r'
  else
    let e := r.elem + 2 ^ ph.ecode
    if e < r.n then setRfu s k { r' with upc := 0, elem := e }
    else endPhase s k { x with run := { r' with elem := e } }

/-- Run one microinstruction on every lane (R180): it gives the context with its lanes changed, and the state. -/
def rfuStep (k : CoreId) (g : RfuCtx → State → RfuRun × State) (s : State) : Out :=
  if !powered s || !tileAwake s k.tile then .next s else
  let s' := resumeRfu s k
  match rfuCtx s' k with
  | none => .next s
  | some x =>
    if x.run.waiting || x.run.finished then .next s else
    let y := g x s'
    .next (advanceRfu y.2 k { x with run := y.1 })

/-! ## Microinstructions (R180) -/

/-- A step that gives vd from the lane's registers; none is a void value (R617). -/
def rfuCompute (k : CoreId) (vd : VReg) (g : FuncBlock → Lane → AddCount → Option Lns × AddCount) (s : State) : Out :=
  rfuStep k (fun x s =>
    let y := mapLanes x.run (fun _ l a => let v := g x.f l a; ({ l with regs := l.regs.set vd v.1 }, v.2))
    (y.1, countRfu s k x.run.opidx y.2)) s

/-- A step of one operand. -/
def unaryStep (g : Lns → LnsOut) (va : VReg) (_ : FuncBlock) (l : Lane) (a : AddCount) : Option Lns × AddCount :=
  match l.regs[va] with
  | none => (none, a)
  | some v => let r := g v; (some r.code, { a with clips := a.clips + (if r.clip then 1 else 0) })

/-- A step of two operands without a table. -/
def binaryStep (g : Lns → Lns → LnsOut) (x y : Option Lns) (a : AddCount) : Option Lns × AddCount :=
  match x, y with
  | some u, some v => let r := g u v; (some r.code, { a with clips := a.clips + (if r.clip then 1 else 0) })
  | _, _ => (none, a)

/-- A log-addition of two operands. -/
def addStep (dt : Nat) (x y : Option Lns) (a : AddCount) : Option Lns × AddCount :=
  match x, y with
  | some u, some v => let r := countedAdd dt a u v; (some r.1, r.2)
  | _, _ => (none, a)

/-- Constant K[i] of the function block (R179). -/
def rfuConst (f : FuncBlock) (i : Fin 16) : Lns := (f.consts[i.val]?).getD lnsZero

/-- NOP. -/
def execRfuNop (k : CoreId) (s : State) : Out := rfuStep k (fun x s => (x.run, s)) s

/-- Element size of an input format: LNS20 and FP32 take 4 bytes, BF16 2 (R178). -/
def inBytes (fmt : Nat) : Nat := if fmt = 2 then 2 else 4

/-- Load element i of a vector into vd of every lane; a position at or beyond n is void (R176, R178, R617). -/
def loadLanes (k : CoreId) (x : RfuCtx) (vd : VReg) (fmt size base stride i : Nat) (s : State) : RfuRun × State :=
  (validLanes x.run).foldl (fun (acc : RfuRun × State) (j : Fin 32) =>
    if x.run.n ≤ i then
      ({ acc.1 with lanes := acc.1.lanes.set j { acc.1.lanes[j] with regs := acc.1.lanes[j].regs.set vd none } }, acc.2)
    else
      let d := drRead acc.2 k (base + i * stride + laneCol x.run j * size) size x.run.opidx x.run.pc
      let v := lnsIn fmt (leNat d.1)
      ({ acc.1 with lanes := acc.1.lanes.set j { acc.1.lanes[j] with regs := acc.1.lanes[j].regs.set vd (some v.code) } },
       if v.clip then countRfu d.2 k x.run.opidx { AddCount.zero with clips := 1 } else d.2)) (x.run, s)

/-- LD: vd ← the next input element; after a phase with STI the input is read as LNS20 (R176, R191, R620). -/
def execLd (k : CoreId) (vd : VReg) (s : State) : Out :=
  rfuStep k (fun x s =>
    let i := x.run.lds
    let lns := match x.run.stiPhase with | some p => decide (p < x.run.phase) | none => false
    let y := loadLanes k x vd (if lns then 1 else x.f.inFmt) (inBytes x.f.inFmt) (opInBase x.op) (opInStride x.op) i s
    let n := if i < x.run.n then (validLanes x.run).length else 0
    ({ y.1 with lds := i + 1 },
     updCore y.2 k (fun c => { c with rfu := { c.rfu with elems := c.rfu.elems + BitVec.ofNat 64 n } }))) s

/-- LDA: vd ← the next auxiliary element. -/
def execLda (k : CoreId) (vd : VReg) (s : State) : Out :=
  rfuStep k (fun x s =>
    let y := loadLanes k x vd x.f.auxFmt (inBytes x.f.auxFmt) (opAuxBase x.op) (opAuxStride x.op) x.run.ldas s
    ({ y.1 with ldas := x.run.ldas + 1 }, y.2)) s

/-- Output format of a function block as a drain format (R179). -/
def rfuOutFmt (f : FuncBlock) : OutFmt :=
  match f.outFmt with
  | 1 => .lns20 | 2 => .bf16 | 3 => .int4 | 4 => .int8 | _ => .int16

/-- ST: va is the next output element, in the block's layout (R176, R178, R182). At a position at or beyond n nothing is written,
whatever va holds: R617 says so of void values only, and no element of the output lies there (DESIGN CHOICE, log entry 89); STI does
the same. -/
def execSt (k : CoreId) (va : VReg) (s : State) : Out :=
  rfuStep k (fun x s =>
    let i := x.run.sts
    let s := if x.f.outLayout = 2 ∧ i = 0 then clearLines s k x.op x.f x.run else s
    let s := (validLanes x.run).foldl (fun s (j : Fin 32) =>
      match (x.run.lanes[j]).regs[va] with
      | none => s
      | some v =>
        if x.run.n ≤ i then s else
        let cv := lnsConvOut x.f.outFmt (x.run.lanes[j]).oexp.toInt v
        let s := if x.f.outLayout = 2 then writeLineCode s k x.op x.f x.run j.val i cv.code
          else writeElement s k (rfuOutFmt x.f) (x.f.outLayout == 1) x.op.obase x.op.ostride i (laneCol x.run j) cv.code
            x.run.opidx x.run.pc
        let s := if cv.clip then countRfu s k x.run.opidx { AddCount.zero with clips := 1 } else s
        updRec s k x.run.opidx (fun y => { y with outElems := y.outElems + 1 })) s
    ({ x.run with sts := i + 1 }, s)) s

/-- STI: va in LNS20 over the element last read by LD (R180, R620). -/
def execSti (k : CoreId) (va : VReg) (s : State) : Out :=
  rfuStep k (fun x s =>
    let i := x.run.lds - 1
    let s := (validLanes x.run).foldl (fun s (j : Fin 32) =>
      match (x.run.lanes[j]).regs[va] with
      | none => s
      | some v =>
        if x.run.lds = 0 ∨ x.run.n ≤ i then s else
        drWrite s k (opInBase x.op + i * opInStride x.op + laneCol x.run j * inBytes x.f.inFmt) (natLe 4 (lnsNorm v).toNat)
          x.run.opidx x.run.pc) s
    ({ x.run with stiPhase := some (x.run.stiPhase.getD x.run.phase) }, s)) s

/-- MUL. -/
def execRfuMul (k : CoreId) (vd va vb : VReg) (s : State) : Out :=
  rfuCompute k vd (fun _ l a => binaryStep lnsMul l.regs[va] l.regs[vb] a) s

/-- DIV. -/
def execDiv (k : CoreId) (vd va vb : VReg) (s : State) : Out :=
  rfuCompute k vd (fun _ l a => binaryStep lnsDiv l.regs[va] l.regs[vb] a) s

/-- ADD. -/
def execRfuAdd (k : CoreId) (vd va vb : VReg) (s : State) : Out :=
  rfuCompute k vd (fun f l a => addStep f.dt l.regs[va] l.regs[vb] a) s

/-- SUB: va ⊕ (−vb). -/
def execRfuSub (k : CoreId) (vd va vb : VReg) (s : State) : Out :=
  rfuCompute k vd (fun f l a => addStep f.dt l.regs[va] (l.regs[vb].map (fun v => (lnsNegate v).code)) a) s

/-- MULK. -/
def execMulk (k : CoreId) (vd va : VReg) (kidx : Fin 16) (s : State) : Out :=
  rfuCompute k vd (fun f l a => binaryStep lnsMul l.regs[va] (some (rfuConst f kidx)) a) s

/-- ADDK. -/
def execAddk (k : CoreId) (vd va : VReg) (kidx : Fin 16) (s : State) : Out :=
  rfuCompute k vd (fun f l a => addStep f.dt l.regs[va] (some (rfuConst f kidx)) a) s

/-- NEG. -/
def execNeg (k : CoreId) (vd va : VReg) (s : State) : Out := rfuCompute k vd (unaryStep lnsNegate va) s

/-- ABS. -/
def execAbs (k : CoreId) (vd va : VReg) (s : State) : Out := rfuCompute k vd (unaryStep lnsAbs va) s

/-- RECIP. -/
def execRecip (k : CoreId) (vd va : VReg) (s : State) : Out := rfuCompute k vd (unaryStep lnsRecip va) s

/-- SQRT. -/
def execSqrt (k : CoreId) (vd va : VReg) (s : State) : Out := rfuCompute k vd (unaryStep lnsSqrt va) s

/-- RSQRT. -/
def execRsqrt (k : CoreId) (vd va : VReg) (s : State) : Out := rfuCompute k vd (unaryStep lnsRsqrt va) s

/-- EXP2. -/
def execExp2 (k : CoreId) (vd va : VReg) (s : State) : Out := rfuCompute k vd (unaryStep lnsExp2 va) s

/-- LOG2. -/
def execLog2 (k : CoreId) (vd va : VReg) (s : State) : Out := rfuCompute k vd (unaryStep lnsLog2 va) s

/-- TADD: feeds va into the sum tree; a void value feeds nothing (R172, R617). R172 does not say which index of the tree a value takes
when a body feeds several values per element or fewer than E, or a prologue feeds one: here the values take the indices 0, 1, … in
the order in which they are fed, and so does TMAX (DESIGN CHOICE, log entry 89). -/
def execTadd (k : CoreId) (va : VReg) (s : State) : Out :=
  rfuStep k (fun x s => ((mapLanes x.run (fun _ l a =>
    (match l.regs[va] with | some v => { l with sums := l.sums ++ [v] } | none => l, a))).1, s)) s

/-- TMAX: feeds va into the maximum tree. -/
def execTmax (k : CoreId) (va : VReg) (s : State) : Out :=
  rfuStep k (fun x s => ((mapLanes x.run (fun _ l a =>
    (match l.regs[va] with | some v => { l with maxs := l.maxs ++ [v] } | none => l, a))).1, s)) s

/-- TGET: vd ← the sum or the maximum of an earlier phase. -/
def execTget (k : CoreId) (vd : VReg) (maximum : Bool) (s : State) : Out :=
  rfuCompute k vd (fun _ l a => (some (if maximum then l.max else l.sum), a)) s

/-- QEXP: the lane's output exponent from |va| (R620). -/
def execQexp (k : CoreId) (va : VReg) (s : State) : Out :=
  rfuStep k (fun x s => ((mapLanes x.run (fun _ l a =>
    (match l.regs[va] with
     | some v => { l with oexp := BitVec.ofInt 8 (qexp (intWidth x.f.outFmt) v) }
     | none => l, a))).1, s)) s

/-- COMBINE_TIMEOUT (R119, R174): an owner's drain or a row-function part that has waited past COMBINE_TIMEOUT faults its step
with ST_SYNC_TIMEOUT; 0 waits without limit. A part whose records have all landed goes on instead. -/
def execCombineTimeout (k : CoreId) (s : State) : Out :=
  let s := resumeRfu s k
  match recWaiter s k, (getCore s k).recSince with
  | some (op, pc), some since =>
    match coreOp s k op with
    | some o =>
      if o.combineTimeout ≠ 0 ∧ since.toNat + 256 * o.combineTimeout ≤ s.now.toNat then
        .next (raiseCore s k stSyncTimeout op pc)
      else .next s
    | none => .next s
  | _, _ => .next s

/-- ROWFN_COMPLETE (R183, R311): every write of a row function has committed, those of its record lines among them, and class DR
goes on. -/
def execRowfnComplete (k : CoreId) (s : State) : Out :=
  let s' := resumeRfu s k
  match (getCore s' k).active, (getCore s' k).rfuRun with
  | some .rowfn, some r =>
    if !r.finished || linesOut s' k then .next s else
    .next (settle (countStall (updCore s' k (fun c =>
      let more := c.port.any (fun x => match x with | .rowfn .. => true | _ => false)
      { c with active := none, rfuRun := none, drLines := [],
               rfu := { c.rfu with state := if more then .waitPort else .idle } })) k false) k)
  | _, _ => .next s

end Sys2Proof.Machine
end

