-- ==== Sys2Proof/Machine/Fine.lean ====
section
/-! DEFINITION. The fine unit (R64, R65, R187 to R189, R194 to R196, R306): FINE, its four operations over the fine store, and
their completion. Where an operand lies in the store is left open by the spec (log entry 8). -/

namespace Sys2Proof.Machine

/-! ## Issue -/

/-- FINE (R302, R306, R310): the clamped operation joins the tile's fine unit; four may wait per core. LBASE of an FDOT is checked
as that of an MTILE (R323); the other kinds ignore it. -/
def execFine (k : CoreId) (rd : SReg) (op : OpIdx) (s : State) : Out :=
  if !(Instr.fine k rd op).wf then .refused .neverLoaded else
  match coreRun s k with
  | none => .next s
  | some (_, r) =>
    .next (if canIssue s k then
      let c := getCore s k
      let sh := findShape r op.toNat
      let sl := findShare r k op.toNat
      let sm := match sh, sl with | some h, some l => shareM h l | _, _ => 0
      let sk := match sh, sl with | some h, some l => shareK h l | _, _ => 0
      let na := match sh with | some h => h.n | none => 0
      let m := min (lowHalf c rd 0) (sm - highHalf c rd 0)
      let n := min (lowHalf c rd 1) (na - highHalf c rd 1)
      let lbase := highHalf c rd 2
      let dot := match coreOp s k op.toNat with | some o => opFineKind o == 0 | none => false
      if m = 0 ∨ n = 0 then updCore s k retire
      else if dot && (decide (plainSize ≤ lbase) || lbase % 8 != 0) then
        seqFault (updCore s k (fun c => { c with seq := { c.seq with issued := c.seq.issued + 1 } })) k 0 stStepFault op.toNat c.seq.pc
      else if 4 ≤ (s.tiles[k.tile].fine.queue.filter (fun j => j.core == k.core)).length then stall s k
      else
        let j : FineJob :=
          { core := k.core, opidx := op.toNat, m := m, n := n, k := min (lowHalf c rd 2) sk, n0 := highHalf c rd 1,
            m0 := highHalf c rd 0, lbase := if dot then lbase else 0, invoc := r.stepno.toNat % 2 ^ 24, pc := c.seq.pc }
        updTile (updCore s k (fun c => retire { c with fines := c.fines + 1 })) k.tile (fun t =>
          { t with fine := { t.fine with queue := t.fine.queue ++ [j] } })
    else s)

/-! ## The fine store -/

/-- Bytes of the fine store (R188). -/
def fineSize : Nat := 0x200000

/-- Offset of an item of an operand, within the store. -/
def fineAt (o : Op) (role base i : Nat) : Nat := Config.fineElem o.opidx role base 0 i % fineSize

/-- Offset of code i of a row of one-byte codes: the codes of a row follow one another (R38, R63). -/
def fineCode (o : Op) (role base row i : Nat) : Nat := (Config.fineElem o.opidx role base 0 row + i) % fineSize

/-- Offset of the exponent or zero point of a group: one byte per group, in group order (R38). -/
def fineExp (o : Op) (role base grp : Nat) : Nat := (Config.fineElem o.opidx role base 0 0 + grp) % fineSize

def fineRead (m : Mem) (a n : Nat) : Nat := leNat (memRead m a n)

def fineByte (m : Mem) (a : Nat) : Nat := (memGet m a).toNat

/-- What an operation has done so far: the store, clips. -/
structure FineAcc where
  store : Mem
  clips : Nat

/-- One operation's place in the step: its run-time shape and the share's first row and reduction element. -/
structure FinePart where
  m : Nat
  n : Nat
  k : Nat
  row0 : Nat
  k0 : Nat

def finePart (r : StepRun) (k : CoreId) (opidx : Nat) : FinePart :=
  let sh := findShape r opidx
  let sl := findShare r k opidx
  { m := (sh.map (fun h => h.m)).getD 0, n := (sh.map (fun h => h.n)).getD 0, k := (sh.map (fun h => h.k)).getD 0,
    row0 := (sl.map (fun x => x.row0)).getD 0, k0 := (sl.map (fun x => x.k0)).getD 0 }

/-- Group size g, code width b and mantissa of the code rows and groups of a fine-unit operation (R32, R63): no field of the
operation table says them (log entry 8). -/
def fineGroup (o : Op) : Nat := 32 * 2 ^ (Config.fineGsize o.opidx % 3)
def fineWidth (o : Op) : Nat := Config.fineWbits o.opidx % 8 + 1
def fineMantissa (o : Op) (code z : Nat) : Int :=
  let b := fineWidth o
  if Config.fineWzp o.opidx then (code : Int) - (z % 2 ^ b : Nat)
  else if b = 1 then (if code = 0 then 1 else -1)
  else toSigned code b

/-- Whether an operand is FP32: never in BF16 mode for the inputs of a product (R187, R189). The master copy (role 12) is in the
format that ENGOPT bit 2 of the operation table declares (R65; DEDUCED, log entry 8). -/
def fineF32 (o : Op) (role : Nat) : Bool :=
  if role = 12 then !opFineBf16 o else !(opFineBf16 o && decide (role < 2)) && Config.fineIsF32 o.opidx role

/-- An FP32 or BF16 item at an offset as a number, and whether it was an infinity or a NaN (R127, R187). -/
def fineLoad (o : Op) (m : Mem) (role a : Nat) : Exact × Bool :=
  if fineF32 o role then ofFloat 23 (fineRead m a 4) else ofFloat 7 (fineRead m a 2)
def fineGet (o : Op) (m : Mem) (role base i : Nat) : Exact × Bool := fineLoad o m role (fineAt o role base i)

/-- An FP32 code of a finite number. -/
def f32 (c : Nat) : Exact := (ofFloat 23 c).1

/-- One fused multiply-add, rounded once, overflow to the largest finite value with a clip (R187). -/
def fineFma (x y : Exact) (acc : Nat × Nat) : Nat × Nat :=
  let c := toFloat 23 (dyAdd (dyMul x y) (f32 acc.1)) .rne
  (c.code, acc.2 + (if c.clip then 1 else 0))

/-- Write a float item in FP32 or BF16. -/
def finePut (o : Op) (a : FineAcc) (role base i : Nat) (isF32 : Bool) (v : Exact) : FineAcc :=
  let c := if isF32 then toFloat 23 v .rne else toFloat 7 v .rne
  { store := memWrite a.store (fineAt o role base i) (natLe (if isF32 then 4 else 2) c.code),
    clips := a.clips + (if c.clip then 1 else 0) }

/-! ## FDOT and FNORM outputs -/

/-- Write one token's outputs (R189): FP32, BF16, or INT16 under an exponent chosen as by QEXP. -/
def fineToken (o : Op) (a : FineAcc) (n : Nat) (vals : List (Nat × Exact)) : FineAcc :=
  match Config.fineOutFmt o.opidx with
  | 0 => vals.foldl (fun a x => finePut o a 2 (opOutOff o) x.1 true x.2) a
  | 1 => vals.foldl (fun a x => finePut o a 2 (opOutOff o) x.1 false x.2) a
  | _ =>
    let fits (e : Int) : Bool := vals.all (fun x => dyLe (dyAbs x.2) { m := 32767, e := e })
    let e : Int := match (List.range 255).find? (fun i => fits ((i : Int) - 128)) with
      | some i => (i : Int) - 128
      | none => 127
    let a := vals.foldl (fun a x =>
      let c := toInt 16 e x.2 .rne
      ({ store := memWrite a.store (fineAt o 2 (opOutOff o) x.1) (natLe 2 c.code), clips := a.clips + (if c.clip then 1 else 0) } : FineAcc)) a
    { a with store := memPut a.store (fineAt o 3 (opOutOff o) n) (BitVec.ofInt 8 e) }

/-- One output of FDOT: the sum over the reduction in ascending order, in FP32 (R187, R189). -/
def fineDot (o : Op) (m : Mem) (job : FineJob) (p : FinePart) (row col : Nat) : Nat × Nat :=
  (List.range job.k).foldl (fun acc x =>
    let u := fineLoad o m 0 (Config.fineElem o.opidx 0 (opInOff o) job.lbase (col * p.k + p.k0 + x) % fineSize)
    let w := fineGet o m 1 (opAuxOff o) (row * p.k + p.k0 + x)
    fineFma u.1 w.1 (acc.1, acc.2 + (if u.2 then 1 else 0) + (if w.2 then 1 else 0))) (0, 0)

/-- FDOT: an M × N × K product (R189). Item (column, row) of the operation's output has index column × M + row. -/
def runFdot (o : Op) (job : FineJob) (p : FinePart) (m : Mem) : FineAcc :=
  (List.range job.n).foldl (fun a n =>
    let outs := (List.range job.m).map (fun r =>
      let row := p.row0 + job.m0 + r
      let d := fineDot o m job p row (job.n0 + n)
      ((job.n0 + n) * p.m + row, f32 d.1, d.2))
    let clips := (outs.map (fun x => x.2.2)).foldl (· + ·) 0
    fineToken o { a with clips := a.clips + clips } (job.n0 + n) (outs.map (fun x => (x.1, x.2.1)))) { store := m, clips := 0 }

/-- FNORM: one norm for each token over its features (R189). Gain and bias are read once for the operation (log entry 8). -/
def runFnorm (o : Op) (job : FineJob) (p : FinePart) (m : Mem) : FineAcc :=
  let word (x : Exact) : Word32 := BitVec.ofNat 32 (toFloat 23 x .rne).code
  let bad (xs : List (Exact × Bool)) : Nat := (xs.filter (fun x => x.2)).length
  let aux := (List.range (2 * job.m)).map (fineGet o m 1 (opAuxOff o))
  let ws := aux.map (fun x => word x.1)
  (List.range job.n).foldl (fun a n =>
    let xs := (List.range job.m).map (fun i => fineGet o m 0 (opInOff o) (n * p.m + i))
    let us := xs.map (fun x => word x.1)
    fineToken o { a with clips := a.clips + bad xs + Config.fineNormClips o.opidx us ws } n
      ((List.range job.m).map (fun i => (n * p.m + i, f32 (Config.fineNorm o.opidx us ws i).toNat))))
    { store := m, clips := bad aux }

/-- FEMB: code rows of R32 with their group exponents, expanded exactly; the codes of a row are packed under R38. -/
def runFemb (o : Op) (job : FineJob) (p : FinePart) (m : Mem) : FineAcc :=
  (List.range job.n).foldl (fun a n =>
    (List.range job.m).foldl (fun a r =>
      let i := p.row0 + r
      let b := fineWidth o
      let bit := b * i
      let base := fineAt o 0 (opInOff o) n
      let code := (fineByte m (base + bit / 8) + 256 * fineByte m (base + bit / 8 + 1)) / 2 ^ (bit % 8) % 2 ^ b
      let grp := n * ceilDiv p.m (fineGroup o) + i / fineGroup o
      let e := toSigned (fineByte m (fineExp o 4 (opAuxOff o) grp)) 8
      let z := fineByte m (fineExp o 5 (opAuxOff o) grp)
      finePut o a 2 (opOutOff o) (n * p.m + i) (Config.fineIsF32 o.opidx 2) { m := fineMantissa o code z, e := e }) a)
    { store := m, clips := 0 }

/-! ## FOPT (R63 to R65) -/

/-- The exponent of a group (R64): the smallest e with M ≤ C × 2^e, within −128 to 127; −128 for a group of zeros. -/
def groupExp (top : Int) (xs : List Exact) : Int :=
  match (List.range 255).find? (fun i => xs.all (fun x => dyLe (dyAbs x) { m := top, e := (i : Int) - 128 })) with
  | some i => (i : Int) - 128
  | none => 127

/-- One code of a group: rounded stochastically, saturated with a clip (R54, R64). -/
def groupCode (top low : Int) (e : Int) (r : Nat) (x : Exact) : Int × Bool :=
  let n := stochAt x e r
  if top < n then (top, true) else if n < low then (low, true) else (n, false)

/-- An FP32 result of a lane's step with the clips so far (R187). -/
abbrev LaneF := Nat × Nat

/-- Round an exact result to FP32, after earlier clips. -/
def fineRound (x : Exact) (clips : Nat) : LaneF :=
  let c := toFloat 23 x .rne
  (c.code, clips + (if c.clip then 1 else 0))

/-- a × b, rounded. -/
def laneMul (a b : LaneF) : LaneF := fineRound (dyMul (f32 a.1) (f32 b.1)) (a.2 + b.2)

/-- a × b + c as the k-th sum of a rule: fused, or with the product rounded first (log entry 8). -/
def laneMulAdd (k : Nat) (a b c : LaneF) : LaneF :=
  if Config.fineFused k then fineRound (dyAdd (dyMul (f32 a.1) (f32 b.1)) (f32 c.1)) (a.2 + b.2 + c.2)
  else
    let p := laneMul a b
    fineRound (dyAdd (f32 p.1) (f32 c.1)) (p.2 + c.2)

/-- a / b, correctly rounded; by zero the largest finite value with the sign of the quotient and a clip (R187, R189). -/
def laneDiv (a b : LaneF) : LaneF :=
  let x := f32 a.1
  let y := f32 b.1
  if y.m = 0 then
    if x.m = 0 then ((Config.fineUndefined (BitVec.ofNat 32 a.1) (BitVec.ofNat 32 b.1)).toNat, a.2 + b.2)
    else ((a.1 / 2 ^ 31 + b.1 / 2 ^ 31) % 2 * 2 ^ 31 + 0x7F7FFFFF, a.2 + b.2 + 1)
  else if x.m = 0 then fineRound dyZero (a.2 + b.2)
  else fineRound (dyDiv x y) (a.2 + b.2)

/-- √a, correctly rounded. -/
def laneSqrt (a : LaneF) : LaneF :=
  let x := f32 a.1
  if x.m = 0 then a
  else if x.m < 0 then ((Config.fineUndefined (BitVec.ofNat 32 a.1) 0).toNat, a.2)
  else fineRound (dySqrt x) a.2

/-- The AdamW rule on one element, in the order of R189: m, v and w after it. -/
structure Adam where
  m : LaneF
  v : LaneF
  w : LaneF

/-- m ← β1m + (1 − β1)g, v ← β2v + (1 − β2)g², w ← w − lr(c1m/(√(c2v) + ε) + λw) (R189). -/
def adamStep (opidx : Nat) (g m v w : LaneF) : Adam :=
  let c (i : Nat) : LaneF := ((Config.fineConst opidx i).toNat, 0)
  let one : LaneF := (0x3F800000, 0)
  let neg (a : LaneF) : LaneF := ((a.1 + 2 ^ 31) % 2 ^ 32, a.2)
  let rest (b : LaneF) : LaneF := fineRound (dyAdd (f32 one.1) (f32 (neg b).1)) b.2
  let once (a : LaneF) : LaneF := (a.1, 0)
  let m' := laneMulAdd 0 (c 0) m (laneMul (rest (c 0)) g)
  let v' := laneMulAdd 1 (c 1) v (laneMul (rest (c 1)) (laneMul (once g) (once g)))
  let root := laneSqrt (laneMul (c 4) (once v'))
  let den := fineRound (dyAdd (f32 root.1) (f32 (c 5).1)) root.2
  let quo := laneDiv (laneMul (c 3) (once m')) den
  let sum := laneMulAdd 2 (c 6) (once w) quo
  { m := m', v := v', w := laneMulAdd 3 (neg (c 2)) sum w }

/-- The stream of the fine unit for an operation: the USE 0x02 assignment on a core of its tile (R285, R381). -/
def fineStream (c : Constellation) (t : TileId) (opidx : Nat) : Option StreamAssign :=
  c.streams.find? (fun x => x.tile == t.val && x.use == 2 && x.opidx == opidx)

/-- Write a group of codes with its exponent into the store (R38, R63). -/
def putGroup (o : Op) (a : FineAcc) (roleC roleE row first grp : Nat) (top low : Int) (r : Nat → Nat) (xs : List Exact) : FineAcc :=
  let e := groupExp top xs
  let a := ((List.range xs.length).zip xs).foldl (fun (a : FineAcc) x =>
    let c := groupCode top low e (r (first + x.1)) x.2
    { store := memPut a.store (fineCode o roleC (opOutOff o) row (first + x.1)) (BitVec.ofInt 8 c.1),
      clips := a.clips + (if c.2 then 1 else 0) }) a
  { a with store := memPut a.store (fineExp o roleE (opOutOff o) grp) (BitVec.ofInt 8 e) }

/-- Write a code of b bits as item i of the bit stream of a row (R38). -/
def putCode (m : Mem) (base b i code : Nat) : Mem :=
  let bit := b * i
  let a := base + bit / 8
  let old := fineByte m a + 256 * fineByte m (a + 1)
  let sh := 2 ^ (bit % 8)
  let new := old - old / sh % 2 ^ b * sh + code % 2 ^ b * sh
  memPut (memPut m a (BitVec.ofNat 8 new)) (a + 1) (BitVec.ofNat 8 (new / 256))

/-- The re-quantised copy of one group in the weight form of R32: codes of b bits packed under R38, exponent and, with zero
points, zero point (R65). Which codes and exponents stand for the parameters the spec does not say (log entry 8). -/
def putRequant (o : Op) (a : FineAcc) (row grp first : Nat) (ws : List Word32) : FineAcc :=
  let q (i : Nat) : Byte := Config.fineRequant o.opidx ws i
  let s := (List.range ws.length).foldl (fun s i => putCode s (fineAt o 13 (opOutOff o) row) (fineWidth o) (first + i) (q i).toNat) a.store
  let s := memPut s (fineExp o 14 (opOutOff o) grp) (q ws.length)
  { a with store := if Config.fineWzp o.opidx then
      memPut s (fineExp o 15 (opOutOff o) grp) (BitVec.ofNat 8 ((q (ws.length + 1)).toNat % 2 ^ fineWidth o)) else s }

/-- FOPT on one group of parameters: decode, the AdamW rule, re-encoding, master copy, re-quantised copy (R65, R189). -/
def optGroup (o : Op) (job : FineJob) (p : FinePart) (seed : Word64) (m : Mem) (row first : Nat) (a : FineAcc) : FineAcc :=
  let g := fineGroup o
  let grp := row * ceilDiv p.n g + first / g
  let idx := (List.range (min g (job.n - first))).map (fun i => first + i)
  let code (role i : Nat) : Nat := fineByte m (fineCode o role (opInOff o) row i)
  let ex (role : Nat) : Int := toSigned (fineByte m (fineExp o role (opInOff o) grp)) 8
  let enc (x : Exact) : LaneF := fineRound x 0
  let upd := idx.map (fun i =>
    let w := fineGet o m 12 (opInOff o) (row * p.n + i)
    adamStep o.opidx (enc (ofInt 8 (code 6 i) (ex 7))) (enc (ofInt 8 (code 8 i) (ex 9))) (enc { m := code 10 i, e := ex 11 })
      ((enc w.1).1, if w.2 then 1 else 0))
  let r (i : Nat) : Nat := rngDraw seed (opStream o) job.invoc row i
  let a := { a with clips := upd.foldl (fun n x => n + x.m.2 + x.v.2 + x.w.2) a.clips }
  let a := putGroup o a 8 9 row first grp 127 (-127) r (upd.map (fun x => f32 x.m.1))
  let a := putGroup o a 10 11 row first grp 255 0 r (upd.map (fun x => f32 x.v.1))
  let a := (idx.zip upd).foldl (fun a x => finePut o a 12 (opInOff o) (row * p.n + x.1) (fineF32 o 12) (f32 x.2.w.1)) a
  putRequant o a row grp first (upd.map (fun x => BitVec.ofNat 32 x.w.1))

/-- FOPT over the rows of the operation, group by group. No rule says which extents of the shape are the tensor's: here M counts its
rows and N runs along its innermost dimension, so groups run along N within a row, and the row and the column of R55's counter are
a parameter's row and place in it (DESIGN CHOICE, log entry 83). R64 rounds the moments stochastically whatever ORND says, under the
stream OSTREAM (R55, R62); the spec does not say what ORND = 0b0 then means (DESIGN CHOICE, log entry 83). -/
def runFopt (o : Op) (job : FineJob) (p : FinePart) (seed : Word64) (m : Mem) : FineAcc :=
  (List.range job.m).foldl (fun a row =>
    (List.range (ceilDiv job.n (fineGroup o))).foldl (fun a q => optGroup o job p seed m (p.row0 + row) (q * fineGroup o) a) a)
    { store := m, clips := 0 }

/-! ## Events -/

/-- Lane steps of an operation, from the times of R189 (log entry 19). -/
def fineSteps (kind : Nat) (job : FineJob) : Nat :=
  match kind with
  | 0 => job.m * job.n * job.k
  | 1 => 3 * job.m * job.n
  | 2 => job.m * job.n
  | _ => 24 * job.m * job.n

/-- The fine unit starts the operation that arrived first, if it is of a kind, and works it (R188, R189). Its clips of R187 (infinite
or NaN inputs, overflows inside a lane) count in OUT_CLIPS of the operation's clip record (R57) as in FIN_CLIPS (R196): R187 calls each
a clip, while R57 names R50 and R52 only (DESIGN CHOICE, log entry 83). OUT_ELEMS of an FOPT,
which writes two moments and two copies of each parameter, counts each parameter once (DESIGN CHOICE, log entry 83). -/
def runFine (t : TileId) (kind : Nat) (work : StepRun → Op → FineJob → FinePart → Mem → FineAcc) (s : State) : Out :=
  let u := s.tiles[t].fine
  match u.running, u.queue with
  | none, j :: rest =>
    let k : CoreId := ⟨t, j.core⟩
    match coreOp s k j.opidx, coreConst s k, coreRun s k with
    | some o, some c, some (_, r) =>
      if opFineKind o ≠ kind ∨ !powered s ∨ !tileAwake s t then .next s else
      let w := work r o j (finePart r k j.opidx) u.store
      let tl := s.tiles[t].pwr.tl.toNat
      let s := updTile s t (fun x =>
        let f := x.fine
        { x with fine := { f with
          store := w.store, queue := rest, running := some j, opidx := BitVec.ofNat 12 j.opidx, kind := BitVec.ofNat 2 kind,
          bf16 := opFineBf16 o, state := .running, fmas := f.fmas + BitVec.ofNat 64 (fineSteps kind j),
          clips := satAdd f.clips w.clips } })
      let s := match kind, fineStream c t j.opidx with
        | 3, some a =>
          if h : a.core < 64 then
            updCore s ⟨t, ⟨a.core, h⟩⟩ (fun c => { c with rng := { c.rng with draws := c.rng.draws + BitVec.ofNat 64 (2 * j.m * j.n) } })
          else s
        | _, _ => s
      .next (updRec s k j.opidx (fun x =>
        { x with ran := true, tl := max x.tl tl, outElems := x.outElems + j.m * j.n, outClips := x.outClips + w.clips }))
    | _, _, _ => .next s
  | _, _ => .next s

/-- FDOT (R189). -/
def execFdot (t : TileId) (s : State) : Out := runFine t 0 (fun _ o j p m => runFdot o j p m) s

/-- FNORM (R189). -/
def execFnorm (t : TileId) (s : State) : Out := runFine t 1 (fun _ o j p m => runFnorm o j p m) s

/-- FEMB (R189). -/
def execFemb (t : TileId) (s : State) : Out := runFine t 2 (fun _ o j p m => runFemb o j p m) s

/-- FOPT (R64, R65, R189). -/
def execFopt (t : TileId) (s : State) : Out :=
  runFine t 3 (fun r o j p m => runFopt o j p r.seed m) s

/-- FINE_COMPLETE (R311): the last output is in the fine store; class FN of the issuing core goes on. -/
def execFineComplete (t : TileId) (s : State) : Out :=
  match s.tiles[t].fine.running with
  | none => .next s
  | some j =>
    let s := updTile s t (fun x => { x with fine := { x.fine with running := none, state := .idle } })
    .next (settle (updCore s ⟨t, j.core⟩ (fun c => { c with fines := c.fines - 1 })) ⟨t, j.core⟩)

end Sys2Proof.Machine
end

