-- ==== Sys2Proof/Machine/Tags.lean ====
section
/-! DEFINITION. Blocked tagged accesses (R246 to R250, R264, R267): their release and their timeout. -/

namespace Sys2Proof.Machine

/-- A noted access is still blocked: its slot is tagged and its tag has not changed. -/
def stillBlocked (c : Core) (b : TagBlock) : Bool := tagModeOf c b.slot != 0 && tagFull c b.slot == b.full

/-- TAG_BLOCK_RELEASE (R249): the first blocked access of a port whose tag has changed is released and proceeds; its time goes
into PLN_TAGWAIT (free, log entry 10). A descriptor or a sender of a line over RX that waited goes on (R354, R357). -/
def execTagBlockRelease (k : CoreId) (p : Port) (s : State) : Out :=
  if !powered s then .next s else
  let c := getCore s k
  match c.tagBlocks.find? (fun b => b.port == p && !stillBlocked c b) with
  | none => .next s
  | some b =>
    let (v, s) := drawFree s
    let s := updCore s k (fun c =>
      { c with tagBlocks := c.tagBlocks.erase b, pln := { c.pln with blockHc := satAdd c.pln.blockHc v.toNat } })
    .next (match p with
      | .wf | .af => feedPass s k
      | .ce | .rx => pumpAll s
      | _ => s)

/-- The instruction on whose behalf a port accesses a plain: operation and pc. -/
def portWork (s : State) (c : Core) (b : TagBlock) : Nat × BitVec 13 :=
  let mat (u : MatUnit) : Nat × BitVec 13 :=
    match u.running, u.queue with
    | some r, _ => (r.job.opidx, r.job.pc)
    | none, j :: _ => (j.opidx, j.pc)
    | none, [] => (0, c.seq.pc)
  match b.port with
  | .wf | .af => mat c.ag
  | .sx => mat c.sp
  | .ce => match b.eng with
    | some e => (0, ((getEngine s e).running.toList.findSome? (fun r => r.map (fun x => x.job.pc))).getD c.seq.pc)
    | none => (0, c.seq.pc)
  | _ => (0, c.seq.pc)

/-- A descriptor of an engine that has waited too long on a tag has faulted while it ran (R350, R354). -/
def failTagged (s : State) (eng : Option EngineId) : State :=
  match eng with
  | none => s
  | some e => match (engineActive (getEngine s e)).find? waitsTag with
    | none => s
    | some r => failRun (accrue s e) (runOrigin e r)

/-- TAG_TIMEOUT (R250, R267): an access blocked past the plain's timeout faults the step with ST_TAG_TIMEOUT, its slot is
recorded and its time goes into PLN_TAGWAIT (free, log entry 10); a tag change that came first makes it proceed instead. -/
def execTagTimeout (k : CoreId) (p : Port) (s : State) : Out :=
  let c := getCore s k
  match c.tagBlocks.find? (fun b => b.port == p && stillBlocked c b) with
  | none => .next s
  | some b =>
    if c.pln.timeout = 0 ∨ s.now.toNat < b.since.toNat + 256 * c.pln.timeout.toNat ∨ aborting s k then .next s else
    let w := portWork s c b
    let (v, s) := drawFree s
    let s := updCore s k (fun c => { c with tagBlocks := c.tagBlocks.erase b, pln :=
      { c.pln with blockHc := satAdd c.pln.blockHc v.toNat, fault := (c.pln.fault &&& 0x1F) ||| BitVec.ofNat 32 (b.slot % 4096 * 2 ^ 16) } })
    .next (plnFault (failTagged s b.eng) k 0 stTagTimeout w.1 w.2)

end Sys2Proof.Machine
end

