-- ==== Sys2Proof/Machine/Ring.lean ====
section
/-! DEFINITION. Command and completion rings (R508 to R516): host memory, fetching of entries, completions, MSI-X. -/

namespace Sys2Proof.Machine

/-! ## Host memory through the host buffer window (R508) -/

/-- Bus address of window offset o of a function. -/
def busAddr (f : Func) (o : Nat) : Nat := (f.hbBase.toNat + o) % 2 ^ 64

def hostRead (s : State) (f : FuncId) (o n : Nat) : List Byte := memRead s.hostMem (busAddr s.funcs[f] o) n

def hostWrite (s : State) (f : FuncId) (o : Nat) (bs : List Byte) : State :=
  { s with hostMem := memWrite s.hostMem (busAddr s.funcs[f] o) bs }

/-- A buffer lies wholly below HST_HBWIN.LEN. -/
def inWindow (s : State) (f : FuncId) (o n : Nat) : Bool := decide (o + n ≤ (s.funcs[f]).hbLen.toNat)

/-! ## Rings -/

def getRing (s : State) (f : FuncId) (r : Fin 8) : Ring := (s.funcs[f]).rings[r]

def updRing (s : State) (f : FuncId) (r : Fin 8) (g : Ring → Ring) : State :=
  updFunc s f (fun x => { x with rings := x.rings.set r (g x.rings[r]) })

/-- D = 2^(6 + LOGD) (R530). -/
def ringDepth (r : Ring) : Nat := 2 ^ (6 + r.logd.toNat)

/-- Fire a ring's MSI-X vector: one more message of that vector (R513). -/
def fireMsix (s : State) (f : FuncId) (r : Fin 8) : State :=
  updFunc s f (fun x =>
    let v : Fin 64 := ⟨(x.rings[r]).vector.toNat, (x.rings[r]).vector.isLt⟩
    { x with msix := x.msix.set v (x.msix[v] + 1) })

/-- The end of the moderation interval that begins now (R513). -/
def intervalEnd (now : Word64) (g : Ring) : Word64 := now + BitVec.ofNat 64 (1000 * g.mod.toNat)

/-- Announce a completion: at once, or at the end of a moderation interval [t, t + MOD µs) (R513). An interval that is over fires first,
and a completion at its end begins the next one (R8). -/
def announce (s : State) (f : FuncId) (r : Fin 8) : State :=
  let g := getRing s f r
  if g.mod = 0 then fireMsix s f r
  else match g.moderating with
    | none => updRing s f r (fun g => { g with moderating := some (intervalEnd s.now g) })
    | some t =>
      if t.ule s.now then updRing (fireMsix s f r) f r (fun g => { g with moderating := some (intervalEnd s.now g) }) else s

/-- Write a completion entry: STATUS and 14 result bytes, in one write (R510, R515). -/
def writeCompletion (s : State) (c : HostSlot) (status : BitVec 16) (result : List Byte) : State :=
  let g := getRing s c.func c.ring
  let s := hostWrite s c.func (g.cplBase.toNat + 16 * c.slot.toNat) (natLe 2 status.toNat ++ sliceAt result 0 14)
  announce (updRing s c.func c.ring (fun g => { g with done := g.done + 1 })) c.func c.ring

/-- OPCODE, FLAGS and fields of a command entry (R514). -/
def entOpcode (e : List Byte) : Nat := fieldAt e 0 1
def entFlags (e : List Byte) : Nat := fieldAt e 1 1
def entOrder (e : List Byte) : Bool := decide (entFlags e % 2 = 1)
def entBuf (e : List Byte) : Nat := fieldAt e 8 8
def entLen (e : List Byte) : Nat := fieldAt e 16 4
/-- The byte after the common fields: KIND, SOURCE or ITEM. -/
def entKind (e : List Byte) : Nat := fieldAt e 20 1

/-- The command is listed in R517 (with KIND of QUERY and ITEM of SET). -/
def listedCommand (e : List Byte) : Bool :=
  match entOpcode e with
  | 0x01 | 0x03 | 0x10 | 0x11 | 0x12 | 0x20 | 0x21 | 0x22 | 0x30 | 0x31 | 0x32 | 0x33 | 0x34 | 0x35 => true
  | 0x02 => entKind e == 1 || entKind e == 2
  | 0x40 => decide (1 ≤ entKind e) && decide (entKind e ≤ 6)
  | _ => false

/-- Read slots from the head up to the tail (R511): not a slot whose previous command is without completion. A command that
R517 does not list is refused at once (R516). -/
def fetchRing (f : FuncId) (r : Fin 8) : Nat → State → State
  | 0, s => s
  | fuel + 1, s =>
    let g := getRing s f r
    if !g.enable || g.head == g.tail || g.fetched.any (fun x => x.slot == g.head) then s else
    let e := hostRead s f (g.cmdBase.toNat + 64 * g.head.toNat) 64
    let slot := g.head
    let s := updRing s f r (fun g => { g with head := BitVec.ofNat 16 ((g.head.toNat + 1) % ringDepth g) })
    if listedCommand e then
      fetchRing f r fuel (updRing s f r (fun g => { g with fetched := g.fetched ++ [{ slot := slot, entry := e, started := false }] }))
    else fetchRing f r fuel (writeCompletion s ⟨f, r, slot⟩ stHostBadCommand [])

/-- The fetched command of a slot. -/
def findFetched (s : State) (c : HostSlot) : Option Fetched := (getRing s c.func c.ring).fetched.find? (fun x => x.slot == c.slot)

/-- Complete a command (R510 to R513): its completion is written, unless a Function Level Reset discarded it (R525), and reading
of the ring resumes. -/
def complete (s : State) (c : HostSlot) (status : BitVec 16) (result : List Byte) : State :=
  match findFetched s c with
  | none => s
  | some _ =>
    let s := updRing s c.func c.ring (fun g => { g with fetched := g.fetched.filter (fun x => x.slot != c.slot) })
    fetchRing c.func c.ring (ringDepth (getRing s c.func c.ring)) (writeCompletion s c status result)

/-- Write to the host on behalf of a command, unless its completion has been discarded (R525). -/
def commandWrite (s : State) (c : HostSlot) (o : Nat) (bs : List Byte) : State :=
  match findFetched s c with
  | none => s
  | some _ => hostWrite s c.func o bs

/-- A command may start (R512): every earlier command of its ring has started, and under ORDER has completed. -/
def mayStart (g : Ring) (slot : BitVec 16) : Bool :=
  match g.fetched.findIdx? (fun x => x.slot == slot) with
  | none => false
  | some i => (g.fetched.take i).all (fun x => x.started) &&
    (match g.fetched[i]? with
     | some x => !x.started && (!entOrder x.entry || i == 0)
     | none => false)

def markStarted (s : State) (c : HostSlot) : State :=
  updRing s c.func c.ring (fun g => { g with fetched := g.fetched.map (fun x => if x.slot == c.slot then { x with started := true } else x) })

/-- The partition mapped to a function (R506). -/
def funcPart (s : State) (f : FuncId) : Option PartId :=
  allParts.find? (fun p => s.parts[p].layout.defined && s.parts[p].layout.function.toNat == f.val)

end Sys2Proof.Machine
end

