-- ==== Sys2Proof/Machine/Image.lean ====
section
/-! DEFINITION. The configuration image (R269 to R286, R618): reading it into a constellation. -/

namespace Sys2Proof.Machine

/-! ## Header and directory (R270, R273) -/

/-- One used directory entry: its place, TYPE, OFFSET, LENGTH, COUNT. -/
structure SecRef where
  place : Nat
  ty : Nat
  off : Nat
  len : Nat
  count : Nat
  deriving DecidableEq, Repr

def dirEntry (img : List Byte) (i : Nat) : List Byte := sliceAt img (128 + 16 * i) 16

def secRef (img : List Byte) (i : Nat) : SecRef :=
  let e := dirEntry img i
  { place := i, ty := fieldAt e 0 2, off := fieldAt e 4 4, len := fieldAt e 8 4, count := fieldAt e 12 4 }

/-- The used directory entries. -/
def secRefs (img : List Byte) : List SecRef := ((List.range 16).map (secRef img)).filter (fun r => r.ty != 0)

def findSec (img : List Byte) (ty : Nat) : Option SecRef := (secRefs img).find? (fun r => r.ty == ty)

/-- Strides of the section types; 0 for the variable ones (R273). -/
def secStride (ty : Nat) : Nat :=
  match ty with
  | 1 => 2048 | 2 => 8448 | 3 => 2052 | 4 => 256 | 5 => 48 | 6 => 2 | 7 => 1120 | 9 => 32 | 10 => 8 | 11 => 32 | 12 => 16 | _ => 0

def secCount (img : List Byte) (ty : Nat) : Nat := match findSec img ty with | some r => r.count | none => 0

/-- The entries of a section of fixed stride. -/
def secEntries (img : List Byte) (ty : Nat) : List (List Byte) :=
  match findSec img ty with
  | none => []
  | some r => (List.range r.count).map (fun i => sliceAt img (r.off + secStride ty * i) (secStride ty))

/-! ## Entries -/

def bv (w n : Nat) : BitVec w := BitVec.ofNat w n

/-- A core frame (R274). -/
def parseFrame (e : List Byte) : CoreFrame :=
  { active := fieldAt e 0 1 % 2 = 1, split := fieldAt e 1 1 = 1, used := bv 8 (fieldAt e 2 1), resident := bv 8 (fieldAt e 3 1),
    cls := bv 16 (fieldAt e 4 2), tagTimeout := bv 16 (fieldAt e 6 2), idleHold := bv 16 (fieldAt e 8 2),
    entry := (List.range 16).map (fun i => bv 16 (fieldAt e (16 + 2 * i) 2)),
    sreg := (List.range 31).map (fun i => bv 64 (fieldAt e (48 + 8 * i) 8)),
    tagMode := bv 8192 (fieldAt e 512 1024), tagInit := bv 4096 (fieldAt e 1536 512) }

/-- An object image (R275). -/
def parseObj (e : List Byte) : ObjImage :=
  { count := bv 32 (fieldAt e 0 4), target := bv 32 (fieldAt e 4 4), mode := bv 8 (fieldAt e 8 1), timeout := bv 32 (fieldAt e 12 4) }

/-- A tile frame (R275). -/
def parseTileFrame (e : List Byte) : TileFrame :=
  { tile := fieldAt e 0 1, parkNever := fieldAt e 1 1 % 2 = 1, objs := (List.range 512).map (fun j => parseObj (sliceAt e (256 + 16 * j) 16)) }

/-- A block of hub object images (R276). -/
def parseHubBlock (e : List Byte) : HubBlock :=
  { block := fieldAt e 0 4, objs := (List.range 128).map (fun j => parseObj (sliceAt e (4 + 16 * j) 16)) }

/-- An operation-table entry (R277). -/
def parseOp (e : List Byte) : Op :=
  { opidx := fieldAt e 0 2 % 4096, engine := bv 8 (fieldAt e 2 1), engopt := bv 8 (fieldAt e 3 1), format := bv 32 (fieldAt e 4 4),
    numeric := bv 64 (fieldAt e 8 8), drain := bv 32 (fieldAt e 16 4), approx := bv 64 (fieldAt e 24 8),
    buckets := (List.range (fieldAt e 32 1)).map (fun i =>
      { m := fieldAt e (64 + 12 * i) 4, n := fieldAt e (68 + 12 * i) 4, k := fieldAt e (72 + 12 * i) 4 }),
    combineTimeout := fieldAt e 36 4, obase := fieldAt e 40 4, ostride := fieldAt e 44 4, fbase := fieldAt e 48 4,
    fstride := fieldAt e 52 4, engblk := sliceAt e 160 64 }

/-- A slice-table entry (R279). -/
def parseSlice (e : List Byte) : Slice :=
  { opidx := fieldAt e 0 2, tile := fieldAt e 2 1, core := fieldAt e 3 1, role := bv 8 (fieldAt e 4 1), part := fieldAt e 5 1,
    row0 := fieldAt e 8 4, rows := fieldAt e 12 4, k0 := fieldAt e 16 4, klen := fieldAt e 20 4, combineAddr := fieldAt e 24 7,
    drainOvr := bv 32 (fieldAt e 32 4), bandOff := fieldAt e 36 4 }

/-- A phase word (R179). -/
def parsePhase (w : Nat) : Phase :=
  { start := bitsOf w 0 8, proLen := bitsOf w 8 8, bodyLen := bitsOf w 16 8, ecode := bitsOf w 24 2 }

/-- A function block (R179). -/
def parseFunc (e : List Byte) : FuncBlock :=
  { ninstr := fieldAt e 0 2, nphase := fieldAt e 2 1, dt := fieldAt e 3 1, inFmt := fieldAt e 4 1, auxFmt := fieldAt e 5 1,
    outFmt := fieldAt e 6 1, outLayout := fieldAt e 7 1, lineP := fieldAt e 8 1, bound := bv 32 (fieldAt e 12 4),
    phases := (List.range (fieldAt e 2 1)).map (fun i => parsePhase (fieldAt e (16 + 4 * i) 4)),
    consts := (List.range 16).map (fun i => bv 20 (fieldAt e (32 + 4 * i) 4)),
    micro := (List.range (fieldAt e 0 2)).map (fun i => bv 32 (fieldAt e (96 + 4 * i) 4)) }

/-- A remote-write window (R283). -/
def parseWindow (e : List Byte) : Window :=
  { base := fieldAt e 0 7, len := fieldAt e 8 4, sources := bv 16 (fieldAt e 12 2), kind := fieldAt e 14 1, arrival := fieldAt e 16 7 }

/-- A stream assignment (R285). -/
def parseStream (e : List Byte) : StreamAssign :=
  { tile := fieldAt e 0 1, core := fieldAt e 1 1, stream := fieldAt e 2 1, use := fieldAt e 3 1, opidx := fieldAt e 4 2 }

/-- A stream contract (R286). -/
def parseContract (e : List Byte) : Contract :=
  { id := fieldAt e 0 2, entry := fieldAt e 2 1, maxBucket := fieldAt e 3 1, period := fieldAt e 4 4, deadline := fieldAt e 8 4 }

/-- A program as the section holds it (R282): PROG, NINSTR, whether its reserved bytes are zero and it fits, its words. -/
structure RawProg where
  prog : Nat
  ninstr : Nat
  clean : Bool
  fits : Bool
  words : List Word64
  deriving DecidableEq, Repr

/-- The programs of a section from an offset on. -/
def parsePrograms (img : List Byte) (fin : Nat) : Nat → Nat → List RawProg
  | 0, _ => []
  | k + 1, off =>
    let e := sliceAt img off 16
    let n := fieldAt e 4 4
    let fits := decide (off + 16 + 8 * n ≤ fin)
    let p : RawProg :=
      { prog := fieldAt e 0 2, ninstr := n, clean := fieldAt e 2 2 == 0 && fieldAt e 8 8 == 0, fits := fits,
        words := if fits then (List.range n).map (fun i => bv 64 (fieldAt img (off + 16 + 8 * i) 8)) else [] }
    p :: (if fits then parsePrograms img fin k (off + 16 + 8 * n) else [])

def rawProgs (img : List Byte) : List RawProg :=
  match findSec img 8 with
  | none => []
  | some r => parsePrograms img (r.off + r.len) r.count r.off

/-- A preload with its bytes from the preload-data section (R618). -/
def parsePreload (img : List Byte) (e : List Byte) : Preload :=
  { tile := fieldAt e 0 1, core := fieldAt e 1 1, offset := fieldAt e 4 4,
    bytes := match findSec img 13 with | some r => sliceAt img (r.off + fieldAt e 12 4) (fieldAt e 8 4) | none => [] }

/-- The constellation an image spells. -/
def parseImage (img : List Byte) : Constellation :=
  { image := img, digest := sliceAt img 32 32, tileMask := bv 16 (fieldAt img 16 2), frames := (secEntries img 1).map parseFrame,
    tileFrames := (secEntries img 2).map parseTileFrame, hubBlocks := (secEntries img 3).map parseHubBlock,
    ops := (secEntries img 4).map parseOp, slices := (secEntries img 5).map parseSlice,
    bands := (secEntries img 6).map (fun e => fieldAt e 0 2), funcs := (secEntries img 7).map parseFunc,
    programs := (rawProgs img).map (fun p => p.words), windows := (secEntries img 9).map parseWindow,
    streams := (secEntries img 10).map parseStream, contracts := (secEntries img 11).map parseContract,
    preloads := (secEntries img 12).map (parsePreload img) }

/-- The largest bucket. -/
def topBucket (o : Op) : Bucket := (o.buckets.getLast?).getD { m := 0, n := 0, k := 0 }

/-- Nibbles of an output or fused element. -/
def outNibbles (x : OutFmt) : Nat := match x with | .int4 => 1 | .int8 => 2 | .int16 => 4 | .bf16 => 4 | .fp32 => 8 | .lns20 => 8
def fuseNibbles (x : Nat) : Nat := match x with | 1 => 2 | 2 => 4 | 3 => 4 | _ => 8

def opSlices (c : Constellation) (opidx : Nat) : List Slice := c.slices.filter (fun x => x.opidx == opidx)

/-- The shares of the split that a share belongs to; the row-function parts of an operation make up one (R279). -/
def splitOf (c : Constellation) (x : Slice) (role : Nat) : List Slice :=
  (opSlices c x.opidx).filter (fun y => (role == 3 || (y.row0 == x.row0 && y.rows == x.rows)) && y.role.toNat == role)

/-! ## Microinstructions of a function block (R179, R180) -/

def microOp (w : Word32) : Nat := bitsOf w.toNat 26 6
def microVa (w : Word32) : Nat := bitsOf w.toNat 18 4

/-- Microinstructions of a range of a block. -/
def microRange (f : FuncBlock) (a n : Nat) : List Word32 := (f.micro.drop a).take n

def prologue (f : FuncBlock) (p : Phase) : List Word32 := microRange f p.start p.proLen
def bodyOf (f : FuncBlock) (p : Phase) : List Word32 := microRange f (p.start + p.proLen) p.bodyLen

def countOp (ws : List Word32) (op : Nat) : Nat := (ws.filter (fun w => microOp w == op)).length

/-- SHAKE256 of a message, n bytes. -/
def shake (n : Nat) (bs : List Byte) : List Byte := (List.range n).map (Config.shake256Raw bs)

/-- DIGEST of an image: over all of it with DIGEST and SIGNATURE read as zero (R271, R544). -/
def imageDigest (img : List Byte) : List Byte :=
  shake 32 (patch (patch img 32 (List.replicate 32 0)) 512 (List.replicate 3309 0))

end Sys2Proof.Machine
end

