-- ==== Sys2Proof/Machine/Keys.lean ====
section
/-! DEFINITION. Device keys (R541, R542) and what memory holds under them (R427, R428, R439). State holds the plaintext of the tiers:
no command shows a ciphertext, and no command returns a key. -/

namespace Sys2Proof.Machine

/-- PURPOSE of a device key (R542). -/
inductive KeyPurpose | tierXts | tierTag | namespaceXts | identitySign | identityKem
  deriving DecidableEq, Repr

def purposeCode : KeyPurpose → Nat
  | .tierXts => 1 | .tierTag => 2 | .namespaceXts => 3 | .identitySign => 0x10 | .identityKem => 0x11

/-- L of a PURPOSE in bytes. -/
def keyLen : KeyPurpose → Nat
  | .tierXts => 64 | .tierTag => 32 | .namespaceXts => 64 | .identitySign => 32 | .identityKem => 64

/-- K = SHAKE256(ROOT ‖ PURPOSE ‖ PART ‖ TIER ‖ EPOCH), truncated to L bytes (R542). -/
def deviceKey (f : Fuses) (u : KeyPurpose) (part tier : Nat) (epoch : Word64) : List Byte :=
  shake (keyLen u) (natLe 32 f.root.toNat ++ natLe 1 (purposeCode u) ++ natLe 1 part ++ natLe 1 tier ++ natLe 8 epoch.toNat)

/-- The identity keys' seeds: ξ of ML-DSA-65, d ‖ z of ML-KEM-768 (R542). -/
def identitySeed (s : State) : List Byte := deviceKey s.fuses .identitySign 0xFF 0 0
def kemSeeds (s : State) : List Byte := deviceKey s.fuses .identityKem 0xFF 0 0

/-- The XTS key pair and the tag key of a tier for a partition, 0xFF for memory that firmware holds (R427, R428). -/
def tierKey (s : State) (part tier : Nat) : List Byte := deviceKey s.fuses .tierXts part tier 0
def tagKey (s : State) (part tier : Nat) : List Byte := deviceKey s.fuses .tierTag part tier 0

/-- The key pair of a namespace: derived afresh at every start for a confidential partition (R439, R542). -/
def namespaceKey (s : State) (p : PartId) : List Byte :=
  deviceKey s.fuses .namespaceXts p.val 3 (if s.parts[p].layout.confidential then s.hub.epoch else 0)

/-- Data key and tweak key of a pair (R542). -/
def dataKey (k : List Byte) : List Byte := k.take 32
def tweakKey (k : List Byte) : List Byte := k.drop 32

/-- The tweak of the line at a local offset of a node (R427). -/
def lineTweak (s : State) (node tier off : Nat) : List Byte :=
  natLe 6 (off / 64) ++ natLe 1 node ++ natLe 1 tier ++ natLe 8 s.hub.epoch.toNat

/-- The ciphertext of a line in a tier for its owner (R427). -/
def lineCipher (s : State) (part node tier off : Nat) (line : List Byte) : List Byte :=
  let k := tierKey s part tier
  (List.range 64).map (Config.xtsRaw (dataKey k) (tweakKey k) (lineTweak s node tier off) line)

/-- The tag of a 256-byte block (R428): KMAC128 over tier, node, block index, epoch and the four ciphertext lines. -/
def blockTag (s : State) (part node tier off : Nat) (block : List Byte) : List Byte :=
  let a := off / 256 * 256
  let head := natLe 1 tier ++ natLe 1 node ++ natLe 6 (off / 256) ++ natLe 8 s.hub.epoch.toNat
  let lines := (List.range 4).flatMap (fun i => lineCipher s part node tier (a + 64 * i) (sliceAt block (64 * i) 64))
  (List.range 8).map (Config.kmacRaw (tagKey s part tier) (head ++ lines))

/-- Where the tag of the block at an offset lies (R428). -/
def tagPlace (tier off : Nat) : Nat := (if tier = 1 then 0x5D0000000 else 0xBA00000000) + off / 256 * 8

/-- The ciphertext of a 4 KiB sector of an object (R439). -/
def sectorCipher (s : State) (p : PartId) (id : Word64) (i : Nat) (sector : List Byte) : List Byte :=
  let k := namespaceKey s p
  (List.range 4096).map (Config.xtsRaw (dataKey k) (tweakKey k) (natLe 8 id.toNat ++ natLe 8 i) sector)

end Sys2Proof.Machine
end

