-- ==== Sys2Proof/Machine/Walk.lean ====
section
/-! DEFINITION. The walk of R465 over the programs of an entry point: what each core issues with planned shapes and zero arguments, the
hc and ns of each piece of work with nothing skipped (R197), and its energy (R26, R94, R95, R158, R184, R259, R467). Which pieces lie on the longest path is
timing between cores and stays open (log entry 7). -/

namespace Sys2Proof.Machine

/-! ## Frames of a constellation (R274, R275) -/

/-- Place of a tile among the tiles of a mask. -/
def tileRank (mask : BitVec 16) (t : TileId) : Nat := ((List.range t.val).filter (fun i => mask.getLsbD i)).length

def frameOf (c : Constellation) (k : CoreId) : Option CoreFrame :=
  if c.tileMask.getLsbD k.tile.val then c.frames[64 * tileRank c.tileMask k.tile + k.core.val]? else none

/-- ENTRY[e] of a core: 0xFFFF when it is idle for the entry point. -/
def entryOf (c : Constellation) (k : CoreId) (e : Nat) : Nat :=
  match frameOf c k with
  | none => 0xFFFF
  | some f => ((f.entry[e]?).getD 0xFFFF).toNat

def takesPart (c : Constellation) (k : CoreId) (e : Nat) : Bool := entryOf c k e != 0xFFFF

/-! ## Registers at the start of a program (R296) -/

/-- The registers at the start of a program (R296). -/
def openingRegs (f : CoreFrame) (r : StepRun) : Vector Word64 32 :=
  Vector.ofFn (fun (i : Fin 32) =>
    if i.val = 0 then 0
    else if i.val < 23 then (f.sreg[i.val - 1]?).getD 0
    else if i.val = 23 then r.stepno
    else (r.step.args[i.val - 24]?).getD 0)

/-! ## Energy figures (R26, R94, R95, R158, R184, R189, R259, R467) -/

/-- V² scaling from 0.75 V. -/
def vScale (mv : Nat) : Rat := ((mv : Rat) / 750) ^ 2

/-- The components of the energy per weight-bit MAC at 0.75 V in fJ for activation width w (R94): weight-line delivery, chunk add,
cell look-up with plane add, table building, activation-line delivery. -/
def macParts (w : Nat) : List Rat := [7 / 10, 4 / 10, 200 / 1000 * w, 150 / 1000 * w, 75 / 1000 * w]

/-- Energy per weight-bit MAC at 0.75 V in fJ (R26). -/
def macNominal (w : Nat) : Rat := (macParts w).foldl (· + ·) 0

/-- The table of R94 in hundredths of a fJ, at 0.50, 0.60, 0.70, 0.75, 0.80 and 0.85 V. -/
def macTable (w : Nat) : List (Nat × Nat) :=
  [500, 600, 700, 750, 800, 850].zip (match w with
    | 4 => [124, 179, 244, 280, 319, 360]
    | 8 => [200, 288, 392, 450, 512, 578]
    | 12 => [276, 397, 540, 620, 705, 796]
    | _ => [351, 506, 688, 790, 899, 1015])

/-- Energy per weight-bit MAC in fJ at a voltage (R94): the table's value at its voltages, V² from 0.75 V between them (DESIGN CHOICE,
log entry 85), and that of one more activation bit for an activation zero point. -/
def macEnergy (w : Nat) (azp : Bool) (mv : Nat) : Rat :=
  (match (macTable w).find? (fun x => x.1 == mv) with
    | some x => (x.2 : Rat) / 100
    | none => macNominal w * vScale mv) + (if azp then 425 / 1000 * vScale mv else 0)

/-- Dawn and dusk of one array at 0.75 V in pJ (R95). -/
def dawnPj : Rat := 300
def duskPj : Rat := 50

/-- Energy per weight-bit MAC of the sparse engine at 0.75 V in fJ (R158), and per non-zero and lane in pJ. -/
def sparseMac (w : Nat) : Rat := match w with | 4 => 36 / 10 | 8 => 56 / 10 | 12 => 76 / 10 | _ => 96 / 10
def nonZeroPj (csr16 : Bool) : Rat := if csr16 then 4 / 10 else 3 / 10

/-- Energy of a microinstruction per lane at 0.75 V in pJ (R184), by OP and whether an addition takes the cheap path. -/
def microPj (op : Nat) (cheap : Bool) : Rat :=
  match op with
  | 0x01 | 0x02 | 0x03 | 0x04 => 9 / 10
  | 0x07 | 0x08 | 0x0A | 0x12 => if cheap then 18 / 100 else 55 / 100
  | 0x10 | 0x11 => 6 / 10
  | _ => 12 / 100

/-- An FP32 fused multiply-add and a BF16 lane step of the fine unit at 0.75 V in pJ (R189). -/
def finePj (bf16 : Bool) : Rat := if bf16 then 14 / 10 else 32 / 10

/-- A bank access through DR, CE or RX (R259): read, write, read-modify-write of a partial word. -/
inductive BankAccess | read | write | partWord
  deriving DecidableEq, Repr

/-- B0 to B3 are near (R231). -/
def nearBank (a : Nat) : Bool := decide (a / 0x80000 % 8 < 4)

/-- Energy of one access in pJ (R259); it does not scale with V². -/
def accessPj (x : BankAccess) (near : Bool) : Rat :=
  match x with
  | .read => if near then 51 / 10 else 77 / 10
  | .write => if near then 56 / 10 else 82 / 10
  | .partWord => if near then 107 / 10 else 159 / 10

/-- Retention of the banks of a plain that are not OFF in mW (R259). -/
def retentionMw (c : Core) : Rat := 19 / 10 * (((List.range 8).filter (fun b => bankPower c b != 0)).length : Rat)

/-- Reading and writing n bytes from offset a of a plain: one access for each bank line; a write that takes in part of a 64-bit word is a
read-modify-write (R232, R259). -/
def readPj (a n : Nat) : Rat := (lineSpans a n).foldl (fun e x => e + accessPj .read (nearBank x.1)) 0
def writePj (a n : Nat) : Rat :=
  (lineSpans a n).foldl (fun e x => e + accessPj (if x.2.1 % 8 = 0 ∧ x.2.2 % 8 = 0 then .write else .partWord) (nearBank x.1)) 0

/-- Sequencer instruction at 0.75 V, bytes of HBM, LPDDR5X and PCIe, a byte over one ring hop and one spoke hop, in pJ (R467). -/
def seqPj : Rat := 15 / 10
def hbmPj : Rat := 16
def lpddrPj : Rat := 48
def pciePj : Rat := 20
def ringPj : Rat := 4
def spokePj : Rat := 7

/-- The way between two nodes (R394): ring hops, spoke hops, latency in ns. -/
def pathOf (a b : NodeId) : Nat × Nat × Nat :=
  match nodeTile a, nodeTile b with
  | some x, some y =>
    match (y.val + 12 - x.val) % 12 with
    | 0 => (0, 0, 0)
    | 1 | 11 => (1, 0, 45)
    | 2 | 10 => (2, 0, 90)
    | _ => (0, 2, 135)
  | none, none => (0, 0, 0)
  | _, _ => (0, 1, 60)

/-- Energy of n bytes over passes in pJ. -/
def hopPj (a b : NodeId) (n : Nat) : Rat := n * ((pathOf a b).1 * ringPj + (pathOf a b).2.1 * spokePj)

/-- The energy of a piece of work: weight-bit MACs of the arrays, and pJ that scale with V² (at 0.75 V) and that do not. -/
structure Work where
  macs : Nat
  width : Nat
  azp : Bool
  scaled : Rat
  fixed : Rat
  deriving DecidableEq, Repr

def Work.none : Work := { macs := 0, width := 4, azp := false, scaled := 0, fixed := 0 }

/-- Energy of a piece of work at a voltage in pJ. -/
def workPj (w : Work) (mv : Nat) : Rat := w.macs * macEnergy w.width w.azp mv / 1000 + w.scaled * vScale mv + w.fixed

/-! ## The planned step (R465, rule 1) -/

/-- The shape of the largest bucket at or below MAXBUCKET. -/
def plannedShape (top : Nat) (o : Op) : OpShape :=
  let i := min top (o.buckets.length - 1)
  let b := (o.buckets[i]?).getD { m := 0, n := 0, k := 0 }
  { opidx := o.opidx, bucket := i, m := b.m, n := b.n, k := b.k, skipped := false }

/-- The step that the walk follows: planned shapes and shares, ARG0 to ARG7 zero; STEPNO 0 (DESIGN CHOICE, log entry 85). -/
def plannedRun (c : Constellation) (entry top : Nat) : StepRun :=
  { step := { id := 0, cmd := none, session := 0, entry := entry, prio := 0, args := List.replicate 8 0,
              shapes := c.ops.map (plannedShape top), recbuf := 0, contract := none, tick := none, arrival := 0, held := false },
    stepno := 0, seed := 0, aStep := 0, shares := c.slices, released := 0, opened := true, rerun := false, rerunPending := false,
    detections := 0, fault := none, recs := [], outputs := [] }

/-- A state in which core k alone runs the planned step: the meanings of the sequencer's own instructions read no more of it. -/
def plannedState (c : Constellation) (r : StepRun) (k : CoreId) (f : CoreFrame) : State :=
  let s := { State.reset with module := { State.reset.module with v12 := true, regulators := true, heldOff := false } }
  let s := updPart s 0 (fun q => { q with run := some r, const := some c, layout := { q.layout with defined := true, tiles := q.layout.tiles ||| BitVec.ofNat _ (2 ^ k.tile.val) } })
  let s := updTile s k.tile (fun t => { t with pas := { t.pas with valley := 0 } })
  updCore s k (fun x => { x with sregs := openingRegs f r, seq := { x.seq with pc := 0, state := .issuing }, blocked := .none })

/-- What the walk reads of one core. -/
structure WalkCtx where
  c : Constellation
  r : StepRun
  k : CoreId
  f : CoreFrame

/-! ## L_bank as admission counts it (R240; R465, rule 4) -/

/-- n of R240 at the bank of an offset: 6 in unified mode, the ports of its class in split mode. -/
def portsCounted (f : CoreFrame) (a : Nat) : Nat :=
  if !f.split then 6 else match f.cls.toNat / 4 ^ (a / 0x80000 % 8) % 4 with | 1 => 4 | 2 => 5 | 3 => 3 | _ => 6

/-- L_bank + n − 1 at the bank of an offset (R231, R240). -/
def walkBank (f : CoreFrame) (a : Nat) : Nat := (if nearBank a then 6 else 10) + portsCounted f a - 1

/-- First offsets of the banks that n bytes at an offset of a plain lie in; of that of the offset when n is 0. -/
def banksOf (x : Nat × Nat) : List Nat :=
  ((List.range 8).filter (fun b => decide (x.1 < (b + 1) * 0x80000) && decide (b * 0x80000 < x.1 + max x.2 1))).map (fun b => b * 0x80000)

/-- L_bank + n − 1, the largest over the banks that hold what an instruction reads (R231, R240). -/
def walkBanks (f : CoreFrame) (xs : List (Nat × Nat)) : Nat := (xs.flatMap banksOf).foldl (fun m a => max m (walkBank f a)) 0

/-- The largest n over some banks (R240). -/
def mostPorts (f : CoreFrame) (xs : List (Nat × Nat)) : Nat := (xs.flatMap banksOf).foldl (fun m a => max m (portsCounted f a)) 0

/-- hc per slot of a feeder stream of n bytes from an offset on with lines of len bytes (R236; R465, rule 4). -/
def slotHc (f : CoreFrame) (x : Nat × Nat) (len : Nat) : Nat :=
  let cover := 256 / len
  let wait := mostPorts f [x] - 1
  max (ceilDiv len 64) (if cover < wait then ceilDiv wait cover else 1)

/-- n bytes at an offset of a core's plain, when one plain preload holds them all (R618). -/
def inPreload (c : Constellation) (k : CoreId) (off n : Nat) : Option (List Byte) :=
  (c.preloads.find? (fun p => p.tile == k.tile.val && p.core == k.core.val && decide (p.offset ≤ off) &&
    decide (off + n ≤ p.offset + p.bytes.length))).map (fun p => (p.bytes.drop (off - p.offset)).take n)

/-- The ring at an offset of a core's plain under the tag modes of its frame (R344). -/
def frameRing (c : Constellation) (k : CoreId) (off : Nat) : Option Nat :=
  match frameOf c k with
  | none => none
  | some f => ringSpanBy (fun i => f.tagMode.toNat / 4 ^ i % 4) off

/-- The bytes of a plain that a stream of n bytes takes from a base: the ring's when the base is that of one (R344). -/
def streamRange (x : WalkCtx) (base n : Nat) : Nat × Nat :=
  (base, match frameRing x.c x.k base with | some span => min span n | none => n)

/-- The ranges of an operand in a layout: rows × columns elements of nib nibbles from element (m0, n0) on (R132). -/
def layoutRanges (tokenMajor : Bool) (base stride m0 m n0 n nib : Nat) : List (Nat × Nat) :=
  let run (i j len : Nat) : Nat × Nat := (base + i * stride + j * nib / 2, ceilDiv (len * nib) 2)
  if tokenMajor then (List.range n).map (fun i => run (n0 + i) m0 m) else (List.range m).map (fun i => run (m0 + i) n0 n)

/-! ## Matrix tiles and their drains (R85, R91, R94, R95, R122, R151, R158) -/

/-- What an MTILE leaves for its drains: operation, effective extent, origin and list base. -/
structure MatShape where
  opidx : Nat
  m : Nat
  n : Nat
  m0 : Nat
  n0 : Nat
  lbase : Nat
  deriving DecidableEq, Repr, Inhabited

/-- A piece of the walk: the instruction, the hc of its issue and of its work, those of the drains it causes, its energy, the
descriptors it hands over with their engine and region length, the extent it leaves. -/
structure WalkItem where
  instr : Instr
  issue : Nat
  busy : Nat
  drains : List Nat
  work : Work
  copies : List (EngineId × List Byte × Nat)
  mat : Option MatShape
  deriving DecidableEq, Repr

/-- An instruction with no work but its issue. -/
def plainItem (i : Instr) (issue : Nat) : WalkItem :=
  { instr := i, issue := issue, busy := 0, drains := [], work := { Work.none with scaled := seqPj }, copies := [], mat := none }

/-- The time of an MTILE on the array group that finds its group asleep, to the end of its dusk (R85, R91; R465, rule 3). -/
def tileHc (lbank passes slots idleHold : Nat) : Nat := 48 + (lbank + 3) + passes * slots + 62 + idleHold + 48

/-- The time of an MTILE on the sparse engine (R151): the planned passes of every band for each token block. -/
def sparseHc (lbank blocks : Nat) (o : Op) (k : Nat) (bands : List Nat) : Nat :=
  8 + lbank + blocks * bands.foldl (fun a n => a + opPlanes o * max n (ceilDiv (padK o k) 64)) 0 + 2

/-- Planned lengths of the bands of a share (R280). -/
def plannedBands (c : Constellation) (o : Op) (sl : Slice) : List Nat := (c.bands.drop sl.bandOff).take (opNbands o)

/-- Valid extents of the passes of an instruction in order (R81, R151). -/
def passExtents (o : Op) (m n : Nat) : List (Nat × Nat) :=
  (List.range (ceilDiv n (opCg o))).flatMap (fun cb =>
    (List.range (innerCount o m)).map (fun rb =>
      (if o.engine = 1 then 32 else min (opRg o) (m - rb * opRg o), min (opCg o) (n - cb * opCg o))))

/-- h of R121 for a drain word in force and a number of combined records. -/
def unitHc (o : Op) (w : Word32) (nin : Nat) : Nat :=
  let out := if dwCmode w = 1 then 4 else max 1 (ceilDiv (16 * outNibbles (opOfmt o)) 64)
  let fuse := if dwFuse w = 0 || dwFbcast w then 0 else ceilDiv (16 * fuseNibbles (dwFfmt w)) 64
  max out (max fuse (4 * nin))

/-- Plain offset of the window in which an owner finds its records (R279, R284). -/
def recordsAt (c : Constellation) (sl : Slice) : List Nat :=
  if sl.role = 1 then (splitOf c sl 2).filterMap (fun y => match placeOf y.combineAddr with | some (.plain _ o) => some o | _ => none)
  else []

/-- Bytes of a partial-total record of a pass (R116). -/
def totalBytes (x : Nat × Nat) : Nat := 16 + 8 * x.1 * x.2

/-- The ranges that the drains of an instruction read: the fused operand and the records (R122, R231). -/
def drainReads (x : WalkCtx) (o : Op) (w : Word32) (sl : Slice) (s : MatShape) : List (Nat × Nat) :=
  let fuse := if dwFuse w = 0 then []
    else if dwFbcast w then (List.range s.m).map (fun i => (o.fbase + (s.m0 + i) * o.fstride, ceilDiv (fuseNibbles (dwFfmt w)) 2))
    else layoutRanges (dwTokenMajor w) o.fbase o.fstride s.m0 s.m s.n0 s.n (fuseNibbles (dwFfmt w))
  let record := (passExtents o s.m s.n).foldl (fun n p => max n (totalBytes p)) 0
  fuse ++ (recordsAt x.c sl).map (fun a => (a, record))

/-- L_bank of the drains of an instruction (R122; R465, rule 4): 6 hc where they read nothing, with n of the banks that hold the output. -/
def drainBank (x : WalkCtx) (o : Op) (w : Word32) (sl : Slice) (s : MatShape) : Nat :=
  let reads := drainReads x o w sl s
  if reads.isEmpty then
    6 + mostPorts x.f ((o.obase, 1) :: layoutRanges (dwTokenMajor w) o.obase o.ostride s.m0 s.m s.n0 s.n (outNibbles (opOfmt o))) - 1
  else walkBanks x.f reads

/-- The drain of one pass (R121, R122; R465, rule 4). -/
def drainHc (lbank : Nat) (o : Op) (w : Word32) (sl : Slice) (x : Nat × Nat) : Nat :=
  12 + lbank + x.1 * ceilDiv x.2 32 * unitHc o w (if sl.role = 1 then sl.part else 0) + (if dwTopk w then dwK w + 8 else 0)

/-- Energy of runs of an array in a layout: rows × columns elements of nib nibbles from element (m0, n0) on (R132). -/
def layoutPj (price : Nat → Nat → Rat) (tokenMajor : Bool) (base stride m0 m n0 n nib : Nat) : Rat :=
  let run (i j len : Nat) : Rat := price (base + i * stride + j * nib / 2) (ceilDiv (len * nib) 2)
  if tokenMajor then (List.range n).foldl (fun e i => e + run (n0 + i) m0 m) 0
  else (List.range m).foldl (fun e i => e + run (m0 + i) n0 n) 0

/-- Energy of n bytes sent to a fabric address in a plain: the passes and the RX port. -/
def sendPj (src : NodeId) (addr n : Nat) : Rat :=
  match placeOf addr with
  | some (.plain d o) => hopPj src (tileNode d.tile) n + writePj o n
  | _ => 0

/-- Energy of the drains of an instruction through the DR port and, for EXPORT, to the owner, in pJ (R116, R126, R129, R132, R259). -/
def drainPj (x : WalkCtx) (o : Op) (sl : Slice) (w : Word32) (s : MatShape) : Rat :=
  let ps := passExtents o s.m s.n
  let rows := min s.m (ps.foldl (fun a p => a + p.1) 0)
  let out : Rat := if dwCmode w = 1 then ps.foldl (fun e p => e + sendPj (tileNode x.k.tile) (recordAddr o sl) (totalBytes p)) 0
    else if dwWelem w then layoutPj writePj (dwTokenMajor w) o.obase o.ostride s.m0 rows s.n0 s.n (outNibbles (opOfmt o)) else 0
  let fuse : Rat := if dwFuse w = 0 then 0
    else if dwFbcast w then (List.range rows).foldl (fun e i => e + readPj (o.fbase + (s.m0 + i) * o.fstride) (ceilDiv (fuseNibbles (dwFfmt w)) 2)) 0
    else layoutPj readPj (dwTokenMajor w) o.fbase o.fstride s.m0 rows s.n0 s.n (fuseNibbles (dwFfmt w))
  let recs : Rat := (recordsAt x.c sl).foldl (fun e a => ps.foldl (fun e p => e + readPj a (totalBytes p)) e) 0
  let lists : Rat := if dwTopk w then (List.range s.n).foldl (fun e j => e + writePj (s.lbase + 8 * dwK w * (s.n0 + j)) (8 * dwK w)) 0 else 0
  out + fuse + recs + lists

/-- The drains of the passes of an instruction. -/
def drainsOf (x : WalkCtx) (o : Op) (sl : Slice) (s : MatShape) : List Nat :=
  (passExtents o s.m s.n).map (drainHc (drainBank x o (drainOf o sl) sl s) o (drainOf o sl) sl)

/-- Formation of the row mask (R208), which admission counts (R197; R465, rule 2): the scores of the share's rows for every token column
of the instruction, those of the check only under MAKEUP and COUNT. -/
def maskHc (o : Op) (rows n : Nat) : Nat :=
  if opPpol o = 0 then 0 else 8 + ceilDiv (rows * n * (if opPpol o = 3 then 2 else 4)) 64

/-- The ranges that an MTILE reads (R75, R76, R77, R145, R151): weight lines, activation lines, and side arrays; of a sparse one its
region, panels and their side arrays. -/
def tileRanges (x : WalkCtx) (o : Op) (m n k : Nat) (at' stride : Nat → Nat) : List (Nat × Nat) × List (Nat × Nat) × List (Nat × Nat) :=
  let g := groupsOf o k
  let steps := padK o k / 4 * opPlanes o
  let slots := steps - opPlanes o + 32
  let ws := (List.range (weightStreams o m)).map (fun j =>
    streamRange x (streamBase (at' 0) (stride 0) j) (((innerCount o m - 1) * steps + slots) * lineLen (opWBits o) (opPlanes o)))
  let as := (actStreams o n).map (fun j => streamRange x (streamBase (at' 2) (stride 2) j) (slots * lineLen (opABits o) (opPlanes o)))
  let sides := (List.range (weightStreams o m)).map (fun j => (streamBase (at' 1) (stride 1) j, 64 * innerCount o m * g)) ++
    (actStreams o n).map (fun j => (streamBase (at' 3) (stride 3) j, 64 * (if opAscale o = 1 then g else 1)))
  (ws, as, sides)

/-- REGION_LEN of the compressed region at an offset of a core's plain, from the preload that holds its header, else a free value (log
entry 85). -/
def plannedRegion (x : WalkCtx) (off : Nat) : Nat :=
  match inPreload x.c x.k off 64 with
  | some h => fieldAt h 28 4
  | none => Config.regionPlanned x.c.image (plainAddr x.k off)

/-- The ranges that an MTILE on the sparse engine reads (R145, R151, R231). -/
def sparseRanges (x : WalkCtx) (o : Op) (n k : Nat) (at' : Nat → Nat) : List (Nat × Nat) :=
  (at' 0, plannedRegion x (at' 0)) :: (List.range (ceilDiv n 32)).flatMap (fun b =>
    let shift (f : Nat → Nat → Nat) : Nat := if b = 0 then 0 else f o.opidx b
    [(at' 1 + shift Config.sparsePanel, padK o k * 4 * opABits o),
     (at' 3 + shift Config.sparseSide, 64 * (if opAscale o = 1 then groupsOf o k else 1))])

/-- MTILE (R301 to R303): its engine's time with no skip, gate or freeze, its drains, its energy with every valid cell and lane at
work (R465, rules 2 and 3; R467). -/
def walkMtile (x : WalkCtx) (i : Instr) (core : Core) (rd ra : SReg) (hold : Bool) (opidx : Nat) : WalkItem :=
  match findOp x.c opidx, findShape x.r opidx, findShare x.r x.k opidx with
  | some o, some sh, some sl =>
    let m0 := highHalf core rd 0
    let n0 := highHalf core rd 1
    let m := min (lowHalf core rd 0) (shareM sh sl - m0)
    let n := min (lowHalf core rd 1) (sh.n - n0)
    let k := min (lowHalf core rd 2) (shareK sh sl)
    if m = 0 ∨ n = 0 then plainItem i 1 else
    let s : MatShape := { opidx := opidx, m := m, n := n, m0 := m0, n0 := n0, lbase := highHalf core rd 2 }
    let at' (j : Nat) : Nat := lowHalf core ra j
    let stride (j : Nat) : Nat := highHalf core ra j
    let bands := plannedBands x.c o sl
    let busy :=
      if k = 0 then 1
      else if o.engine = 1 then sparseHc (walkBanks x.f (sparseRanges x o n k at')) (ceilDiv n 32) o k bands
      else
      let (ws, as, sides) := tileRanges x o m n k at' stride
      let lw := lineLen (opWBits o) (opPlanes o)
      let la := lineLen (opABits o) (opPlanes o)
      let rate := max ((ws.map (fun a => slotHc x.f a lw)).foldl max 1) ((as.map (fun a => slotHc x.f a la)).foldl max 1)
      tileHc (walkBanks x.f (ws ++ as ++ sides)) (passCount o m n) (padK o k / 4 * opPlanes o * rate) x.f.idleHold.toNat
    let busy := busy + (if o.engine = 0 then maskHc o (shareM sh sl) n else 0)
    let nz : Rat := (32 * bands.foldl (· + ·) 0 : Nat)
    let own : Work :=
      if k = 0 then Work.none
      else if o.engine = 1 then
        { Work.none with scaled := nz * (n * opWBits o * sparseMac (opABits o) / 1000 + ceilDiv n 32 * nonZeroPj (o.engopt == 1)) }
      else { macs := m * n * padK o k * opPlanes o, width := opABits o, azp := opAzp o, scaled := 4 * (dawnPj + duskPj), fixed := 0 }
    { instr := i, issue := 1, busy := busy, drains := if hold then [] else drainsOf x o sl s,
      work := { own with scaled := own.scaled + seqPj, fixed := own.fixed + (if hold then 0 else drainPj x o sl (drainOf o sl) s) },
      copies := [], mat := some s }
  | _, _, _ => plainItem i 1

/-- DRAIN of a held set: the extent that the MTILE which holds it left (R304). -/
def walkDrain (x : WalkCtx) (i : Instr) (set : SetId) (before : List WalkItem) : WalkItem :=
  let holds (y : WalkItem) : Option MatShape := match y.instr with
    | .mtile _ _ _ _ z true _ => if z = set then y.mat else none
    | _ => none
  match before.findSome? holds with
  | none => plainItem i 1
  | some s => match findOp x.c s.opidx, findShare x.r x.k s.opidx with
    | some o, some sl =>
      { plainItem i 1 with drains := drainsOf x o sl s, work := { Work.none with scaled := seqPj, fixed := drainPj x o sl (drainOf o sl) s } }
    | _, _ => plainItem i 1

/-- LIST_MERGE (R130, R304). -/
def walkMerge (x : WalkCtx) (i : Instr) (core : Core) (ra : SReg) (opidx : Nat) : WalkItem :=
  match findOp x.c opidx, findShape x.r opidx with
  | some o, some sh =>
    let base := lowHalf core ra 0
    let lists := highHalf core ra 0 % 2 ^ 16
    let stride := lowHalf core ra 1
    let n0 := highHalf core ra 1
    let cols := min stride (sh.n - n0)
    let kk := dwK o.drain
    let e := (List.range cols).foldl (fun (e : Rat) c =>
      (List.range lists).foldl (fun (e : Rat) j => e + readPj (base + 8 * kk * (j * stride + c)) (8 * kk))
        (e + writePj (o.obase + (n0 + c) * o.ostride) (8 * kk))) 0
    { plainItem i 1 with
      busy := cols * (12 + walkBanks x.f ((List.range lists).map (fun j => (base + 8 * kk * j * stride, 8 * kk * cols))) + ceilDiv (8 * kk * lists) 64 + kk + 8),
      work := { Work.none with scaled := seqPj, fixed := e } }
  | _, _ => plainItem i 1

/-! ## Row functions and the fine unit (R183, R184, R189) -/

/-- A phase feeds a tree (R183). -/
def feedsTree (f : FuncBlock) (p : Phase) : Bool :=
  decide (0 < countOp (prologue f p ++ bodyOf f p) 0x12 + countOp (prologue f p ++ bodyOf f p) 0x13)

/-- Time of a ROWFN for one block of 32 token columns (R183). -/
def rowfnHc (f : FuncBlock) (lbank n : Nat) : Nat :=
  6 + lbank + f.phases.foldl (fun a p =>
    a + 8 + p.proLen + ceilDiv n (2 ^ p.ecode) * p.bodyLen + (if feedsTree f p then 4 * Nat.clog 2 n else 0)) 0

/-- Energy of the lanes of a ROWFN over a number of columns, at 0.75 V in pJ (R184). -/
def rowfnPj (f : FuncBlock) (cols n : Nat) : Rat :=
  let sum (ws : List Word32) : Rat := ws.foldl (fun e w => e + microPj (microOp w) false) 0
  cols * f.phases.foldl (fun e p => e + sum (prologue f p) + ceilDiv n (2 ^ p.ecode) * sum (bodyOf f p)) 0

/-- Bytes of the records that a part of a split row function sends to each other part for one block of columns: its block sums for
each phase that feeds the sum tree, its maximum for each that feeds the other (R174). -/
def partBytes (f : FuncBlock) (n : Nat) : Nat :=
  f.phases.foldl (fun a p =>
    let fed (op : Nat) : Bool := decide (0 < countOp (prologue f p ++ bodyOf f p) op)
    a + (if fed 0x12 then 16 + 128 * ceilDiv n 256 else 0) + (if fed 0x13 then 16 + 128 else 0)) 0

/-- The window of row-function records of a core (R283, R284). -/
def partWindow (c : Constellation) (tile core : Nat) : Nat :=
  match c.windows.find? (fun w => w.kind == 3 && (match placeOf w.base with
      | some (.plain d _) => d.tile.val == tile && d.core.val == core
      | _ => false)) with
  | some w => w.base
  | none => 0

/-- Energy of a ROWFN's accesses through the DR port and of its records, in pJ (R178, R182, R259). -/
def rowfnPortPj (x : WalkCtx) (o : Op) (sl : Slice) (f : FuncBlock) (cols n0 n : Nat) : Rat :=
  let inB := if f.inFmt = 2 then 2 else 4
  let auxB := if f.auxFmt = 2 then 2 else 4
  let rows (price : Nat → Nat → Rat) (base stride size times : Nat) : Rat :=
    times * (List.range n).foldl (fun e i => e + price (base + i * stride + n0 * size) (cols * size)) 0
  let phasesWith (op : Nat) : Nat := (f.phases.filter (fun p => decide (0 < countOp (bodyOf f p) op))).length
  let blocks := ceilDiv cols 32
  let w := match f.outFmt with | 3 => 4 | 4 => 8 | _ => 16
  let out : Rat :=
    if f.outLayout = 2 then
      let len := (ceilDiv n 4 * f.lineP - f.lineP + 32) * lineLen w f.lineP
      (List.range blocks).foldl (fun e b => e + writePj (o.obase + (n0 / 32 + b) * o.ostride) (64 * ceilDiv len 64 + 64)) 0
    else
      let nib := match f.outFmt with | 1 => 8 | 2 => 4 | 3 => 1 | 4 => 2 | _ => 4
      phasesWith 3 * layoutPj writePj (f.outLayout == 1) o.obase o.ostride 0 n n0 cols nib
  let others := (splitOf x.c sl 3).filter (fun y => y.part != sl.part || y.tile != sl.tile || y.core != sl.core)
  rows readPj (opInBase o) (opInStride o) inB f.phases.length + rows readPj (opAuxBase o) (opAuxStride o) auxB (phasesWith 2) +
    rows writePj (opInBase o) (opInStride o) inB (phasesWith 4) + out +
    others.foldl (fun e y => e + blocks * sendPj (tileNode x.k.tile) (partWindow x.c y.tile y.core) (partBytes f n)) 0

/-- ROWFN (R183, R305). -/
def walkRowfn (x : WalkCtx) (i : Instr) (core : Core) (rd : SReg) (opidx : Nat) : WalkItem :=
  match findOp x.c opidx, findShape x.r opidx, findShare x.r x.k opidx with
  | some o, some sh, some sl =>
    match x.c.funcs[opFunc o]? with
    | none => plainItem i 1
    | some f =>
      let n0 := highHalf core rd 0
      let cols := min (lowHalf core rd 0) (sh.n - n0)
      let n := min (sregAt core rd 1).toNat (shareK sh sl)
      if cols = 0 ∨ n = 0 then plainItem i 1 else
      let vector (base stride fmt : Nat) : List (Nat × Nat) :=
        let size := if fmt = 2 then 2 else 4
        (List.range n).map (fun i => (base + i * stride + n0 * size, cols * size))
      let lbank := walkBanks x.f (vector (opInBase o) (opInStride o) f.inFmt ++
        (if f.auxFmt = 0 then [] else vector (opAuxBase o) (opAuxStride o) f.auxFmt))
      { plainItem i 1 with
        busy := ceilDiv cols 32 * rowfnHc f lbank n,
        work := { Work.none with scaled := seqPj + rowfnPj f cols n, fixed := rowfnPortPj x o sl f cols n0 n } }
  | _, _, _ => plainItem i 1

/-- Time of a fine-unit operation (R189): FDOT, FNORM, FEMB, FOPT on 512 FP32 or 1,024 BF16 lanes (R187). -/
def fineHc (o : Op) (m n k : Nat) : Nat :=
  let lanes := if opFineBf16 o then 1024 else 512
  match opFineKind o with
  | 0 => ceilDiv (m * n) lanes * k + 16
  | 1 => ceilDiv n 512 * (3 * m + 16)
  | 2 => ceilDiv (m * n) 1024 + 16
  | _ => 24 * ceilDiv (m * n) lanes

/-- Energy of a fine-unit operation at 0.75 V in pJ (R189): the rule prices a multiply-add and a BF16 lane step; the other operations
count one for each hc of a lane at work (DESIGN CHOICE, log entry 85). -/
def fineWork (o : Op) (m n k : Nat) : Rat :=
  finePj (opFineBf16 o) * (match opFineKind o with
    | 0 => (m * n * k : Nat)
    | 1 => (3 * m * n : Nat)
    | 2 => (m * n : Nat)
    | _ => (24 * m * n : Nat))

/-- FINE (R189, R306). -/
def walkFine (x : WalkCtx) (i : Instr) (core : Core) (rd : SReg) (opidx : Nat) : WalkItem :=
  match findOp x.c opidx, findShape x.r opidx, findShare x.r x.k opidx with
  | some o, some sh, some sl =>
    let m := min (lowHalf core rd 0) (shareM sh sl - highHalf core rd 0)
    let n := min (lowHalf core rd 1) (sh.n - highHalf core rd 1)
    let k := min (lowHalf core rd 2) (shareK sh sl)
    if m = 0 ∨ n = 0 then plainItem i 1
    else { plainItem i 1 with busy := fineHc o m n k, work := { Work.none with scaled := seqPj + fineWork o m n k } }
  | _, _, _ => plainItem i 1

/-! ## Copies (R351; R465, rule 5) -/

/-- The descriptors of a chain (R335); none when one of them is not wholly in a preload. -/
def walkChain (c : Constellation) (k : CoreId) : Nat → Nat → Option (List (List Byte))
  | 0, _ => none
  | fuel + 1, off => match inPreload c k off 64 with
    | none => none
    | some d => if dChain d then (walkChain c k fuel (off + 64)).map (fun ds => d :: ds) else some [d]

/-- REGION_LEN of a REGION descriptor: from the preload that holds the header, else a free value (log entry 85). -/
def walkRegion (c : Constellation) (d : List Byte) : Nat :=
  if dKind d ≠ 6 then 0 else
  let free := Config.regionPlanned c.image (dSrc d)
  match placeOf (dSrc d) with
  | some (.plain k o) => match inPreload c k o 64 with
    | some h => fieldAt h 28 4
    | none => free
  | _ => free

/-- Extents that a descriptor reads and writes. -/
def copyReads (x : EngineId × List Byte × Nat) : List (Nat × Nat) := sourceExtents x.2.1 x.2.2
def copyWrites (c : Constellation) (x : EngineId × List Byte × Nat) : List (Nat × Nat) := destExtentsBy (frameRing c) x.2.1 x.2.2
def extentBytes (xs : List (Nat × Nat)) : Nat := xs.foldl (fun a x => a + x.2) 0

/-- The ranges that a descriptor writes, each as often as it is written (R351): the lines of a DIAG go round a ring, with zeros to the end
of the slot that holds the last one (R344, R345). -/
def writtenRanges (c : Constellation) (x : EngineId × List Byte × Nat) : List (Nat × Nat) :=
  let d := x.2.1
  let ring := match placeOf (dDst d) with | some (.plain k off) => frameRing c k off | _ => none
  match ring with
  | some span =>
    if dKind d ≠ 4 ∨ dK d = 0 ∨ span = 0 then copyWrites c x else
    let n := ceilDiv (diagLines d * lineLen (dCb d) (dP d)) 1024 * 1024
    (dSideDst d, sideBytes d) :: (List.range (ceilDiv n span)).map (fun i => (dDst d, min span (n - i * span)))
  | none => copyWrites c x

/-- Energy of the extents of a descriptor in pJ, by price in a plain: the memory's own, and the passes between the engine's node and
that of the memory (R259, R467). -/
def extentsPj (e : EngineId) (price : Nat → Nat → Rat) (xs : List (Nat × Nat)) : Rat :=
  xs.foldl (fun t x => t + (match placeOf x.1 with
    | none => 0
    | some pl => hopPj (engineNode e) (placeNode pl) x.2 + (match pl with
      | .plain _ o => price o x.2
      | .hbm _ _ => x.2 * hbmPj
      | .lpddr _ => x.2 * lpddrPj
      | .host _ => x.2 * pciePj
      | .fine _ _ => 0))) 0

def copyPj (c : Constellation) (x : EngineId × List Byte × Nat) : Rat :=
  extentsPj x.1 readPj (copyReads x) + extentsPj x.1 writePj (writtenRanges c x)

/-- T_start of one end in ns (R351). The fine store of the engine's own tile counts as its plain (DESIGN CHOICE, log entry 85). -/
def startNs (e : EngineId) (pl : Place) : Nat :=
  match pl with
  | .lpddr _ => 250
  | .host _ => 900
  | .hbm t _ => if engineTile e = some t then 150 else 150 + (pathOf (engineNode e) (tileNode t)).2.2
  | .plain k _ => if engineTile e = some k.tile then 40 else 150 + (pathOf (engineNode e) (tileNode k.tile)).2.2
  | .fine t _ => if engineTile e = some t then 40 else 150 + (pathOf (engineNode e) (tileNode t)).2.2

/-- Payload bandwidth of the way between two nodes in B/ns (R391). -/
def pathRate (a b : NodeId) : Nat := match pathOf a b with | (0, 0, _) => 1000 | (_, 0, _) => 1000 | _ => 500

/-- HBM stacks that a descriptor touches, and whether it touches LPDDR5X. -/
def touchesHbm (c : Constellation) (t : TileId) (x : EngineId × List Byte × Nat) : Bool :=
  (copyReads x ++ copyWrites c x).any (fun y => match placeOf y.1 with | some (.hbm u _) => decide (u = t) | _ => false)
def touchesLpddr (c : Constellation) (x : EngineId × List Byte × Nat) : Bool :=
  (copyReads x ++ copyWrites c x).any (fun y => match placeOf y.1 with | some (.lpddr _) => true | _ => false)

/-- Engines whose descriptors in the step pass a test. -/
def enginesWith (all : List (EngineId × List Byte × Nat)) (f : EngineId × List Byte × Nat → Bool) : Nat :=
  ((all.filter f).map (fun x => x.1)).eraseDups.length

/-- Rate of a descriptor in B/ns (R351; R465, rule 5). -/
def copyRate (c : Constellation) (all : List (EngineId × List Byte × Nat)) (x : EngineId × List Byte × Nat) : Rat :=
  let own : Rat := match x.1 with
    | .hub _ => 64
    | .tile _ _ => if dKind x.2.1 = 3 ∧ dEsize x.2.1 < 3 then 64 else 128
  let path : Rat := (copyReads x ++ copyWrites c x).foldl (fun r y => match placeOf y.1 with
    | some pl => min r (pathRate (engineNode x.1) (placeNode pl))
    | none => r) own
  let hbm : Rat := allTiles.foldl (fun r t =>
    if touchesHbm c t x then min r (746 / (enginesWith all (touchesHbm c t) : Rat)) else r) path
  if touchesLpddr c x then min hbm (480 / (enginesWith all (touchesLpddr c) : Rat)) else hbm

/-- T of a descriptor in ns, rounded up (R351). -/
def copyNs (c : Constellation) (all : List (EngineId × List Byte × Nat)) (x : EngineId × List Byte × Nat) : Nat :=
  let ends := copyReads x ++ copyWrites c x
  let start := ends.foldl (fun t y => match placeOf y.1 with | some pl => max t (startNs x.1 pl) | none => t) 0
  let bytes := max (extentBytes (copyReads x)) (extentBytes (writtenRanges c x))
  start + ((bytes : Rat) / copyRate c all x).ceil.toNat

/-- COPY (R307): none when a descriptor of its chain is not wholly in a preload of the core. -/
def walkCopy (x : WalkCtx) (i : Instr) (core : Core) (ra : SReg) (imm : Word32) (hub : Bool) (eng : Fin 8) : Option WalkItem :=
  let off := (sreg core ra + sext imm).toNat
  let e : EngineId := if hub then .hub ⟨eng.val % 4, Nat.mod_lt _ (by decide)⟩ else .tile x.k.tile eng
  (walkChain x.c x.k 65537 off).map (fun ds =>
    let cs := ds.map (fun d => (e, d, walkRegion x.c d))
    { plainItem i 1 with
      copies := cs, work := { Work.none with scaled := seqPj, fixed := cs.foldl (fun t y => t + copyPj x.c y) 0 } })

/-! ## The walk of one core -/

/-- Issue time of R299 for the instructions that have one, with whether a branch is taken. -/
def issueHc (i : Instr) (taken : Bool) : Nat :=
  match i with
  | .mul .. => 3
  | .divu .. => 34
  | .jmp .. => 3
  | .br .. | .loop .. => if taken then 3 else 1
  | .bsel .. => 4
  | .signal .. => 8
  | .tag .. => 2
  | _ => 1

/-- The meaning of an instruction that the sequencer carries out by itself. -/
def ownMeaning (i : Instr) (s : State) : Option Out :=
  match i with
  | .nop k => some (execNop k s)
  | .li k rd imm => some (execLi k rd imm s)
  | .lih k rd imm => some (execLih k rd imm s)
  | .add k rd ra rb imm => some (execAdd k rd ra rb imm s)
  | .sub k rd ra rb => some (execSub k rd ra rb s)
  | .mul k rd ra rb => some (execMul k rd ra rb s)
  | .divu k rd ra rb => some (execDivu k rd ra rb s)
  | .and k rd ra rb => some (execAnd k rd ra rb s)
  | .or k rd ra rb => some (execOr k rd ra rb s)
  | .xor k rd ra rb => some (execXor k rd ra rb s)
  | .shl k rd ra rb imm => some (execShl k rd ra rb imm s)
  | .shr k rd ra rb imm => some (execShr k rd ra rb imm s)
  | .sar k rd ra rb imm => some (execSar k rd ra rb imm s)
  | .min k rd ra rb => some (execMin k rd ra rb s)
  | .max k rd ra rb => some (execMax k rd ra rb s)
  | .jmp k imm => some (execJmp k imm s)
  | .br k c ra rb imm => some (execBr k c ra rb imm s)
  | .loop k rd imm => some (execLoop k rd imm s)
  | .bsel k rd f op => some (execBsel k rd f op s)
  | _ => none

/-- The state after an instruction of the walk: a WAIT leaves the outcome of a count that came first, or of its timeout where the
walk cannot satisfy it (R314; R465, rule 6). -/
def walkNext (x : WalkCtx) (i : Instr) (s : State) : State :=
  match ownMeaning i s with
  | some (.next t) => t
  | _ => updCore s x.k (fun c => retire (match i with
    | .wait _ rd ra _ => setSreg c rd (if Config.waitUnmet x.c.image (sreg c ra).toNat then 1 else 0)
    | _ => c))

/-- Bytes of a signal flit's payload that leave the tile (R393). -/
def signalPj (x : WalkCtx) (core : Core) (ra : SReg) : Rat :=
  match objAt ((sreg core ra).setWidth 56) with
  | some o => hopPj (tileNode x.k.tile) o.node 4
  | none => 0

/-- TIMEOUT of the object at an address in the frames of the image (R275, R276). -/
def objTimeout (c : Constellation) (a : BitVec 56) : Nat :=
  match objAt a with
  | none => 0
  | some o =>
    let imgs : List ObjImage := match nodeTile o.node with
      | some t => ((c.tileFrames.find? (fun (f : TileFrame) => f.tile == t.val)).map (fun f => f.objs)).getD []
      | none => ((c.hubBlocks.find? (fun (b : HubBlock) => b.block == o.num / 128)).map (fun b => b.objs)).getD []
    ((imgs[if o.node = 0 then o.num % 128 else o.num]?).map (fun (y : ObjImage) => y.timeout.toNat)).getD 0

/-- What an instruction adds to the walk; none where the walk refuses the contract (R465, rules 5 and 6). -/
def walkItem (x : WalkCtx) (i : Instr) (core : Core) (taken : Bool) (before : List WalkItem) : Option WalkItem :=
  match i with
  | .mtile _ rd ra _ _ hold op => some (walkMtile x i core rd ra hold op.toNat)
  | .drain _ set => some (walkDrain x i set before)
  | .listMerge _ ra op => some (walkMerge x i core ra op.toNat)
  | .rowfn _ rd op => some (walkRowfn x i core rd op.toNat)
  | .fine _ rd op => some (walkFine x i core rd op.toNat)
  | .copy _ ra imm hub eng => walkCopy x i core ra imm hub eng
  | .signal _ ra _ _ _ => some { plainItem i 8 with work := { Work.none with scaled := seqPj, fixed := signalPj x core ra } }
  | .wait _ _ ra _ =>
    if Config.waitUnmet x.c.image (sreg core ra).toNat && objTimeout x.c ((sreg core ra).setWidth 56) == 0 then none
    else some (plainItem i 1)
  | _ => some (plainItem i (issueHc i taken))

/-- The items of a core's program from a state of its registers on, in order; none where the contract is refused, or where the program
reaches no MERIDIAN within the fuel (then no deadline holds). -/
def walkFrom (x : WalkCtx) (prog : List Word64) : Nat → State → List WalkItem → Option (List WalkItem)
  | 0, _, _ => none
  | fuel + 1, s, acc =>
    let c := getCore s x.k
    match (prog[c.seq.pc.toNat]?).bind (decodeSequencer x.k) with
    | none => none
    | some (.meridian k) => some ((plainItem (.meridian k) 1 :: acc).reverse)
    | some i =>
      let t := walkNext x i s
      match walkItem x i c ((getCore t x.k).seq.pc != c.seq.pc + 1) acc with
      | none => none
      | some it => walkFrom x prog fuel t (it :: acc)

/-- The walk of one core that takes part in an entry point. -/
def walkCore (c : Constellation) (entry top : Nat) (k : CoreId) : Option (List WalkItem) :=
  match frameOf c k with
  | none => some []
  | some f =>
    let r := plannedRun c entry top
    walkFrom { c := c, r := r, k := k, f := f } ((c.programs[entryOf c k entry]?).getD []) (2 ^ 48) (plannedState c r k f) []

/-! ## The walk of a contract and of a best-effort step (R465 to R467, R472) -/

/-- The walks of every core that takes part in an entry point, with shapes up to bucket top; none where the walk refuses. -/
def walkEntry (c : Constellation) (entry top : Nat) : Option (List (CoreId × List WalkItem)) :=
  ((allTiles.flatMap allCores).filter (fun k => takesPart c k entry)).foldl (fun r k =>
    match r, walkCore c entry top k with
    | some xs, some w => some (xs ++ [(k, w)])
    | _, _ => none) (some [])

/-- Every descriptor that the walk hands over. -/
def walkCopies (ws : List (CoreId × List WalkItem)) : List (EngineId × List Byte × Nat) := ws.flatMap (fun w => w.2.flatMap (fun i => i.copies))

/-- The times of a walk by core: issue, work and drains in hc, copies in ns. -/
def walkTimes (c : Constellation) (ws : List (CoreId × List WalkItem)) : List (Nat × List (Nat × Nat × List Nat × List Nat)) :=
  let all := walkCopies ws
  ws.map (fun w => (64 * w.1.tile.val + w.1.core.val, w.2.map (fun i => (i.issue, i.busy, i.drains, i.copies.map (copyNs c all)))))

/-- E of a walk at a voltage in pJ (R467). -/
def walkEnergyOf (ws : List (CoreId × List WalkItem)) (mv : Nat) : Rat :=
  ws.foldl (fun e w => w.2.foldl (fun e i => e + workPj i.work mv) e) 0

/-- The walk of a contract: the largest bucket at or below its MAXBUCKET (R465). -/
def walkContract (c : Constellation) (x : Contract) : Option (List (CoreId × List WalkItem)) := walkEntry c x.entry x.maxBucket

/-- h and ns of a walk: on the longest path through its times (R465). -/
def pathHc (c : Constellation) (entry top : Nat) : Nat :=
  match walkEntry c entry top with
  | some ws => Config.pathHc c.image entry top (walkTimes c ws)
  | none => 0
def pathNs (c : Constellation) (entry top : Nat) : Nat :=
  match walkEntry c entry top with
  | some ws => Config.pathNs c.image entry top (walkTimes c ws)
  | none => 0

/-- E of an entry point at a voltage in pJ (R467). -/
def entryEnergy (c : Constellation) (entry top mv : Nat) : Rat :=
  match walkEntry c entry top with
  | some ws => walkEnergyOf ws mv
  | none => 0

end Sys2Proof.Machine
end

