-- ==== Sys2Proof/Machine/Sched.lean ====
section
/-! DEFINITION. What the scheduler and admission compute (R456 to R476): frames and pinned tiles, rates, the deadline and the
budget test, reserved energy, the best-effort fill. -/

namespace Sys2Proof.Machine

/-! ## Pinned tiles (R275, R286) -/

def parkNever (c : Constellation) (t : TileId) : Bool := c.tileFrames.any (fun f => f.tile == t.val && f.parkNever)

def findContract (c : Constellation) (id : Nat) : Option Contract := c.contracts.find? (fun x => x.id == id)

/-- The tiles with a core that takes part in an entry point. -/
def entryTiles (c : Constellation) (entry : Nat) : List TileId := allTiles.filter (fun t => (allCores t).any (fun k => takesPart c k entry))

/-- The pinned tiles of a contract's stream. -/
def pinnedTiles (c : Constellation) (x : Contract) : List TileId := entryTiles c x.entry

/-- Open streams of a partition with their contracts. -/
def openStreams (q : Partition) : List (Stream × Contract) :=
  match q.const with
  | none => []
  | some c => q.streams.filterMap (fun x => (findContract c x.contract).map (fun d => (x, d)))

/-- Whether an open stream pins a tile. -/
def isPinned (s : State) (t : TileId) : Bool :=
  allParts.any (fun p => match s.parts[p].const with
    | none => false
    | some c => (openStreams s.parts[p]).any (fun x => (pinnedTiles c x.2).contains t))

/-! ## The pair, the ceiling, voltages and rates (R456 to R463) -/

/-- Power cap of a class in W. -/
def classCap (a : Nat) : Nat := match a with | 0 => 200 | 1 => 300 | 2 => 360 | _ => 420

/-- Best-effort slew limit of a class in W per s; class 3 has none. -/
def classSlew (a : Nat) : Option Nat := match a with | 0 => some 10 | 1 => some 25 | 2 => some 50 | _ => none

/-- B_eff in W (R462). -/
def bEff (x : Sched) : Nat := min (5 * x.budget5.toNat) (classCap x.acoustic.toNat)

/-- V_ceil in mV (R463). -/
def vCeil (w : Nat) : Nat := if w < 200 then 600 else if w < 250 then 700 else if w < 300 then 750 else if w < 360 then 800 else 850

/-- A value of a table over 0.50 V to 0.85 V in steps of 50 mV, interpolated and rounded down (R457). -/
def tableRate (tab : Vector (BitVec 16) 8) (mv : Nat) : Nat :=
  let i := min ((mv - 500) / 50) 6
  let d := mv - 500 - 50 * i
  let at' (j : Nat) : Nat := ((tab.toList[j]?).getD 0).toNat
  (at' i * (50 - d) + at' (i + 1) * d) / 50

/-- The rate of a tile in Mhc/s at a voltage and a junction in 1/16 °C (R457): linear from 70 °C on, rounded down. -/
def rateAt (w : PwrRegs) (mv : Nat) (tj : Int) : Nat :=
  let r70 := tableRate w.s70 mv
  let r105 := tableRate w.s105 mv
  if tj ≤ 1120 then r70 else ((r70 * (1680 - tj) + r105 * (tj - 1120)) / 560).toNat

/-- The floor of the measured junction band (R458). -/
def floorAt (w : PwrRegs) : Nat :=
  let tj := w.tj.toInt
  (if tj < 640 then w.floorCool else if tj < 1280 then w.floorWarm else w.floorHot).toNat

/-- Compute-die leakage at 105 °C in mW (R467), interpolated. -/
def leak105 (mv : Nat) : Rat :=
  let seg (a la b lb : Nat) : Rat := (la : Rat) + ((lb : Rat) - la) * ((mv : Rat) - a) / ((b : Rat) - a)
  if mv < 600 then seg 500 1600 600 2200 else if mv < 700 then seg 600 2200 700 3000
  else if mv < 750 then seg 700 3000 750 3500 else if mv < 800 then seg 750 3500 800 4000 else seg 800 4000 850 4600

/-! ## Admission (R464 to R468) -/

/-- T of R466 in ns for an entry point with shapes up to a bucket: the hc of its walk at a rate in Mhc/s, with a replay factor in
millionths. -/
def entryNs (c : Constellation) (entry top rate factor : Nat) : Nat :=
  4000 + pathNs c entry top + ceilDiv (pathHc c entry top * factor) (1000 * rate)

/-- T of R466 in ns for the contract at an index of its image. -/
def stepNs (c : Constellation) (i rate factor : Nat) : Nat :=
  match c.contracts[i]? with
  | some x => entryNs c x.entry x.maxBucket rate factor
  | none => 0

/-- E of a contract at a voltage in pJ (R467). -/
def contractEnergy (c : Constellation) (x : Contract) (mv : Nat) : Rat := entryEnergy c x.entry x.maxBucket mv

/-- The lowest S105 over the pinned tiles of a contract. -/
def pinnedRate (s : State) (c : Constellation) (x : Contract) (mv : Nat) : Nat :=
  (pinnedTiles c x).foldl (fun r t => min r (tableRate (s.tiles[t].pwr.s105) mv)) (2 ^ 16)

/-- resp(c, v) of R466 over a T of the contracts. -/
def respOver (cs : List (Nat × Contract)) (T : Nat × Contract → Nat) (x : Nat × Contract) : Nat :=
  T x + (cs.filter (fun d => d.1 != x.1)).foldl (fun a d => a + ceilDiv x.2.deadline d.2.period * T d) 0


/-! ## Settings that wait for a window start (R8, R21, R461) -/

/-- The value that governs from a window start: of the writes that take effect by it the last. -/
def dueAt {α : Type} (tick : Word64) (xs : List (α × Word64)) : Option α := ((xs.filter (fun x => x.2.ule tick)).getLast?).map (fun x => x.1)

/-- The writes that wait for a later window start. -/
def dueLater {α : Type} (tick : Word64) (xs : List (α × Word64)) : List (α × Word64) := xs.filter (fun x => !x.2.ule tick)

/-- A write that takes effect at a window start replaces an earlier one for the same start (R21). -/
def putDue {α : Type} (xs : List (α × Word64)) (v : α) (tick : Word64) : List (α × Word64) :=
  xs.filter (fun x => x.2 != tick) ++ [(v, tick)]

/-- The window start from which a setting written now governs (R21, R461): a write at or after the tick at which a window begins
belongs to that window. -/
def pairStart (s : State) : Word64 :=
  let x := s.sched
  if s.now.ult x.nextStart then x.nextStart
  else x.nextStart + BitVec.ofNat 64 (((dueAt x.nextStart x.windowPending).getD x.windowMs).toNat * 1000000)

/-- The tick belongs to a window that has not been begun yet (R8, R461). -/
def windowOver (s : State) : Bool := s.boot.ready && !s.now.ult s.sched.nextStart

/-- The pair in force at a tick: that of the window which the tick belongs to (R8, R21). -/
def pairNow (x : Sched) (now : Word64) : BitVec 8 × BitVec 2 := (dueAt now x.pending).getD (x.budget5, x.acoustic)

/-- The budget floor of an admission in W: B_eff of the pair in force when it runs (R464). -/
def budgetFloor (s : State) : Nat :=
  let q := pairNow s.sched s.now
  bEff { s.sched with budget5 := q.1, acoustic := q.2 }

/-- What an admission answers: V_adm, or a code with the contract's index and the SHORTFALL of R290. -/
inductive Admission
  | granted (vadm : Nat)
  | refused (code : BitVec 16) (index : Nat) (shortfall : Nat)
  deriving DecidableEq, Repr

/-- The contracts of an image by CONTRACT id, with their indices. -/
def contractsInOrder (c : Constellation) : List (Nat × Contract) := sortBy (fun x => x.2.id) (indexed c.contracts)

/-- admit_deadline of R466, for the partition's tiles and the budget floor in W; a contract that the walk refuses has SHORTFALL
0xFFFF_FFFF (R465). -/
def admitDeadline (s : State) (c : Constellation) : Admission :=
  let cs := contractsInOrder c
  match cs.find? (fun x => (walkContract c x.2).isNone) with
  | some x => .refused stRefusedDeadline x.1 0xFFFFFFFF
  | none =>
    let vf := (allTiles.filter (fun t => c.tileMask.getLsbD t.val)).foldl (fun v t => max v s.tiles[t].pwr.floorHot.toNat) 500
    let vc := vCeil (budgetFloor s)
    let resp (v : Nat) (x : Nat × Contract) : Nat := respOver cs (fun d => stepNs c d.1 (pinnedRate s c d.2 v) 1030000) x
    match ((List.range ((vc - vf) / 10 + 1)).map (fun i => vf + 10 * i)).find? (fun v => cs.all (fun x => decide (resp v x ≤ x.2.deadline))) with
    | some v => .granted v
    | none =>
      match cs.find? (fun x => decide (x.2.deadline < resp vc x)) with
      | some x => .refused stRefusedDeadline x.1 (min (ceilDiv (resp vc x - x.2.deadline) 1000) 0xFFFFFFFF)
      | none => .granted vc

/-- The reservation of open contracts of a partition in mW: its pinned tiles and E × 1.03 / PERIOD of each stream (R468). -/
def reservation (c : Constellation) (vadm : Nat) (xs : List Contract) : Rat :=
  let pins := allTiles.filter (fun t => xs.any (fun x => (pinnedTiles c x).contains t))
  (pins.length : Rat) * (leak105 vadm + 1200) +
  xs.foldl (fun a x => a + contractEnergy c x vadm * 103 / (100 * x.period)) 0

/-- The reservation of one partition's open streams. -/
def partReservation (q : Partition) : Rat :=
  match q.const, openStreams q with
  | some c, x :: xs => reservation c q.vadm.toNat ((x :: xs).map (fun y => y.2))
  | _, _ => 0

/-- P of R468 in mW, for the open streams of every partition but one, and a reservation for that one. -/
def budgetPower (s : State) (p : PartId) (own : Rat) : Rat :=
  48000 + own + (allParts.filter (fun q => q != p)).foldl (fun a q => a + partReservation s.parts[q]) 0

/-- The budget test of R468 on a reservation of partition p. -/
def admitBudget (s : State) (p : PartId) (own : Rat) (index : Nat) : Admission :=
  let P := budgetPower s p own
  let floor : Rat := (budgetFloor s : Rat) * 1000
  if P ≤ floor then .granted 0 else .refused stRefusedBudget index (min (P - floor).ceil.toNat 0xFFFFFFFF)

/-- SCH_RESERVE: P for the open streams, rounded up (R500). -/
def reserveNow (s : State) : Nat := (48000 + allParts.foldl (fun a q => a + partReservation s.parts[q]) (0 : Rat)).ceil.toNat

/-- What follows from the open streams: SCH_RESERVE (R500), and VADM of the tiles they pin, 0 on every other tile (R487). -/
def updReserve (s : State) : State :=
  let s := updSched s (fun x => { x with reserveMw := BitVec.ofNat 32 (reserveNow s) })
  forAll allTiles (fun s t =>
    let v := if isPinned s t then (match tilePart s t with | some p => s.parts[p].vadm | none => 0) else 0
    updTile s t (fun x => { x with pwr := { x.pwr with vadm := v } })) s

/-- The refusal of R475 under OVERHANG: SHORTFALL is what the reserved power exceeds the budget floor by, in mW (R290). -/
def refuseOverhang (s : State) (index : Nat) : Admission :=
  .refused stRefusedBudget index (min (reserveNow s - 1000 * budgetFloor s) 0xFFFFFFFF)

/-- Admission at load (stage 10 of R287): every contract in CONTRACT order, each as if its stream alone were open; the result
is V_adm of the partition, 0 without contracts. -/
def admitLoad (s : State) (p : PartId) (c : Constellation) : Admission :=
  if c.contracts.isEmpty then .granted 0
  else if s.sched.overhang then refuseOverhang s ((contractsInOrder c).head?.elim 0 (fun x => x.1))
  else match admitDeadline s c with
  | .refused a b d => .refused a b d
  | .granted v =>
    match (contractsInOrder c).findSome? (fun x => match admitBudget s p (reservation c v [x.2]) x.1 with
      | .refused a b d => some (Admission.refused a b d)
      | .granted _ => none) with
    | some r => r
    | none => .granted v

/-- Admission at the opening of a stream (R464, R469, R475): contract id `id` of partition p. -/
def admitOpen (s : State) (p : PartId) (c : Constellation) (x : Contract) : Admission :=
  if s.sched.overhang then refuseOverhang s 0
  else match admitDeadline s c with
  | .refused a b d => .refused a b d
  | .granted v =>
    match admitBudget s p (reservation c v ((openStreams s.parts[p]).map (fun y => y.2) ++ [x])) 0 with
    | .refused a b d => .refused a b d
    | .granted _ => .granted v

/-! ## The window's forecast and the best-effort fill (R470 to R475) -/

/-- Release ticks of a stream in [a, b). -/
def ticksIn (x : Stream) (period a b : Nat) : Nat :=
  let upto (y : Nat) : Nat := if y ≤ x.r0 then 0 else ceilDiv (y - x.r0) period
  upto b - upto a

/-- The reserved forecast of a window of w ms from tick a, in pJ (order 4 of R470). -/
def reservedForecast (s : State) (a w : Nat) : Rat :=
  let base : Rat := 48000 * w * 1000000
  allParts.foldl (fun f p =>
    match s.parts[p].const with
    | none => f
    | some c =>
      let xs := openStreams s.parts[p]
      let v := s.parts[p].vadm.toNat
      let pins := allTiles.filter (fun t => tileAwake s t && xs.any (fun x => (pinnedTiles c x.2).contains t))
      let f := f + (pins.length : Rat) * (leak105 v + 1200) * w * 1000000
      xs.foldl (fun f x => f + (ticksIn x.1 x.2.period a (a + w * 1000000) : Rat) * contractEnergy c x.2 v) f) base

/-- The tiles of a partition. -/
def partTiles (s : State) (p : PartId) : List TileId := allTiles.filter (fun t => partHasTile s p t)

/-- The best-effort steps not yet in the fill, in the order of R472: the one that heads the window, then by priority and
arrival. -/
def fillOrder (s : State) : List (PartId × Step) :=
  let cs := allParts.flatMap (fun p => (s.parts[p].queue.filter (fun x => x.contract.isNone && !s.sched.fill.any (fun y => y.1 == x.id))).map (fun x => (p, x)))
  sortBy (fun y => (if s.sched.headed == some y.2.id then 0 else 2 ^ 68) + (7 - y.2.prio) * 2 ^ 64 + y.2.arrival.toNat) cs

/-- Voltages tried for a candidate: down from V_ceil less the thermal cuts in 50 mV steps, the floor last (R472). -/
def tryVolts (s : State) (p : PartId) : List Nat :=
  let ts := partTiles s p
  let fl := ts.foldl (fun v t => max v (floorAt s.tiles[t].pwr)) 500
  let top := vCeil (bEff s.sched) - ts.foldl (fun v t => max v s.tiles[t].pwr.cutMv) 0
  ((List.range 8).map (fun i => top - 50 * i)).filter (fun v => decide (fl < v)) ++ [fl]

/-- Energy of one best-effort step at a voltage in pJ, rounded up (R472): the walk of its entry point. A step outside the contracts has
no MAXBUCKET; the walk takes the largest bucket of every operation (DESIGN CHOICE, log entry 85). -/
def stepCost (s : State) (p : PartId) (x : Step) (v : Nat) : Int :=
  match s.parts[p].const with
  | none => 0
  | some c => (entryEnergy c x.entry 7 v).ceil

/-- Whether a best-effort step is running. -/
def bestEffortRuns (s : State) : Bool :=
  allParts.any (fun p => match s.parts[p].run with | some r => r.step.contract.isNone | none => false)

/-- A residency load or bind of the partition is under way (R445). -/
def loading (q : Partition) : Bool := q.resJobs.any (fun j => match j with | .load _ => true | .bind _ => false)
def binding (q : Partition) : Bool := q.resJobs.any (fun j => match j with | .load _ => false | .bind _ => true)

/-- A core of a tile takes part in a step's entry point. -/
def runsOn (q : Partition) (x : Step) (t : TileId) : Bool :=
  match q.const with
  | none => false
  | some c => (allCores t).any (fun k => takesPart c k x.entry)

/-- A best-effort step of the partition is held back: by R481, where it needs a tile for which such steps are withheld, and while a
bind of the partition streams (R16, R547). -/
def withholds (s : State) (p : PartId) (x : Step) : Bool :=
  (partTiles s p).any (fun t => s.tiles[t].pwr.withheld && runsOn s.parts[p] x t) || binding s.parts[p]

/-- Put a candidate into the fill at a voltage. -/
def grant (s : State) (p : PartId) (x : Step) (v : Nat) (stop : Bool) : State :=
  let e := stepCost s p x v
  updSched s (fun y =>
    { y with fill := y.fill ++ [(x.id, v)], room := y.room - e, slewRoom := y.slewRoom.map (fun z => z - e),
             headed := if y.headed == some x.id then none else y.headed,
             stopped := stop })

/-- Steps of R472 that this window does not release: R477 takes their partitions to be deferred. -/
def deferAll (s : State) (cs : List (PartId × Step)) : State :=
  cs.foldl (fun s y => updPart s y.1 (fun q => { q with deferredNow := true })) s

/-- Extend the best-effort fill over the candidates in order (R472): each that fits is released at the highest voltage at which it does;
the first that does not stops the fill and heads the next window. A first candidate too large for the whole window, in energy or
slew, goes once no best-effort step runs. -/
def fillOver : List (PartId × Step) → State → State
  | [], s => s
  | (p, x) :: cs, s =>
    if withholds s p x then fillOver cs s else
    let fits (v : Nat) : Bool :=
      let e := stepCost s p x v
      decide (e ≤ s.sched.room) && (match s.sched.slewRoom with | some z => decide (e ≤ z) | none => true)
    match (tryVolts s p).find? fits with
    | some v => fillOver cs (grant s p x v false)
    | none =>
      let low := stepCost s p x ((tryVolts s p).getLastD 500)
      let slew := decide (low ≤ s.sched.room)
      if s.sched.fill.isEmpty then
        if bestEffortRuns s then
          updSched (deferAll s ((p, x) :: cs)) (fun y => { y with headed := some x.id, slewLimited := y.slewLimited || slew })
        else grant (deferAll s cs) p x ((tryVolts s p).getLastD 500) true
      else
        updSched (deferAll s ((p, x) :: cs)) (fun y => { y with stopped := true, headed := some x.id, slewLimited := slew })

/-- The fill goes on while it has not stopped; none while OVERHANG is set (R475). -/
def extendFill (s : State) : State :=
  if s.sched.overhang then s else if s.sched.stopped then deferAll s (fillOrder s) else fillOver (fillOrder s) s

end Sys2Proof.Machine
end

