-- ==== Sys2Proof/Machine/Steps.lean ====
section
/-! DEFINITION. Steps of a partition (R296, R297, R316 to R324): release and re-split, the meridians, records, faults, parity
re-run. -/

namespace Sys2Proof.Machine

/-! ## Bounds and records (R57, R218 to R224) -/

/-- UB32 of R221 for the bound m × 2^e. -/
def ub32 (m : Nat) (e : Int) : Nat :=
  if m = 0 then 0 else
  let len := m.log2 + 1
  let (μ, ε) : Nat × Int :=
    if len ≤ 16 then (m * 2 ^ (16 - len), e - (16 - len : Nat))
    else
      let q := ceilDiv m (2 ^ (len - 16))
      if q = 0x10000 then (0x8000, e + (len - 15 : Nat)) else (q, e + (len - 16 : Nat))
  if 32767 < ε then 0xFFFFFFFF
  else if ε < -32768 then 0x80008000
  else
    let w := μ * 2 ^ 16 + (ε % 2 ^ 16).toNat
    if w = 0xFFFFFFFF then 0x80000000 else w

/-- SKIP_BOUND of an operation for a threshold step a: τ × NORM_MAX, unbounded until a bind has given the norm (R205, R222). -/
def skipBound (q : Partition) (o : Op) (a : Nat) : Nat :=
  if opTauM o = 0 then 0 else
  match q.normMax.find? (fun x => x.1 == o.opidx) with
  | none => 0xFFFFFFFF
  | some (_, m, e) => ub32 (opTauM o * m) (opTauE o + a + e)

/-- A 16-bit share of clips in elements (R57). -/
def clipShare (clips elems : Nat) : Nat := if elems = 0 then 0 else min (clips * 65536 / elems) 0xFFFF

/-- A count cut to a width (R58, R224: counts saturate). -/
def satNat (w n : Nat) : Nat := min n (2 ^ w - 1)

/-- The clip record of R57. -/
def clipRecord (r : OpRecord) : List Byte :=
  let f (n : Nat) : List Byte := natLe 4 (satNat 32 n)
  f r.inElems ++ f r.inClips ++ f r.outElems ++ f r.outClips ++
  natLe 2 (clipShare (satNat 32 r.inClips) (satNat 32 r.inElems)) ++
  natLe 2 (clipShare (satNat 32 r.outClips) (satNat 32 r.outElems)) ++ natLe 4 0

/-- TOL_BOUND of R218: TOL_EVENTS × (2^TL − 1) × 2^(p − 1) × 2^(WE_HI + AE_HI). -/
def tolBound (o : Op) (r : OpRecord) : Nat :=
  let p := if opCheckP o ≠ 0 then 1 else if o.engine = 1 then opWBits o else opPlanes o
  ub32 (satNat 32 r.tolEvents * (2 ^ r.tl - 1) * 2 ^ (p - 1)) (opWeHi o + opAeHi o)

/-- Class of an invocation (R219): TOLERANT, ADAPTIVE or FIXED. -/
def invocationClass (adaptive : Bool) (o : Op) (r : OpRecord) : Nat :=
  if 0 < r.tl then 2 else if opSkip o = 2 && adaptive then 1 else 0

/-- The approximation record of R223; all zero with K = 0 or for a skipped operation (R224). -/
def approxRecord (q : Partition) (o : Op) (sh : OpShape) (r : OpRecord) : List Byte :=
  if sh.skipped || sh.k = 0 then List.replicate 40 0 else
  let f (n : Nat) : List Byte := natLe 4 (satNat 32 n)
  let h (n : Nat) : List Byte := natLe 2 (satNat 16 n)
  f r.skipElems ++ f r.gated ++ f r.replays ++ f r.tolEvents ++ h r.predSkipped ++ h r.predMisses ++ h r.predMadeup ++
  h r.predLost ++ natLe 4 (skipBound q o r.aUsed) ++ natLe 4 (tolBound o r) ++
  [BitVec.ofNat 8 r.aUsed, BitVec.ofNat 8 (invocationClass q.adaptive o r),
   BitVec.ofNat 8 ((if r.predLost = 0 then 0 else 1) + (if r.tolEvents = 0 then 0 else 2)), BitVec.ofNat 8 r.tl] ++ natLe 4 0

/-- An empty record of an operation at the opening of a step. -/
def freshRecord (r : StepRun) (o : Op) : OpRecord :=
  { opidx := o.opidx, inElems := 0, inClips := 0, outElems := 0, outClips := 0, skipElems := 0, gated := 0, replays := 0,
    tolEvents := 0, predSkipped := 0, predMisses := 0, predMadeup := 0, predLost := 0, aUsed := stepA r o, tl := 0, ran := false }

/-! ## Meridians (R24, R198, R214, R455) -/

/-- What a tile takes at a meridian: its voltage, and RECOVERY, SERVICE or TEST under R214 with the tolerance line of R216 and
R217. A tile in TEST keeps the voltage and the tolerance line of its controls; one that leaves RECOVERY in test state returns
to TEST (R593). -/
def meridianTile (inTest : Bool) (x : Tile) : Tile :=
  let w := x.pwr
  let ctx : BitVec 2 :=
    if (w.context = 0 || w.context = 2) && w.enterRec then 3
    else if w.context = 3 && w.leaveRec && !w.enterRec then (if inTest then 2 else 0) else w.context
  { x with pwr :=
    { w with vset := if ctx = 2 then w.vset else w.vnext, context := ctx, enterRec := false,
             leaveRec := if ctx = 3 then w.leaveRec && w.context = 3 else false,
             tl := if ctx = 3 then (if w.reproFixed then 0 else w.tlRecovery) else if ctx = 2 && w.context = 2 then w.tl else 0 } }

/-- A partition is at a meridian while no step of it is open. -/
def atMeridian (s : State) (p : PartId) : Bool := match s.parts[p].run with | some r => !r.opened | none => true

/-- A tile is at a meridian when it belongs to no partition or to one that is (R479). -/
def tileAtMeridian (s : State) (t : TileId) : Bool := match tilePart s t with | some p => atMeridian s p | none => true

/-- The mode bit of the tiles follows their partition's mode (R229). -/
def setMode (s : State) (p : PartId) (adaptive : Bool) : State :=
  forAll (partTiles s p) (fun s t => updTile s t (fun x =>
    { x with pwr := { x.pwr with reproFixed := !adaptive, tl := if adaptive then x.pwr.tl else 0 } })) s

/-- MODEL_UNBIND_EFFECT on the models (R549): those marked leave; a damaged one is remembered until it is bound again (R436). -/
def dropUnbound (q : Partition) : Partition :=
  { q with models := q.models.filter (fun m => !m.unbinding),
           hurt := q.hurt ++ (q.models.filter (fun m => m.unbinding && m.hurt)).map (fun m => m.contentDigest) }

/-- MODEL_UNBIND_EFFECT (R549) with the completions of the unbinds. -/
def unbindNow (s : State) (p : PartId) : State :=
  let cmds := (s.parts[p].models.filter (fun m => m.unbinding)).filterMap (fun m => m.unbindCmd)
  cmds.foldl (fun s c => complete s c stOk []) (updPart s p dropUnbound)

/-- The settings pending for partition p's meridian take effect: mode, adaptive step, unbinds, voltages, contexts. -/
def applyMeridian (s : State) (p : PartId) : State :=
  let s := match s.parts[p].adaptivePending with
    | none => s
    | some b => setMode (updPart s p (fun q => { q with adaptive := b, adaptivePending := none })) p b
  let s := unbindNow (updPart s p (fun q => { q with aStep := q.aPending.getD q.aStep, aPending := none })) p
  forAll (partTiles s p) (fun s t => updTile s t (meridianTile s.test.test)) s

/-- Apply them at once where the partition is at a meridian. -/
def meridianIfIdle (s : State) (p : PartId) : State := if atMeridian s p then applyMeridian s p else s

/-- MODEL_UNBIND_EFFECT (R549): at the partition's next meridian. -/
def execModelUnbindEffect (p : PartId) (s : State) : Out :=
  .next (if powered s && atMeridian s p then unbindNow s p else s)

/-! ## Sessions and completions of steps (R316, R518, R521) -/

/-- A session leaves; the stream of its contract closes with the last session that names it (R521). -/
def dropSession (q : Partition) (id : Nat) : Partition :=
  let rest := q.sessions.filter (fun x => x.id != id)
  { q with sessions := rest, streams := q.streams.filter (fun x => rest.any (fun y => y.contract == some x.contract)) }

/-- Closes that waited for a released step of their session complete (R521). -/
def finishCloses (s : State) (p : PartId) : State :=
  let q := s.parts[p]
  let done := q.sessions.filter (fun x => x.closing.isSome && !(q.run.any (fun r => r.step.session == x.id)))
  if done.isEmpty then s else
  done.foldl (fun s x =>
    let s := updReserve (updPart s p (fun q => dropSession q x.id))
    match x.closing with
    | some (some c) => complete s c stOk []
    | _ => s) s

/-- Result bytes of an ENQUEUE completion: FAIL_OP, zeros, STEPNO (R518). -/
def enqueueResult (failOp : Nat) (stepno : Word64) : List Byte := natLe 2 failOp ++ natLe 4 0 ++ natLe 8 stepno.toNat

/-- The 64 bytes of every operation at RECBUF (R518): clip records go nowhere else (R59). They go to the function that enqueued the
step, also when the partition was remapped to another function after the step's release (DESIGN CHOICE, log entry 89). -/
def writeRecords (s : State) (p : PartId) (r : StepRun) : State :=
  match s.parts[p].const with
  | none => s
  | some c =>
    if r.step.recbuf = 0 then s else
    c.ops.foldl (fun s o =>
      let sh := (findShape r o.opidx).getD { opidx := o.opidx, bucket := 0, m := 0, n := 0, k := 0, skipped := true }
      let rec' := (r.recs.find? (fun x => x.opidx == o.opidx)).getD (freshRecord r o)
      match r.step.cmd with
      | none => s
      | some c => commandWrite s c (r.step.recbuf + 64 * o.opidx) (clipRecord rec' ++ approxRecord s.parts[p] o sh rec')) s

/-- Complete the command of a step, unless its completion has been discarded. -/
def completeStep (s : State) (x : Step) (code : BitVec 16) (result : List Byte) : State :=
  match x.cmd with
  | none => s
  | some c => complete s c code result

/-- STEPS and MISSES of the mirror (R485): what falls on or after the end of the window in progress counts in the next (R8). -/
def countStep (next : Bool) (miss : Nat) (q : Partition) : Partition :=
  if next then { q with stepsNext := satAdd q.stepsNext 1, missesNext := satAdd q.missesNext miss }
  else { q with stepsDone := satAdd q.stepsDone 1, missesDone := satAdd q.missesDone miss }

/-- A step ends: records, completion, MISSES, and the meridian of the partition (R316, R478, R518, R523). -/
def finishStep (s : State) (p : PartId) (code : BitVec 16) : State :=
  match s.parts[p].run with
  | none => s
  | some r =>
    let s := writeRecords s p r
    let s := completeStep s r.step code (enqueueResult 0 r.stepno)
    let miss := if code = stDeadlineMiss then 1 else 0
    let s := updPart s p (fun q => countStep (windowOver s) miss { q with run := none, misses := satAdd q.misses miss })
    let s := forAll (partTiles s p) (fun s t => updTile s t (fun x =>
      { x with cores := x.cores.map (fun c => { c with taking := false, reported := false }) })) s
    finishCloses (applyMeridian s p) p

/-- The deadline of a contract step: its tick plus DEADLINE (R471). -/
def stepDeadline (q : Partition) (x : Step) : Option Nat :=
  match x.contract, x.tick, q.const with
  | some id, some t, some c => (findContract c id).map (fun d => t.toNat + d.deadline)
  | _, _, _ => none

/-- A step runs past its deadline (R478). -/
def isLate (s : State) (p : PartId) (x : Step) : Bool :=
  match stepDeadline s.parts[p] x with
  | some d => decide (d < s.now.toNat)
  | none => false

/-- The code of a step that ran to its end (R257, R478). -/
def closingCode (s : State) (p : PartId) (r : StepRun) : BitVec 16 :=
  if isLate s p r.step then stDeadlineMiss else if r.rerun then stParityRerun else stOk

/-! ## Release (R297, R316, R319, R320, R471 to R473) -/

/-- The cores of an operation's shares that would carry it with some tiles parked, in ascending order of planned ROW0. -/
def awakeShares (sls : List Slice) (awake : TileId → Bool) : List Slice :=
  sortBy (fun x => x.row0) (sls.filter (fun x => allTiles.any (fun t => t.val == x.tile && awake t)))

/-- Whether R319 allows an operation to be re-split. -/
def splittable (o : Op) (sls : List Slice) : Bool :=
  sls.all (fun x => x.role == 0) && o.engine == 0 &&
  sls.all (fun x => !dwTopk (drainOf o x) && dwCmode (drainOf o x) == 0)

/-- The re-split of R320: blocks of 256 rows dealt over the awake cores; the others hold no rows. -/
def reSplit (sls : List Slice) (awake : TileId → Bool) : List Slice :=
  let A := awakeShares sls awake
  let R := sls.foldl (fun a x => a + x.rows) 0
  let base := sls.foldl (fun a x => min a x.row0) (2 ^ 32)
  let B := ceilDiv R 256
  let per := B / A.length
  let more := B % A.length
  (indexed A).map (fun y =>
    let b0 := y.1 * per + min y.1 more
    let n := per + (if y.1 < more then 1 else 0)
    { y.2 with row0 := base + 256 * b0, rows := min R (256 * (b0 + n)) - min R (256 * b0) })

/-- Tiles that must be awake for a best-effort step (R319): those of operations that cannot be re-split, and those of
operations none of whose cores would be awake. -/
def mustWake (s : State) (c : Constellation) : List TileId :=
  let slicesOf (o : Op) : List Slice := c.slices.filter (fun x => x.opidx == o.opidx)
  let fixed := (c.ops.filter (fun o => !splittable o (slicesOf o))).flatMap slicesOf
  let W0 := allTiles.filter (fun t => !tileAwake s t && fixed.any (fun x => x.tile == t.val))
  let up (t : TileId) : Bool := tileAwake s t || W0.contains t
  let lost := (c.ops.filter (fun o => splittable o (slicesOf o) && (awakeShares (slicesOf o) up).isEmpty)).flatMap slicesOf
  W0 ++ allTiles.filter (fun t => !up t && lost.any (fun x => x.tile == t.val))

/-- The current shares of a step (R319): the planned ones for a contract step or with every tile of an operation awake, else
re-split. -/
def currentShares (s : State) (c : Constellation) (contract : Bool) : List Slice :=
  let wake := mustWake s c
  let up (t : TileId) : Bool := contract || tileAwake s t || wake.contains t
  c.ops.flatMap (fun o =>
    let sls := c.slices.filter (fun x => x.opidx == o.opidx)
    if sls.all (fun x => allTiles.any (fun t => t.val == x.tile && up t)) then sls else reSplit sls up)

/-- A released step needs a tile awake: it holds a share there, or a contract step runs a core of it (R319, R410). -/
def stepNeeds (c : Constellation) (r : StepRun) (t : TileId) : Bool :=
  r.shares.any (fun x => x.tile == t.val) ||
  (r.step.contract.isSome && (allCores t).any (fun k => takesPart c k r.step.entry))

/-- Contract steps with a tick that has come, the earliest deadline first, ties to the lower CONTRACT (R471). -/
def readyContract (s : State) (q : Partition) : Option Step :=
  (sortBy (fun x => ((stepDeadline q x).getD 0) * 2 ^ 16 + x.contract.getD 0)
    (q.queue.filter (fun x => x.contract.isSome && (match x.tick with | some t => t.ule s.now | none => false)))).head?

/-- R473: a best-effort step ends before the next release tick of every open stream of its partition, at the present voltage of the
tiles that run it. -/
def endsInTime (s : State) (p : PartId) (x : Step) : Bool :=
  match s.parts[p].const with
  | none => true
  | some c =>
    let rate := ((entryTiles c x.entry).filter (tileAwake s)).foldl (fun r t =>
      min r (tableRate (s.tiles[t].pwr.s105) s.tiles[t].pwr.vset.toNat)) (2 ^ 16)
    (s.parts[p].streams).all (fun y => decide (s.now.toNat + entryNs c x.entry 7 rate 1030000 < y.next))

/-- The partition can be released a step (R316, R436, R258, R396): nothing runs, nothing waits for repair, no pass is down. -/
def mayRelease (s : State) (p : PartId) : Bool :=
  powered s && s.boot.ready && !s.test.test && !s.hub.passDown && s.parts[p].run.isNone && s.parts[p].damaged.isEmpty && s.parts[p].const.isSome &&
  (partTiles s p).all (fun t => s.tiles[t].cores.toList.all (fun c => c.reload.isNone))

/-- Hand a step over to its partition (order 3 of R316): STEPNO, shares; with no core taking part it completes at once. -/
def release (s : State) (p : PartId) (c : Constellation) (x : Step) : State :=
  let q := s.parts[p]
  let r : StepRun :=
    { step := x, stepno := q.nextStepno, seed := 0, aStep := 0, shares := currentShares s c x.contract.isSome, released := s.now,
      opened := false, rerun := false, rerunPending := false, detections := 0, fault := none, recs := [], outputs := [] }
  let s := updPart s p (fun q =>
    { q with run := some r, nextStepno := q.nextStepno + 1, queue := q.queue.filter (fun y => y.id != x.id) })
  if (partTiles s p).any (fun t => (allCores t).any (fun k => takesPart c k x.entry)) then s
  else finishStep s p (closingCode s p r)

/-- STEP_RELEASE (R316 order 3, R471 to R473): contract steps first, then the best-effort fill. A best-effort release at the tick
of a window start belongs to the window that begins there (R461) and waits for its fill. -/
def execStepRelease (p : PartId) (s : State) : Out :=
  if !mayRelease s p then .next s else
  match s.parts[p].const, readyContract s s.parts[p] with
  | some c, some x => .next (release s p c x)
  | some c, none =>
    let s := if windowOver s then s else extendFill s
    match s.sched.fill.findSome? (fun n => (s.parts[p].queue.find? (fun x => x.id == n.1 && x.contract.isNone)).map (fun x => (x, n.2))) with
    | none => .next s
    | some (x, v) =>
      if withholds s p x || windowOver s then .next s
      else if endsInTime s p x then
        let s := forAll (partTiles s p) (fun s t =>
          if isPinned s t then s else updTile s t (fun y => { y with pwr := { y.pwr with vnext := BitVec.ofNat 10 (max v (floorAt y.pwr)) } })) s
        .next (release s p c x)
      else
        .next (updPart s p (fun q =>
          { q with deferred := if x.held then q.deferred else satAdd q.deferred 1,
                   queue := q.queue.map (fun y => if y.id == x.id then { y with held := true } else y) }))
  | none, _ => .next s

/-- The energy reserved for a tick that passes unused is slack: it is free again in the window in progress (R471, R472). -/
def freeTick (s : State) (p : PartId) (d : Contract) : State :=
  match s.parts[p].const with
  | none => s
  | some c =>
    let e := (contractEnergy c d s.parts[p].vadm.toNat).floor
    updSched s (fun x => { x with room := x.room + e, slewRoom := x.slewRoom.map (fun z => z + e) })

/-- RELEASE_TICK (R471): the tick is taken by the earliest waiting enqueue that arrived by it, or passes unused. -/
def execReleaseTick (p : PartId) (contract : BitVec 16) (s : State) : Out :=
  let q := s.parts[p]
  match (openStreams q).find? (fun x => x.1.contract == contract.toNat) with
  | none => .next s
  | some (st, d) =>
    if !powered s || s.now.toNat < st.next then .next s else
    let takes (x : Step) : Bool := x.contract == some contract.toNat && x.tick.isNone && decide (x.arrival.toNat ≤ st.next)
    let taken := q.queue.find? takes
    let queue := match taken with
      | none => q.queue
      | some x => q.queue.map (fun y => if y.id == x.id then { y with tick := some (BitVec.ofNat 64 st.next) } else y)
    let unused := taken.isNone && decide (s.sched.start.toNat ≤ st.next) && decide (st.next < s.sched.nextStart.toNat)
    .next (updPart (if unused then freeTick s p d else s) p (fun q =>
      { q with queue := queue,
               streams := q.streams.map (fun y => if y.contract == contract.toNat then { y with next := y.next + d.period } else y) }))

/-! ## Opening and closing meridians (R296, R316, R364) -/

/-- A core that takes part starts its program at instruction 0. A re-run starts the cores of the first attempt again, and keeps the
row masks that they formed (R24, R255, R256). -/
def openCore (again : Bool) (c : Constellation) (r : StepRun) (k : CoreId) (x : Core) : Core :=
  match frameOf c k with
  | none => x
  | some f =>
    if takesPart c k r.step.entry && (x.taking || !again) then
      { x with tickets := 0, masks := if again then x.masks else [], sregs := openingRegs f r,
               seq := { x.seq with pc := 0, entry := BitVec.ofNat 4 r.step.entry, state := .issuing, stepno := r.stepno },
               blocked := .none, taking := true, reported := false,
               readTags := x.readTags.filter (fun t => t.toNat / 2 ^ 24 % 2 ^ 24 != r.stepno.toNat % 2 ^ 24) }
    else x

/-- Every core of an awake tile that takes part starts. -/
def openCores (again : Bool) (s : State) (p : PartId) (c : Constellation) (r : StepRun) : State :=
  forAll ((partTiles s p).filter (fun t => tileAwake s t)) (fun s t => updTile s t (fun x =>
    { x with cores := Vector.ofFn (fun (i : Fin 64) => openCore again c r ⟨t, i⟩ x.cores[i]) })) s

/-- Change every object of a partition. -/
def mapObjects (s : State) (p : PartId) (f : SyncObj → SyncObj) : State :=
  let g (x : SyncObj) : SyncObj := if x.owner.toNat = p.val then f x else x
  let s := updHub s (fun h => { h with objs := h.objs.map g })
  forAll (partTiles s p) (fun s t => updTile s t (fun x => { x with objs := x.objs.map g })) s

/-- An object at an opening meridian (R364). -/
def openObject (x : SyncObj) : SyncObj :=
  match x.mode with
  | .idle => x
  | .step => { x with count := x.init, snap := x.init }
  | _ => { x with snap := x.count }

/-- S of a partition (R383). -/
def partSeed (pseed : Word64) (p : PartId) : Word64 :=
  BitVec.ofNat 64 (leNat ((List.range 8).map (Config.shake256Raw (natLe 8 pseed.toNat ++ [BitVec.ofNat 8 p.val]))))

/-- OPENING_MERIDIAN (R296, R316 order 4): once the tiles the step needs are awake, pending settings take effect, objects are
snapped or reset, and each core that takes part starts. -/
def execOpeningMeridian (p : PartId) (s : State) : Out :=
  match s.parts[p].run, s.parts[p].const with
  | some r, some c =>
    if r.opened || !powered s || (partTiles s p).any (fun t => stepNeeds c r t && !tileAwake s t) then .next s else
    let s := applyMeridian s p
    let q := s.parts[p]
    let seed := partSeed q.pseed p
    let r := { r with opened := true, seed := seed, aStep := if q.adaptive then q.aStep else 0 }
    let r := { r with recs := c.ops.map (freshRecord r) }
    let s := updPart s p (fun q => { q with seed := seed, run := some r })
    .next (openCores false (mapObjects s p openObject) p c r)
  | _, _ => .next s

/-- Cores of a partition that take part in the open step. -/
def takingCores (s : State) (p : PartId) : List CoreId :=
  (partTiles s p).flatMap (fun t => (allCores t).filter (fun k => (getCore s k).taking))

/-- A landed partial-total record that no drain has combined (R120): a row function's record has its own operation's tag. -/
def staleRecord (s : State) (k : CoreId) : Option Record :=
  (getCore s k).records.find? (fun r => r.landed && !r.isNull &&
    (match coreOp s k (tagOp r.tag) with | some o => o.engine != 2 | none => true))

/-- The cores of a partition. -/
def partCores (s : State) (p : PartId) : List CoreId := (partTiles s p).flatMap allCores

/-- CLOSING_MERIDIAN (R316 order 7): with the last report in, a landed record left over faults the step (R120); else the
step completes. -/
def execClosingMeridian (p : PartId) (s : State) : Out :=
  match s.parts[p].run with
  | none => .next s
  | some r =>
    if !r.opened || r.fault.isSome || r.rerunPending || !powered s || (takingCores s p).any (fun k => !(getCore s k).reported) then .next s else
    match (partCores s p).find? (fun k => (staleRecord s k).isSome) with
    | some k => .next (drnFault s k 3 stStepFault (match staleRecord s k with | some x => tagOp x.tag | none => 0) (getCore s k).seq.pc)
    | none => .next (finishStep s p (closingCode s p r))

/-! ## Faults, watchdog, parity (R255 to R258, R323, R324) -/

/-- The core once its step is stopped (orders 1 to 3 of R255): engines and queues are empty, sets have VALID = 0, records and
blocked accesses are gone. hc spent blocked (R264, R328) or frozen (R101, R165) until then are free values (log entry 10). The array group has no instruction at cell (0, 0) any
more (R98); that it then stands in idle hold, unless it was asleep, is the model's choice (DESIGN CHOICE, log entry 83). -/
def stopCore (free : Nat) (c : Core) : Core :=
  let clear (a : AccSet) : AccSet := { AccSet.reset with tag := clearValid a.tag }
  let unit (u : MatUnit) : MatUnit :=
    { queue := [], running := none, tail := [], writes := [], setX := clear u.setX, setY := clear u.setY }
  let time (i : Nat) : Nat := (Config.freeValue (free + i)).toNat
  { c with
           pln := if c.tagBlocks.isEmpty then c.pln else { c.pln with blockHc := satAdd c.pln.blockHc (time 0) },
           drLines := [], ag := unit c.ag, sp := unit c.sp, port := [], active := none, records := [], readTags := [], rfuRun := none, copies := 0,
           fines := 0, blocked := .none, tagBlocks := [], reported := false, recSince := none,
           seq := { c.seq with state := if c.seq.state == .faulted then .faulted else .idle,
                               blockHc := if c.blocked == .none || c.blocked == .meridian then c.seq.blockHc else satAdd c.seq.blockHc (time 1) },
           arr := { c.arr with planes := 0, state := if c.arr.state == .asleep then .asleep else .idleHold,
                               freezeHc := if c.arr.state == .frozen then c.arr.freezeHc + BitVec.ofNat 64 (time 2) else c.arr.freezeHc },
           fdr := { c.fdr with amerge := false, wmerge := false },
           spx := { c.spx with state := .idle,
                               stallHc := if c.spx.state == .frozen then satAdd c.spx.stallHc (time 3) else c.spx.stallHc }, rfu := { c.rfu with state := .idle },
           drn := { c.drn with inflightX := 0, inflightY := 0 } }

/-- Credits that a source node holds of a window at commit (R376). -/
def windowCredits (w : Window) (node : Nat) : Nat :=
  let wc := min (w.len / 64) 128
  let srcs := (List.range 13).filter (fun n => w.sources.getLsbD n)
  let n := srcs.length
  if w.sources.getLsbD node then wc / n + (if ((srcs.findIdx? (fun x => x == node)).getD 0) < wc % n then 1 else 0) else 0

/-- The windows of a constellation as a source router holds them, with all their credits (R293 order 6). -/
def freshCredits (c : Constellation) (node : Nat) : List Credit :=
  (c.windows.filter (fun w => w.sources.getLsbD node)).map (fun w => { window := w, credits := windowCredits w node })

/-- An engine without the descriptors of a partition's step; one that faulted is idle again with none left (R354). -/
def stopEngine (p : PartId) (e : CopyEngine) : CopyEngine :=
  let mine (j : CopyJob) : Bool := j.issuer.isSome && j.part == p.val
  let run := e.running.map (fun r => match r with | some x => if mine x.job then none else some x | none => none)
  { e with queue := e.queue.filter (fun j => !mine j), running := run,
           state := match oldestDesc { e with running := run } with | some r => r.why | none => .idle }

/-- The combine windows and those of row-function records are cleared (order 3 of R255). -/
def clearWindows (s : State) (p : PartId) : State :=
  ((partWindows s p).filter (fun w => w.kind != 1)).foldl (fun s w =>
    match placeOf w.base with
    | some (.plain k o) => updCore s k (fun c => { c with plain := memClear c.plain o w.len })
    | _ => s) s

/-- Stop a partition's step (orders 1 to 4 of R255, R324, R375): every core, engine and flit of it, objects back to SNAP, the windows
of its records cleared. -/
def stopStep (s : State) (p : PartId) : State :=
  let s := (hubEngines ++ (partTiles s p).flatMap tileEngines).foldl accrue s
  let free := s.freeNext
  let s := updHub { s with freeNext := s.freeNext + 3072 } (fun h =>
    { h with engines := h.engines.map (stopEngine p),
             waiters := h.waiters.filter (fun w => !((h.objs[w.obj]?).any (fun x => x.owner.toNat == p.val))) })
  let s := forAll (partTiles s p) (fun s t => updTile s t (fun x =>
    { x with cores := Vector.ofFn (fun (i : Fin 64) => stopCore (free + 4 * (64 * t.val + i.val)) x.cores[i]), engines := x.engines.map (stopEngine p), outbox := [], waiters := [],
             fine := { x.fine with queue := [], running := none, state := .idle },
             credits := match s.parts[p].const with | some c => freshCredits c (t.val + 1) | none => [] })) s
  let s := mapObjects s p (fun x => { x with count := x.snap, localWaiters := 0, remote := .replicate 8 0 })
  clearWindows { s with fabric := s.fabric.filter (fun f => f.part.toNat != p.val), adds := s.adds.filter (fun a => a.part != p.val) } p

/-- SEQ_PFAULT of a fault (R331). -/
def pfaultWord (f : StepFault) : Word64 :=
  BitVec.ofNat 64 (f.code.toNat * 2 ^ 48 + f.opidx.toNat * 2 ^ 32 + f.pc.toNat * 2 ^ 16 + f.core.core.val * 2 ^ 8 + f.core.tile.val)

/-- The plain of a core of a faulted step: RESIDENT banks are unchanged, the rest of it is undefined (R324): free values from the
n-th on. -/
def undefinedPlain (n : Nat) (c : Core) : Core :=
  { c with plain := (List.range 8).flatMap (fun b =>
      if c.pln.resident.getLsbD b then c.plain.filter (fun x => decide (x.1 / 0x80000 = b))
      else (freeMem (n + b * 0x80000) 0x80000).map (fun x => (x.1 + b * 0x80000, x.2))) }

/-- The plains of the cores that a step ran on. -/
def undefinedPlains (s : State) (p : PartId) : State :=
  let n := s.freeNext
  forAll (partTiles s p) (fun s t => updTile s t (fun x => { x with cores := Vector.ofFn (fun (i : Fin 64) =>
    if x.cores[i].taking then undefinedPlain (n + (64 * t.val + i.val) * plainSize) x.cores[i] else x.cores[i]) }))
    { s with freeNext := n + 768 * plainSize }

/-- What a step had begun to write into tiers and the host buffer is undefined (R324); plains are dealt with by core. -/
def undefinedOutputs (s : State) (p : PartId) (xs : List (Nat × Nat)) : State :=
  xs.foldl (fun s x => match placeOf x.1 with
    | some (.plain _ _) => s
    | some pl => { putBytes s p pl (freeBytes s.freeNext x.2) with freeNext := s.freeNext + x.2 }
    | none => s) s

/-- STEP_FAULT_ABORT (R324): the first fault stops the step, which completes with its code; SEQ_PFAULT records it. What the step's
plain regions outside RESIDENT banks and its outputs then hold is undefined: every byte of the plains of its cores, and of the
ranges that its descriptors had begun to write, is a free value of its own (log entry 5). -/
def execStepFaultAbort (p : PartId) (s : State) : Out :=
  match s.parts[p].run with
  | none => .next s
  | some r =>
    match r.fault with
    | none => .next s
    | some f =>
      if !powered s then .next s else
      let s := undefinedOutputs (undefinedPlains (stopStep s p) p) p r.outputs
      .next (finishStep (updPart s p (fun q => { q with pfault := pfaultWord f })) p f.code)

/-- WATCHDOG (R323): a step still open 1 s after its release faults on every core that has not reported. -/
def execWatchdog (p : PartId) (s : State) : Out :=
  match s.parts[p].run with
  | none => .next s
  | some r =>
    if s.now.toNat < r.released.toNat + 1000000000 ∨ r.fault.isSome ∨ !powered s then .next s else
    match (takingCores s p).filter (fun k => !(getCore s k).reported), partTiles s p with
    | [], t :: _ => .next (seqFault s ⟨t, 0⟩ 6 stStepFault 0 (getCore s ⟨t, 0⟩).seq.pc)
    | ks, _ => .next (ks.foldl (fun s k => seqFault s k 6 stStepFault 0 (getCore s k).seq.pc) s)

/-- The bank of a 64-bit word of a plain. -/
def wordBank (word : BitVec 19) : Fin 8 := ⟨word.toNat / 2 ^ 16, by omega⟩

/-- PARITY_RERUN (R255, R258, R266, R324): a detection in a plain of a core of an open step. The first stops the step for a
re-run; a second faults it, and a RESIDENT bank it lies in waits for its reload; after a fault, and outside a step, it is only
recorded. The parity bit that a write stores is a function of the word, so State holds none: the command names the word that a
port has read with a flipped bit (R253). -/
def execParityRerun (k : CoreId) (port : Port) (word : BitVec 19) (s : State) : Out :=
  if !powered s then .next s else
  let note (again : Nat) (s : State) : State := updCore s k (fun c => { c with pln :=
    { c.pln with detects := satAdd c.pln.detects 1, parWord := word, parPort := BitVec.ofNat 3 (portId port),
                 reruns := satAdd c.pln.reruns again } })
  match coreRun s k with
  | none => .next (note 0 s)
  | some (p, r) =>
    if !r.opened then .next (note 0 s) else
    let first := r.fault.isNone && r.detections == 0
    let s := note (if first then 1 else 0) s
    if r.fault.isSome then .next s
    else if first then
      .next (stopStep (updPart s p (fun q => { q with run := q.run.map (fun r => { r with rerun := true, rerunPending := true, detections := 1 }) })) p)
    else
      let s := updPart s p (fun q => { q with run := q.run.map (fun r => { r with rerunPending := false, detections := r.detections + 1 }) })
      let s := updCore s k (fun c => if c.pln.resident.getLsbD (wordBank word).val then { c with reload := some word } else c)
      .next (plnFault s k 1 stStepFault 0 (getCore s k).seq.pc)

/-- RERUN_RESTART (R255 order 5, R256, R297): every core restarts its program from the values of R296, under the same STEPNO,
seed and adaptive step; records start anew. -/
def execRerunRestart (p : PartId) (s : State) : Out :=
  match s.parts[p].run, s.parts[p].const with
  | some r, some c =>
    if !r.rerunPending || !powered s then .next s else
    let r := { r with rerunPending := false, recs := c.ops.map (freshRecord r) }
    .next (openCores true (updPart s p (fun q => { q with run := some r })) p c r)
  | _, _ => .next s

end Sys2Proof.Machine
end

