-- ==== Sys2Proof/Machine/Record.lean ====
section
/-! DEFINITION. The retained-state record (R572 to R574): its newest generation, a write of the next one. -/

namespace Sys2Proof.Machine

/-- The newest valid generation of the record. -/
def theRecord (s : State) : Retained :=
  if s.boot.copyIsB then (match s.boot.copyB with | some r => r | none => .reset)
  else (match s.boot.copyA with | some r => r | none => .reset)

/-- Write a change as generation g + 1 into the other copy and read it back (R574). A write that fails leaves the copy it
wrote invalid, the setting unchanged and BOOT_RECORD.WRITE_FAIL set. -/
def writeRecord (s : State) (f : Retained → Retained) : Bool × State :=
  let b := s.boot
  let r := { f (theRecord s) with generation := b.generation + 1 }
  if b.writable then
    (true, updBoot s (fun b =>
      { b with copyA := if b.copyIsB then some r else b.copyA, copyB := if b.copyIsB then b.copyB else some r,
               copyIsB := !b.copyIsB, generation := b.generation + 1 }))
  else
    (false, updBoot s (fun b =>
      { b with copyA := if b.copyIsB then none else b.copyA, copyB := if b.copyIsB then b.copyB else none, writeFail := true }))

/-- ST_RECORD_WRITE_FAIL (R574). -/
def stRecordWriteFail : BitVec 16 := 0x020D

/-- Orders 1 to 10 of R568 have completed: the layout is restored. A retraining that fails at the end of test state (R588) stops a module
whose start-up had completed. -/
def settled (s : State) : Bool := s.boot.started && (!s.boot.stopped || s.test.test)

/-- Confidential mode (R536): in force until the layout has been restored at start (order 10 of R568), then while any defined
partition is confidential. -/
def confidentialMode (s : State) : Bool :=
  !settled s || allParts.any (fun p => s.parts[p].layout.defined && s.parts[p].layout.confidential)

end Sys2Proof.Machine
end

