-- ==== Sys2Proof/Machine/Power.lean ====
section
/-! DEFINITION. Budget windows, voltages, heat, Valley and the supply (R408 to R410, R454 to R486, R605). -/

namespace Sys2Proof.Machine

/-! ## Meters and the mirror (R460, R474, R484 to R486) -/

/-- A meter reading in µJ with its user gain in units of 0.01 % (R460). -/
def gained (raw : BitVec 32) (gain : BitVec 16) : Nat := ((raw.toNat : Int) * (10000 + gain.toInt) / 10000).toNat

/-- Round a power in mW to the nearest multiple of 5 W, ties up (R486). -/
def coarse (mw : Nat) : Nat := (mw + 2500) / 5000 * 5000

/-- A later second of the timebase begins with the junction as it stands: the highest reading of the one before is kept (R486). -/
def rollTop (x : SecStat) (sec : Nat) (tj : Int) : SecStat :=
  if x.sec < sec then { x with lastTop := x.top, top := tj, sec := sec } else x

/-- A reading belongs to the second that its tick lies in (R8, R486). -/
def noteReading (x : SecStat) (sec : Nat) (v : Int) : SecStat :=
  let y := rollTop x sec v
  { y with top := max y.top v }

/-- Energy of a window joins the second of the timebase in which the window began (log entry 56); a second that is over gives its mean and
its highest reading. -/
def rollSecond (x : SecStat) (uj : Nat) (tj : Int) (sec : Nat) (isOver : Bool) : SecStat :=
  let y := { rollTop x sec tj with uj := x.uj + uj }
  if isOver then { y with uj := 0, mean := y.uj / 1000 } else y

/-- The partition number of a tile, or 0xFF. -/
def tilePartNo (s : State) (t : TileId) : Nat := match tilePart s t with | some p => p.val | none => 0xFF

/-- A confidential partition exists (R486). -/
def anyConfidential (s : State) : Bool := allParts.any (fun p => s.parts[p].layout.defined && s.parts[p].layout.confidential)

/-- The tile belongs to a confidential partition. -/
def tileHidden (s : State) (t : TileId) : Bool := match tilePart s t with | some p => s.parts[p].layout.confidential | none => false

/-- Mean power in mW over the last completed second: of a tile, or at 12 of the module. -/
def secMean (x : Sched) (i : Nat) : Nat := ((x.secs.toList[i]?).map (fun y => y.mean)).getD 0

/-- TJ of a tile of a confidential partition: the highest reading of the last completed second in whole °C (R486). -/
def hiddenTj (s : State) (t : TileId) : Int := (s.sched.secs[t.val]).lastTop / 16 * 16

/-- The mirror record as it stands, coarse: what R486 hides of the last completed window is hidden at once. -/
def coarsenMirror (s : State) : State :=
  if !anyConfidential s then s else
  let x := s.sched
  let m := x.mirror
  let tile (t : TileId) : List Byte :=
    let old := sliceAt m (64 + 16 * t.val) 16
    natLe 4 (coarse (secMean x t.val)) ++
    (if tileHidden s t then natLe 2 (hiddenTj s t % 2 ^ 16).toNat ++ List.replicate 4 0 ++ sliceAt old 10 2 ++ List.replicate 4 0 else sliceAt old 4 12)
  let part (p : PartId) : List Byte :=
    natLe 8 (coarse ((partTiles s p).foldl (fun a t => a + secMean x t.val) 0) * (fieldAt m 24 4 / 1000)) ++ sliceAt m (264 + 16 * p.val) 8
  updSched s (fun y => { y with
    gen := y.gen + 2,
    mirror := natLe 8 (x.gen.toNat + 2) ++ sliceAt m 8 23 ++ natLe 1 (fieldAt m 31 1 / 2 * 2 + 1) ++ natLe 4 (coarse (secMean x 12)) ++
      sliceAt m 36 28 ++ allTiles.flatMap tile ++ allParts.flatMap part ++ sliceAt m 448 64 })

/-- A tile's entry of the mirror (R485, R486). In Valley the rate and the replays keep their last values (R23). -/
def mirrorTile (s : State) (m : MeterInput) (isCoarse : Bool) (powers : List Nat) (t : TileId) : List Byte :=
  let x := s.tiles[t]
  let hidden := isCoarse && tileHidden s t
  let old := sliceAt s.sched.mirror (64 + 16 * t.val) 16
  let tj : Int := if hidden then hiddenTj s t else x.pwr.tj.toInt
  let valley := !tileAwake s t
  let rate : List Byte := if hidden then natLe 2 0 else if valley then sliceAt old 8 2 else natLe 2 (m.rate[t]).toNat
  let replay : List Byte := if hidden then natLe 4 0 else if valley then sliceAt old 12 4 else natLe 4 (m.replayPpm[t]).toNat
  natLe 4 ((powers[t.val]?).getD 0) ++ natLe 2 (tj % 2 ^ 16).toNat ++ natLe 2 (if hidden then 0 else x.pwr.vset.toNat) ++ rate ++
  [BitVec.ofNat 8 x.pas.valley.toNat, BitVec.ofNat 8 (tilePartNo s t)] ++ replay

/-- The mirror record of the window that closes (R485). -/
def mirrorRecord (s : State) (m : MeterInput) (uj : List Nat) (modUj : Nat) : List Byte :=
  let x := s.sched
  let isCoarse := anyConfidential s
  let mean := secMean x
  let powers := (List.range 12).map (fun i => if isCoarse then coarse (mean i) else ((uj[i]?).getD 0) / x.lenMs)
  let flags := (if isCoarse then 1 else 0) + (if x.overhang then 2 else 0) + (if x.thermLimit then 4 else 0) + (if x.thermWarn then 8 else 0)
  let partEnergy (p : PartId) : Nat :=
    let ts := partTiles s p
    if isCoarse then coarse (ts.foldl (fun a t => a + mean t.val) 0) * x.lenMs
    else ts.foldl (fun a t => a + (uj[t.val]?).getD 0) 0
  natLe 8 (x.gen.toNat + 2) ++ natLe 8 x.window ++ natLe 8 x.start.toNat ++ natLe 4 (x.lenMs * 1000) ++ natLe 2 (5 * x.budget5.toNat) ++
  [BitVec.ofNat 8 x.acoustic.toNat, BitVec.ofNat 8 flags] ++
  natLe 4 (if isCoarse then coarse (mean 12) else modUj / x.lenMs) ++ natLe 2 s.hub.tj.toNat ++ List.replicate 26 0 ++
  allTiles.flatMap (fun t => mirrorTile s m isCoarse powers t) ++
  allParts.flatMap (fun p => natLe 8 (partEnergy p) ++ natLe 4 s.parts[p].stepsDone.toNat ++ natLe 2 s.parts[p].missesDone.toNat ++ natLe 2 0) ++
  List.replicate 64 0

/-- A window closes (orders 1, 3 and 8 of R470): meters are latched, the carry is formed, the mirror is written. -/
def closeWindow (s : State) (m : MeterInput) : State :=
  let x := s.sched
  let comp (t : TileId) : Nat := gained m.compute[t] s.tiles[t].pwr.gain
  let base (t : TileId) : Nat := gained m.base[t] s.tiles[t].pwr.gain
  let uj := allTiles.map (fun t => comp t + base t)
  let modUj := gained m.module s.hub.mgain
  let limit := bEff x * x.lenMs * 1000
  let sec := x.nextStart.toNat / 1000000000
  let isOver := decide (x.start.toNat / 1000000000 < sec)
  let secs := Vector.ofFn (fun (i : Fin 13) =>
    if h : i.val < 12 then rollSecond x.secs[i] (comp ⟨i.val, h⟩ + base ⟨i.val, h⟩) s.tiles[i.val].pwr.tj.toInt sec isOver
    else rollSecond x.secs[i] modUj s.hub.tj.toInt sec isOver)
  let s := updSched s (fun y => { y with secs := secs })
  let rec' := mirrorRecord s m uj modUj
  let s := forAll allTiles (fun s t => updTile s t (fun y =>
    { y with pwr := { y.pwr with ecore := y.pwr.ecore + BitVec.ofNat 64 (comp t), ebase := y.pwr.ebase + BitVec.ofNat 64 (base t) } })) s
  let s := forAll allParts (fun s p => updPart s p (fun q =>
    { q with stepsDone := q.stepsNext, missesDone := q.missesNext, stepsNext := 0, missesNext := 0 })) s
  updSched s (fun y =>
    { y with emod := y.emod + BitVec.ofNat 64 modUj, lastModUj := modUj, carry := min (modUj - limit) limit,
             mirror := rec', gen := y.gen + 2 })

/-! ## Heat (R481) and voltages (R476) -/

/-- 10 mV steps by which the best-effort voltage of a tile can go down. -/
def bestSteps (s : State) (t : TileId) : Nat := (vCeil (bEff s.sched) - floorAt s.tiles[t].pwr) / 10

/-- Actions R481 can take on a tile: cuts of the best-effort voltage, withholding, cuts below V_adm. -/
def maxActions (s : State) (t : TileId) : Nat :=
  let fl := floorAt s.tiles[t].pwr
  bestSteps s t + 1 + (if isPinned s t then (s.tiles[t].pwr.vset.toNat - fl) / 10 else 0)

/-- Energy of the compute die of a tile in a step of a contract at a voltage in pJ: what the walk finds for its cores, without the banks
and what lies behind them (R465, R467). -/
def dieEnergy (c : Constellation) (x : Contract) (t : TileId) (mv : Nat) : Rat :=
  match walkContract c x with
  | none => 0
  | some ws => (ws.filter (fun w => w.1.tile == t)).foldl (fun e w => w.2.foldl (fun e i => e + workPj { i.work with fixed := (0 : Rat) } mv) e) 0

/-- P_forecast of a tile's compute die in mW after n actions (R470 order 4, R481): its leakage while awake and the work of the release
ticks of the open streams in the window at the tile's voltage less the third kind of action, and a best-effort part, 0 once such
steps are withheld, that is left free (log entry 7): order 5 comes before the fill is decided. -/
def forecastMw (s : State) (t : TileId) (n : Nat) : Rat :=
  let w := s.tiles[t].pwr
  let nb := bestSteps s t
  let v := max (floorAt w) (w.vset.toNat - 10 * (n - nb - 1))
  let own : Rat := match tilePart s t with
    | none => 0
    | some p => match s.parts[p].const with
      | none => 0
      | some c => (openStreams s.parts[p]).foldl (fun e x =>
          e + (ticksIn x.1 x.2.period s.sched.start.toNat s.sched.nextStart.toNat : Rat) * dieEnergy c x.2 t v) 0
  (if tileAwake s t then leak105 v else 0) + own / (s.sched.lenMs * 1000000 : Nat) +
    (if n ≤ nb then (Config.forecastPower t.val s.sched.window n : Rat) else 0)

/-- Tj_pred of a die, in 1/16 °C (R481): θ in 1/1,024 °C per W over the power difference in mW. -/
def thetaRise (tj : Int) (theta : Nat) (diffMw : Rat) : Int := tj + ((theta : Rat) * diffMw / 64000).floor

/-- Tj_pred of a tile after n actions (R481). -/
def predicted (s : State) (t : TileId) (lastMw : Int) (n : Nat) : Int :=
  let w := s.tiles[t].pwr
  thetaRise w.tj.toInt w.theta.toNat (forecastMw s t n - lastMw)

/-- Tj_pred of the hub (R481). Its forecast power is left free, and none of the three actions is one on the hub (DEDUCED, log entry
58). -/
def predictHub (s : State) (lastMw : Int) : State :=
  let p := thetaRise s.hub.tj.toInt s.fuses.hubTheta.toNat ((Config.forecastPower 12 s.sched.window 0 : Rat) - lastMw)
  updHub s (fun h => { h with tjPred := BitVec.ofInt 16 p })

/-- The thermal action on one tile (R481): the fewest actions that bring the prediction to 105 °C. -/
def thermalTile (s : State) (t : TileId) (lastMw : Int) : State :=
  let top := maxActions s t
  let n := ((List.range (top + 1)).find? (fun n => decide (predicted s t lastMw n ≤ 1680))).getD top
  let nb := bestSteps s t
  updTile s t (fun x => { x with pwr :=
    { x.pwr with tjPred := BitVec.ofInt 16 (predicted s t lastMw n), lowered := decide (0 < n), cutMv := 10 * min n nb,
                 withheld := decide (nb < n) } })

/-- Cuts of a pinned tile below V_adm in mV that R481 asks for. -/
def pinnedCut (s : State) (t : TileId) (lastMw : Int) : Nat :=
  let top := maxActions s t
  let n := ((List.range (top + 1)).find? (fun n => decide (predicted s t lastMw n ≤ 1680))).getD top
  10 * (n - bestSteps s t - 1)

/-- The voltage of a pinned tile (R476): the lowest from its floor up at which every contract that pins it still meets its
deadline, at the rate for Tj + 10 °C and the larger replay fraction; at most V_adm. -/
def pinnedVolt (s : State) (t : TileId) (ppm : Nat) : Nat :=
  match tilePart s t with
  | none => 500
  | some p => match s.parts[p].const with
    | none => 500
    | some c =>
      let vadm := s.parts[p].vadm.toNat
      let fl := floorAt s.tiles[t].pwr
      let cs := contractsInOrder c
      let mine := cs.filter (fun x => (openStreams s.parts[p]).any (fun y => y.2.id == x.2.id) && (pinnedTiles c x.2).contains t)
      let rate (x : Contract) (v : Nat) : Nat :=
        (pinnedTiles c x).foldl (fun r u => min r (rateAt s.tiles[u].pwr v (s.tiles[u].pwr.tj.toInt + 160))) (2 ^ 16)
      let ok (v : Nat) : Bool := mine.all (fun x =>
        decide (respOver cs (fun d => stepNs c d.1 (max 1 (rate d.2 v)) (1000000 + max 30000 ppm)) x ≤ x.2.deadline))
      (((List.range ((vadm - fl) / 10 + 1)).map (fun i => fl + 10 * i)).find? ok).getD (max vadm fl)

/-- A best-effort step released for the window needs a tile under R319, where an operation with a share on it is not re-split, or a
released step not yet closed does (R479). -/
def windowNeeds (s : State) (t : TileId) : Bool :=
  match tilePart s t with
  | none => false
  | some p => match s.parts[p].const with
    | none => false
    | some c =>
      let keeps (o : Op) : Bool :=
        let sls := c.slices.filter (fun x => x.opidx == o.opidx)
        sls.any (fun x => x.tile == t.val) && !splittable o sls
      (s.parts[p].queue.any (fun x => s.sched.fill.any (fun y => y.1 == x.id)) && c.ops.any keeps) ||
        s.parts[p].run.any (fun r => stepNeeds c r t)

/-- The tiles to park (R475, R479): pinned tiles and PARK_NEVER tiles stay awake, under OVERHANG every other parks. -/
def parks (s : State) (t : TileId) : Bool :=
  match tilePart s t with
  | none => true
  | some p =>
    !isPinned s t && !(match s.parts[p].const with | some c => parkNever c t | none => false) &&
    (s.sched.overhang || !windowNeeds s t)

/-! ## Window start (R470) -/

/-- The best-effort voltage of an awake tile that no stream pins (R472, R476): that of the first step in the fill that runs on it, else
the ceiling. -/
def windowVolt (s : State) (t : TileId) : Nat :=
  match tilePart s t with
  | none => s.sched.bestVolt
  | some p => (s.sched.fill.findSome? (fun y => (s.parts[p].queue.find? (fun x => x.id == y.1 && runsOn s.parts[p] x t)).map (fun _ => y.2))).getD
      s.sched.bestVolt

/-- Orders 2 to 7 of R470: the window that begins at a tick under the pair in force then. `m` gives the last window's
measurements; none for window 0. -/
def beginWindow (s : State) (tick : Word64) (m : Option MeterInput) : State :=
  let prevLen := s.sched.lenMs
  let acted := allTiles.filter (fun t => s.tiles[t].pwr.lowered)
  let s := updSched s (fun x =>
    let pair := (dueAt tick x.pending).getD (x.budget5, x.acoustic)
    let x := { x with budget5 := pair.1, acoustic := pair.2, pending := dueLater tick x.pending }
    let w := (dueAt tick x.windowPending).getD x.windowMs
    { x with windowMs := w, windowPending := dueLater tick x.windowPending, lenMs := w.toNat, start := tick,
             nextStart := tick + BitVec.ofNat 64 (w.toNat * 1000000), fill := [], stopped := false, slewLimited := false,
             bestVolt := vCeil (bEff x) })
  let s := updHub s (fun h => { h with mgain := (dueAt tick h.mgainPending).getD h.mgain, mgainPending := dueLater tick h.mgainPending })
  let s := forAll allTiles (fun s t => updTile s t (fun x =>
    { x with pwr :=
      { x.pwr with gain := (dueAt tick x.pwr.gainPending).getD x.pwr.gain, gainPending := dueLater tick x.pwr.gainPending,
                   leaveRec := decide (x.pwr.context = 3) && !x.pwr.hotWindow && decide (x.pwr.tj.toInt ≤ 1600),
                   hotWindow := decide (1600 < x.pwr.tj.toInt) } })) s
  let s := updReserve s
  let w := s.sched.lenMs
  let allow : Rat := ((bEff s.sched * w * 1000 - s.sched.carry : Nat) : Rat) * 1000000
  let fore := reservedForecast s tick.toNat w
  let isOver := decide (allow < fore) || (s.sched.overhang && decide ((bEff s.sched * 1000 : Nat) < s.sched.reserveMw.toNat))
  let lastMw (t : TileId) : Int := match m with | some i => (gained i.compute[t] s.tiles[t].pwr.gain / prevLen : Nat) | none => 0
  let s := match m with
    | none => s
    | some i =>
      let tiles : Nat := allTiles.foldl (fun a t => a + gained i.compute[t] s.tiles[t].pwr.gain + gained i.base[t] s.tiles[t].pwr.gain) 0
      predictHub (forAll allTiles (fun s t => thermalTile s t (lastMw t)) s) (((s.sched.lastModUj : Int) - tiles) / prevLen)
  let s := updSched s (fun x =>
    { x with overhang := isOver, thermLimit := allTiles.any (fun t => s.tiles[t].pwr.lowered), room := (allow - fore).floor,
             slewRoom := match m, classSlew x.acoustic.toNat with
               | some _, some k => some ((((x.lastModUj : Rat) / prevLen + (k * w : Nat)) * w * 1000000 - fore).floor)
               | _, _ => none })
  let s := forAll allParts (fun s p => updPart s p (fun q =>
    let up := q.deferredNow || (partTiles s p).any (fun t => acted.contains t)
    { q with aPending := if q.adaptive && m.isSome then some (if up then min 3 (q.aStep + 1) else q.aStep - 1) else q.aPending,
             deferredNow := false })) s
  let s := extendFill s
  let s := forAll allTiles (fun s t => updTile s t (fun x =>
    let w := x.pwr
    let ppm := match m with | some i => (i.replayPpm[t]).toNat | none => 0
    let fl := floorAt w
    let v := if isPinned s t then max fl (pinnedVolt s t ppm - pinnedCut s t (lastMw t))
      else if s.sched.overhang then fl else max fl (min (windowVolt s t) (vCeil (bEff s.sched) - w.cutMv))
    { x with pwr := { w with vnext := BitVec.ofNat 10 v, parkChosen := parks s t && !s.test.test },
             pas := { x.pas with hbmSr := x.pas.hbmSr || (x.pas.valley == 2 && !x.mem.accessed) },
             mem := { x.mem with accessed := false, state := if x.pas.hbmSr || (x.pas.valley == 2 && !x.mem.accessed) then 1 else 0 } })) s
  let s := forAll allParts meridianIfIdle s
  forAll (allTiles.filter (fun t => (tilePart s t).isNone)) (fun s t => updTile s t (meridianTile s.test.test)) s

/-- BUDGET_WINDOW_START (R461, R470) at the end of the window in progress. -/
def execBudgetWindowStart (meters : MeterInput) (s : State) : Out :=
  if !powered s || !s.boot.ready || s.now.ult s.sched.nextStart then .next s else
  let s := closeWindow s meters
  .next (beginWindow (updSched s (fun x => { x with window := x.window + 1 })) s.sched.nextStart (some meters))

/-! ## Valley (R245, R408 to R410, R479) -/

/-- Every field of one value in a register of two-bit bank states becomes another. -/
def swapBanks (w : BitVec 16) (a b : Nat) : BitVec 16 :=
  BitVec.ofNat 16 ((List.range 8).foldl (fun r i =>
    let v := w.toNat / 4 ^ i % 4
    r + (if v = a then b else v) * 4 ^ i) 0)

/-- The cores of a tile that enters Valley: sets are lost, ON banks go to RETAIN (R108, R245). R102 counts dusks completed; whether
a group in idle hold completes one when its tile enters Valley the spec does not say: it is asleep afterwards and counts none
(DESIGN CHOICE, log entry 83). -/
def parkCore (c : Core) : Core :=
  let lose (u : MatUnit) : MatUnit := { u with setX := .reset, setY := .reset }
  { c with ag := lose c.ag, sp := lose c.sp, arr := { c.arr with state := .asleep },
           pln := { c.pln with power := swapBanks c.pln.power 1 2 } }

/-- A step that is released and not yet closed needs a tile. -/
def runNeeds (s : State) (t : TileId) : Bool :=
  match tilePart s t with
  | none => false
  | some p => match s.parts[p].const, s.parts[p].run with
    | some c, some r => stepNeeds c r t
    | _, _ => false

/-- VALLEY_ENTRY (R408): at a meridian a chosen tile parks; the fine store is lost (R188). -/
def execValleyEntry (t : TileId) (s : State) : Out :=
  let x := s.tiles[t]
  if powered s && s.boot.ready && x.pas.valley == 0 && x.pwr.parkChosen && !s.test.test && tileAtMeridian s t && !runNeeds s t then
    .next (updTile s t (fun x =>
      { x with cores := x.cores.map parkCore, fine := { x.fine with store := [] }, pas := { x.pas with valley := 2 } }))
  else .next s

/-- The tile leaves Valley: banks return, HBM leaves self-refresh, the regulators ramp to the voltage set (R410). -/
def wakeTile (x : Tile) : Tile :=
  { x with cores := x.cores.map (fun c => { c with pln := { c.pln with power := swapBanks c.pln.power 2 1 } }),
           pas := { x.pas with hbmSr := false }, mem := { x.mem with state := 0 },
           pwr := { x.pwr with vset := x.pwr.vnext, parkChosen := false } }

/-- VALLEY_WAKE (R319, R408, R410 orders 1 to 5, R479), at a meridian: for a released step that needs the tile, or a stream that
pins it. The banks are back and writes that waited for credits of its windows go on (R378); the times of the orders are left
out. -/
def execValleyWake (t : TileId) (s : State) : Out :=
  if powered s && s.boot.ready && s.tiles[t].pas.valley == 2 && tileAtMeridian s t && (runNeeds s t || isPinned s t) then
    .next (pumpAll (forAll allTiles flushOutbox
      (updTile s t (fun x => { wakeTile x with pas := { (wakeTile x).pas with valley := 3, wakeAsked := s.now } }))))
  else .next s

/-- TILE_AWAKE (R410 order 6): the tile reports awake. -/
def execTileAwake (t : TileId) (s : State) : Out :=
  if powered s && s.tiles[t].pas.valley == 3 then
    let took := s.now.toNat - s.tiles[t].pas.wakeAsked.toNat
    let s := updTile s t (fun x =>
      { x with pas := { x.pas with valley := 0, wakes := satAdd x.pas.wakes 1, lastWake := BitVec.ofNat 16 (min took 0xFFFF) } })
    .next (pumpAll (forAll allTiles flushOutbox s))
  else .next s

/-! ## Temperatures, supply (R454, R459, R482, R605) -/

/-- TEMPERATURE_MEASUREMENT (R459, R214, R482, R593): the reading with its user offset; above 105 °C the tile enters RECOVERY at
its next meridian and a characterisation run on it ends, above 110 °C THERM_WARN is set. Die 12 is the hub. -/
def execTemperatureMeasurement (die : Fin 13) (raw : BitVec 16) (s : State) : Out :=
  if !powered s then .next s else
  let warn (v : BitVec 16) (s : State) : State := updSched s (fun x =>
    { x with thermWarn := x.thermWarn || decide (1760 < v.toInt),
             secs := x.secs.set die (noteReading x.secs[die] (s.now.toNat / 1000000000) v.toInt) })
  if h : die.val < 12 then
    let t : TileId := ⟨die.val, h⟩
    let v := raw + s.tiles[t].pwr.toff
    let s := updTile s t (fun x =>
      let hot := decide (1680 < v.toInt) && s.boot.ready
      { x with pwr := { x.pwr with tj := v, hotWindow := x.pwr.hotWindow || decide (1600 < v.toInt),
                                   enterRec := x.pwr.enterRec || hot, leaveRec := x.pwr.leaveRec && decide (v.toInt ≤ 1600) } })
    let s := updTile s t (fun x => { x with pwr := { x.pwr with vnext := BitVec.ofNat 10 (max x.pwr.vnext.toNat (floorAt x.pwr)) } })
    let s := warn v s
    let s := if decide (1680 < v.toInt) && (s.test.speed[t]).result = 1 then
        updTest s (fun x => { x with speed := x.speed.set t { x.speed[t] with result := 5 } })
      else s
    .next (if s.boot.ready && tileAtMeridian s t then updTile s t (meridianTile s.test.test) else s)
  else
    let v := raw + s.hub.htoff
    .next (warn v (updHub s (fun x => { x with tj := v })))

/-- The module without power: what 12 V and the regulators fed is lost; the SPI NOR, the NAND, the fuses and the host's memory
stay (R454, R573, R441). -/
def powerOff (v12 held : Bool) (s : State) : State :=
  { State.reset with
      module := { v12 := v12, regulators := false, heldOff := held },
      fuses := s.fuses,
      boot := { Boot.reset with
        copyA := s.boot.copyA, copyB := s.boot.copyB, staging := s.boot.staging, copyIsB := s.boot.copyIsB, writable := s.boot.writable,
        restoreGen := s.boot.restoreGen, generation := s.boot.generation,
        fw := s.boot.fw.map (fun c => { c with upload := none }), stage := 0, started := false },
      parts := s.parts.map (fun q =>
        { Partition.reset with objects := q.objects.filter (fun o => o.sealed && !q.waitingDeletes.any (fun d => d.2 == o.id)), nextObj := q.nextObj }),
      hub := { Hub.reset with endpoint := false, perst := s.hub.perst, spareBlocks := s.hub.spareBlocks },
      hostMem := s.hostMem, nextId := s.nextId, freeNext := s.freeNext, pending := s.pending }

/-- THERMAL_TRIP (R482): at 115 °C on any sensor the regulators go off until 12 V is removed and applied again; nothing is
recorded. -/
def execThermalTrip (die : Fin 13) (raw : BitVec 16) (s : State) : Out :=
  .next (if powered s && decide (1840 ≤ raw.toInt) && decide (die.val < 13) then powerOff true true s else s)

/-- SENSE_SAMPLE (R605): less than 450 W advertised while the module runs switches it off. -/
def execSenseSample (watts : Nat) (s : State) : Out :=
  .next (if powered s && decide (watts < 450) then powerOff true true s else s)

/-- POWER_APPLY (R605): 450 W or more enables the regulators; less holds the module off. -/
def execPowerApply (watts : Nat) (s : State) : Out :=
  .next (if s.module.v12 then s
    else { s with module := { v12 := true, regulators := decide (450 ≤ watts), heldOff := decide (watts < 450) } })

/-- POWER_REMOVE (R454, R605): every domain is off and the held-off state is gone. -/
def execPowerRemove (s : State) : Out :=
  .next (if s.module.v12 then powerOff false false s else s)

/-! ## Ready, granules, patrol reads (R426, R432, R568) -/

/-- READY (R568 order 11): the endpoint is enabled and order 10 is done; window 0 begins, the management port opens. Residency
resumes in the background (R445). -/
def execReady (s : State) : Out :=
  if !powered s || s.boot.ready || !s.boot.started || s.boot.stopped || s.boot.stage != 0xB || !s.hub.endpoint then .next s else
  let s := updMgmt (updBoot s (fun b => { b with ready := true })) (fun m => { m with portOpen := true })
  let s := forAll allParts (fun s p => updPart s p (fun q =>
    { q with resJobs := if q.layout.defined && q.residency != 0 then [.load q.residency] else [] })) s
  .next (beginWindow (updSched s (fun x => { x with window := 0, carry := 0, lastModUj := 0 })) s.now none)

/-- GRANULE_INIT (R432): the next tier-2 granule is written; accesses that waited for it proceed. -/
def execGranuleInit (s : State) : Out :=
  if powered s && s.boot.ready && decide (s.hub.initGranules.toNat < 744) then
    .next (pumpAll (updHub s (fun h => { h with initGranules := h.initGranules + 1 })))
  else .next s

/-- PATROL_READ (R426, R447): the lines that the daily read of a stack corrected and wrote back, and the blocks in which it found an error
that it could not correct, once for each error; these stay so until they are written (R436). -/
def execPatrolRead (t : TileId) (corrected : BitVec 16) (failed : List (BitVec 56)) (s : State) : Out :=
  if powered s && s.boot.ready then
    let mine := failed.filter (fun a => match placeOf (blockOf a) with | some (.hbm u _) => decide (u = t) | _ => false)
    .next (mine.foldl (fun s a => markBad s a false) (updTile s t (fun x => { x with mem :=
      { x.mem with corrected := satAdd x.mem.corrected corrected.toNat, uncorrected := satAdd x.mem.uncorrected mine.length } })))
  else .next s

end Sys2Proof.Machine
end

