-- ==== Sys2Proof/Machine/Check.lean ====
section
/-! DEFINITION. The checks of a constellation load, stages 1 to 9 of R287, each naming its failing field as R290 lays down. -/

namespace Sys2Proof.Machine

/-- Failures in order: section TYPE, entry index, byte of the field. -/
abbrev Fails := List (Nat × Nat × Nat)

/-- A condition, and the field that fails when it does not hold. -/
def need (ok : Bool) (sec idx byte : Nat) : Fails := if ok then [] else [(sec, idx, byte)]

/-- Bytes that must be zero, from off on. -/
def zeros (e : List Byte) (off n sec idx : Nat) : Fails := need ((sliceAt e off n).all (fun b => b == 0)) sec idx off

def overEntries (es : List (List Byte)) (f : Nat → List Byte → Fails) : Fails := (indexed es).flatMap (fun x => f x.1 x.2)

/-- The part of the image that a check reads: its bytes, what they spell, and its step programs. -/
structure Img where
  raw : List Byte
  c : Constellation
  progs : List RawProg

def readImg (raw : List Byte) : Img := { raw := raw, c := parseImage raw, progs := rawProgs raw }

/-! ## Stage 1 (R269, R270, R273) -/

/-- A directory entry (R273). -/
def checkDir (img : List Byte) (i : Nat) : Fails :=
  let e := dirEntry img i
  let r := secRef img i
  let at' := 128 + 16 * i
  let stride := secStride r.ty
  let clash (f : SecRef → Bool) : Bool := (secRefs img).any (fun q => decide (q.place < i) && f q)
  if r.ty = 0 then need (e.all (fun b => b == 0)) 0 0 at'
  else
    need (decide (r.ty ≤ 13) && !clash (fun q => q.ty == r.ty)) 0 0 at' ++ need (fieldAt e 2 2 == 0) 0 0 (at' + 2) ++
    need (r.off % 64 == 0 && decide (4096 ≤ r.off) &&
      !clash (fun q => decide (q.off < r.off + r.len) && decide (r.off < q.off + q.len))) 0 0 (at' + 4) ++
    need (decide (r.off + r.len ≤ fieldAt img 20 4) && (stride == 0 || r.len == r.count * stride)) 0 0 (at' + 8) ++
    need (r.ty != 13 || r.count == 1) 0 0 (at' + 12)

/-- The first non-zero byte past the header that lies in no section (R269). -/
def strayByte (img : List Byte) : Option Nat :=
  let rs := secRefs img
  ((List.range img.length).zip img).findSome? (fun x =>
    if x.2 ≠ 0 && decide (4096 ≤ x.1) && rs.all (fun r => decide (x.1 < r.off) || decide (r.off + r.len ≤ x.1)) then some x.1 else none)

/-- Stage 1: header and directory. -/
def stage1 (img : List Byte) : Fails :=
  let signed := fieldAt img 18 2 == 1
  need (fieldAt img 0 8 == 0x4C4554534E4F435A) 0 0 0 ++ need (fieldAt img 8 2 == 1) 0 0 8 ++ need (fieldAt img 10 2 == 0) 0 0 10 ++
  need (fieldAt img 12 4 == 0x1204) 0 0 12 ++ need (decide (fieldAt img 16 2 < 4096)) 0 0 16 ++
  need (decide (fieldAt img 18 2 ≤ 1)) 0 0 18 ++
  need (fieldAt img 20 4 % 64 == 0 && decide (4096 ≤ fieldAt img 20 4) && decide (fieldAt img 20 4 ≤ 268435456) &&
    fieldAt img 20 4 == img.length) 0 0 20 ++
  need (decide (1 ≤ fieldAt img 24 4) && decide (fieldAt img 24 4 ≤ 4096)) 0 0 24 ++ zeros img 28 4 0 0 ++
  (if signed then [] else zeros img 64 32 0 0) ++ zeros img 96 32 0 0 ++
  (List.range 16).flatMap (checkDir img) ++
  need (fieldAt img 384 2 == if signed then 3309 else 0) 0 0 384 ++ zeros img 386 126 0 0 ++
  (if signed then [] else zeros img 512 3309 0 0) ++ zeros img 3821 275 0 0 ++
  ([1, 2, 4].flatMap (fun ty => need (findSec img ty).isSome 0 ty 128)) ++
  need (secCount img 4 == fieldAt img 24 4) 0 0 24 ++
  (match strayByte img with | none => [] | some a => [(0, a, 0)])

/-! ## Stage 4 (partition) -/

/-- A node of the partition, or the hub. -/
def nodeOwned (s : State) (p : PartId) (n : Nat) : Bool :=
  n == 0 || (match tileOfNode n with | some t => partHasTile s p t | none => false)

def hubBlockOwned (s : State) (p : PartId) (j : Nat) : Bool := s.parts[p].layout.hubBlocks.getLsbD j

/-- A residency load has no requesting function (R445, R506). An ARRIVAL that names no object is a failure of stage 5 (R283). -/
def stage4 (s : State) (p : PartId) (f : Option FuncId) (i : Img) : Fails :=
  need (match f with | some f => funcPart s f == some p | none => true) 0 0 0 ++
  need (i.c.tileMask.toNat == s.parts[p].layout.tiles.toNat) 0 0 16 ++
  overEntries (secEntries i.raw 3) (fun j e => need (hubBlockOwned s p (fieldAt e 0 4)) 3 j 0) ++
  overEntries (secEntries i.raw 5) (fun j e => need (nodeOwned s p (fieldAt e 24 7 / 2 ^ 48)) 5 j 24) ++
  overEntries (secEntries i.raw 9) (fun j e =>
    let arr := fieldAt e 16 7
    need (nodeOwned s p (fieldAt e 0 7 / 2 ^ 48)) 9 j 0 ++
    need ((List.range 13).all (fun n => !(fieldAt e 12 2).testBit n || nodeOwned s p n)) 9 j 12 ++
    need (nodeOwned s p (arr / 2 ^ 48) && (match objAt (BitVec.ofNat 56 arr) with
      | some o => o.node != 0 || hubBlockOwned s p (o.num / 128)
      | none => true)) 9 j 16)

/-! ## Stage 5: frames and objects (R274 to R276, R363) -/

/-- Instructions of the programs a frame names (R282). -/
def frameInstrs (i : Img) (f : CoreFrame) : Nat :=
  let named := (List.range i.progs.length).filter (fun n => f.entry.any (fun e => e.toNat == n))
  named.foldl (fun a n => a + ((i.progs[n]?).map (fun p => p.ninstr)).getD 0) 0

/-- Slots of a bit field of a frame whose bank is not in USED carry zero: width bits a slot, 512 slots a bank. -/
def unusedClear (used : BitVec 8) (word width : Nat) : Bool :=
  (List.range 8).all (fun b => used.getLsbD b || bitsOf word (b * 512 * width) (512 * width) == 0)

def checkFrame (i : Img) (j : Nat) (e : List Byte) : Fails :=
  let f := parseFrame e
  let bankOk (b : Nat) : Bool := !f.used.getLsbD b || f.cls.toNat / 4 ^ b % 4 != 0
  need (decide (fieldAt e 0 1 ≤ 1)) 1 j 0 ++ need (decide (fieldAt e 1 1 ≤ 1)) 1 j 1 ++ need (f.active || f.used == 0) 1 j 2 ++
  need (f.active || f.resident == 0) 1 j 3 ++
  need ((f.active || f.cls == 0) && (if f.split then (List.range 8).all bankOk else f.cls == 0)) 1 j 4 ++ zeros e 10 6 1 j ++
  ((indexed f.entry).flatMap (fun x =>
    need (x.2 == 0xFFFF || (f.active && decide (x.2.toNat < i.progs.length))) 1 j (16 + 2 * x.1))) ++
  need (decide (frameInstrs i f ≤ 8192)) 1 j 16 ++ zeros e 296 216 1 j ++
  need ((List.range 4096).all (fun t => f.tagMode.toNat / 4 ^ t % 4 != 3) && unusedClear f.used f.tagMode.toNat 2) 1 j 512 ++
  need (unusedClear f.used f.tagInit.toNat 1) 1 j 1536

/-- An object image at a byte of its entry: a listed MODE, reserved bytes zero, an IDLE image all zero. -/
def checkObj (e : List Byte) (sec idx off : Nat) : Fails :=
  let o := sliceAt e off 16
  need (decide (fieldAt o 8 1 ≤ 3) && (fieldAt o 8 1 != 0 || o.all (fun b => b == 0))) sec idx (off + 8) ++
  need (fieldAt o 9 3 == 0) sec idx (off + 9)

def checkTileFrame (i : Img) (j : Nat) (e : List Byte) : Fails :=
  let tiles := (List.range 12).filter (fun n => i.c.tileMask.getLsbD n)
  need (tiles[j]? == some (fieldAt e 0 1)) 2 j 0 ++ need (decide (fieldAt e 1 1 ≤ 1)) 2 j 1 ++ zeros e 2 254 2 j ++
  (List.range 512).flatMap (fun n => checkObj e 2 j (256 + 16 * n))

def checkHubBlock (i : Img) (j : Nat) (e : List Byte) : Fails :=
  need (decide (fieldAt e 0 4 ≤ 15) && !((i.c.hubBlocks.take j).any (fun b => b.block == fieldAt e 0 4))) 3 j 0 ++
  (List.range 128).flatMap (fun n => checkObj e 3 j (4 + 16 * n))

/-! ## Stage 5: operations (R62, R124, R140, R200, R277, R278) -/

/-- OP and the fields of an instruction word (R298). -/
def iOp (w : Word64) : Nat := bitsOf w.toNat 56 8
def iRd (w : Word64) : Nat := bitsOf w.toNat 51 5
def iRa (w : Word64) : Nat := bitsOf w.toNat 46 5
def iRb (w : Word64) : Nat := bitsOf w.toNat 41 5
def iFl (w : Word64) : Nat := bitsOf w.toNat 32 9
def iImm (w : Word64) : Nat := bitsOf w.toNat 0 32

/-- Some program holds an MTILE with ADD on an operation. -/
def carriesAdd (i : Img) (opidx : Nat) : Bool :=
  i.progs.any (fun p => p.words.any (fun w => iOp w == 0x20 && (iFl w).testBit 0 && iImm w == opidx))

/-- R60 and R61 on an operation of the array group or the sparse engine. -/
def checkMatWords (o : Op) (j : Nat) : Fails :=
  let f := o.format.toNat
  need (bitsOf f 21 3 == 0 && bitsOf f 7 1 == 0 && decide (bitsOf f 0 4 ≤ 7) && decide (bitsOf f 5 2 ≤ 2) && decide (bitsOf f 11 2 ≤ 2) &&
    decide (bitsOf f 13 3 ≤ 5) && !(opStoch o && decide (4 ≤ bitsOf f 13 3)) && !(o.engine == 1 && opWzp o)) 4 j 4 ++
  need (bitsOf o.numeric.toNat 56 8 == 0 && decide (1 ≤ opNadd o) && decide (opWeLo o ≤ opWeHi o) && decide (opAeLo o ≤ opAeHi o)) 4 j 8

/-- A drain word by itself (R124). With FUSE 0b00 any FFMT passes: R123 ignores the field then, and R124 asks for listed values (DESIGN
CHOICE, log entry 83). -/
def drainWordOk (w : Word32) : Bool :=
  let n := w.toNat
  bitsOf n 28 4 == 0 && bitsOf n 2 1 == 0 && decide (bitsOf n 26 2 ≤ 1) && decide (bitsOf n 3 2 ≤ 2) && decide (dwCmode w ≤ 2) &&
  (bitsOf n 3 2 == 0 || decide (1 ≤ dwFfmt w) && decide (dwFfmt w ≤ 4)) &&
  !(dwCmode w == 1 && (dwFuse w != 0 || dwTopk w || dwWelem w)) && !(dwCmode w == 0 && !dwWelem w && !dwTopk w) &&
  !(dwCmode w == 2 && (!dwTopk w || dwFuse w != 0))

/-- The approximation word (R200). -/
def approxOk (i : Img) (o : Op) (opidx : Nat) : Bool :=
  let n := o.approx.toNat
  let tauZero := opTauM o == 0 && bitsOf n 8 8 == 0 && opAmax o == 0
  bitsOf n 20 2 == 0 && bitsOf n 0 8 == 0 && opSkip o != 3 && opCheckP o != 1 && decide (opCheckP o ≤ 9) &&
  (if opSkip o = 0 then tauZero else opTauM o != 0) && (opSkip o != 1 || opAmax o == 0) &&
  (o.engine == 0 || (opSkip o == 0 && opPpol o == 0)) && (opPpol o == 0 || (o.engine == 0 && !carriesAdd i opidx)) &&
  (opCheckP o == 0 || (opWBits o == 1 && !opWzp o && opPpol o == 0 && !carriesAdd i opidx))

/-- Engine options (R277). -/
def engoptOk (o : Op) : Bool :=
  let n := o.engopt.toNat
  match o.engine.toNat with
  | 0 => decide (n ≤ 1)
  | 1 => n == 1 || n == 2
  | 2 => n == 0
  | _ => decide (n < 16)

/-- A bucket, and its order after the one before it (R278). -/
def bucketOk (o : Op) (n : Nat) : Bool :=
  match o.buckets[n]? with
  | none => true
  | some b =>
    decide (1 ≤ b.m) && decide (b.m ≤ 4194304) && decide (1 ≤ b.n) && decide (b.n ≤ 262144) && decide (1 ≤ b.k) &&
    decide (b.k ≤ if o.engine = 2 then 65536 else if o.engine = 1 then (if o.engopt = 1 then 65536 else 131072) else 16777215) &&
    (match n with
     | 0 => true
     | m + 1 => match o.buckets[m]? with
       | none => true
       | some a => decide (a.m ≤ b.m) && decide (a.n ≤ b.n) && decide (a.k ≤ b.k) && a != b)

/-- The engine block (R277, R200). -/
def engblkFails (i : Img) (o : Op) (e : List Byte) (j : Nat) : Fails :=
  match o.engine.toNat with
  | 0 => need (opPpol o == 1 || opPpol o == 2 || opCheckBase o == 0) 4 j 164 ++ zeros e 176 48 4 j
  | 1 => need (decide (1 ≤ opNbands o)) 4 j 160 ++ zeros e 162 62 4 j
  | 2 => need (decide (opFunc o < i.c.funcs.length)) 4 j 160 ++ zeros e 162 2 4 j ++ zeros e 180 44 4 j
  | _ => zeros e 172 52 4 j

def checkOp (i : Img) (j : Nat) (e : List Byte) : Fails :=
  let o := parseOp e
  let nb := fieldAt e 32 1
  need (fieldAt e 0 2 == j) 4 j 0 ++ need (decide (o.engine.toNat ≤ 3)) 4 j 2 ++ need (engoptOk o) 4 j 3 ++
  (if o.engine.toNat ≤ 1 then checkMatWords o j
   else need (if o.engine = 3 then bitsOf o.format.toNat 0 16 == 0 && bitsOf o.format.toNat 21 11 == 0 else o.format == 0) 4 j 4 ++
        need (o.numeric == 0) 4 j 8) ++
  need (if o.engine.toNat ≤ 1 then drainWordOk o.drain else o.drain == 0) 4 j 16 ++ zeros e 20 4 4 j ++
  need (approxOk i o j) 4 j 24 ++ need (decide (1 ≤ nb) && decide (nb ≤ 8)) 4 j 32 ++ zeros e 33 3 4 j ++ zeros e 56 8 4 j ++
  (List.range (min nb 8)).flatMap (fun n => need (bucketOk o n) 4 j (64 + 12 * n)) ++
  (if nb ≤ 8 then zeros e (64 + 12 * nb) (96 - 12 * nb) 4 j else []) ++ engblkFails i o e j ++ zeros e 224 32 4 j

/-! ## Stage 5: shares (R279, R280, R174) -/

/-- Two shares of one split may name the same rows: an owner and its contributors, or row-function parts (R279). -/
def sameSplit (x y : Slice) : Bool :=
  let inSplit (z : Slice) : Bool := z.role == 1 || z.role == 2
  ((x.role == 3 && y.role == 3) || (inSplit x && inSplit y)) && x.row0 == y.row0 && x.rows == y.rows

/-- No earlier share of the operation covers a row of this one, but for those of its split (R279). -/
def rowsFree (c : Constellation) (j : Nat) (x : Slice) : Bool :=
  (c.slices.take j).all (fun y => y.opidx != x.opidx || sameSplit x y || decide (y.row0 + y.rows ≤ x.row0) || decide (x.row0 + x.rows ≤ y.row0))

/-- The shares of the split that a share belongs to: an owner with its contributors, or the parts of a row function. -/
def splitShares (c : Constellation) (x : Slice) : List Slice :=
  if x.role = 3 then splitOf c x 3 else splitOf c x 1 ++ splitOf c x 2

/-- K0 of a share (R279): 0 for a single one; in a split a multiple of g, or of 256 for a row function, the start of [0, K) or the end of
another share's range, and no range of an earlier entry of the split meets it. -/
def startOk (c : Constellation) (o : Op) (j : Nat) (x : Slice) : Bool :=
  if x.role = 0 then x.k0 == 0 else
  x.k0 % (if x.role = 3 then 256 else opGroup o) == 0 && (x.klen == 0 ||
    (x.k0 == 0 || (splitShares c x).any (fun y => y.klen != 0 && y.k0 + y.klen == x.k0)) &&
    (c.slices.take j).all (fun y => !(splitShares c x).contains y || y.klen == 0 || decide (y.k0 + y.klen ≤ x.k0) ||
      decide (x.k0 + x.klen ≤ y.k0)))

/-- KLEN of a share (R279): K for a single one; in a split its range ends at K or where another begins, and not every range is empty. -/
def lengthOk (c : Constellation) (o : Op) (x : Slice) : Bool :=
  let K := (topBucket o).k
  if x.role = 0 then x.klen == K else
  (x.klen == 0 || x.k0 + x.klen == K || (splitShares c x).any (fun y => y.klen != 0 && y.k0 == x.k0 + x.klen)) &&
  (splitShares c x).any (fun y => y.klen != 0)

/-- ROLE of a share of a split reduction (R279): one owner has contributors. -/
def roleOk (c : Constellation) (j : Nat) (x : Slice) : Bool :=
  match x.role.toNat with
  | 1 => (c.slices.take j).all (fun y => !(splitOf c x 1).contains y)
  | 2 => !(splitOf c x 1).isEmpty
  | _ => true

/-- PART of a share (R279): NPART of an owner is the number of its contributors; theirs are 0 to NPART − 1, each once; else zero. -/
def partOk (c : Constellation) (j : Nat) (x : Slice) : Bool :=
  match x.role.toNat with
  | 1 => decide (1 ≤ x.part) && decide (x.part ≤ 63) && (splitOf c x 2).length == x.part
  | 2 => (splitOf c x 1).all (fun y => decide (x.part < y.part)) &&
    (c.slices.take j).all (fun y => !(splitOf c x 2).contains y || y.part != x.part)
  | _ => x.part == 0

def coreActive (c : Constellation) (tile core : Nat) : Bool :=
  if h : tile < 12 ∧ core < 64 then (match frameOf c ⟨⟨tile, h.1⟩, ⟨core, h.2⟩⟩ with | some f => f.active | none => false) else false

/-- A contributor's COMBINE_ADDR is the BASE of a combine window that admits its node (R279). -/
def combineOk (c : Constellation) (x : Slice) : Bool :=
  if x.role = 2 then c.windows.any (fun w => w.kind == 2 && w.base == x.combineAddr && w.sources.getLsbD (x.tile + 1) &&
    (splitOf c x 1).any (fun y => match placeOf w.base with | some (.plain k _) => k.tile.val == y.tile && k.core.val == y.core | _ => false))
  else x.combineAddr == 0

def checkSlice (i : Img) (j : Nat) (e : List Byte) : Fails :=
  let x := parseSlice e
  match findOp i.c x.opidx with
  | none => [(5, j, 0)]
  | some o =>
    let role := x.role.toNat
    let eff := drainOf o x
    let mat := decide (o.engine.toNat ≤ 1)
    let top := topBucket o
    need (decide (x.tile < 12) && i.c.tileMask.getLsbD x.tile) 5 j 2 ++ need (coreActive i.c x.tile x.core) 5 j 3 ++
    need (decide (role ≤ 3) && (role != 3 || o.engine == 2) && ((role != 1 && role != 2) || mat) && roleOk i.c j x) 5 j 4 ++
    need (partOk i.c j x) 5 j 5 ++ zeros e 6 2 5 j ++
    need ((opPpol o == 0 || x.row0 % 256 == 0) && rowsFree i.c j x) 5 j 8 ++ need (decide (x.row0 + x.rows ≤ top.m)) 5 j 12 ++
    need (startOk i.c o j x) 5 j 16 ++ need (lengthOk i.c o x) 5 j 20 ++
    need (fieldAt e 31 1 == 0 && combineOk i.c x) 5 j 24 ++
    need ((x.drainOvr == 0 || drainWordOk x.drainOvr) && (role == 2) == (dwCmode eff == 1) &&
      ((dwCmode eff == 2) == (dwCmode o.drain == 2))) 5 j 32 ++
    need (if o.engine = 1 then decide (x.bandOff + opNbands o ≤ i.c.bands.length) else x.bandOff == 0) 5 j 36 ++ zeros e 40 8 5 j

/-- The first row that ranges [a, a + n), taken in ascending order, leave uncovered. -/
def coveredTo (xs : List (Nat × Nat)) : Nat :=
  (sortBy (fun x => x.1) xs).foldl (fun r x => if x.1 ≤ r then max r (x.1 + x.2) else r) 0

/-- Every output row of an operation is covered by some share (R279); that no row is covered twice is checked entry by entry. -/
def rowsCovered (c : Constellation) (o : Op) : Bool :=
  decide ((topBucket o).m ≤ coveredTo ((opSlices c o.opidx).map (fun x => (x.row0, x.rows))))

def sliceSection (i : Img) : Fails :=
  overEntries (secEntries i.raw 5) (checkSlice i) ++
  i.c.ops.flatMap (fun o => need (rowsCovered i.c o) 5 (secCount i.raw 5) o.opidx)

/-! ## Stage 5: function blocks (R179 to R181) -/

/-- A phase (R181). -/
def phaseOk (f : FuncBlock) (n : Nat) (p : Phase) : Bool :=
  let pro := prologue f p
  let bod := bodyOf f p
  let e := 2 ^ p.ecode
  let both (q : Phase) : List Word32 := prologue f q ++ bodyOf f q
  let fed (q : Phase) (op : Nat) : Bool := decide (0 < countOp (both q) op)
  let before := f.phases.take n
  decide (p.start + p.proLen + p.bodyLen ≤ f.ninstr) && p.ecode != 3 && countOp bod 1 == e && (countOp bod 3 == 0 || countOp bod 3 == e) &&
  [1, 2, 3, 4].all (fun op => countOp pro op == 0) && [0x12, 0x13].all (fun op => !(fed p op && before.any (fun q => fed q op))) &&
  (both p).all (fun w => microOp w != 0x14 || (microVa w == 0 && before.any (fun q => fed q 0x12)) ||
    (microVa w == 1 && before.any (fun q => fed q 0x13)))

def checkFunc (j : Nat) (e : List Byte) : Fails :=
  let f := parseFunc e
  let isInt := decide (3 ≤ f.outFmt)
  let last := f.phases.getLast?
  need (decide (1 ≤ f.ninstr) && decide (f.ninstr ≤ 256)) 7 j 0 ++ need (decide (1 ≤ f.nphase) && decide (f.nphase ≤ 4)) 7 j 2 ++
  need (decide (8 ≤ f.dt) && decide (f.dt ≤ 16)) 7 j 3 ++
  need (decide (1 ≤ f.inFmt) && decide (f.inFmt ≤ 3) && !(f.inFmt == 2 && decide (0 < countOp f.micro 4))) 7 j 4 ++
  need (decide (f.auxFmt ≤ 2) && !(f.auxFmt == 0 && decide (0 < countOp f.micro 2))) 7 j 5 ++
  need (decide (1 ≤ f.outFmt) && decide (f.outFmt ≤ 5) &&
    (!isInt || (match last with | some p => decide (0 < countOp (prologue f p) 0x15) | none => false))) 7 j 6 ++
  need (decide (f.outLayout ≤ 2) && (f.outLayout != 2 || isInt)) 7 j 7 ++
  need (decide (f.lineP ≤ 9) && (f.outLayout != 2 || decide (1 ≤ f.lineP))) 7 j 8 ++ zeros e 9 3 7 j ++
  (indexed f.phases).flatMap (fun x => need (fieldAt e (16 + 4 * x.1) 4 < 2 ^ 26 && phaseOk f x.1 x.2 &&
    (x.1 + 1 != f.nphase || decide (0 < countOp (bodyOf f x.2) 3))) 7 j (16 + 4 * x.1)) ++
  (if f.nphase ≤ 4 then zeros e (16 + 4 * f.nphase) (16 - 4 * f.nphase) 7 j else []) ++
  (List.range 16).flatMap (fun n => need (decide (fieldAt e (32 + 4 * n) 4 < 2 ^ 20)) 7 j (32 + 4 * n)) ++
  (indexed f.micro).flatMap (fun x => need (decide (microOp x.2 ≤ 0x15) && bitsOf x.2.toNat 0 10 == 0 && (microOp x.2 != 0x14 || decide (microVa x.2 ≤ 1))) 7 j (96 + 4 * x.1)) ++
  (if f.ninstr ≤ 256 then zeros e (96 + 4 * f.ninstr) (1024 - 4 * f.ninstr) 7 j else [])

/-! ## Stage 5: step programs (R282, R298, R321, R322, R82, R152) -/

/-- The fields an instruction uses: RD, RA, RB, IMM, and the largest FL; none for an OP that R299 does not list. -/
def opShape (op : Nat) : Option (Bool × Bool × Bool × Bool × Nat) :=
  match op with
  | 0x00 | 0x14 => some (false, false, false, false, 0)
  | 0x01 | 0x02 | 0x12 | 0x22 | 0x23 => some (true, false, false, true, 0)
  | 0x03 | 0x0A | 0x0B | 0x0C => some (true, true, true, true, 0)
  | 0x04 | 0x05 | 0x06 | 0x07 | 0x08 | 0x09 | 0x0D | 0x0E => some (true, true, true, false, 0)
  | 0x10 => some (false, false, false, true, 0)
  | 0x11 => some (false, true, true, true, 5)
  | 0x13 => some (true, false, false, true, 9)
  | 0x15 => some (false, false, false, false, 31)
  | 0x20 => some (true, true, false, true, 7)
  | 0x21 => some (false, true, false, true, 8)
  | 0x24 => some (false, true, false, true, 15)
  | 0x30 => some (false, true, true, true, 31)
  | 0x31 => some (true, true, false, false, 1)
  | 0x32 => some (false, true, true, true, 1)
  | _ => none

/-- A register group of n from r: within s1 to s31. -/
def groupFits (r n : Nat) : Bool := decide (1 ≤ r) && decide (r + n ≤ 32)

/-- The failing byte of an instruction word in a program of n instructions (R321). -/
def instrFail (i : Img) (n : Nat) (w : Word64) : Option Nat :=
  match opShape (iOp w) with
  | none => some 7
  | some (rd, ra, rb, imm, top) =>
    let op := iOp w
    let merge := op == 0x21 && (iFl w).testBit 3
    let engineOf (x : Nat) : Option Nat := (findOp i.c x).map (fun o => o.engine.toNat)
    let isMerge (x : Nat) : Bool := match findOp i.c x with | some o => dwCmode o.drain == 2 && decide (o.engine.toNat ≤ 1) | none => false
    let immOk :=
      if !imm || (op == 0x21 && !merge) then iImm w == 0
      else if op = 0x10 || op = 0x11 || op = 0x12 then decide (iImm w < n)
      else if op = 0x13 then (engineOf (iImm w)).isSome
      else if op = 0x20 then (engineOf (iImm w) == some 0 || engineOf (iImm w) == some 1) && !isMerge (iImm w)
      else if op = 0x21 then isMerge (iImm w)
      else if op = 0x22 then engineOf (iImm w) == some 2
      else if op = 0x23 then engineOf (iImm w) == some 3
      else true
    let flOk := decide (iFl w ≤ top) && (op != 0x21 || iFl w == 0 || iFl w == 2 || iFl w == 8) &&
      (op != 0x24 || !(iFl w).testBit 3 || decide (iFl w % 8 < 4))
    let raOk := if !ra || (op == 0x21 && !merge) then iRa w == 0
      else if op = 0x20 then groupFits (iRa w) 4 else if op = 0x21 then groupFits (iRa w) 2 else true
    let rbOk := rb || iRb w == 0
    let rdOk := if !rd then iRd w == 0
      else if op = 0x20 || op = 0x23 then groupFits (iRd w) 3 else if op = 0x22 then groupFits (iRd w) 2 else true
    if !immOk then some 0 else if !flOk then some 4 else if !(rbOk && raOk) then some 5 else if !rdOk then some 6 else none

/-- Rows of an operation that an instruction of program n can reach for a bucket, by core (R82). -/
def reachRows (c : Constellation) (n : Nat) (opidx m : Nat) : List Nat :=
  (opSlices c opidx).filterMap (fun x =>
    if h : x.tile < 12 ∧ x.core < 64 then
      match frameOf c ⟨⟨x.tile, h.1⟩, ⟨x.core, h.2⟩⟩ with
      | some f => if f.entry.any (fun e => e.toNat == n) then some (min x.rows (m - x.row0)) else none
      | none => none
    else none)

/-- An ADD of program n on an operation folds into more than one pass for some bucket (R82, R152). -/
def addFolds (c : Constellation) (n : Nat) (o : Op) : Bool :=
  o.buckets.any (fun b =>
    if o.engine = 1 then opNbands o != 1 || decide (32 < b.n)
    else (reachRows c n o.opidx b.m).any (fun m => decide (1 < ceilDiv m (opRg o) * ceilDiv b.n (opCg o))))

def checkProg (i : Img) (j : Nat) (p : RawProg) : Fails :=
  need (p.prog == j) 8 j 0 ++ need (p.clean) 8 j 2 ++ need (decide (1 ≤ p.ninstr) && decide (p.ninstr ≤ 8192) && p.fits) 8 j 4 ++
  (indexed p.words).flatMap (fun x =>
    match instrFail i p.ninstr x.2 with
    | some b => [(8, j, 16 + 8 * x.1 + b)]
    | none =>
      match (if iOp x.2 = 0x20 && (iFl x.2).testBit 0 then findOp i.c (iImm x.2) else none) with
      | some o => need (!addFolds i.c j o) 8 j (16 + 8 * x.1 + 4)
      | none => []) ++
  (match p.words.getLast? with
   | some w => need (iOp w == 0x14 || iOp w == 0x10) 8 j (16 + 8 * (p.ninstr - 1) + 7)
   | none => [])

/-- The section holds exactly its programs. -/
def progSection (i : Img) : Fails :=
  let used := i.progs.foldl (fun a p => a + 16 + 8 * p.ninstr) 0
  (indexed i.progs).flatMap (fun x => checkProg i x.1 x.2) ++
  (match findSec i.raw 8 with | some r => need (used == r.len && i.progs.length == r.count) 8 r.count 0 | none => [])

/-! ## Stage 5: windows, streams, contracts, preloads (R283, R285, R286, R376, R618) -/

def checkWindow (j : Nat) (e : List Byte) : Fails :=
  let w := parseWindow e
  let n := ((List.range 13).filter (fun x => w.sources.getLsbD x)).length
  need (fieldAt e 7 1 == 0 && w.base % 64 == 0 && isPlainAddr w.base) 9 j 0 ++
  need (w.len % 64 == 0 && decide (64 ≤ w.len) && decide (n ≤ min (w.len / 64) 128)) 9 j 8 ++
  need (decide (w.sources.toNat < 2 ^ 13)) 9 j 12 ++ need (decide (1 ≤ w.kind) && decide (w.kind ≤ 3)) 9 j 14 ++ zeros e 15 1 9 j ++
  need (fieldAt e 23 1 == 0 && (objAt (BitVec.ofNat 56 w.arrival)).isSome) 9 j 16 ++ zeros e 24 8 9 j

def checkStream (i : Img) (j : Nat) (e : List Byte) : Fails :=
  let x := parseStream e
  need (decide (x.tile < 12) && i.c.tileMask.getLsbD x.tile) 10 j 0 ++ need (decide (x.core < 64)) 10 j 1 ++
  need (decide (x.stream < 16)) 10 j 2 ++ need (x.use == 1 || x.use == 2) 10 j 3 ++
  need (decide (x.opidx < i.c.ops.length)) 10 j 4 ++ zeros e 6 2 10 j

/-- A required stream assignment is missing (R285). Of the fine unit's operations only FOPT rounds under R64, whatever its ORND says. -/
def streamMissing (c : Constellation) (o : Op) : Bool :=
  if o.engine = 3 then
    opFineKind o == 3 && allTiles.any (fun t => (opSlices c o.opidx).any (fun x => x.tile == t.val) &&
      (c.streams.filter (fun y => y.use == 2 && y.opidx == o.opidx && y.tile == t.val)).length != 1)
  else opStoch o && decide (o.engine.toNat ≤ 1) && (opSlices c o.opidx).any (fun x =>
    !c.streams.any (fun y => y.use == 1 && y.opidx == o.opidx && y.stream == opStream o && y.tile == x.tile && y.core == x.core))

def streamSection (i : Img) : Fails :=
  overEntries (secEntries i.raw 10) (checkStream i) ++
  i.c.ops.flatMap (fun o => need (!streamMissing i.c o) 10 (secCount i.raw 10) o.opidx)

def checkContract (i : Img) (j : Nat) (e : List Byte) : Fails :=
  let x := parseContract e
  need (!((i.c.contracts.take j).any (fun y => y.id == x.id))) 11 j 0 ++ need (decide (x.entry < 16)) 11 j 2 ++
  need (decide (x.maxBucket < 8)) 11 j 3 ++ need (decide (1 ≤ x.period)) 11 j 4 ++
  need (decide (1 ≤ x.deadline) && decide (x.deadline ≤ x.period)) 11 j 8 ++ zeros e 12 20 11 j

def checkPreload (i : Img) (j : Nat) (e : List Byte) : Fails :=
  let dataLen := match findSec i.raw 13 with | some r => r.len | none => 0
  let len := fieldAt e 8 4
  let dat := fieldAt e 12 4
  need (decide (fieldAt e 0 1 < 12) && i.c.tileMask.getLsbD (fieldAt e 0 1)) 12 j 0 ++
  need (coreActive i.c (fieldAt e 0 1) (fieldAt e 1 1)) 12 j 1 ++ zeros e 2 2 12 j ++ need (fieldAt e 4 4 % 64 == 0) 12 j 4 ++
  need (len % 64 == 0 && decide (64 ≤ len)) 12 j 8 ++ need (dat % 64 == 0 && decide (dat + len ≤ dataLen)) 12 j 12

/-- Stage 5, sections in TYPE order. -/
def stage5 (i : Img) : Fails :=
  let t := ((List.range 12).filter (fun n => i.c.tileMask.getLsbD n)).length
  overEntries (secEntries i.raw 1) (checkFrame i) ++ need (secCount i.raw 1 == 64 * t) 1 (secCount i.raw 1) 0 ++
  overEntries (secEntries i.raw 2) (checkTileFrame i) ++ need (secCount i.raw 2 == t) 2 (secCount i.raw 2) 0 ++
  overEntries (secEntries i.raw 3) (checkHubBlock i) ++
  overEntries (secEntries i.raw 4) (checkOp i) ++
  sliceSection i ++
  (indexed i.c.bands).flatMap (fun x => need (decide (1 ≤ x.2) && decide (x.2 ≤ 4096)) 6 x.1 0) ++
  overEntries (secEntries i.raw 7) checkFunc ++ progSection i ++ overEntries (secEntries i.raw 9) checkWindow ++ streamSection i ++
  overEntries (secEntries i.raw 11) (checkContract i) ++ overEntries (secEntries i.raw 12) (checkPreload i)

/-! ## Stages 6 to 9 (R47, R113, R285, R289) -/

/-- M_w and M_a (R32, R35, R47). -/
def maxWeight (o : Op) : Nat :=
  if opCheckP o ≠ 0 then 2 ^ (opCheckP o - 1) else if opWzp o then 2 ^ opWBits o - 1 else if opWBits o = 1 then 1 else 2 ^ (opWBits o - 1)
def maxAct (o : Op) : Nat := if opAzp o then 2 ^ opABits o else 2 ^ (opABits o - 1)

/-- Floor and headroom of R47. -/
def anchorOk (o : Op) : Bool :=
  decide (opAnchor o ≤ opWeLo o + opAeLo o) &&
  decide (opGroup o * maxWeight o * maxAct o * 2 ^ (opWeHi o + opAeHi o - opAnchor o).toNat * groupsOf o (topBucket o).k * opNadd o < 2 ^ 63)

def stage6 (i : Img) : Fails := i.c.ops.flatMap (fun o => need (decide (1 < o.engine.toNat) || anchorOk o) 4 o.opidx 8)

/-- The MTILE that an ADD at the head of the rest continues, among the instructions before it, last first (R322). -/
def chainedTo (c : Constellation) (sparse : Bool) (set : Nat) : List Word64 → Option Nat
  | [] => none
  | w :: ws =>
    if iOp w = 0x21 && !(iFl w).testBit 3 && iFl w / 2 % 2 == set then none
    else if iOp w = 0x20 && (iFl w).testBit 2 && iFl w / 2 % 2 == set &&
      (match findOp c (iImm w) with | some o => (o.engine == 1) == sparse | none => false) then some (iImm w)
    else chainedTo c sparse set ws

/-- Operations of ADD instructions chained to another anchor (R113). -/
def badChains (c : Constellation) : List Word64 → List Word64 → List Nat
  | _, [] => []
  | before, w :: ws =>
    let bad : List Nat :=
      if iOp w = 0x20 && (iFl w).testBit 0 then
        match findOp c (iImm w) with
        | none => []
        | some o => match chainedTo c (o.engine == 1) (iFl w / 2 % 2) before with
          | none => []
          | some q => match findOp c q with
            | none => []
            | some oq => if opAnchor oq = opAnchor o then [] else [o.opidx]
      else []
    bad ++ badChains c (w :: before) ws

def stage7 (i : Img) : Fails := i.c.programs.flatMap (fun p => (badChains i.c [] p).map (fun o => (4, o, 8)))

def stage8 (i : Img) : Fails :=
  (indexed i.c.streams).flatMap (fun x =>
    need (!((i.c.streams.take x.1).any (fun y => y.tile == x.2.tile && y.core == x.2.core && y.stream == x.2.stream))) 10 x.1 2)

/-- A range of a core's plain lies within 4 MiB and in banks of USED. -/
def rangeUsed (f : CoreFrame) (a n : Nat) : Bool :=
  n == 0 || (decide (a + n ≤ plainSize) &&
    (List.range ((a + n - 1) / 0x80000 - a / 0x80000 + 1)).all (fun b => f.used.getLsbD (a / 0x80000 + b)))

def frameAt (c : Constellation) (tile core : Nat) : Option CoreFrame :=
  if h : tile < 12 ∧ core < 64 then frameOf c ⟨⟨tile, h.1⟩, ⟨core, h.2⟩⟩ else none

/-- Bytes from a base to the end of an array of r rows of c elements of nib nibbles, row stride st. -/
def spanBytes (r c st nib : Nat) : Nat := if r = 0 || c = 0 then 0 else (r - 1) * st + ceilDiv (c * nib) 2

/-- Space of a share of a matrix operation (R289). -/
def matSpace (_ : Img) (j : Nat) (o : Op) (x : Slice) (f : CoreFrame) : Fails :=
  let b := topBucket o
  let m := min x.rows (b.m - x.row0)
  let d := drainOf o x
  let span (nib st : Nat) : Nat := if dwTokenMajor d then spanBytes b.n m st nib else spanBytes m b.n st nib
  need (!(dwWelem d && dwCmode d == 0) || rangeUsed f o.obase (span (outNibbles (opOfmt o)) o.ostride)) 4 j 40 ++
  need (!(dwCmode d == 2) || rangeUsed f o.obase (spanBytes b.n 1 o.ostride (16 * dwK d))) 4 j 40 ++
  need (dwFuse d == 0 || rangeUsed f o.fbase (if dwFbcast d then spanBytes m 1 o.fstride (fuseNibbles (dwFfmt d))
    else span (fuseNibbles (dwFfmt d)) o.fstride)) 4 j 48 ++
  need (o.engine != 0 || opPpol o == 0 || rangeUsed f (opPredBase o) (spanBytes m b.n (opScoreStride o) 4)) 4 j 160 ++
  need (o.engine != 0 || opPpol o == 0 || opPpol o == 3 || rangeUsed f (opCheckBase o) (spanBytes m b.n (opScoreStride o) 4)) 4 j 164

/-- Space of a share of a row function (R178, R182, R289). -/
def rowSpace (i : Img) (j : Nat) (o : Op) (x : Slice) (f : CoreFrame) : Fails :=
  match i.c.funcs[opFunc o]? with
  | none => []
  | some g =>
    let b := topBucket o
    let n := min x.klen (b.k - x.k0)
    let inNib := if g.inFmt = 2 then 4 else 8
    let auxNib := if g.auxFmt = 2 then 4 else 8
    let outNib := match g.outFmt with | 1 => 8 | 2 => 4 | 3 => 1 | 4 => 2 | _ => 4
    let w := match g.outFmt with | 3 => 4 | 4 => 8 | _ => 16
    let lines := (ceilDiv n 4 * g.lineP - g.lineP + 32) * lineLen w g.lineP
    let out := if g.outLayout = 0 then spanBytes n b.n o.ostride outNib
      else if g.outLayout = 1 then spanBytes b.n n o.ostride outNib
      else if b.n = 0 || n = 0 then 0 else (ceilDiv b.n 32 - 1) * o.ostride + 64 * ceilDiv lines 64 + 64
    need (rangeUsed f o.obase out) 4 j 40 ++ need (rangeUsed f (opInBase o) (spanBytes n b.n (opInStride o) inNib)) 4 j 164 ++
    need (g.auxFmt == 0 || rangeUsed f (opAuxBase o) (spanBytes n b.n (opAuxStride o) auxNib)) 4 j 172

/-- The operands of a fine-unit operation for its largest bucket: role, base offset, number of items, bytes of an item, byte of the
field that gives the base (R188, R189, R277; log entry 8 for the roles). -/
def fineOperands (o : Op) : List (Nat × Nat × Nat × Nat × Nat) :=
  let b := topBucket o
  let fl (role : Nat) : Nat := if fineF32 o role then 4 else 2
  let out : Nat := if Config.fineOutFmt o.opidx = 0 then 4 else 2
  let groups (n : Nat) : Nat := ceilDiv n (fineGroup o)
  let row (n : Nat) : Nat := ceilDiv (n * fineWidth o) 8
  match opFineKind o with
  | 0 => [(0, opInOff o, b.n * b.k, fl 0, 160), (1, opAuxOff o, b.m * b.k, fl 1, 164), (2, opOutOff o, b.n * b.m, out, 168),
          (3, opOutOff o, b.n, 1, 168)]
  | 1 => [(0, opInOff o, b.n * b.m, fl 0, 160), (1, opAuxOff o, 2 * b.m, fl 1, 164), (2, opOutOff o, b.n * b.m, out, 168),
          (3, opOutOff o, b.n, 1, 168)]
  | 2 => [(0, opInOff o, b.n, row b.m, 160), (4, opAuxOff o, 1, b.n * groups b.m, 164), (5, opAuxOff o, 1, b.n * groups b.m, 164),
          (2, opOutOff o, b.n * b.m, fl 2, 168)]
  | _ =>
    let exps := b.m * groups b.n
    [(6, opInOff o, b.m, b.n, 160), (7, opInOff o, 1, exps, 160), (8, opInOff o, b.m, b.n, 160), (9, opInOff o, 1, exps, 160),
     (10, opInOff o, b.m, b.n, 160), (11, opInOff o, 1, exps, 160), (12, opInOff o, b.m * b.n, fl 12, 160), (8, opOutOff o, b.m, b.n, 168),
     (9, opOutOff o, 1, exps, 168), (10, opOutOff o, b.m, b.n, 168), (11, opOutOff o, 1, exps, 168), (13, opOutOff o, b.m, row b.n, 168),
     (14, opOutOff o, 1, exps, 168), (15, opOutOff o, 1, exps, 168)]

/-- Every item of every operand lies within the fine store (R289). -/
def fineSpace (o : Op) : Fails :=
  (fineOperands o).flatMap (fun (role, base, n, size, byte) =>
    need ((List.range n).all (fun i => decide (Config.fineElem o.opidx role base 0 i + size ≤ fineSize))) 4 o.opidx byte)

def opSpace (i : Img) (o : Op) : Fails :=
  let shares (g : Slice → CoreFrame → Fails) : Fails :=
    (opSlices i.c o.opidx).flatMap (fun x => match frameAt i.c x.tile x.core with | some f => g x f | none => [])
  match o.engine.toNat with
  | 2 => shares (rowSpace i o.opidx o)
  | 3 => fineSpace o
  | _ => shares (matSpace i o.opidx o)

/-- LEN that R284 asks of a window: NPART records of the owner's split, or those of the other parts of a row function. -/
def windowNeeds' (c : Constellation) (w : Window) : Nat :=
  match w.kind, placeOf w.base with
  | 2, some (.plain _ _) =>
    (c.slices.filter (fun x => x.role == 2 && x.combineAddr == w.base)).foldl (fun a x =>
      let parts := ((splitOf c x 1).head?.map (fun y => y.part)).getD (x.part + 1)
      match findOp c x.opidx with | some o => max a (parts * combineSlot o) | none => a) 0
  | 3, some (.plain k _) =>
    (c.slices.filter (fun x => x.role == 3 && x.tile == k.tile.val && x.core == k.core.val)).foldl (fun a x =>
      max a (((splitOf c x 3).length - 1) * recordSlot)) 0
  | _, _ => 0

def windowSpace (i : Img) (j : Nat) (w : Window) : Fails :=
  match placeOf w.base with
  | some (.plain k o) =>
    match frameOf i.c k with
    | none => [(9, j, 0)]
    | some f =>
      let banks := if w.len = 0 then [] else (List.range ((o + w.len - 1) / 0x80000 - o / 0x80000 + 1)).map (fun b => o / 0x80000 + b)
      let cls (b : Nat) : Nat := f.cls.toNat / 4 ^ b % 4
      need (rangeUsed f o w.len && banks.all (fun b => !f.resident.getLsbD b) &&
        !((i.c.windows.take j).any (fun v => decide (v.base < w.base + w.len) && decide (w.base < v.base + v.len))) &&
        (!f.split || banks.all (fun b => if w.kind = 1 then cls b == 1 || cls b == 2 else cls b == 3))) 9 j 0 ++
      need (decide (windowNeeds' i.c w ≤ w.len)) 9 j 8
  | _ => [(9, j, 0)]

def preloadSpace (i : Img) (j : Nat) (x : Preload) : Fails :=
  match frameAt i.c x.tile x.core with
  | none => [(12, j, 4)]
  | some f =>
    let n := x.bytes.length
    let banks := (List.range ((x.offset + n - 1) / 0x80000 - x.offset / 0x80000 + 1)).map (fun b => x.offset / 0x80000 + b)
    need (rangeUsed f x.offset n && banks.all (fun b => f.resident.getLsbD b) &&
      !((i.c.preloads.take j).any (fun y => y.tile == x.tile && y.core == x.core && decide (y.offset < x.offset + n) &&
        decide (x.offset < y.offset + y.bytes.length)))) 12 j 4

def stage9 (i : Img) : Fails :=
  i.c.ops.flatMap (opSpace i) ++ (indexed i.c.windows).flatMap (fun x => windowSpace i x.1 x.2) ++
  (indexed i.c.preloads).flatMap (fun x => preloadSpace i x.1 x.2)

/-! ## Signatures (R272) and the whole check (R287) -/

/-- The publisher key of a partition whose SHAKE256 digest is a PUB_ID. -/
def publisherKey (q : Partition) (pubId : List Byte) : Option (List Byte) :=
  (q.pubkeys.toList.filterMap id).find? (fun k => shake 32 k == pubId)

/-- Stage 3: R272, and the partition's requirement of a signature. -/
def stage3 (q : Partition) (img : List Byte) : Fails :=
  if fieldAt img 18 2 % 2 = 1 then
    match publisherKey q (sliceAt img 64 32) with
    | none => [(0, 0, 64)]
    | some k => need (Config.mldsaVerify k (sliceAt img 32 32) [] (sliceAt img 512 3309)) 0 0 512
  else need (!q.layout.requireSigned) 0 0 18

/-- A refused load: code, section, index, byte, shortfall (R290). -/
structure LoadFail where
  code : BitVec 16
  sec : Nat
  idx : Nat
  byte : Nat
  short : Nat
  deriving DecidableEq, Repr

/-- ST_REFUSED_LOAD_BUSY and ST_REFUSED_SESSIONS_OPEN (R288). -/
def stRefusedSessionsOpen : BitVec 16 := 0x0109
def stRefusedLoadBusy : BitVec 16 := 0x010A

/-- The first failure of a stage. -/
def firstFail (code : BitVec 16) (fs : Fails) : Option LoadFail :=
  fs.head?.map (fun x => { code := code, sec := x.1, idx := x.2.1, byte := x.2.2, short := 0 })

/-- Stages 0 to 10 on an image for partition p, asked for by function f or by residency; the V_adm of an accepted load
(R287, R464). -/
def checkLoad (s : State) (p : PartId) (f : Option FuncId) (img : List Byte) : Except LoadFail Nat :=
  let i := readImg img
  let stages : List (Unit → Option LoadFail) :=
    [fun _ => if s.parts[p].sessions.isEmpty then none else some { code := stRefusedSessionsOpen, sec := 0, idx := 0, byte := 0, short := 0 },
     fun _ => firstFail stRefusedImage (stage1 img),
     fun _ => firstFail stRefusedImage (need (sliceAt img 32 32 == imageDigest img) 0 0 32),
     fun _ => firstFail stSignatureInvalid (stage3 s.parts[p] img),
     fun _ => firstFail stRefusedPartition (stage4 s p f i),
     fun _ => firstFail stRefusedImage (stage5 i),
     fun _ => firstFail stRefusedAnchor (stage6 i),
     fun _ => firstFail stRefusedAnchorMismatch (stage7 i),
     fun _ => firstFail stRefusedStreamDup (stage8 i),
     fun _ => firstFail stRefusedPlainSpace (stage9 i)]
  match stages.findSome? (fun g => g ()) with
  | some e => .error e
  | none =>
    match admitLoad s p i.c with
    | .granted v => .ok v
    | .refused code idx short =>
      .error { code := code, sec := 11, idx := idx, byte := if code = stRefusedDeadline then 8 else 0, short := short }

/-- The 14 result bytes of a load completion after STATUS (R290). -/
def loadResult (e : LoadFail) : List Byte := natLe 2 e.sec ++ natLe 4 e.idx ++ natLe 2 e.byte ++ natLe 2 0 ++ natLe 4 e.short

end Sys2Proof.Machine
end

