-- ==== Sys2Proof/Machine/Load.lean ====
section
/-! DEFINITION. The commit of a constellation (R293, R242, R363, R376, R618) and its static error statements (R222). -/

namespace Sys2Proof.Machine

/-! ## Static error statements (R222) -/

/-- ⌈log2 n⌉. -/
def ceilLog2 (n : Nat) : Nat := if n ≤ 1 then 0 else (n - 1).log2 + 1

/-- ε(D_t) of R171 in log2 units × 2^16. -/
def treeEps (dt : Nat) : Nat := 64 * (if dt = 8 then 6 else if dt = 9 then 3 else if dt = 10 then 2 else 1)

/-- A sum tree is fed by TADD. -/
def sumTrees (f : FuncBlock) : Nat :=
  (f.phases.filter (fun p => decide (0 < countOp (prologue f p ++ bodyOf f p) 0x12))).length

/-- The function block of a row-function operation. -/
def opBlock (c : Constellation) (o : Op) : Option FuncBlock := if o.engine = 2 then c.funcs[opFunc o]? else none

/-- τ_max of R205 as UB32. -/
def tauMax (o : Op) : Nat := if opTauM o = 0 then 0 else ub32 (opTauM o) (opTauE o + opAmax o)

/-- CONTRIB of R222. -/
def contrib (c : Constellation) (o : Op) : Nat :=
  let rounds := match opBlock c o with
    | some f => f.outFmt != 1
    | none => decide (o.engine.toNat < 2) && dwCmode o.drain == 0
  (if rounds then 1 else 0) + (if opSkip o = 0 then 0 else 2) + (if opPpol o = 0 then 0 else 4) +
  (if o.engine = 2 then 8 else 0) + (if o.engine = 3 then 16 else 0)

/-- The statement of an operation (R222) with its NORM_MAX word and SKIP_BOUND word; BOUND and the tree terms of a row function: R186. -/
def statement (c : Constellation) (o : Op) (norm skip : Nat) : List Byte :=
  let pb := if o.engine = 0 then (if opPpol o = 3 then 0xFFFFFFFF else opPbound o) else 0
  let (rb, rt) : Nat × Nat := match opBlock c o with
    | some f => (f.bound.toNat, sumTrees f * ceilLog2 (topBucket o).k * treeEps f.dt)
    | none => (0, 0)
  natLe 2 o.opidx ++ natLe 1 (if opSkip o = 2 then 1 else 0) ++ natLe 1 (contrib c o) ++ natLe 1 (opSkip o) ++ natLe 1 (opAmax o) ++
  natLe 1 (opPpol o) ++ natLe 1 (if opStoch o then 1 else 0) ++ natLe 4 (tauMax o) ++ natLe 4 norm ++ natLe 4 skip ++
  natLe 4 pb ++ natLe 4 rb ++ natLe 4 rt ++ List.replicate 16 0

/-- The statements of a constellation, with the row norms that binds have measured (R205): until then NORM_MAX and
SKIP_BOUND are unbounded. Once a model is bound, SKIP_BOUND of an operation with skip off is 0, as its τ_max is (R222). -/
def statements (c : Constellation) (bound : Bool) (norms : List (Nat × Nat × Int)) : List (List Byte) :=
  c.ops.map (fun o => match norms.find? (fun x => x.1 == o.opidx) with
    | none => statement c o 0xFFFFFFFF (if bound && opSkip o == 0 then 0 else 0xFFFFFFFF)
    | some (_, m, e) => statement c o (ub32 m e) (ub32 (opTauM o * m) (opTauE o + opAmax o + e)))

/-! ## Commit, orders 3 to 6 on a core, a tile and the hub (R293) -/

/-- Programs named by ENTRY of a frame, by number. -/
def namedPrograms (c : Constellation) (f : CoreFrame) : List (Nat × List Word64) :=
  (indexed c.programs).filter (fun x => f.entry.any (fun e => e.toNat == x.1))

/-- The power word of banks in USED: ON, the others OFF (R242, R262). -/
def usedPower (used : BitVec 8) : BitVec 16 :=
  BitVec.ofNat 16 ((List.range 8).foldl (fun r i => if used.getLsbD i then r + 4 ^ i else r) 0)

/-- Stream ids of a core with a USE, as a mask (R285, R388). -/
def streamMask (c : Constellation) (k : CoreId) (use : Nat) : BitVec 16 :=
  BitVec.ofNat 16 ((List.range 16).foldl (fun r i =>
    if c.streams.any (fun x => x.tile == k.tile.val && x.core == k.core.val && x.use == use && x.stream == i) then r + 2 ^ i else r) 0)

/-- Preloads of a core written into a cleared plain (R618). -/
def preloaded (c : Constellation) (k : CoreId) : Mem :=
  (c.preloads.filter (fun x => x.tile == k.tile.val && x.core == k.core.val)).foldl (fun m x => memWrite m x.offset x.bytes) []

/-- Counters of a core at zero (R96); fault words and what is not a counter stay. -/
def clearCounters (c : Core) : Core :=
  { c with
    arr := { c.arr with slots := 0, bubbles := 0, freezeHc := 0, dusks := 0, dawns := 0, predLost := 0, predMadeup := 0,
                        predMisses := 0, predSkipped := 0, replays := 0, tolerated := 0 },
    fdr := { c.fdr with alines := 0, wlines := 0, adrySlots := 0, wdrySlots := 0, skipped := 0, gated := 0 },
    drn := { c.drn with records := 0, drains := 0 },
    spx := { c.spx with turns := 0, nonzero := 0, cursorWaits := 0, stallHc := 0, passes := 0 },
    rfu := { c.rfu with elems := 0, exactAdds := 0, cheapAdds := 0, clips := 0 },
    pln := { c.pln with feedStall := 0, otherStall := 0, blocks := 0, blockHc := 0, busyCount := 0, reruns := 0, detects := 0 },
    seq := { c.seq with stepno := 0, issued := 0, queueHc := 0, blockHc := 0 },
    rng := { c.rng with draws := 0 } }

/-- A core takes its frame (orders 3 to 5 of R293). -/
def commitCore (c : Constellation) (k : CoreId) (x : Core) : Core :=
  match frameOf c k with
  | none => x
  | some f =>
    let x := clearCounters (stopCore 0 x)
    { x with
      sregs := Vector.ofFn (fun (i : Fin 32) => if i.val = 0 then 0 else (f.sreg[i.val - 1]?).getD 0),
      store := namedPrograms c f, seq := { x.seq with state := .idle }, arr := { x.arr with idleHold := f.idleHold },
      pln := { x.pln with timeout := f.tagTimeout, split := f.split, resident := f.resident, used := f.used, cls := f.cls,
                          power := usedPower f.used },
      rng := { x.rng with fine := streamMask c k 2, drain := streamMask c k 1 },
      plain := preloaded c k, tags := f.tagInit, tagMode := f.tagMode, taking := false, reload := none }

/-- Mode code of an object (R362). -/
def objMode (m : BitVec 8) : ObjMode := if m = 1 then .level else if m = 2 then .take else if m = 3 then .step else .idle

/-- An object of partition p as its image sets it (R363). -/
def objFrom (p : PartId) (i : ObjImage) : SyncObj :=
  { SyncObj.reset with count := i.count, target := i.target, mode := objMode i.mode, timeout := i.timeout, init := i.count,
                       snap := i.count, owner := BitVec.ofNat 8 p.val }

def idleImage : ObjImage := { count := 0, target := 0, mode := 0, timeout := 0 }

/-- A copy engine with its counters at zero. -/
def clearEngine (now : Word64) (e : CopyEngine) : CopyEngine :=
  { e with bytes := 0, notifies := 0, descs := 0, tagNs := 0, creditNs := 0, seen := now }

/-- Registers of a tile's engines, fine unit and objects with their counters at zero (R96). -/
def clearTileCounters (now : Word64) (x : Tile) : Tile :=
  { x with
    engines := x.engines.map (clearEngine now),
    fine := { x.fine with fmas := 0, clips := 0 },
    syn := { x.syn with adds := 0, releases := 0, timeouts := 0, wraps := 0, waitNs := 0, waitSeen := now } }

/-- A tile of the partition takes its frames, objects and windows (orders 3 to 6 of R293). -/
def commitTile (now : Word64) (c : Constellation) (p : PartId) (t : TileId) (x : Tile) : Tile :=
  let objs := match c.tileFrames.find? (fun f => f.tile == t.val) with | some f => f.objs | none => []
  { clearTileCounters now x with
    cores := Vector.ofFn (fun (i : Fin 64) => commitCore c ⟨t, i⟩ x.cores[i]),
    objs := Vector.ofFn (fun (i : Fin 512) => objFrom p ((objs[i.val]?).getD idleImage)),
    waiters := [], outbox := [], credits := freshCredits c (t.val + 1) }

/-- Hub objects in the partition's blocks (order 5 of R293, R276), and the hub's counters of objects and copy engines at zero (R96). -/
def commitHub (now : Word64) (c : Constellation) (p : PartId) (blocks : BitVec 16) (h : Hub) : Hub :=
  { h with
    synAdds := 0, synReleases := 0, engines := h.engines.map (clearEngine now), byPart := h.byPart.set p .reset,
    objs := Vector.ofFn (fun (i : Fin 2048) =>
      if blocks.getLsbD (i.val / 128) then
        objFrom p (match c.hubBlocks.find? (fun b => b.block == i.val / 128) with
          | some b => (b.objs[i.val % 128]?).getD idleImage
          | none => idleImage)
      else h.objs[i]),
    waiters := h.waiters.filter (fun w => !blocks.getLsbD (w.obj / 128)) }

/-- Orders 3 to 8 of R293 for a constellation with its V_adm. -/
def commitOrders (s : State) (p : PartId) (c : Constellation) (v : BitVec 10) : State :=
  let s := forAll (partTiles s p) (fun s t => updTile s t (commitTile s.now c p t)) s
  let s := updHub s (commitHub s.now c p s.parts[p].layout.hubBlocks)
  updPart s p (fun q =>
    { q with const := some c, errStatements := statements c false [], normMax := [], nextStepno := 0, vadm := v, streams := [] })

/-- A tile in Valley is woken at once for firmware work (R293 order 1, R535 order 5, R587), and writes that waited for credits of its
windows go on (R378); the time it took is left free. -/
def wakeNow (s : State) (t : TileId) : State :=
  if tileAwake s t then s else
  let (v, s) := drawFree s
  pumpAll (forAll allTiles flushOutbox (updTile s t (fun x =>
    let y := wakeTile x
    { y with pas := { y.pas with valley := 0, wakes := satAdd y.pas.wakes 1, lastWake := v.truncate 16 } })))

/-- Every model is unbound (order 2 of R293); unbinds that waited complete with it. -/
def dropModels (s : State) (p : PartId) : State :=
  unbindNow (updPart s p (fun q => { q with models := q.models.map (fun m => { m with unbinding := true }), damaged := [] })) p

/-- CONSTELLATION_COMMIT (R293): tiles woken, models unbound, orders 3 to 8. -/
def commit (s : State) (p : PartId) (c : Constellation) (v : Nat) : State :=
  let s := forAll (partTiles s p) wakeNow s
  commitOrders (dropModels s p) p c (BitVec.ofNat 10 v)

end Sys2Proof.Machine
end

