-- ==== Sys2Proof/Machine/Model.lean ====
section
/-! DEFINITION. Crias model images: the bind (R544 to R548), repair of a section and reload of a RESIDENT bank (R258, R436). -/

namespace Sys2Proof.Machine

/-! ## Reading an image (R544 to R546) -/

def stImageAuth : BitVec 16 := 0x0404
def stModelDamaged : BitVec 16 := 0x020F
def stStoreFull : BitVec 16 := 0x020A
def stStoreNoObject : BitVec 16 := 0x020B
def stStoreInUse : BitVec 16 := 0x020C

/-! ## Reading the store (R425, R453) -/

/-- Bytes of a sector, one LDPC codeword (R425). -/
def sectorSize : Nat := 4096

/-- Sectors of an object that a range of its bytes reads and whose codeword cannot be corrected. -/
def lostIn (o : StoreObj) (off n : Nat) : List Nat :=
  o.lost.filter (fun i => decide (i * sectorSize < off + n) && decide (off < (i + 1) * sectorSize))

/-- Count codewords that stay uncorrected and reads that needed retry; the former went through the last retry too. -/
def countStore (s : State) (fails retries : Nat) : State :=
  updHub s (fun h => { h with ldpcFails := satAdd h.ldpcFails fails, ldpcRetries := satAdd h.ldpcRetries (fails + retries) })

/-- Read a range of an object for a command whose row reports nothing of the store: how many of its sectors needed retry is a free
number (log entry 22). Answers whether every codeword was corrected. -/
def readStore (s : State) (o : StoreObj) (off n : Nat) : Bool × State :=
  let (v, s) := drawFree s
  ((lostIn o off n).isEmpty, countStore s (lostIn o off n).length (v.toNat % (ceilDiv n sectorSize + 1)))

/-- Section entry i. -/
def secEntry (img : List Byte) (i : Nat) : List Byte := sliceAt img (76800 + 64 * i) 64

def seOffset (e : List Byte) : Nat := fieldAt e 0 8
def seLength (e : List Byte) : Nat := fieldAt e 8 8
def seTier (e : List Byte) : Nat := fieldAt e 16 1
def seNode (e : List Byte) : Nat := fieldAt e 17 1
def seCore (e : List Byte) : Nat := fieldAt e 18 1
def seContent (e : List Byte) : Nat := fieldAt e 19 1
def seOpidx (e : List Byte) : Nat := fieldAt e 20 2
def seRows (e : List Byte) : Nat := fieldAt e 24 4
def seRowlen (e : List Byte) : Nat := fieldAt e 28 4
def seLocal (e : List Byte) : Nat := fieldAt e 32 8

def imgNsect (img : List Byte) : Nat := fieldAt img 20 2
def imgNdev (img : List Byte) : Nat := fieldAt img 18 2
def imgSigned (img : List Byte) : Bool := fieldAt img 16 2 % 2 = 1

/-- The section entries in use. -/
def secList (img : List Byte) : List (Nat × List Byte) := (List.range (imgNsect img)).map (fun i => (i, secEntry img i))

def allZero (bs : List Byte) : Bool := bs.all (fun b => b == 0)

/-- A section entry follows R546; nops entries in the operation table. -/
def sectionOk (len nops : Nat) (e : List Byte) : Bool :=
  decide (seOffset e % 64 = 0) && decide (142336 ≤ seOffset e) && decide (seLength e % 64 = 0) && decide (64 ≤ seLength e) &&
  decide (seOffset e + seLength e ≤ len) && (seTier e == 1 || seTier e == 2 || seTier e == 0x10) &&
  (if seTier e = 2 then seNode e == 0 else decide (1 ≤ seNode e) && decide (seNode e ≤ 12)) &&
  (if seTier e = 0x10 then decide (seCore e < 64) else seCore e == 0) && decide (seContent e ≤ 4) &&
  (seContent e != 0 || seOpidx e == 0) && decide (seOpidx e < nops) && allZero (sliceAt e 22 2) && allZero (sliceAt e 40 8)

/-- Order 1 of R547: header, unused entries and section table; the image is as long as its header says. -/
def headerOk (img : List Byte) (nops : Nat) : Bool :=
  fieldAt img 0 8 == 0x494D53414952435A && fieldAt img 8 2 == 1 && fieldAt img 10 2 == 0 && fieldAt img 12 4 == 0x1204 &&
  decide (fieldAt img 16 2 < 2) && decide (1 ≤ imgNdev img) && decide (imgNdev img ≤ 64) && decide (1 ≤ imgNsect img) &&
  decide (imgNsect img ≤ 1024) && allZero (sliceAt img 22 2) && decide (fieldAt img 24 8 % 64 = 0) &&
  decide (142400 ≤ fieldAt img 24 8) && fieldAt img 24 8 == img.length && (imgSigned img || allZero (sliceAt img 96 32)) &&
  fieldAt img 128 2 == (if imgSigned img then 3309 else 0) && allZero (sliceAt img 130 382) && allZero (sliceAt img 3821 275) &&
  allZero (sliceAt img (4096 + 1136 * imgNdev img) (72704 - 1136 * imgNdev img)) &&
  allZero (sliceAt img (76800 + 64 * imgNsect img) (65536 - 64 * imgNsect img)) &&
  (secList img).all (fun x => sectionOk img.length nops x.2)

/-- The bytes of DEVICE_ID. -/
def deviceId (s : State) : List Byte := natLe 16 s.fuses.deviceId.toNat

/-- This device's entry of the device set (R545). -/
def deviceEntry (s : State) (img : List Byte) : Option (List Byte) :=
  ((List.range (imgNdev img)).map (fun i => sliceAt img (4096 + 1136 * i) 1136)).find? (fun e => e.take 16 == deviceId s)

def xorBytes (a b : List Byte) : List Byte := List.zipWith (fun x y => x ^^^ y) a b

/-- The content key of an image, from this device's entry (R545). -/
def contentKey (s : State) (img e : List Byte) : List Byte :=
  let ss := (List.range 32).map (Config.kemDecapRaw (kemSeeds s) (sliceAt e 16 1088))
  xorBytes (sliceAt e 1104 32) (shake 32 (ss ++ deviceId s ++ sliceAt img 64 32))

/-- IV of section i: the index and eight zero bytes (R546). -/
def secIv (i : Nat) : List Byte := natLe 4 i ++ List.replicate 8 0

/-- The plaintext of section i under a content key. -/
def plaintext (img ck : List Byte) (i : Nat) : List Byte :=
  let e := secEntry img i
  let ct := sliceAt img (seOffset e) (seLength e)
  (List.range (seLength e)).map (Config.gcmPlainRaw ck (secIv i) ct)

/-- The GCM tag of section i (R546). -/
def tagOk (img ck : List Byte) (i : Nat) : Bool :=
  let e := secEntry img i
  Config.gcmTagOk ck (secIv i) (e.take 48) (sliceAt img (seOffset e) (seLength e)) (sliceAt e 48 16)

/-! ## Where a section goes (R443, R547 order 4) -/

def sectionOf (i : Nat) (e : List Byte) : Section :=
  { index := i, tier := seTier e, node := seNode e, core := seCore e, loc := seLocal e, len := seLength e }

/-- The core of a section in a RESIDENT bank. -/
def sectionCore (x : Section) : Option CoreId :=
  match tileOfNode x.node with
  | some t => if h : x.core < 64 then some ⟨t, ⟨x.core, h⟩⟩ else none
  | none => none

/-- The place of the first byte of a section. -/
def sectionPlace (x : Section) : Option Place :=
  if x.tier = 0x10 then (sectionCore x).map (fun k => .plain k x.loc)
  else if x.tier = 2 then some (.lpddr x.loc)
  else (tileOfNode x.node).map (fun t => .hbm t x.loc)

/-- A section lies in the partition's data ranges or in RESIDENT banks of one of its cores. -/
def sectionPlaced (s : State) (p : PartId) (x : Section) : Bool :=
  match sectionPlace x with
  | some (.plain k o) =>
    let c := getCore s k
    partHasTile s p k.tile && decide (o + x.len ≤ plainSize) &&
    (List.range 8).all (fun b => decide (o + x.len ≤ b * 0x80000) || decide ((b + 1) * 0x80000 ≤ o) ||
      (c.pln.resident.getLsbD b && bankPower c b != 0))
  | some (.hbm t o) => partHasTile s p t && decide (o + x.len ≤ 0x5D0000000)
  | some (.lpddr o) =>
    let l := s.parts[p].layout
    decide (l.g0.toNat * 2 ^ 30 ≤ o) && decide (o + x.len ≤ (l.g0.toNat + l.gcount.toNat) * 2 ^ 30)
  | _ => false

def sectionsOverlap (x y : Section) : Bool :=
  x.tier == y.tier && x.node == y.node && x.core == y.core && decide (x.loc < y.loc + y.len) && decide (y.loc < x.loc + x.len)

/-- The plain preloads of a constellation as ranges. -/
def preloadSections (c : Constellation) : List Section :=
  c.preloads.map (fun q => { index := 0, tier := 0x10, node := q.tile + 1, core := q.core, loc := q.offset, len := q.bytes.length })

/-- A model that holds memory: bound, or damaged and not yet unbound. -/
def holdsMemory (m : Model) : Bool := m.state == .bound || m.hurt

def placementOk (s : State) (p : PartId) (c : Constellation) (xs : List Section) : Bool :=
  let q := s.parts[p]
  let taken := (q.models.filter holdsMemory).flatMap (fun m => m.sections) ++ preloadSections c
  decide ((q.models.filter holdsMemory).length < 16) && q.streams.isEmpty && xs.all (sectionPlaced s p) &&
  xs.all (fun x => !taken.any (sectionsOverlap x))

/-- Tagged slots whose last bank line a bind, reload or repair writes become FULL (R246, R247). These writes stand outside any step:
they wait on no tag (DESIGN CHOICE, log entry 84). -/
def fillTags (o n : Nat) (c : Core) : Core := (lineSpans o n).foldl (fun c x => afterAccess c .ce true x.1) c

/-- The ranges of fabric addresses that a section in tier 1 or 2 takes. -/
def sectionRanges (x : Section) : List (Nat × Nat) := if x.tier = 0x10 then [] else [(x.node * 2 ^ 48 + x.loc, x.len)]

/-- Write the bytes of a section into place. -/
def writeSection (s : State) (p : PartId) (x : Section) (bs : List Byte) : State :=
  match sectionPlace x with
  | some (.plain k o) => updCore (tierWrite (wakeNow s k.tile) p (.plain k o) bs) k (fillTags o bs.length)
  | some pl => writeBlocks (tierWrite (if x.tier = 2 then countLink s else s) p pl bs) (sectionRanges x)
  | none => s

/-- The block that the sections of an image write in part and whose read fails: the write faults as a read would (R431). -/
def failingPart (s : State) (xs : List Section) : Option (BitVec 56 × Bool) :=
  s.badBlocks.find? (fun b => xs.any (fun x => readsBlock [] (sectionRanges x) b.1))

/-- A section in tier 2 whose granules start-up has not written yet: the bind waits (R432). -/
def sectionReady (s : State) (x : Section) : Bool := x.tier != 2 || granuleReady s (x.loc + x.len - 1)

/-! ## Weights (R42, R154, R205) -/

/-- A section with its plaintext. -/
structure Bound where
  sec : List Byte
  text : List Byte

def rowGroups (o : Op) (rowlen : Nat) : Nat := ceilDiv rowlen (opGroup o)

def expInWindow (o : Op) (b : Byte) : Bool :=
  let e := toSigned b.toNat 8
  decide (opWeLo o ≤ e) && decide (e ≤ opWeHi o)

/-- R42 on a section of group exponents. -/
def expsOk (o : Op) (x : Bound) : Bool := (sliceAt x.text 0 (seRows x.sec * rowGroups o (seRowlen x.sec))).all (expInWindow o)

/-- Lane entry l of band b of a compressed region (R142). -/
def regionLane (bs : List Byte) (b l : Nat) : List Byte := sliceAt bs (fieldAt bs 12 4 + (b * 32 + l) * 32) 32

def regionLanes (bs : List Byte) : List (Nat × List Byte) :=
  (List.range (fieldAt bs 8 2)).flatMap (fun b => (List.range 32).map (fun l => (b, regionLane bs b l)))

/-- R42 on the exponents of a compressed region: one per group for each valid lane. -/
def regionExpsOk (o : Op) (bs : List Byte) : Bool :=
  (regionLanes bs).all (fun x => fieldAt x.2 15 1 % 2 == 0 ||
    (sliceAt bs (fieldAt bs 24 4 + fieldAt x.2 8 4) (groupsOf o (fieldAt bs 4 4))).all (expInWindow o))

/-- R154 on a compressed region, given the planned band lengths of its share. -/
def regionOk (o : Op) (planned : List Nat) (bs : List Byte) : Bool :=
  fieldAt bs 0 1 == o.engopt.toNat && fieldAt bs 1 1 == opWBits o - 1 && fieldAt bs 2 1 == bitsOf o.format.toNat 5 2 &&
  fieldAt bs 8 2 == opNbands o && allZero (sliceAt bs 3 1) && allZero (sliceAt bs 10 2) && allZero (sliceAt bs 32 32) &&
  (regionLanes bs).all (fun x => decide (fieldAt x.2 15 1 < 4) && decide (fieldAt x.2 16 2 < 2 ^ 13) && allZero (sliceAt x.2 21 11) &&
    decide (fieldAt x.2 16 2 ≤ (planned[x.1]?).getD 0))

/-- Planned band lengths of a region's share: that of its core, or the share of the same place in the slice table as the
region among the operation's regions (log entry 20). -/
def plannedOf (c : Constellation) (o : Op) (e : List Byte) (nth : Nat) : List Nat :=
  let sls := opSlices c o.opidx
  let sl := if seTier e = 0x10 then sls.find? (fun x => x.tile + 1 == seNode e && x.core == seCore e) else sls[nth]?
  match sl with
  | some x => (c.bands.drop x.bandOff).take (opNbands o)
  | none => []

/-- Packed code i of a row of b-bit codes that begins at a byte (R38). -/
def codeAt (bs : List Byte) (base b i : Nat) : Nat := fieldAt bs (base + b * i / 8) 3 / 2 ^ (b * i % 8) % 2 ^ b

/-- |m_w| of a code; a check operation counts its plane as 2^(CHECK_P − 1) (R207). -/
def weightAbs (o : Op) (code zp : Nat) : Nat :=
  (weightMantissa o code zp).natAbs * (if opCheckP o = 0 then 1 else 2 ^ (opCheckP o - 1))

/-- ‖w_r‖₁ × 2^128 of row r (R204), from codes, exponents and zero points. -/
def rowNorm (o : Op) (rowlen : Nat) (codes exps zps : List Byte) (r : Nat) : Nat :=
  let b := opWBits o
  let ng := rowGroups o rowlen
  let rb := ceilDiv (rowlen * b) 8
  (List.range rowlen).foldl (fun a i =>
    let g := r * ng + i / opGroup o
    a + weightAbs o (codeAt codes (r * rb) b i) (fieldAt zps g 1) * 2 ^ (toSigned (fieldAt exps g 1) 8 + 128).toNat) 0

/-- The output row that row r of the n-th code section of an operation belongs to: the n-th share of the operation gives its first
row, when the section has that share's size; else the section's rows are its own (log entry 20). -/
def normRow (c : Constellation) (o : Op) (n rows rowlen r : Nat) : Nat × Nat :=
  match (opSlices c o.opidx)[n]? with
  | some x => if x.rows = rows ∧ x.klen = rowlen then (0, x.row0 + r) else (n + 1, r)
  | none => (n + 1, r)

/-- Add a partial norm to that of its row: a row split over several sections has the sum of their norms (R204). -/
def addNorm (acc : List ((Nat × Nat) × Nat)) (x : (Nat × Nat) × Nat) : List ((Nat × Nat) × Nat) :=
  match acc.find? (fun y => y.1 == x.1) with
  | some _ => acc.map (fun y => if y.1 == x.1 then (y.1, y.2 + x.2) else y)
  | none => x :: acc

/-- NORM_MAX × 2^128 of an operation over the code sections of an image; sections of codes, exponents and zero points of an
operation go together in table order (log entry 20). -/
def normOf (c : Constellation) (o : Op) (xs : List Bound) : Option Nat :=
  let of (n : Nat) : List Bound := xs.filter (fun x => seContent x.sec == n && seOpidx x.sec == o.opidx)
  let pairs := (of 1).zip (of 2)
  if pairs.isEmpty then none else
  let norms := (indexed pairs).flatMap (fun y =>
    let x := y.2.1
    let zps := match (of 3)[y.1]? with | some z => z.text | none => []
    (List.range (seRows x.sec)).map (fun r =>
      (normRow c o y.1 (seRows x.sec) (seRowlen x.sec) r, rowNorm o (seRowlen x.sec) x.text y.2.2.text zps r)))
  some ((norms.foldl addNorm []).foldl (fun a y => max a y.2) 0)

/-- Order 7 of R547: the code of the first check that fails. -/
def weightsFail (c : Constellation) (xs : List Bound) : Option (BitVec 16) :=
  let ofOp (x : Bound) : Option Op := (findOp c (seOpidx x.sec)).filter (fun o => decide (o.engine.toNat ≤ 1))
  let regions := xs.filter (fun x => seContent x.sec == 4)
  if !xs.all (fun x => match ofOp x with
      | none => true
      | some o => if seContent x.sec = 2 then expsOk o x else if seContent x.sec = 4 then regionExpsOk o x.text else true) then
    some stRefusedAnchor
  else if !(indexed regions).all (fun y => match findOp c (seOpidx y.2.sec) with
      | none => true
      | some o =>
        let nth := ((regions.take y.1).filter (fun z => seOpidx z.sec == seOpidx y.2.sec)).length
        o.engine == 1 && regionOk o (plannedOf c o y.2.sec nth) y.2.text) then
    some stRefusedImage
  else none

/-- The row norms of the operations whose codes an image carries (R205), merged with those of the models still bound. R205 asks for
them with skip on; NORM_MAX of the others is taken in the same way (DESIGN CHOICE, log entry 20). -/
def mergeNorms (c : Constellation) (old : List (Nat × Nat × Int)) (xs : List Bound) : List (Nat × Nat × Int) :=
  c.ops.filterMap (fun o =>
    let before := old.find? (fun y => y.1 == o.opidx)
    match normOf c o xs, before with
    | some n, some (_, m, _) => some (o.opidx, max n m, -128)
    | some n, none => some (o.opidx, n, -128)
    | none, b => b)

/-! ## The bind (R547, R548) -/

/-- A model entry of a bind that did not succeed (R517, R548). -/
def failedModel (objId : Word64) (img : List Byte) (code : BitVec 16) (fromStore : Bool) : Model :=
  { objId := objId, state := .failed, status := code, digest := sliceAt img 32 32, contentDigest := sliceAt img 64 32,
    sections := [], unbinding := false, unbindCmd := none, fromStore := fromStore, hurt := false }

/-- Enter a model: an earlier failed entry of the same object goes, and beyond 16 entries the oldest failed one (log entry
21). -/
def enterModel (ms : List Model) (m : Model) : List Model :=
  let ms := ms.filter (fun x => !(x.state == .failed && !x.hurt && x.objId == m.objId && x.digest == m.digest)) ++ [m]
  if ms.length ≤ 16 then ms
  else match ms.findIdx? (fun x => x.state == .failed && !x.hurt) with
    | some i => ms.eraseIdx i
    | none => ms

/-- Orders 1 to 4 of R547: the code of the first check that fails, else the constellation and this device's entry. -/
def bindChecks (s : State) (p : PartId) (img : List Byte) : Except (BitVec 16) (Constellation × List Byte) :=
  let q := s.parts[p]
  match q.const with
  | none => .error stRefusedPartition
  | some c =>
    if !headerOk img c.ops.length then .error stRefusedImage else
    match deviceEntry s img with
    | none => .error stBindingMismatch
    | some e =>
      let signOk := if imgSigned img then
          (match publisherKey q (sliceAt img 96 32) with
           | some k => Config.mldsaVerify k (sliceAt img 32 32) [] (sliceAt img 512 3309)
           | none => false)
        else !q.layout.requireSigned
      if !signOk then .error stSignatureInvalid
      else if !placementOk s p c ((secList img).map (fun x => sectionOf x.1 x.2)) then .error stRefusedPartition
      else .ok (c, e)

/-- Every section of an image lies in granules that start-up has written. -/
def bindReady (s : State) (img : List Byte) : Bool := (secList img).all (fun x => sectionReady s (sectionOf x.1 x.2))

/-- Codes of a read of a tier that fails (R434). -/
def tierCode (integ : Bool) : BitVec 16 := if integ then stMemIntegrity else stMemUncorrectable

/-- Sections of an image lie in the place of the zero bytes (R548), and the model's entry reads failed. -/
def failBind (s : State) (p : PartId) (objId : Word64) (fromStore : Bool) (img : List Byte) (code : BitVec 16) : BitVec 16 × State :=
  let s := (secList img).foldl (fun s x =>
    let y := sectionOf x.1 x.2
    writeSection s p y (List.replicate y.len 0)) s
  (code, updPart s p (fun q => { q with models := enterModel q.models (failedModel objId img code fromStore) }))

/-- MODEL_BIND of an image (R547, R548): its code and the state after it. -/
def bindModel (s : State) (p : PartId) (objId : Word64) (fromStore : Bool) (img : List Byte) : BitVec 16 × State :=
  match bindChecks s p img with
  | .error code => (code, s)
  | .ok (c, e) =>
    match failingPart s ((secList img).map (fun x => sectionOf x.1 x.2)) with
    | some (a, integ) =>
      let s := damageBlock (noteTierError s a integ) p a (tierCode integ)
      (tierCode integ, updPart s p (fun q => { q with models := enterModel q.models (failedModel objId img (tierCode integ) fromStore) }))
    | none =>
    let ck := contentKey s img e
    let xs : List (Section × Bound) := (secList img).map (fun x => (sectionOf x.1 x.2, ⟨x.2, plaintext img ck x.1⟩))
    let s := xs.foldl (fun s x => writeSection s p x.1 x.2.text) s
    let auth := (secList img).all (fun x => tagOk img ck x.1) && imageDigest img == sliceAt img 32 32 &&
      shake 32 (xs.flatMap (fun x => x.2.text)) == sliceAt img 64 32
    let bounds := xs.map (fun x => x.2)
    match (if auth then weightsFail c bounds else some stImageAuth) with
    | some code => failBind s p objId fromStore img code
    | none =>
      let m : Model := { failedModel objId img stOk fromStore with state := .bound, sections := xs.map (fun x => x.1) }
      (stOk, updPart s p (fun q =>
        let norms := mergeNorms c (if q.models.any holdsMemory then q.normMax else []) bounds
        { q with models := enterModel q.models m, normMax := norms, errStatements := statements c true norms,
                 hurt := q.hurt.filter (fun d => d != m.contentDigest) }))

/-- MODEL_BIND from an object of the store: its image is read first, and a codeword that stays uncorrected ends the bind as order 6
would, once a constellation is loaded (R434; log entry 22). -/
def bindObject (s : State) (p : PartId) (o : StoreObj) : BitVec 16 × State :=
  let (whole, s) := readStore s o 0 o.bytes.length
  if whole then bindModel s p o.id true o.bytes
  else match bindChecks s p o.bytes with
    | .error code => (if s.parts[p].const.isNone then code else stMemUncorrectable, s)
    | .ok _ => failBind s p o.id true o.bytes stMemUncorrectable

/-! ## Repair and reload (R258, R436, R618) -/

/-- A SEALED object of a namespace. -/
def sealedObj (q : Partition) (id : Word64) : Option StoreObj := q.objects.find? (fun o => o.id == id && o.sealed)

/-- A repair is recorded as a residency reload (R258, R436). -/
def noteReload (s : State) (p : PartId) (digest : List Byte) (i : Nat) : State :=
  updPart s p (fun q => { q with reloads := q.reloads ++ [{ digest := digest, sectionIx := i, tick := s.now }] })

/-- A failing block that a repaired section takes in part is whole again with what else it held lost: free bytes (R436, log entry
78). -/
def dropBlocks (s : State) (p : PartId) (x : Section) : State :=
  (s.badBlocks.filter (fun b => readsBlock [] (sectionRanges x) b.1)).foldl (fun s b =>
    match placeOf (blockOf b.1) with
    | some pl =>
      let s := writeBlocks (tierWrite s p pl (freeBytes s.freeNext 256)) [(blockOf b.1, 256)]
      { s with freeNext := s.freeNext + 256 }
    | none => s) s

/-- Read a section of a model again from its object, decrypt it, rewrite it and record the reload: whether that was possible, and the
state after it. There is no source when the model was bound from a host buffer, when the object is gone or lost a codeword of the
section, or when the tag does not match. -/
def restoreSection (s : State) (p : PartId) (m : Model) (x : Section) : Bool × State :=
  match (sealedObj s.parts[p] m.objId).filter (fun _ => m.fromStore) with
  | none => (false, s)
  | some o => match deviceEntry s o.bytes with
    | none => (false, s)
    | some e =>
      let ck := contentKey s o.bytes e
      let (whole, s) := readStore s o (seOffset (secEntry o.bytes x.index)) (seLength (secEntry o.bytes x.index))
      if whole && tagOk o.bytes ck x.index then
        (true, noteReload (writeSection (dropBlocks s p x) p x (plaintext o.bytes ck x.index)) p m.contentDigest x.index)
      else (false, s)

/-- A model that cannot be repaired (R436). -/
def damageModel (q : Partition) (i : Nat) (code : BitVec 16) : Partition :=
  { q with models := q.models.modify i (fun m => { m with state := .failed, status := code, hurt := true }) }

/-- Repair the section of a model that failed with a code, or mark the model damaged. -/
def repairSection (s : State) (p : PartId) (i : Nat) (m : Model) (x : Section) (code : BitVec 16) : State :=
  match restoreSection s p m x with
  | (true, s) => s
  | (false, s) => updPart s p (fun q => damageModel q i code)

/-- MODEL_SECTION_REPAIR (R436): before the next release, the section that failed first is decrypted again from its object, or its
model is damaged. -/
def execModelSectionRepair (p : PartId) (s : State) : Out :=
  match s.parts[p].damaged with
  | [] => .next s
  | (i, j, code) :: rest =>
    if !powered s || s.parts[p].run.isSome then .next s else
    let s := updPart s p (fun q => { q with damaged := rest })
    match s.parts[p].models[i]? with
    | none => .next s
    | some m => match m.sections.find? (fun x => x.index == j) with
      | none => .next s
      | some x => .next (repairSection s p i m x code)

/-- A range of a plain overlaps a bank. -/
def inBank (bank : Fin 8) (o n : Nat) : Bool := decide (o < (bank.val + 1) * 0x80000) && decide (bank.val * 0x80000 < o + n)

/-- Models of a partition with a section of core k that meets a range of its plain. -/
def plainSections (q : Partition) (k : CoreId) (o n : Nat) : List (Nat × Model × Section) :=
  (indexed q.models).flatMap (fun y => (y.2.sections.filter (fun x =>
    x.tier == 0x10 && sectionCore x == some k && decide (x.loc < o + n) && decide (o < x.loc + x.len))).map (fun x => (y.1, y.2, x)))

/-- Rewrite the plain preloads of a core in a bank, each recorded as a reload (R258, R618). -/
def rewritePreloads (s : State) (p : PartId) (k : CoreId) (bank : Fin 8) : State :=
  match s.parts[p].const with
  | none => s
  | some c => (c.preloads.filter (fun x => x.tile == k.tile.val && x.core == k.core.val && inBank bank x.offset x.bytes.length)).foldl
      (fun s x => noteReload (updCore s k (fun y => { y with plain := memWrite y.plain x.offset x.bytes })) p [] 0) s

/-- RESIDENT_BANK_RELOAD (R258, R618): between steps, the sections and preloads of a bank that a second detection hit are
written again; a word of a model bound from a host buffer is not, and that model is damaged. -/
def execResidentBankReload (k : CoreId) (bank : Fin 8) (s : State) : Out :=
  match tilePart s k.tile with
  | none => .next s
  | some p =>
    if !powered s || s.parts[p].run.isSome || ((getCore s k).reload.map wordBank) != some bank then .next s else
    let word := 8 * ((getCore s k).reload.getD 0).toNat
    let s := updCore s k (fun c => { c with reload := none })
    match (plainSections s.parts[p] k word 8).find? (fun y => !y.2.1.fromStore) with
    | some y => .next (updPart s p (fun q => damageModel q y.1 stStepFault))
    | none =>
      let s := wakeNow s k.tile
      let s := (plainSections s.parts[p] k (bank.val * 0x80000) 0x80000).foldl (fun s y =>
        if y.2.1.fromStore then repairSection s p y.1 y.2.1 y.2.2 stStepFault else s) s
      .next (rewritePreloads s p k bank)

end Sys2Proof.Machine
end

