-- ==== Sys2Proof/Machine/Attest.lean ====
section
/-! DEFINITION. Attestation reports (R22, R550, R551) and the byte forms of layout entries and scrub records (R534, R540). -/

namespace Sys2Proof.Machine

/-! ## Byte forms -/

def boolByte (b : Bool) : Byte := if b then 1 else 0

/-- A layout entry for partition p in 32 bytes, with a value for its reserved byte [7] (R534, R550). An undefined entry has
FUNCTION 0xFF and its number. -/
def layoutBytes (p : Nat) (l : LayoutEntry) (byte7 : Nat) : List Byte :=
  [BitVec.ofNat 8 p, BitVec.ofNat 8 ((if l.defined then 1 else 0) + (if l.confidential then 2 else 0) + (if l.requireSigned then 4 else 0))] ++
  natLe 2 l.tiles.toNat ++ natLe 2 l.hubBlocks.toNat ++ [l.function, BitVec.ofNat 8 byte7] ++ natLe 2 l.g0.toNat ++
  natLe 2 l.gcount.toNat ++ natLe 2 l.nsExtents.toNat ++ List.replicate 18 0

/-- A scrub record in 32 bytes (R540). -/
def scrubBytes (r : ScrubRecord) : List Byte :=
  natLe 8 r.tick.toNat ++ natLe 1 r.part ++ natLe 1 r.cause ++ natLe 2 r.layout.tiles.toNat ++ natLe 2 r.layout.hubBlocks.toNat ++
  natLe 2 r.layout.g0.toNat ++ natLe 2 r.layout.gcount.toNat ++ natLe 2 r.extents.toNat ++ List.replicate 12 0

/-! ## The report -/

/-- Digest of the firmware image a component runs (R550, R570). -/
def runningSlot (c : FwComp) : FwSlot := if c.runs1 then c.slot1 else c.slot0

/-- Whether a report shows the digests of a partition (R551): those of a confidential one only to its own function. -/
def showsDigests (s : State) (requestor : Nat) (p : PartId) : Bool :=
  let l := s.parts[p].layout
  l.defined && (!l.confidential || l.function.toNat == requestor)

/-- Models of a partition in the attestation store: bound and not yet unbound, in bind order. -/
def attested (q : Partition) : List Model := q.models.filter holdsMemory

/-- Model entries that a report lists for a partition. -/
def reportModels (s : State) (requestor : Nat) (p : PartId) : List Model :=
  if showsDigests s requestor p then attested s.parts[p] else []

def modelEntry (p : PartId) (m : Model) : List Byte :=
  [BitVec.ofNat 8 p.val] ++ List.replicate 7 0 ++ natLe 8 m.objId.toNat ++ sliceAt m.digest 0 32 ++ sliceAt m.contentDigest 0 32

/-- The entry of a partition: its layout with NMODEL in byte [7], and CONST_DIGEST. -/
def partEntry (s : State) (requestor : Nat) (p : PartId) : List Byte :=
  let q := s.parts[p]
  let dig := match q.const with
    | some c => if showsDigests s requestor p then sliceAt c.digest 0 32 else List.replicate 32 0
    | none => List.replicate 32 0
  layoutBytes p.val q.layout (reportModels s requestor p).length ++ dig

/-- The part of the identity certificate that Dziwald signs (R543): DEVICE_ID, CERT_VER, the two public keys of R542, ISSUER. -/
def certHead (s : State) : List Byte :=
  deviceId s ++ natLe 4 1 ++ List.replicate 12 0 ++ (List.range 1952).map (Config.mldsaPublicRaw (identitySeed s)) ++
  (List.range 1184).map (Config.kemPublicRaw (kemSeeds s)) ++ shake 32 Config.issuingKey

/-- The identity certificate of R543. -/
def certificate (s : State) : List Byte :=
  certHead s ++ (List.range 3309).map (Config.issuerSignRaw (certHead s)) ++ List.replicate 19 0

/-- A signature with the identity key (R542). -/
def identitySign (s : State) (msg ctx : List Byte) : List Byte := (List.range 3309).map (Config.mldsaSignRaw (identitySeed s) msg ctx)

/-- ASCII bytes of a text. -/
def ascii (t : String) : List Byte := t.toList.map (fun c => BitVec.ofNat 8 c.toNat)

/-- The bytes that the report's signature covers, for a requestor (function number, or 0x10 for management) and a nonce. -/
def reportBody (s : State) (requestor : Nat) (nonce : List Byte) : List Byte :=
  let models := allParts.flatMap (fun p => (reportModels s requestor p).map (modelEntry p))
  let scrubs := s.mgmt.scrubRecords
  let len := 1024 + 80 * models.length + 32 * scrubs.length
  let digs := [s.fuses.bootRom] ++ s.boot.fw.toList.map (fun c => (runningSlot c).image)
  natLe 8 0x525453455454415A ++ natLe 2 1 ++ natLe 1 requestor ++ natLe 1 scrubs.length ++ natLe 2 models.length ++ natLe 2 0 ++
  natLe 4 len ++ natLe 4 (len + 9856) ++ natLe 8 0 ++ deviceId s ++ sliceAt nonce 0 32 ++ natLe 8 s.now.toNat ++
  natLe 8 s.hub.epoch.toNat ++ natLe 8 s.boot.restoreGen.toNat ++ List.replicate 24 0 ++ digs.flatMap (shake 32) ++
  allParts.flatMap (partEntry s requestor) ++ models.flatMap id ++ scrubs.flatMap scrubBytes

/-- An attestation report (R550). -/
def report (s : State) (requestor : Nat) (nonce : List Byte) : List Byte :=
  let body := reportBody s requestor nonce
  body ++ identitySign s body (ascii "G12ATTEST") ++ List.replicate 19 0 ++ certificate s

end Sys2Proof.Machine
end

