-- ==== Sys2Proof/Machine/Host.lean ====
section
/-! DEFINITION. The host's commands (R514 to R523): IDENTIFY, QUERY, ATTEST, loads, binds, sessions, enqueues, settings. -/

namespace Sys2Proof.Machine

/-! ## What every command shares (R506, R508, R512, R514, R516, R587) -/

def stTestBusy : BitVec 16 := 0x020E
def stHostNoSession : BitVec 16 := 0x0303
def stHostSessionClosed : BitVec 16 := 0x0304
def stHostNotOwner : BitVec 16 := 0x0305
def stHostSessionLimit : BitVec 16 := 0x0306

/-- The device carries out host commands: it has power and is ready (R524). -/
def hostReady (s : State) : Bool := powered s && s.boot.ready && !s.boot.stopped

/-- FLAGS other than ORDER, bytes [7:2] and every byte from 20 on that is in no field are zero. -/
def cleanEntry (e : List Byte) (fields : List (Nat × Nat)) : Bool :=
  decide (entFlags e < 2) && allZero (sliceAt e 2 6) &&
  (List.range 44).all (fun i => fields.any (fun f => decide (f.1 ≤ i + 20) && decide (i + 20 < f.1 + f.2)) || fieldAt e (i + 20) 1 == 0)

/-- BUF and BUFLEN of a command that needs at least n bytes, or none. -/
def bufOk (s : State) (f : FuncId) (e : List Byte) (need : Option Nat) : Bool :=
  match need with
  | none => entBuf e == 0 && entLen e == 0
  | some n => decide (n ≤ entLen e) && (entLen e == 0 || inWindow s f (entBuf e) (entLen e))

/-- Carry out the command in a slot when it is fetched with this opcode (and KIND or ITEM) and may start: malformed entries
are refused (R516), test state refuses what R587 lists, the rest acts. -/
def hostCmd (c : HostSlot) (op : Nat) (item : Option Nat) (inTest : Bool) (fields : List (Nat × Nat)) (need : List Byte → Option Nat)
    (listed : List Byte → Bool) (act : List Byte → State → State) (s : State) : Out :=
  match findFetched s c with
  | none => .next s
  | some x =>
    let e := x.entry
    if !hostReady s || entOpcode e != op || !(match item with | some k => entKind e == k | none => true) ||
       !mayStart (getRing s c.func c.ring) c.slot then .next s
    else
      let s := markStarted s c
      if !cleanEntry e fields || !bufOk s c.func e (need e) || !listed e then .next (complete s c stHostBadCommand [])
      else if s.test.test && !inTest then .next (complete s c stTestBusy [])
      else .next (act e s)

/-- The partition of a function that takes commands: mapped, and not being torn down (R506, R535). -/
def cmdPart (s : State) (f : FuncId) : Option PartId :=
  match funcPart s f with
  | none => none
  | some p => if (match s.mgmt.job with | some j => j.torn.getLsbD p.val | none => false) then none else some p

/-- Act on the function's partition, or refuse. -/
def withPart (s : State) (c : HostSlot) (act : PartId → State) : State :=
  match cmdPart s c.func with
  | none => complete s c stRefusedPartition []
  | some p => act p

/-- No buffer; a buffer of at least n bytes. -/
def noBuf (_ : List Byte) : Option Nat := none
def bufOf (n : Nat) (_ : List Byte) : Option Nat := some n
def anyValue (_ : List Byte) : Bool := true

/-- An object that commands can name: it exists and no DELETE waits for it (R442). -/
def visibleObj (q : Partition) (id : Word64) : Option StoreObj :=
  (q.objects.find? (fun o => o.id == id)).filter (fun _ => !q.waitingDeletes.any (fun d => d.2 == id))

def entId (e : List Byte) : Word64 := BitVec.ofNat 64 (fieldAt e 24 8)

/-! ## IDENTIFY, QUERY, ATTEST (R517, R551) -/

/-- Running version of a component. -/
def runningVersion (s : State) (i : Nat) : Word64 := match s.boot.fw.toList[i]? with | some c => (runningSlot c).version | none => 0

def versionWords (s : State) : List Byte := (List.range 3).flatMap (fun i => natLe 8 (runningVersion s i).toNat)

def identifyBlock (s : State) (f : FuncId) : List Byte :=
  deviceId s ++ sliceAt (ascii "DZ-G12-4T") 0 16 ++ natLe 1 f.val ++ natLe 1 (match funcPart s f with | some p => p.val | none => 0xFF) ++
  sliceAt (versionWords s) 0 30

def execIdentify (c : HostSlot) (s : State) : Out :=
  hostCmd c 0x01 none true [] (bufOf 64) anyValue (fun e s =>
    complete (commandWrite s c (entBuf e) (identifyBlock s c.func)) c stOk []) s

/-- QUERY of KIND 0x01: an OPIDX without an operation is a value not listed. -/
def execQueryErrorStatement (c : HostSlot) (s : State) : Out :=
  hostCmd c 0x02 (some 1) true [(20, 1), (22, 2)] (bufOf 48) anyValue (fun e s => withPart s c (fun p =>
    match s.parts[p].errStatements[fieldAt e 22 2]? with
    | none => complete s c stHostBadCommand []
    | some b => complete (commandWrite s c (entBuf e) b) c stOk [])) s

def bindCode : BindState → Nat
  | .none => 0
  | .binding => 1
  | .bound => 2
  | .failed => 3

/-- One entry of QUERY of KIND 0x02. -/
def bindEntry (id : Word64) (st : BindState) (code : BitVec 16) : List Byte :=
  natLe 8 id.toNat ++ natLe 1 (bindCode st) ++ natLe 1 0 ++ natLe 2 code.toNat ++ natLe 4 0

/-- The 16 entries: the models of the partition, and the one that residency is binding. -/
def bindStates (q : Partition) : List Byte :=
  sliceAt (q.models.flatMap (fun m => bindEntry m.objId m.state m.status) ++
    (match q.resJobs with | .bind id :: _ => bindEntry id .binding 0 | _ => [])) 0 256

def execQueryBindState (c : HostSlot) (s : State) : Out :=
  hostCmd c 0x02 (some 2) true [(20, 1), (22, 2)] (bufOf 256) anyValue (fun e s => withPart s c (fun p =>
    complete (commandWrite s c (entBuf e) (bindStates s.parts[p])) c stOk [])) s

/-- ATTEST (R550, R551), for any function. -/
def execAttest (c : HostSlot) (s : State) : Out :=
  hostCmd c 0x03 none true [(20, 32)] (bufOf 27264) anyValue (fun e s =>
    complete (commandWrite s c (entBuf e) (report s c.func.val (sliceAt e 20 32))) c stOk []) s

/-! ## Loads and binds (R287, R547, R549) -/

/-- SOURCE is listed; an image comes from BUF or from an object. -/
def sourceListed (e : List Byte) : Bool := decide (entKind e ≤ 1)
def sourceBuf (e : List Byte) : Option Nat := if entKind e = 0 then some 1 else none

/-- The image that SOURCE names: none when its object is not SEALED or does not exist. -/
def sourceImage (s : State) (c : HostSlot) (p : PartId) (e : List Byte) : Option (List Byte) :=
  if entKind e = 0 then some (hostRead s c.func (entBuf e) (entLen e))
  else ((visibleObj s.parts[p] (entId e)).filter (fun o => o.sealed)).map (fun o => o.bytes)

/-- Read the image that SOURCE names: whether every codeword of an object was corrected (R425). -/
def readSource (s : State) (p : PartId) (e : List Byte) : Bool × State :=
  if entKind e = 0 then (true, s) else
  match visibleObj s.parts[p] (entId e) with
  | some o => readStore s o 0 o.bytes.length
  | none => (true, s)

/-- Load an image for partition p: refused, with ST_PASS_DOWN once a pass is down (R396), or committed with its V_adm (R287 to R293). -/
def loadImage (s : State) (p : PartId) (f : Option FuncId) (img : List Byte) : BitVec 16 × List Byte × State :=
  if s.hub.passDown then (stPassDown, [], s) else
  match checkLoad s p f img with
  | .error e => (e.code, loadResult e, s)
  | .ok v => (stOk, [], commit s p (parseImage img) v)

def execConstLoad (c : HostSlot) (s : State) : Out :=
  hostCmd c 0x10 none false [(20, 1), (24, 8)] sourceBuf sourceListed (fun e s => withPart s c (fun p =>
    if loading s.parts[p] then complete s c stRefusedLoadBusy []
    else if s.hub.passDown then complete s c stPassDown []
    else match sourceImage s c p e with
      | none => complete s c stStoreNoObject []
      | some img =>
        let (whole, s) := readSource s p e
        if !whole then complete s c stMemUncorrectable [] else
        let (code, result, s) := loadImage s p (some c.func) img
        complete s c code result)) s

/-- MODEL_BIND (R547): a partition without a constellation is checked before anything else; while a tier-2 granule that the bind
writes has not been initialised it waits (R432). -/
def execModelBind (c : HostSlot) (s : State) : Out :=
  let waits := match findFetched s c, cmdPart s c.func with
    | some x, some p => (match sourceImage s c p x.entry with
      | some img => (match bindChecks s p img with | .ok _ => !bindReady s img | .error _ => false)
      | none => false)
    | _, _ => false
  if waits then .next s else
  hostCmd c 0x11 none false [(20, 1), (24, 8)] sourceBuf sourceListed (fun e s => withPart s c (fun p =>
    if s.parts[p].const.isNone then complete s c stRefusedPartition []
    else if entKind e = 0 then
      let (code, s) := bindModel s p 0 false (hostRead s c.func (entBuf e) (entLen e))
      complete s c code []
    else match (visibleObj s.parts[p] (entId e)).filter (fun o => o.sealed) with
      | none => complete s c stStoreNoObject []
      | some o =>
        let (code, s) := bindObject s p o
        complete s c code [])) s

/-- The model that an unbind names: a damaged one before a bound one, the earliest first (log entry 21). -/
def unbindTarget (q : Partition) (id : Word64) : Option Nat :=
  match q.models.findIdx? (fun m => m.objId == id && m.hurt && !m.unbinding) with
  | some i => some i
  | none => q.models.findIdx? (fun m => m.objId == id && m.state == .bound && !m.unbinding)

/-- MODEL_UNBIND (R549): it completes when it has taken effect at the meridian. -/
def execModelUnbind (c : HostSlot) (s : State) : Out :=
  hostCmd c 0x12 none false [(24, 8)] noBuf anyValue (fun e s => withPart s c (fun p =>
    match unbindTarget s.parts[p] (entId e) with
    | none => complete s c stHostBadCommand []
    | some i => updPart s p (fun q => { q with models := q.models.modify i (fun m => { m with unbinding := true, unbindCmd := some c }) }))) s

/-! ## Sessions (R464, R469, R475, R520, R521) -/

/-- The lowest free session id from 1. -/
def freeSession (q : Partition) : Nat := ((List.range 257).find? (fun i => 1 ≤ i && !q.sessions.any (fun x => x.id == i))).getD 1

/-- A session opens. -/
def enterSession (s : State) (p : PartId) (c : HostSlot) (contract : Option Nat) (streams : List Stream) : State :=
  let id := freeSession s.parts[p]
  let s := updPart s p (fun q =>
    { q with sessions := q.sessions ++ [{ id := id, contract := contract, closing := none }], streams := q.streams ++ streams })
  complete s c stOk (natLe 2 0 ++ natLe 2 id ++ List.replicate 10 0)

/-- The stream of a contract opens now: V_adm holds on its pinned tiles, of which those asleep are woken (R410); its ticks join the window's
forecast (R469, R475). -/
def openStream (s : State) (p : PartId) (k : Constellation) (x : Contract) (v : Nat) : State :=
  let s := updPart s p (fun q => { q with vadm := BitVec.ofNat 10 v })
  let n := ticksIn { contract := x.id, r0 := s.now.toNat, next := s.now.toNat } x.period s.now.toNat s.sched.nextStart.toNat
  let e : Int := ((n : Rat) * contractEnergy k x v).ceil
  let s := updSched s (fun y => { y with room := y.room - e, slewRoom := y.slewRoom.map (fun z => z - e) })
  let s := forAll (pinnedTiles k x) (fun s t => updTile s t (fun y =>
    { y with pwr := { y.pwr with vadm := BitVec.ofNat 10 v, vnext := BitVec.ofNat 10 (max v (floorAt y.pwr)), parkChosen := false } })) s
  forAll (pinnedTiles k x) wakeNow s

/-- Open a session on a contract or best effort: the answer of SESSION_OPEN once no bind holds it up. -/
def openSession (s : State) (p : PartId) (c : HostSlot) (id : Nat) : State :=
  let q := s.parts[p]
  if loading q then complete s c stRefusedLoadBusy []
  else if 256 ≤ q.sessions.length then complete s c stHostSessionLimit []
  else if id = 0xFFFF then enterSession s p c none []
  else match q.const with
    | none => complete s c stHostBadCommand []
    | some k => match findContract k id with
      | none => complete s c stHostBadCommand []
      | some x =>
        if q.streams.any (fun y => y.contract == id) then enterSession s p c (some id) []
        else match admitOpen s p k x with
          | .refused code _ short => complete s c code (List.replicate 10 0 ++ natLe 4 short)
          | .granted v =>
            let s := openStream s p k x v
            let r := s.now.toNat
            meridianIfIdle (updReserve (enterSession s p c (some id) [{ contract := id, r0 := r, next := r }])) p

/-- SESSION_OPEN (R464, R549): the opening of a stream waits while a bind runs. -/
def execSessionOpen (c : HostSlot) (s : State) : Out :=
  hostCmd c 0x20 none false [(20, 2)] noBuf anyValue (fun e s => withPart s c (fun p =>
    let id := fieldAt e 20 2
    if id != 0xFFFF && binding s.parts[p] && !loading s.parts[p] && !s.parts[p].streams.any (fun y => y.contract == id) then
      updPart s p (fun q => { q with waitingOpens := q.waitingOpens ++ [(c, id)] })
    else openSession s p c id)) s

/-- SESSION_OPEN_AFTER_BIND (R549): the bind has completed; the open that waited longest is admitted. -/
def execSessionOpenAfterBind (p : PartId) (s : State) : Out :=
  match s.parts[p].waitingOpens with
  | [] => .next s
  | (c, id) :: rest =>
    if binding s.parts[p] || !hostReady s then .next s
    else .next (openSession (updPart s p (fun q => { q with waitingOpens := rest })) p c id)

/-- Close a session (R521): its unreleased steps complete with ST_HOST_SESSION_CLOSED; the close itself waits for a released
one. -/
def closeSession (s : State) (p : PartId) (id : Nat) (cmd : Option HostSlot) : State :=
  let q := s.parts[p]
  let mine := q.queue.filter (fun x => x.session == id)
  let s := mine.foldl (fun s x => completeStep s x stHostSessionClosed (enqueueResult 0 0)) s
  let s := updPart s p (fun q =>
    { q with queue := q.queue.filter (fun x => x.session != id),
             sessions := q.sessions.map (fun x => if x.id == id then { x with closing := some cmd } else x) })
  finishCloses s p

/-- An open session of the partition that is not closing. -/
def openSessionOf (q : Partition) (id : Nat) : Option Session := q.sessions.find? (fun x => x.id == id && x.closing.isNone)

def execSessionClose (c : HostSlot) (s : State) : Out :=
  hostCmd c 0x21 none false [(20, 2)] noBuf anyValue (fun e s => withPart s c (fun p =>
    match openSessionOf s.parts[p] (fieldAt e 20 2) with
    | none => complete s c stHostNoSession []
    | some x => closeSession s p x.id (some c))) s

/-! ## ENQUEUE (R317, R436, R518 to R520) -/

/-- Shape entry i of a parameter block. -/
def shapeAt (blk : List Byte) (i : Nat) : List Byte := sliceAt blk (64 + 16 * i) 16

/-- The shape list names operations below NOPS, each once, and its reserved bytes are zero. -/
def shapesOk (blk : List Byte) (n nops : Nat) : Bool :=
  (List.range n).all (fun i => let e := shapeAt blk i
    decide (fieldAt e 0 2 < nops) && fieldAt e 2 2 == 0 && (List.range i).all (fun j => fieldAt (shapeAt blk j) 0 2 != fieldAt e 0 2))

/-- The first bucket of an operation that covers a shape (R278, R317). -/
def coverBucket (o : Op) (m n k : Nat) : Option Nat :=
  o.buckets.findIdx? (fun b => decide (m ≤ b.m) && decide (n ≤ b.n) && decide (k ≤ b.k))

/-- The shape that an operation takes in a step; none when no bucket, or none up to MAXBUCKET, covers it. -/
def shapeOf (blk : List Byte) (nshape : Nat) (maxBucket : Option Nat) (o : Op) : Option OpShape :=
  let top := topBucket o
  let (m, n, k) := match (List.range nshape).find? (fun i => fieldAt (shapeAt blk i) 0 2 == o.opidx) with
    | some i => let e := shapeAt blk i
      (fieldAt e 4 4, fieldAt e 8 4, fieldAt e 12 4)
    | none => (top.m, top.n, top.k)
  if m = 0 ∨ n = 0 then some { opidx := o.opidx, bucket := 0, m := m, n := n, k := k, skipped := true }
  else match coverBucket o m n k with
    | none => none
    | some b =>
      if (match maxBucket with | some x => decide (x < b) | none => false) then none
      else some { opidx := o.opidx, bucket := b, m := m, n := n, k := k, skipped := false }

/-- A model of the partition is damaged and not yet bound again (R436). -/
def partDamaged (q : Partition) : Bool := q.models.any (fun m => m.hurt) || !q.hurt.isEmpty

/-- ENQUEUE: checks in order, then the step waits for its release. -/
def enqueue (s : State) (p : PartId) (c : HostSlot) (e : List Byte) : State :=
  let q := s.parts[p]
  match openSessionOf q (fieldAt e 20 2) with
  | none => complete s c stHostNoSession []
  | some ses =>
    if s.hub.passDown then complete s c stPassDown [] else
    match q.const with
    | none => complete s c stRefusedPartition []
    | some k =>
      if partDamaged q then complete s c stModelDamaged [] else
      let contract := ses.contract.bind (findContract k)
      let entry := fieldAt e 22 1
      let nshape := fieldAt e 24 2
      let recbuf := fieldAt e 32 8
      let blk := hostRead s c.func (entBuf e) (64 + 16 * nshape)
      if (match contract with | some x => x.entry != entry | none => false) || !shapesOk blk nshape k.ops.length ||
         (recbuf != 0 && !inWindow s c.func recbuf (64 * k.ops.length)) then complete s c stHostBadCommand []
      else
        let maxBucket := contract.map (fun x => x.maxBucket)
        match k.ops.find? (fun o => (shapeOf blk nshape maxBucket o).isNone) with
        | some o => complete s c stShapeExceedsPlan (enqueueResult o.opidx 0)
        | none =>
          if 64 ≤ q.queue.length then complete s c stHostRingFull []
          else
            let x : Step :=
              { id := s.nextId, cmd := some c, session := ses.id, entry := entry, prio := fieldAt e 23 1,
                args := (List.range 8).map (fun i => BitVec.ofNat 64 (fieldAt blk (8 * i) 8)),
                shapes := k.ops.filterMap (shapeOf blk nshape maxBucket), recbuf := recbuf, contract := ses.contract, tick := none,
                arrival := s.now, held := false }
            updPart { s with nextId := s.nextId + 1 } p (fun q => { q with queue := q.queue ++ [x] })

def execEnqueue (c : HostSlot) (s : State) : Out :=
  hostCmd c 0x22 none false [(20, 6), (32, 8)] (fun e => some (64 + 16 * fieldAt e 24 2))
    (fun e => decide (fieldAt e 22 1 ≤ 15) && decide (fieldAt e 23 1 ≤ 7))
    (fun e s => withPart s c (fun p => enqueue s p c e)) s

/-! ## SET (R522) -/

def entTarget (e : List Byte) : Nat := fieldAt e 21 1
def entValue (e : List Byte) : Word64 := BitVec.ofNat 64 (fieldAt e 24 8)

/-- A tile of the module, or the hub. -/
def targetOkSet (e : List Byte) : Bool := decide (entTarget e < 12) || entTarget e == 0xFF

def valueIn (e : List Byte) (lo hi : Int) : Bool := decide (lo ≤ (entValue e).toInt) && decide ((entValue e).toInt ≤ hi)

/-- Change a kept setting: the record first, then the setting, then the completion. -/
def setKept (s : State) (c : HostSlot) (f : Retained → Retained) (act : State → State) : State :=
  let (ok, s) := writeRecord s f
  if ok then complete (act s) c stOk [] else complete s c stRecordWriteFail []

/-- SET of the mapped function. -/
def setPart (c : HostSlot) (item : Nat) (listed : List Byte → Bool) (f : PartId → List Byte → PartSet → PartSet)
    (act : PartId → List Byte → State → State) (s : State) : Out :=
  hostCmd c 0x40 (some item) true [(20, 2), (24, 8)] noBuf anyValue (fun e s => withPart s c (fun p =>
    if !listed e then complete s c stHostBadCommand [] else
    setKept s c (fun r => { r with partset := r.partset.set p (f p e r.partset[p]) }) (act p e))) s

/-- SET of PF0 only. -/
def setDevice (c : HostSlot) (item : Nat) (listed : List Byte → Bool) (f : List Byte → Retained → Retained)
    (act : List Byte → State → State) (s : State) : Out :=
  hostCmd c 0x40 (some item) true [(20, 2), (24, 8)] noBuf anyValue (fun e s =>
    if c.func != 0 then complete s c stHostNotOwner []
    else if !listed e then complete s c stHostBadCommand []
    else setKept s c (f e) (act e)) s

def execSetPseed (c : HostSlot) (s : State) : Out :=
  setPart c 1 anyValue (fun _ e x => { x with pseed := entValue e }) (fun p e s => updPart s p (fun q => { q with pseed := entValue e })) s

def execSetReproducibilityMode (c : HostSlot) (s : State) : Out :=
  setPart c 2 (fun e => decide ((entValue e).toNat ≤ 1)) (fun _ e x => { x with adaptive := entValue e == 1 })
    (fun p e s => meridianIfIdle (updPart s p (fun q => { q with adaptivePending := some (entValue e == 1) })) p) s

def execSetResidencyList (c : HostSlot) (s : State) : Out :=
  setPart c 3 anyValue (fun _ e x => { x with residency := entValue e })
    (fun p e s => updPart s p (fun q => { q with residency := entValue e })) s

def execSetWindowLength (c : HostSlot) (s : State) : Out :=
  setDevice c 4 (fun e => valueIn e 1 100) (fun e r => { r with windowMs := (entValue e).truncate 7 })
    (fun e s => updSched s (fun x => { x with windowPending := putDue x.windowPending ((entValue e).truncate 7) (pairStart s) })) s

/-- Replace one tile's value of a table. -/
def setTileValue (v : Vector (BitVec 16) 12) (e : List Byte) : Vector (BitVec 16) 12 :=
  if h : entTarget e < 12 then v.set (entTarget e) ((entValue e).truncate 16) h else v

def execSetSensorOffset (c : HostSlot) (s : State) : Out :=
  setDevice c 5 (fun e => targetOkSet e && valueIn e (-48) 48)
    (fun e r => if entTarget e = 0xFF then { r with htoff := (entValue e).truncate 16 } else { r with toff := setTileValue r.toff e })
    (fun e s =>
      if entTarget e = 0xFF then updHub s (fun h => { h with htoff := (entValue e).truncate 16 })
      else match tileOfNode (entTarget e + 1) with
        | some t => updTile s t (fun x => { x with pwr := { x.pwr with toff := (entValue e).truncate 16 } })
        | none => s) s

def execSetMeterGain (c : HostSlot) (s : State) : Out :=
  setDevice c 6 (fun e => targetOkSet e && valueIn e (-200) 200)
    (fun e r => if entTarget e = 0xFF then { r with mgain := (entValue e).truncate 16 } else { r with gain := setTileValue r.gain e })
    (fun e s =>
      if entTarget e = 0xFF then updHub s (fun h => { h with mgainPending := putDue h.mgainPending ((entValue e).truncate 16) (pairStart s) })
      else match tileOfNode (entTarget e + 1) with
        | some t => updTile s t (fun x => { x with pwr := { x.pwr with gainPending := putDue x.pwr.gainPending ((entValue e).truncate 16) (pairStart s) } })
        | none => s) s

end Sys2Proof.Machine
end

