-- ==== Sys2Proof/Machine/Store.lean ====
section
/-! DEFINITION. The model store: its commands (R437 to R442, R517), residency lists and their resumption (R444, R445). -/

namespace Sys2Proof.Machine

/-! ## Objects and extents (R437, R438) -/

/-- Bytes of an extent. -/
def extentSize : Nat := 0x10000000

/-- Extents that an object holds. -/
def objExtents (o : StoreObj) : Nat := ceilDiv o.bytes.length extentSize

def usedExtents (q : Partition) : Nat := q.objects.foldl (fun a o => a + objExtents o) 0

/-- Extents of user capacity that no object holds (R453). -/
def freeExtents (s : State) : Nat := 12288 - allParts.foldl (fun a p => a + usedExtents s.parts[p]) 0

def storeFields : List (Nat × Nat) := [(20, 1), (24, 32)]

/-- KIND of an object (R438). -/
def kindListed (e : List Byte) : Bool := decide (1 ≤ entKind e) && decide (entKind e ≤ 4)

/-- Change an object. -/
def updObj (s : State) (p : PartId) (id : Word64) (f : StoreObj → StoreObj) : State :=
  updPart s p (fun q => { q with objects := q.objects.map (fun o => if o.id == id then f o else o) })

/-- Blocks that fail their erase or program, each replaced by a spare one (R437): a free number of those left (log entry 22). -/
def retireBlocks (s : State) : State :=
  let (v, s) := drawFree s
  updHub s (fun h => { h with spareBlocks := h.spareBlocks - BitVec.ofNat 16 (v.toNat % (h.spareBlocks.toNat + 1)) })

/-- The extents of objects that go are erased (R440, R441). -/
def eraseObjs (s : State) (os : List StoreObj) : State := if os.all (fun o => o.bytes.isEmpty) then s else retireBlocks s

/-- Remove an object. -/
def dropObj (s : State) (p : PartId) (id : Word64) : State :=
  eraseObjs (updPart s p (fun q => { q with objects := q.objects.filter (fun o => o.id != id) }))
    (s.parts[p].objects.filter (fun o => o.id == id))

/-! ## CREATE, APPEND, SEAL (R440) -/

/-- CREATE: the id lies in bytes [15:8] of the completion (log entry 22). -/
def execCreate (c : HostSlot) (s : State) : Out :=
  hostCmd c 0x30 none false storeFields noBuf kindListed (fun e s => withPart s c (fun p =>
    let id := s.parts[p].nextObj
    let o : StoreObj := { id := id, kind := BitVec.ofNat 8 (entKind e), sealed := false, bytes := [], digest := [], lost := [] }
    complete (updPart s p (fun q => { q with objects := q.objects ++ [o], nextObj := q.nextObj + 1 })) c stOk
      (List.replicate 6 0 ++ natLe 8 id.toNat))) s

/-- An object that takes more bytes keeps within its namespace. -/
def fitsNamespace (q : Partition) (o : StoreObj) (n : Nat) : Bool :=
  decide (usedExtents q - objExtents o + ceilDiv (o.bytes.length + n) extentSize ≤ q.layout.nsExtents.toNat)

/-- APPEND: the whole buffer, or nothing when an extent is missing or no spare block is left (R437, R442, log entry 22). -/
def execAppend (c : HostSlot) (s : State) : Out :=
  hostCmd c 0x31 none false storeFields (bufOf 0) anyValue (fun e s => withPart s c (fun p =>
    match visibleObj s.parts[p] (entId e) with
    | none => complete s c stStoreNoObject []
    | some o =>
      if o.sealed then complete s c stStoreNoObject []
      else if !fitsNamespace s.parts[p] o (entLen e) || s.hub.spareBlocks == 0 then complete s c stStoreFull []
      else
        let bs := hostRead s c.func (entBuf e) (entLen e)
        complete (updObj (retireBlocks s) p o.id (fun o => { o with bytes := o.bytes ++ bs })) c stOk [])) s

/-- SEAL: DIGEST over the object's bytes, which it returns in BUF (log entry 22). -/
def execSeal (c : HostSlot) (s : State) : Out :=
  hostCmd c 0x32 none false storeFields (bufOf 32) anyValue (fun e s => withPart s c (fun p =>
    match visibleObj s.parts[p] (entId e) with
    | none => complete s c stStoreNoObject []
    | some o =>
      if o.sealed then complete s c stStoreNoObject []
      else if s.hub.spareBlocks == 0 then complete s c stStoreFull []
      else
        let d := shake 32 o.bytes
        complete (commandWrite (updObj s p o.id (fun o => { o with sealed := true, digest := d })) c (entBuf e) d) c stOk [])) s

/-! ## GET (R435, R440, R442) -/

def entObjOff (e : List Byte) : Nat := fieldAt e 32 8
def entObjLen (e : List Byte) : Nat := fieldAt e 40 8
def entDest (e : List Byte) : Nat := fieldAt e 48 8

/-- The place of a GET destination when it lies wholly in the partition's data ranges of tier 1 or 2. -/
def getPlace (s : State) (p : PartId) (a n : Nat) : Option Place :=
  match placeOf a with
  | some (.hbm t o) => if partHasTile s p t && decide (o + n ≤ 0x5D0000000) then some (.hbm t o) else none
  | some (.lpddr o) =>
    let l := s.parts[p].layout
    if decide (l.g0.toNat * 2 ^ 30 ≤ o) && decide (o + n ≤ (l.g0.toNat + l.gcount.toNat) * 2 ^ 30) then some (.lpddr o) else none
  | _ => none

/-- A destination in a granule that start-up has not written yet: the GET waits (R432). -/
def getWaits (s : State) (p : PartId) (e : List Byte) : Bool :=
  match getPlace s p (entDest e) (entObjLen e) with
  | some (.lpddr o) => decide (0 < entObjLen e) && !granuleReady s (o + entObjLen e - 1)
  | _ => false

/-- The object with the sectors that a GET of a range finds to be lost: they stay so (R425). -/
def noteLost (o : StoreObj) (off n : Nat) (lost : List Nat) : StoreObj :=
  { o with lost := o.lost ++ lostIn { o with lost := lost.filter (fun i => !o.lost.contains i) } off n }

/-- GET puts the bytes of an object at their destination, a place in tier 1 or 2: its answer, and the state after it. A block that it
writes in part and whose read fails stops it (R431). -/
def getInto (s : State) (p : PartId) (pl : Place) (range : Nat × Nat) (bs : List Byte) (tier : TierEvent) : BitVec 16 × State :=
  let s := tierCounts s [] [range] tier
  match failingBlock s [] [range] tier with
  | some (a, integ) => (tierCode integ, damageBlock (markBad (noteTierError s a integ) a integ) p a (tierCode integ))
  | none => (stOk, tierDone (tierWrite s p pl bs) [range] tier)

/-- GET: the range is written at the destination; a range past the object's end is a value not listed, and a codeword that stays
uncorrected ends it with nothing written (log entry 22). -/
def execGet (c : HostSlot) (tier : TierEvent) (s : State) : Out :=
  let waits := match findFetched s c, cmdPart s c.func with
    | some x, some p => getWaits s p x.entry
    | _, _ => false
  if waits then .next s else
  hostCmd c 0x33 none false storeFields noBuf anyValue (fun e s => withPart s c (fun p =>
    match visibleObj s.parts[p] (entId e) with
    | none => complete s c stStoreNoObject []
    | some o =>
      if !o.sealed then complete s c stStoreNoObject []
      else if o.bytes.length < entObjOff e + entObjLen e then complete s c stHostBadCommand []
      else match getPlace s p (entDest e) (entObjLen e) with
        | none => complete s c stRefusedPartition []
        | some pl =>
          let o := noteLost o (entObjOff e) (entObjLen e) tier.lost
          let fails := (lostIn o (entObjOff e) (entObjLen e)).length
          let s := countStore (if tier.lost.isEmpty then s else updObj s p o.id (fun _ => o)) fails tier.retries
          if fails ≠ 0 then complete s c stMemUncorrectable [] else
          let (code, s) := getInto s p pl (entDest e, entObjLen e) ((o.bytes.drop (entObjOff e)).take (entObjLen e)) tier
          complete s c code [])) s

/-! ## DELETE (R440, R442) -/

/-- CONST_ID and MODEL_IDs of a residency list (R444). -/
def listConst (bs : List Byte) : Word64 := BitVec.ofNat 64 (fieldAt bs 0 8)
def listModels (bs : List Byte) : List Word64 := (List.range (min (fieldAt bs 8 1) 16)).map (fun i => BitVec.ofNat 64 (fieldAt bs (16 + 8 * i) 8))

/-- The objects that the partition's current residency list names. -/
def resident (q : Partition) : List Word64 :=
  match q.objects.find? (fun o => q.residency != 0 && o.id == q.residency) with
  | none => []
  | some o => listConst o.bytes :: listModels o.bytes

/-- A residency load or bind is reading an object. -/
def beingRead (q : Partition) (id : Word64) : Bool := q.resJobs.any (fun j => match j with | .load x => x == id | .bind x => x == id)

def execDelete (c : HostSlot) (s : State) : Out :=
  hostCmd c 0x34 none false storeFields noBuf anyValue (fun e s => withPart s c (fun p =>
    match visibleObj s.parts[p] (entId e) with
    | none => complete s c stStoreNoObject []
    | some o =>
      if (resident s.parts[p]).contains o.id then complete s c stStoreInUse []
      else if beingRead s.parts[p] o.id then
        updPart s p (fun q => { q with waitingDeletes := q.waitingDeletes ++ [(some c, o.id)] })
      else complete (dropObj s p o.id) c stOk [])) s

/-- DELETE_AFTER_READ (R442): the read has completed; the earliest such delete removes its object. -/
def execDeleteAfterRead (p : PartId) (s : State) : Out :=
  let q := s.parts[p]
  match q.waitingDeletes.find? (fun d => !beingRead q d.2) with
  | none => .next s
  | some (cmd, id) =>
    if !hostReady s then .next s else
    let s := dropObj (updPart s p (fun q => { q with waitingDeletes := q.waitingDeletes.filter (fun d => d.2 != id) })) p id
    .next (match cmd with | some c => complete s c stOk [] | none => s)

/-! ## LIST (R517) -/

/-- An entry of LIST. -/
def listEntry (o : StoreObj) : List Byte :=
  natLe 8 o.id.toNat ++ [o.kind] ++ List.replicate 7 0 ++ natLe 8 o.bytes.length ++ List.replicate 8 0 ++ sliceAt o.digest 0 32

def sealedObjs (q : Partition) : List StoreObj :=
  sortBy (fun o => o.id.toNat) (q.objects.filter (fun o => o.sealed && (visibleObj q o.id).isSome))

def execList (c : HostSlot) (s : State) : Out :=
  hostCmd c 0x35 none false storeFields (bufOf 0) anyValue (fun e s => withPart s c (fun p =>
    let os := sealedObjs s.parts[p]
    complete (commandWrite s c (entBuf e) ((os.take (entLen e / 64)).flatMap listEntry)) c stOk (natLe 4 os.length))) s

/-! ## Residency in the background (R445) -/

/-- A model that residency could not bind (R445). -/
def recordFailed (s : State) (p : PartId) (id : Word64) (code : BitVec 16) : State :=
  if s.parts[p].models.any (fun m => m.objId == id && m.state == .failed && m.status == code) then s else
  updPart s p (fun q => { q with models := enterModel q.models (failedModel id [] code true) })

/-- A residency list ends at its constellation, with the object and the code of what failed recorded (R445). -/
def stopList (s : State) (p : PartId) (id : Word64) (code : BitVec 16) : State :=
  updPart s p (fun q => { q with resJobs := [], resFailed := q.resFailed ++ [(id, code)] })

/-- The constellation of a residency list is read and loaded; then its models follow. -/
def residencyLoad (s : State) (p : PartId) (l : StoreObj) : State :=
  match sealedObj s.parts[p] (listConst l.bytes) with
  | none => stopList s p (listConst l.bytes) stStoreNoObject
  | some o =>
    let (whole, s) := readStore s o 0 o.bytes.length
    if !whole then stopList s p o.id stMemUncorrectable else
    match loadImage s p none o.bytes with
    | (code, _, s') =>
      if code = stOk then updPart s' p (fun q => { q with resJobs := (listModels l.bytes).map .bind }) else stopList s p o.id code

/-- One job of a partition's residency: the list's object, its constellation, then each model. A list object that is absent,
not SEALED, not of KIND 0x03, unreadable or ill-formed, and a constellation that is refused, end the list. -/
def residencyStep (s : State) (p : PartId) : State :=
  match s.parts[p].resJobs with
  | [] => s
  | .load id :: _ =>
    match s.parts[p].objects.find? (fun o => o.id == id && o.sealed && o.kind == 3) with
    | none => stopList s p id stStoreNoObject
    | some l =>
      let (whole, s) := readStore s l 0 l.bytes.length
      if !whole then stopList s p id stMemUncorrectable
      else if 16 < fieldAt l.bytes 8 1 || !allZero (sliceAt l.bytes 9 7) then stopList s p id stRefusedImage
      else residencyLoad s p l
  | .bind id :: rest =>
    let s := updPart s p (fun q => { q with resJobs := rest })
    match sealedObj s.parts[p] id with
    | none => recordFailed s p id stStoreNoObject
    | some o =>
      let (code, s) := bindObject s p o
      if code = stOk then s else recordFailed s p id code

/-- A bind of residency waits for tier-2 granules that start-up has not written (R432). -/
def residencyWaits (s : State) (p : PartId) : Bool :=
  match s.parts[p].resJobs with
  | .bind id :: _ => (match sealedObj s.parts[p] id with
    | some o => (match bindChecks s p o.bytes with | .ok _ => !bindReady s o.bytes | .error _ => false)
    | none => false)
  | _ => false

end Sys2Proof.Machine
end

