-- ==== Sys2Proof/Machine/Endpoint.lean ====
section
/-! DEFINITION. The PCIe endpoint (R503, R510 to R513, R524, R525, R527, R528, R569): doorbells, ring enable, message moderation,
configuration requests, resets, the link. -/

namespace Sys2Proof.Machine

/-- The endpoint is enabled (order 3 of R568). -/
def endpointUp (s : State) : Bool := powered s && s.hub.endpoint

/-- The PCIe link is in L0: it is in no LTSSM Loopback, as lead or as follower (R589). -/
def linkInL0 (s : State) : Bool := !s.hub.loopbackLead && !s.hub.loopbackFollower

/-- Accesses of the host reach the device. -/
def busUp (s : State) : Bool := endpointUp s && linkInL0 s

/-- Order 2 of R568 has completed: a start that stopped there never enables the endpoint (R569). -/
def mayEnable (b : Boot) : Bool := b.started && !(b.stopped && decide (b.stage.toNat < 3))

/-! ## Doorbells and rings (R511, R530) -/

/-- A write to HST_DB: a value not below D sets HST_ERR.DOORBELL; else the tail moves and the device fetches. -/
def ringDoorbell (s : State) (f : FuncId) (r : Fin 8) (tail : BitVec 16) : State :=
  let g := getRing s f r
  if !hostReady s || !busUp s || !g.enable then s
  else if ringDepth g ≤ tail.toNat then updFunc s f (fun x => { x with errDoorbell := true })
  else fetchRing f r (ringDepth g) (updRing s f r (fun g => { g with tail := tail }))

/-- DOORBELL (R510, R511), after the writes that the host posted to its own memory. -/
def execDoorbell (f : FuncId) (ring : Fin 8) (tail : BitVec 16) (posted : List (Nat × Byte)) (s : State) : Out :=
  .next (ringDoorbell { s with hostMem := posted.foldl (fun m x => memPut m x.1 x.2) s.hostMem } f ring tail)

/-- Both rings of a pair lie below HST_HBWIN.LEN. -/
def ringsInWindow (s : State) (f : FuncId) (r : Fin 8) : Bool :=
  let g := getRing s f r
  inWindow s f g.cmdBase.toNat (64 * ringDepth g) && inWindow s f g.cplBase.toNat (16 * ringDepth g)

/-- ENABLE goes from 0 to 1 (R530): head and tail become 0; a ring outside the window sets HST_ERR.RANGE and the pair stays
disabled (log entry 23). -/
def ringEnable (s : State) (f : FuncId) (r : Fin 8) : State :=
  if (getRing s f r).enable then s
  else if ringsInWindow s f r then updRing s f r (fun g => { g with enable := true, head := 0, tail := 0 })
  else updFunc s f (fun x => { x with errRange := true })

def execRingEnable (f : FuncId) (ring : Fin 8) (s : State) : Out :=
  .next (if busUp s then ringEnable s f ring else s)

/-- MSIX_MODERATION_EXPIRY (R513): the interval in which a completion was written has ended. -/
def execMsixModerationExpiry (f : FuncId) (ring : Fin 8) (s : State) : Out :=
  match (getRing s f ring).moderating with
  | none => .next s
  | some t =>
    if powered s && t.ule s.now then .next (updRing (fireMsix s f ring) f ring (fun g => { g with moderating := none }))
    else .next s

/-! ## Configuration requests and resets (R524, R525, R569) -/

/-- CONFIG_REQUEST (R524): Retry Status (1) until the device is ready or start-up has stopped, then success (2). After a stop requests
complete whatever the order it stopped in, unless PERST# is asserted. -/
def execConfigRequest (f : FuncId) (s : State) : Out :=
  .next (if busUp s || (powered s && s.boot.stopped && !s.hub.perst) then updFunc s f (fun x => { x with lastConfig := if s.boot.ready || s.boot.stopped then 2 else 1 }) else s)

/-- A command of a function that a reset discards. -/
def mutes (f : FuncId) (c : Option HostSlot) : Option HostSlot := c.filter (fun x => x.func != f)

/-- The completions of function f's commands are discarded: what runs runs to its end (R525). A SESSION_OPEN that waits for a
bind goes with the sessions of the function. -/
def muteFunc (f : FuncId) (q : Partition) : Partition :=
  { q with
    queue := q.queue.map (fun x => { x with cmd := mutes f x.cmd }),
    run := q.run.map (fun r => { r with step := { r.step with cmd := mutes f r.step.cmd } }),
    models := q.models.map (fun m => { m with unbindCmd := mutes f m.unbindCmd }),
    waitingOpens := q.waitingOpens.filter (fun x => x.1.func != f),
    waitingDeletes := q.waitingDeletes.map (fun x => (mutes f x.1, x.2)),
    sessions := q.sessions.map (fun x => { x with closing := x.closing.map (mutes f) }) }

/-- Every open session of a partition closes, with no command to complete. -/
def closeAll (s : State) (p : PartId) : State :=
  ((s.parts[p]).sessions.filter (fun x => x.closing.isNone)).foldl (fun s x => closeSession s p x.id none) s

/-- FUNCTION_LEVEL_RESET (R525). -/
def execFunctionLevelReset (f : FuncId) (s : State) : Out :=
  if !busUp s then .next s else
  let s := updFunc s f (fun x =>
    { x with hbBase := 0, hbLen := 0, rings := .replicate 8 .reset, msix := .replicate 64 0, msixTable := [] })
  let s := forAll allParts (fun s p => updPart s p (muteFunc f)) s
  .next (match funcPart s f with | some p => closeAll s p | none => s)

/-- PERST (R569): assertion resets only the endpoint, with every function; deassertion enables it when order 2 has completed, and order 11
begins once order 10 has completed too (R568). -/
def execPerst (asserted : Bool) (s : State) : Out :=
  if asserted then
    let s := allFuncs.foldl (fun s f => forAll allParts (fun s p => updPart s p (muteFunc f)) s) s
    .next { s with
      funcs := .replicate 13 .reset,
      hub := { s.hub with endpoint := false, perst := true, mps := 0, width := 0, speed := 0, loopbackFollower := false, loopbackLead := false } }
  else
    let up := powered s && mayEnable s.boot
    .next (updBoot (updHub s (fun h => { h with perst := false, endpoint := up }))
      (fun b => { b with stage := if up && !b.stopped && b.stage == 0xA then 0xB else b.stage }))

/-! ## The PCIe link (R527, R528, R589) -/

/-- A width and a rate that R503 supports: x1 to x16 as the base specification negotiates, 2.5 to 32 GT/s (R528). -/
def linkListed (width : BitVec 5) (speed : BitVec 3) : Bool :=
  (width == 1 || width == 2 || width == 4 || width == 8 || width == 16) && decide (1 ≤ speed.toNat) && decide (speed.toNat ≤ 5)

/-- SR-IOV (R503): TotalVFs, First VF Offset and VF Stride, and the function that VF n is. -/
def totalVfs : Nat := 12
def firstVfOffset : Nat := 1
def vfStride : Nat := 1
def vfFunction (n : Nat) : Nat := firstVfOffset + (n - 1) * vfStride

/-- PCIE_LINK_TRAINING (R528): HST_STATUS takes the negotiated values. A link that the device does not support (R503) does not come
about, and none is trained while the device leads a loop-back (R589). -/
def execPcieLinkTraining (mps : Fin 3) (width : BitVec 5) (speed : BitVec 3) (s : State) : Out :=
  .next (if endpointUp s && !s.hub.loopbackLead && linkListed width speed then
    updHub s (fun h => { h with mps := BitVec.ofNat 4 mps.val, width := width, speed := speed, loopbackFollower := false }) else s)

/-- PCIE_LINK_ERROR (R527): reported through AER of a function. -/
def execPcieLinkError (f : FuncId) (code : BitVec 32) (s : State) : Out :=
  .next (if busUp s then updFunc s f (fun x => { x with aer := x.aer ++ [code] }) else s)

/-- HOST_DIRECTED_LOOPBACK (R589): the device follows and checks nothing, until the link trains again. -/
def execHostDirectedLoopback (s : State) : Out :=
  .next (if busUp s then updHub s (fun h => { h with loopbackFollower := true }) else s)

end Sys2Proof.Machine
end

