-- ==== Sys2Proof/Machine/TestCtl.lean ====
section
/-! DEFINITION. Test state, loop-backs, memory self-test and speed characterisation (R585 to R593). -/

namespace Sys2Proof.Machine

/-! ## Training that fails (R398, R399, R413, R414, R420) -/

def setCw (v : BitVec 4) (x : Tile) : Tile := { x with pas := { x.pas with cw := v } }
def setCcw (v : BitVec 4) (x : Tile) : Tile := { x with pas := { x.pas with ccw := v } }
def setSpoke (v : BitVec 4) (x : Tile) : Tile := { x with pas := { x.pas with spoke := v } }

/-- Field k of PAS_HLINK. -/
def setHlink (w : BitVec 24) (k : Nat) (v : BitVec 4) : BitVec 24 :=
  (w &&& ~~~(BitVec.ofNat 24 (3 * 4 ^ k))) ||| BitVec.ofNat 24 (v.toNat % 4 * 4 ^ k)

/-- Clear bits lo to lo + n - 1 of PAS_TRAIN. -/
def clearTrain (lo n : Nat) (x : Tile) : Tile :=
  { x with pas := { x.pas with train := x.pas.train &&& ~~~(BitVec.ofNat 50 ((2 ^ n - 1) * 2 ^ lo)) } }

/-- Clear those of n lane groups from bit lo on that failed: the spec names no operand that says which, so they are free, at least one
of them (log entry 5). -/
def failGroups (v : Word64) (lo n : Nat) (x : Tile) : Tile :=
  let bad := v.toNat % 2 ^ n ||| 2 ^ (v.toNat / 2 ^ n % n)
  { x with pas := { x.pas with train := x.pas.train &&& ~~~(BitVec.ofNat 50 (bad * 2 ^ lo)) } }

/-- Tile number as a place. -/
def tileAt (n : Nat) : Option TileId := if h : n < 12 then some ⟨n, h⟩ else none

/-- A spoke or a clockwise ring pass that fails its training is recorded in PAS_TRAIN, PAS_LINK and PAS_HLINK (R399, R414). At start a
spoke, a position or a digest fails before any ring pass has been trained (orders 1 to 4 of R398). -/
def trainingFailed (atStart : Bool) (s : State) (d : BootDetail) : State :=
  match tileAt d.index.toNat with
  | none => s
  | some t =>
    let (v, s') := drawFree s
    let noRing (s : State) : State := forAll allTiles (fun s t => updTile s t (fun x => clearTrain 0 40 (setCw 0 (setCcw 0 x)))) s
    if d.kind = 1 ∧ atStart then noRing s
    else if d.kind = 6 then
      let s := if atStart then noRing s' else s'
      updHub (updTile s t (fun x => failGroups v 40 10 (setSpoke 0 x))) (fun h => { h with hlink := setHlink h.hlink t.val 0 })
    else if d.kind = 7 then
      updTile (updTile s' t (fun x => failGroups v 0 20 (setCw 0 x))) (nextTile t) (fun x => failGroups v 20 20 (setCcw 0 x))
    else s

/-- The stack or channel that DETAIL names has not passed its training, and reads so in MEM_HSTATE or MEM_LSTATE (R422, R446, R451,
R581). -/
def memoryFailed (s : State) (d : BootDetail) : State :=
  if d.kind = 2 then
    match tileAt d.index.toNat with
    | some t => updTile s t (fun x => { x with mem := { x.mem with trained := false } })
    | none => s
  else if d.kind = 3 then updHub s (fun h => { h with trained := false })
  else s

/-! ## Entering and leaving test state (R585, R587, R588) -/

/-- Bytes of a tier-1 stack and of tier 2 (R402). -/
def stackSize : Nat := 0x600000000
def tier2Size : Nat := 0xC000000000

/-- A load, bind, store command, scrub or residency reload is in progress. -/
def workInProgress (s : State) : Bool :=
  s.mgmt.scrubbing || s.mgmt.job.isSome || allParts.any (fun p => let q := s.parts[p]
    !q.resJobs.isEmpty || !q.waitingDeletes.isEmpty || !q.damaged.isEmpty || q.models.any (fun m => m.unbinding) ||
    (partTiles s p).any (fun t => (allCores t).any (fun k => (getCore s k).reload.isSome)))

/-- Why a request to enter test state is refused, if it is (R585). A device that is not ready has tier-2 writes to make, or has stopped. -/
def testRefusal (s : State) : Option (BitVec 16) :=
  if confidentialMode s then some stConfidentialDenied
  else if !hostReady s || allParts.any (fun p => !s.parts[p].sessions.isEmpty) || workInProgress s || s.hub.initGranules.toNat != 744 then some stTestBusy
  else none

/-- The code of a refused test request. -/
def testCode (s : State) (c : BitVec 16) : State := updTest s (fun x => { x with lastCode := c })

/-- A tile enters context TEST, awake (R587): its tolerance line is that of the controls from its first run on. -/
def enterTest (s : State) (t : TileId) : State :=
  updTile (wakeNow s t) t (fun x => { x with pwr := { x.pwr with context := 2, tl := 0, enterRec := false, leaveRec := false, parkChosen := false } })

/-- A write of 1 to TST_MODE.TEST (R585, R587). -/
def requestTest (s : State) : State :=
  if s.test.test then s else
  match testRefusal s with
  | some c => testCode s c
  | none => forAll allTiles enterTest (updTest s (fun x => { x with test := true, busy := false }))

/-- TEST_STATE_REQUEST: PF0 reaches the test registers through BAR2. -/
def execTestStateRequest (f : FuncId) (s : State) : Out :=
  .next (if busUp s && f = 0 then requestTest s else s)

/-- A loop-back runs; MBIST runs; a characterisation run runs. -/
def loopRuns (s : State) : Bool := s.test.loopRun.isSome
def mbistRuns (s : State) : Bool := s.test.mbistRun.isSome
def speedRuns (s : State) : Bool := allTiles.any (fun t => (s.test.speed[t]).result = 1)

/-- Whether a write of 0 to TST_MODE.TEST ends test state (R588). -/
def mayEndTest (s : State) : Bool := hostReady s && s.test.test && !loopRuns s && !mbistRuns s && !speedRuns s

/-- A tile returns to SERVICE at its voltage of the window (R588 order 2). -/
def leaveTest (s : State) (t : TileId) : State :=
  updTile s t (fun x => { x with pwr := { x.pwr with context := 0, tl := 0, enterRec := false, leaveRec := false, vset := x.pwr.vnext } })

/-- Outside test state EXTEST, CLAMP and HIGHZ act as BYPASS (R594). -/
def tapAfter (i : TapInstr) : TapInstr := match i with | .extest | .clamp | .highz => .bypass | i => i

/-- Orders 2 to 6 of R588 and what follows in the background: tier 2 from its first granule, residency (R432, R445). -/
def endTest (s : State) : State :=
  let s := forAll allTiles leaveTest s
  let s := forAll allParts dropModels s
  let s := forAll allParts (fun s p => match s.parts[p].const with
    | some c => commitOrders s p c s.parts[p].vadm
    | none => s) s
  let s := forAll allTiles (fun s t => updTile s t (fun x => { x with hbm := [] })) s
  let s := { s with badBlocks := [] }
  let s := updHub (updTest s (fun x => { x with test := false, busy := false, tap := tapAfter x.tap })) (fun h => { h with lpddr := [], initGranules := 0 })
  forAll allParts (fun s p => updPart s p (fun q =>
    { q with resJobs := if q.layout.defined && q.residency != 0 then [.load q.residency] else [] })) s

/-- Retraining fails (R588, R581): the device is stopped with STAGE 0x5 where DETAIL names a stack or channel, else 0x4, and its
management port closes (R569). -/
def stopTest (s : State) (d : BootDetail) : State :=
  let s := updMgmt s (fun m => { m with portOpen := false, conns := .replicate 4 false })
  updBoot (memoryFailed (trainingFailed false s d) d) (fun b => { b with stopped := true, ready := false, stage := if d.kind = 2 || d.kind = 3 || d.kind = 4 then 5 else 4, detail := d })

/-- A write of 0 to TST_MODE.TEST; `retrained` is what the retraining of order 1 finds. -/
def writeTestEnd (s : State) (retrained : Option BootDetail) : State :=
  if !s.test.test then s
  else if !mayEndTest s then testCode s stTestBusy
  else match retrained with
    | some d => stopTest s d
    | none => endTest s

/-- TEST_STATE_END (R588). -/
def execTestStateEnd (f : FuncId) (retrained : Option BootDetail) (s : State) : Out :=
  .next (if busUp s && f = 0 then writeTestEnd s retrained else s)

/-! ## Loop-backs (R589 to R591) -/

/-- IFACE, INST and DEPTH name a loop-back of R589, and DURATION is at least 1. -/
def loopListed (x : Test) : Bool :=
  let i := x.loopIface.toNat
  decide (1 ≤ i) && decide (i ≤ 8) && decide (x.loopDepth.toNat ≤ 2) && decide (1 ≤ x.loopDuration.toNat) &&
  (if 2 ≤ i ∧ i ≤ 5 then decide (x.loopInst.toNat < 12) else x.loopInst == 0)

/-- A memory test and a loop-back work on the same thing: a stack and its interface, tier 2 and its channels. -/
def sameTier (target inst iface linst : BitVec 4) : Bool :=
  (target = 2 && iface = 5 && inst == linst) || (target = 3 && iface = 6)

/-- The interface instance is under MBIST. -/
def ifaceInMbist (s : State) : Bool :=
  match s.test.mbistRun with
  | some (g, i) => sameTier g i s.test.loopIface s.test.loopInst
  | none => false

/-- The state of a pass at the near end of its loop-back (R413, R420). -/
def passState (s : State) (iface inst : BitVec 4) : BitVec 4 :=
  match tileAt inst.toNat with
  | none => 0
  | some t => if iface = 2 then s.tiles[t].pas.cw else if iface = 3 then s.tiles[t].pas.ccw else s.tiles[t].pas.spoke

/-- Both ends of the pass under loop-back read a state (R589). -/
def setPass (s : State) (iface inst v : BitVec 4) : State :=
  match tileAt inst.toNat with
  | none => s
  | some t =>
    if iface = 2 then updTile (updTile s t (setCw v)) (nextTile t) (setCcw v)
    else if iface = 3 then updTile (updTile s t (setCcw v)) (prevTile t) (setCw v)
    else if iface = 4 then updHub (updTile s t (setSpoke v)) (fun h => { h with hlink := setHlink h.hlink t.val v })
    else s

/-- A GO of a test control is refused (R537, R585, R591): the code for LAST_CODE, or none. -/
def goRefusal (s : State) (busy : Bool) : Option (BitVec 16) :=
  if confidentialMode s then some stConfidentialDenied
  else if !hostReady s || !s.test.test || busy then some stTestBusy else none

/-- The PCIe link under a far loop-back leaves L0, with the device as Loopback lead (R589). -/
def leadsLink (x : Test) : Bool := x.loopIface == 1 && x.loopDepth == 2

/-- TST_LOOP.GO: a loop-back that R589 does not list is refused as one in conflict (log entry 24). -/
def loopGo (s : State) : State :=
  match goRefusal s (loopRuns s || ifaceInMbist s || !loopListed s.test) with
  | some c => updTest s (fun x => { x with lastCode := c, lresResult := 5 })
  | none =>
    let i := s.test.loopIface
    let n := s.test.loopInst
    let s := updTest s (fun x => { x with lresErrors := 0, lresLanes := 0, lresResult := 1, loopRun := some (i, n, passState s i n) })
    let s := setPass s i n 3
    let s := if leadsLink s.test then updHub s (fun h => { h with loopbackLead := true }) else s
    if i = 8 then updMgmt s (fun m => { m with conns := .replicate 4 false, portOpen := false }) else s

def execLoopbackGo (f : FuncId) (s : State) : Out :=
  .next (if busUp s && f = 0 then loopGo s else s)

/-- LOOPBACK_END (R590): no-lock, fail or pass; the interface is restored, and a PCIe link that left L0 is trained again (R589). -/
def execLoopbackEnd (res : LoopInput) (s : State) : Out :=
  match s.test.loopRun with
  | none => .next s
  | some (i, n, prev) =>
    let s := setPass s i n prev
    let s := if i = 8 then updMgmt s (fun m => { m with portOpen := true }) else s
    let s := if i = 1 then updHub s (fun h => { h with loopbackLead := false }) else s
    .next (updTest s (fun x =>
      { x with loopRun := none, lresErrors := res.errors, lresLanes := res.lanesFail,
               lresResult := if !res.locked then 4 else if res.errors = 0 then 2 else 3 }))

/-! ## Memory self-test on demand (R592) -/

/-- TARGET and INST name a test of R592. -/
def mbistListed (x : Test) : Bool :=
  ((x.mbistTarget = 1 || x.mbistTarget = 2) && decide (x.mbistInst.toNat < 12)) || x.mbistTarget = 3

/-- A loop-back or a characterisation run works on the target. -/
def mbistConflict (s : State) : Bool :=
  mbistRuns s ||
  (match s.test.loopRun with | some (i, n, _) => sameTier s.test.mbistTarget s.test.mbistInst i n | none => false) ||
  (s.test.mbistTarget = 1 && (match tileAt s.test.mbistInst.toNat with | some t => (s.test.speed[t]).result = 1 | none => false))

/-- TST_MBIST.GO. -/
def mbistGo (s : State) : State :=
  match goRefusal s (mbistConflict s || !mbistListed s.test) with
  | some c => updTest s (fun x => { x with lastCode := c, mbistResult := 5 })
  | none => updTest s (fun x => { x with mbistResult := 1, mbistAddr := 0, mbistRun := some (x.mbistTarget, x.mbistInst) })

def execMbistGo (f : FuncId) (s : State) : Out :=
  .next (if busUp s && f = 0 then mbistGo s else s)

/-- Tags left open. -/
def freeTags (n : Nat) : BitVec 4096 :=
  BitVec.ofNat 4096 ((List.range 64).foldl (fun r i => r + (Config.freeValue (n + i)).toNat * 2 ^ (64 * i)) 0)

/-- What the test leaves in its target (R592: its results replace the content): free values (log entry 25). -/
def scrambleTarget (s : State) (target inst : BitVec 4) : State :=
  let n := s.freeNext
  match target.toNat, tileAt inst.toNat with
  | 1, some t =>
    let per := plainSize + 64
    { updTile s t (fun x => { x with cores := Vector.ofFn (fun (c : Fin 64) =>
        { x.cores[c] with plain := freeMem (n + c.val * per) plainSize, tags := freeTags (n + c.val * per + plainSize) }) }) with
      freeNext := n + 64 * per }
  | 2, some t => { updTile s t (fun x => { x with hbm := freeMem n stackSize }) with freeNext := n + stackSize }
  | 3, _ => { updHub s (fun h => { h with lpddr := freeMem n tier2Size }) with freeNext := n + tier2Size }
  | _, _ => s

/-- MBIST_DONE (R592): pass, or fail with bits [47:8] of the offset of the first failing block. -/
def execMbistDone (mismatch : Option (BitVec 40)) (s : State) : Out :=
  match s.test.mbistRun with
  | none => .next s
  | some (g, i) => .next (updTest (scrambleTarget s g i) (fun x =>
    { x with mbistRun := none, mbistAddr := mismatch.getD 0, mbistResult := if mismatch.isSome then 3 else 2 }))

/-! ## Speed characterisation (R593) -/

def setSpeed (s : State) (t : TileId) (g : SpeedRegs → SpeedRegs) : State :=
  updTest s (fun x => { x with speed := x.speed.set t (g x.speed[t]) })

/-- The plains of a tile are under MBIST. -/
def plainsInMbist (s : State) (t : TileId) : Bool := match s.test.mbistRun with | some (g, i) => g = 1 && i.toNat == t.val | none => false

/-- TST_SPEED.GO on tile t (R593, R216, R217): voltage and tolerance line are set and the pattern runs. -/
def speedGo (s : State) (t : TileId) : State :=
  let r := s.test.speed[t]
  if confidentialMode s || !hostReady s || !s.test.test || r.result = 1 || plainsInMbist s t || s.tiles[t].pwr.context != 2 then
    setSpeed (testCode s (if confidentialMode s then stConfidentialDenied else stTestBusy)) t
      (fun x => { x with result := if x.result = 1 then 1 else 6 })
  else
    let s := setSpeed s t (fun x => { x with replays := 0, tolEvents := 0, mismatch := 0, rate := 0, result := 1 })
    updTile s t (fun x => { x with pwr := { x.pwr with vset := r.volt, tl := if x.pwr.reproFixed then 0 else r.tl } })

def execSpeedRun (f : FuncId) (t : TileId) (s : State) : Out :=
  .next (if busUp s && f = 0 then speedGo s t else s)

/-- SPEED_RUN_END (R593): pass at the factory rate of the present junction temperature and without mismatch. -/
def execSpeedRunEnd (t : TileId) (res : SpeedInput) (s : State) : Out :=
  let r := s.test.speed[t]
  if !powered s || r.result != 1 then .next s else
  let w := s.tiles[t].pwr
  let code : BitVec 3 := if res.rate.toNat < rateAt w w.vset.toNat w.tj.toInt then 3 else if res.mismatch = 0 then 2 else 4
  .next (setSpeed s t (fun x =>
    { x with replays := res.replays, tolEvents := res.tolEvents, mismatch := res.mismatch, rate := res.rate, result := code }))

end Sys2Proof.Machine
end

