-- ==== Sys2Proof/Machine/Flags.lean ====
section
/-! DEFINITION. The status flags, fault words, counters and settings that registers show: the register tables of every chapter,
by aligned 64-bit word of their region (R3, R402, R507), and the LEDs of R608. -/

namespace Sys2Proof.Machine

/-- Access codes (R3). -/
inductive Acc | ro | rw | wo | w1c | rc
  deriving DecidableEq, Repr

/-- A field within an aligned 64-bit word of a register region: lowest bit, width, access code, current value. -/
structure Fld where
  lo : Nat
  len : Nat
  acc : Acc
  val : Nat
  deriving DecidableEq, Repr

def ro {w : Nat} (lo : Nat) (v : BitVec w) : Fld := ⟨lo, w, .ro, v.toNat⟩
def rc {w : Nat} (lo : Nat) (v : BitVec w) : Fld := ⟨lo, w, .rc, v.toNat⟩
def rw {w : Nat} (lo : Nat) (v : BitVec w) : Fld := ⟨lo, w, .rw, v.toNat⟩
def w1c {w : Nat} (lo : Nat) (v : BitVec w) : Fld := ⟨lo, w, .w1c, v.toNat⟩
def roNat (lo len v : Nat) : Fld := ⟨lo, len, .ro, v⟩
def roBit (lo : Nat) (b : Bool) : Fld := ⟨lo, 1, .ro, b.toNat⟩
def w1cBit (lo : Nat) (b : Bool) : Fld := ⟨lo, 1, .w1c, b.toNat⟩

/-- The value of a word: reserved bits read as zero (R5), write-only fields read as zero (R3). -/
def wordValue (fs : List Fld) : Nat :=
  fs.foldl (fun a x => if x.acc = .wo then a else a + x.val % 2 ^ x.len * 2 ^ x.lo) 0

/-! ## One core -/

def arrCode : ArrState → Nat
  | .asleep => 0 | .dawn => 1 | .running => 2 | .frozen => 3 | .idleHold => 4 | .dusk => 5
def spxCode : SpxState → Nat
  | .idle => 0 | .running => 1 | .frozen => 2 | .merging => 3
def rfuCode : RfuState → Nat
  | .idle => 0 | .running => 1 | .waitPort => 2 | .waitRecords => 3
def seqCode : SeqState → Nat
  | .idle => 0 | .issuing => 1 | .stalled => 2 | .blocked => 3 | .inMeridian => 4 | .faulted => 5

/-- ARR_ registers (R97 to R102, R227, R228). -/
def arrWord (c : Core) (w : Nat) : List Fld :=
  match w with
  | 0 => [ro 0 c.arr.idleHold, ro 40 c.arr.planes, roBit 36 c.arr.frontSet, roBit 35 c.arr.share, roNat 32 3 (arrCode c.arr.state)]
  | 1 => [rc 0 c.arr.slots]
  | 2 => [rc 0 c.arr.bubbles]
  | 3 => [rc 0 c.arr.freezeHc]
  | 4 => [rc 16 c.arr.dusks, rc 0 c.arr.dawns]
  | 8 => [rc 48 c.arr.predLost, rc 32 c.arr.predMadeup, rc 16 c.arr.predMisses, rc 0 c.arr.predSkipped]
  | 9 => [rc 32 c.arr.replays, rc 0 c.arr.tolerated]
  | _ => []

/-- FDR_ registers (R103 to R105, R225, R226). -/
def fdrWord (c : Core) (w : Nat) : List Fld :=
  match w with
  | 0 => [roBit 3 c.fdr.amerge, roBit 2 c.fdr.wmerge, w1cBit 1 c.fdr.adry, w1cBit 0 c.fdr.wdry]
  | 1 => [rc 32 c.fdr.alines, rc 0 c.fdr.wlines]
  | 2 => [rc 32 c.fdr.adrySlots, rc 0 c.fdr.wdrySlots]
  | 3 => [ro 24 c.fdr.tauA, ro 22 c.fdr.tauSkip, ro 16 c.fdr.tauM, ro 8 c.fdr.tauE]
  | 4 => [rc 32 c.fdr.skipped, rc 0 c.fdr.gated]
  | _ => []

/-- DRAIN instructions issued and not yet complete, list merges among them (R134, R299). -/
def drainsQueued (c : Core) : Nat :=
  (c.port.filter (fun x => match x with | .explicit .. => true | .merge .. => true | _ => false)).length +
  (match c.active with | some (.drain _ _ isAuto _ _) => if isAuto then 0 else 1 | some (.merge _) => 1 | _ => 0)

/-- Whether a drain reads a set. -/
def readsSet (c : Core) (i : SetId) : Bool :=
  match c.active with | some (.drain _ j _ .reading _) => i == j | _ => false

/-- DRN_ registers (R134 to R138). DRN_TAGX and DRN_TAGY show the array group's sets: R139 gives the sparse engine sets of the same names,
and R136 does not say whose they show (DESIGN CHOICE, log entry 80). -/
def drnWord (s : State) (k : CoreId) (w : Nat) : List Fld :=
  let c := getCore s k
  match w with
  | 0 => [roNat 4 4 (min (drainsQueued c) 15), roBit 3 (waitRec s k), roBit 2 (waitTail s k), roBit 1 (readsSet c .y),
          roBit 0 (readsSet c .x), ro 48 c.drn.inflightY, ro 32 c.drn.inflightX]
  | 1 => [ro 0 c.ag.setX.tag]
  | 2 => [ro 0 c.ag.setY.tag]
  | 3 => [ro 16 (c.drn.fault.extractLsb' 16 12), w1c 0 (c.drn.fault.extractLsb' 0 4)]
  | 4 => [rc 32 c.drn.records, rc 0 c.drn.drains]
  | _ => []

/-- SPX_ registers (R162 to R166). -/
def spxWord (c : Core) (w : Nat) : List Fld :=
  match w with
  | 0 => [ro 16 c.spx.band, roBit 6 c.spx.frontSet, ro 4 c.spx.fmt, roNat 0 3 (spxCode c.spx.state)]
  | 1 => [rc 0 c.spx.turns]
  | 2 => [rc 0 c.spx.nonzero]
  | 3 => [rc 32 c.spx.cursorWaits, rc 0 c.spx.stallHc]
  | 4 => [rc 0 c.spx.passes]
  | _ => []

/-- RFU_ registers (R190 to R193). -/
def rfuWord (c : Core) (w : Nat) : List Fld :=
  match w with
  | 0 => [ro 20 c.rfu.opidx, ro 4 c.rfu.phase, roNat 0 3 (rfuCode c.rfu.state)]
  | 1 => [rc 0 c.rfu.elems]
  | 2 => [rc 32 c.rfu.exactAdds, rc 0 c.rfu.cheapAdds]
  | 3 => [rc 0 c.rfu.clips]
  | _ => []

/-- PLN_ registers (R260 to R268). -/
def plnWord (c : Core) (w : Nat) : List Fld :=
  match w with
  | 0 => [ro 16 c.pln.timeout, roBit 0 c.pln.split, ro 56 c.pln.resident, ro 48 c.pln.used, ro 32 c.pln.cls]
  | 1 => [ro 0 c.pln.power]
  | 2 => [rc 32 c.pln.feedStall, rc 0 c.pln.otherStall]
  | 3 => [rc 32 c.pln.blocks, rc 0 c.pln.blockHc]
  | 4 => [rc 32 c.pln.busyCount, rc 13 c.pln.busyWord, w1c 0 c.pln.busyPorts]
  | 5 => [rc 48 c.pln.reruns, rc 32 c.pln.detects, rc 13 c.pln.parWord, ro 0 c.pln.parPort]
  | 6 => [ro 16 (c.pln.fault.extractLsb' 16 12), w1c 0 (c.pln.fault.extractLsb' 0 5)]
  | w => if 64 ≤ w ∧ w < 128 then [rc 0 (c.tags.extractLsb' (64 * (w - 64)) 64)] else []

/-- SEQ_ registers (R325 to R330). -/
def seqWord (c : Core) (w : Nat) : List Fld :=
  match w with
  | 0 => [ro 16 c.seq.pc, ro 8 c.seq.entry, roBit 5 (c.ag.setY.held || c.sp.setY.held), roBit 4 (c.ag.setX.held || c.sp.setX.held),
          roNat 0 3 (seqCode c.seq.state)]
  | 1 => [ro 0 c.seq.stepno]
  | 2 => [rc 0 c.seq.issued]
  | 3 => [rc 32 c.seq.queueHc, rc 0 c.seq.blockHc]
  | 4 => [ro 16 (c.seq.fault.extractLsb' 16 13), w1c 0 (c.seq.fault.extractLsb' 0 7)]
  | w => if h : 32 ≤ w ∧ w < 64 then [rc 0 (sreg c ⟨w - 32, by omega⟩)] else []

/-- RNG_ registers of a core (R388, R389). -/
def rngWord (c : Core) (w : Nat) : List Fld :=
  match w with
  | 0 => [ro 16 c.rng.fine, ro 0 c.rng.drain]
  | 1 => [rc 0 c.rng.draws]
  | _ => []

/-- A word of the per-core blocks of a tile: block 8 to 15 (ARR_ to RNG_) and word within the core's 0x400 bytes. -/
def coreWord (s : State) (k : CoreId) (blk w : Nat) : List Fld :=
  let c := getCore s k
  match blk with
  | 8 => arrWord c w
  | 9 => fdrWord c w
  | 10 => drnWord s k w
  | 11 => spxWord c w
  | 12 => rfuWord c w
  | 13 => plnWord c w
  | 14 => seqWord c w
  | 15 => rngWord c w
  | _ => []

/-! ## One tile -/

def finCode : FinState → Nat
  | .idle => 0 | .running => 1 | .waitStore => 2

/-- FIN_ registers (R194 to R196). -/
def finWord (f : FineUnit) (w : Nat) : List Fld :=
  match w with
  | 0 => [ro 20 f.opidx, ro 4 f.kind, roBit 3 f.bf16, roNat 0 3 (finCode f.state)]
  | 1 => [rc 0 f.fmas]
  | 2 => [rc 0 f.clips]
  | _ => []

/-- A row of a speed table as bits (R493). -/
def speedBits (v : Vector (BitVec 16) 8) (i : Nat) : BitVec 64 :=
  BitVec.ofNat 64 ((List.range 4).foldl (fun a j => a + ((v.toList[4 * i + j]?).getD 0).toNat * 2 ^ (16 * j)) 0)

/-- PWR_ registers of a tile (R229, R487 to R493). -/
def pwrWord (p : PwrRegs) (w : Nat) : List Fld :=
  match w with
  | 0 => [ro 16 p.vadm, ro 0 p.vset]
  | 1 => [rc 16 p.tjPred, ro 0 p.tj]
  | 2 => [rc 0 p.ecore]
  | 3 => [rc 0 p.ebase]
  | 4 => [ro 20 p.floorHot, ro 10 p.floorWarm, ro 0 p.floorCool]
  | 5 => [ro 0 p.theta]
  | 6 => [ro 16 p.gain, ro 0 p.toff]
  | 8 => [roBit 16 p.reproFixed, ro 8 p.tl, ro 4 p.tlRecovery, ro 0 p.context]
  | 16 => [ro 0 (speedBits p.s70 0)]
  | 17 => [ro 0 (speedBits p.s70 1)]
  | 18 => [ro 0 (speedBits p.s105 0)]
  | 19 => [ro 0 (speedBits p.s105 1)]
  | _ => []

def cpyCode : CpyState → Nat
  | .idle => 0 | .moving => 1 | .tagBlocked => 2 | .creditWait => 3 | .retainWait => 4 | .faulted => 5

/-- KIND of the oldest descriptor in progress (R354). -/
def oldestKind (e : CopyEngine) : Nat := match oldestDesc e with | some r => dKind r.job.desc | none => 0

/-- CPY_ registers of an engine (R354 to R359), its waiting times up to the present tick. -/
def cpyWord (now : Word64) (e : CopyEngine) (w : Nat) : List Fld :=
  let e := engineNow now e
  match w with
  | 0 => [roNat 24 8 (e.queue.length + (engineActive e).length), roNat 16 3 (engineActive e).length, roNat 8 3 (oldestKind e),
          roNat 0 3 (cpyCode e.state)]
  | 1 => [rc 0 e.bytes]
  | 2 => [rc 32 e.notifies, rc 0 e.descs]
  | 3 => [rc 32 e.tagNs, rc 0 e.creditNs]
  | 4 => [ro 24 (e.fault.extractLsb' 24 6), ro 16 (e.fault.extractLsb' 16 8), w1c 0 (e.fault.extractLsb' 0 4)]
  | 5 => [ro 0 e.fdesc]
  | _ => []

/-- SYN_ registers of a tile (R384 to R387). -/
def synWord (s : State) (t : TileId) (w : Nat) : List Fld :=
  let y := s.tiles[t].syn
  match w with
  | 0 => [rc 32 y.adds, rc 0 y.releases]
  | 1 => [rc 16 y.timeouts, rc 0 y.wraps]
  | 2 => [rc 0 (synNow s t)]
  | 3 => [ro 16 (y.fault.extractLsb' 16 9), w1c 0 (y.fault.extractLsb' 0 2)]
  | _ => []

/-- PAS_ registers of a tile (R411 to R419). -/
def pasWord (p : PasRegs) (w : Nat) : List Fld :=
  match w with
  | 0 => [ro 20 p.part, ro 8 p.node, ro 0 p.pos]
  | 1 => [ro 0 p.route]
  | 2 => [ro 8 p.spoke, ro 4 p.ccw, ro 0 p.cw]
  | 3 => [ro 0 p.train]
  | 4 => [rc 32 p.retrySpoke, rc 16 p.retryCcw, rc 0 p.retryCw]
  | 5 => [rc 32 p.unknown, rc 0 p.filtered]
  | 6 => [w1c 0 (p.fault.extractLsb' 0 3)]
  | 7 => [ro 0 p.faddr]
  | 8 => [rc 48 p.wakes, rc 32 p.lastWake, roBit 2 p.hbmSr, ro 0 p.valley]
  | _ => []

/-- MEM_ registers of a tile (R446 to R449). -/
def memWord (m : HbmRegs) (w : Nat) : List Fld :=
  match w with
  | 0 => [roBit 2 m.trained, ro 0 m.state]
  | 1 => [rc 32 m.corrected, rc 0 m.uncorrected]
  | 2 => [w1c 62 (m.fault.extractLsb' 62 2), rc 8 (m.fault.extractLsb' 8 40)]
  | 3 => [rc 32 m.writeMib, rc 0 m.readMib]
  | _ => []

/-- A word of a tile's register region (R402), by its offset divided by 8. -/
def tileWord (s : State) (t : TileId) (w : Nat) : List Fld :=
  let x := s.tiles[t]
  let off := 8 * w
  if 0x80000 ≤ off ∧ off < 0x100000 then
    coreWord s ⟨t, ⟨off % 0x10000 / 0x400, by omega⟩⟩ (off / 0x10000) (off % 0x400 / 8)
  else if 0x200000 ≤ off ∧ off < 0x210000 then finWord x.fine ((off - 0x200000) / 8)
  else if 0x300000 ≤ off ∧ off < 0x310000 then pwrWord x.pwr ((off - 0x300000) / 8)
  else if h : 0x400000 ≤ off ∧ off < 0x400800 then cpyWord s.now x.engines[(off - 0x400000) / 0x100] (off % 0x100 / 8)
  else if 0x500000 ≤ off ∧ off < 0x510000 then synWord s t ((off - 0x500000) / 8)
  else if 0x600000 ≤ off ∧ off < 0x610000 then pasWord x.pas ((off - 0x600000) / 8)
  else if 0x700000 ≤ off ∧ off < 0x710000 then memWord x.mem ((off - 0x700000) / 8)
  else []

/-! ## The hub -/

/-- A word of a function's HST_ block (R528 to R532), by its offset in the block divided by 8. -/
def hstWord (s : State) (f : FuncId) (w : Nat) : List Fld :=
  let x := s.funcs[f]
  match w with
  | 0 => [roNat 24 8 (match funcPart s f with | some p => p.val | none => 0xFF), ro 16 s.hub.mps, ro 11 s.hub.width, ro 8 s.hub.speed,
          roBit 1 s.boot.stopped, roBit 0 (s.boot.ready && !s.boot.stopped)]
  | 2 => [rw 0 x.hbBase]
  | 3 => [rw 0 x.hbLen]
  | 0x60 => [ro 32 x.errAddr, ro 16 x.errCode, w1cBit 2 x.errRange, w1cBit 1 x.errDoorbell, w1cBit 0 x.errRefused]
  | w =>
    if h : 0x20 ≤ w ∧ w < 0x40 then
      let g := x.rings[(w - 0x20) / 4]
      if w % 4 = 0 then [rw 0 g.cmdBase] else if w % 4 = 1 then [rw 0 g.cplBase]
      else if w % 4 = 2 then [rw 40 g.mod, rw 32 g.vector, rw 16 g.logd, ⟨0, 1, .rw, g.enable.toNat⟩]
      else [ro 0 g.done]
    else if 0x40 ≤ w ∧ w < 0x48 then [⟨0, 16, .wo, 0⟩] else []

/-- Eight bytes of a list as a number. -/
def bytesWord (bs : List Byte) (i : Nat) : Nat := fieldAt bs (8 * i) 8

/-- SEC_PART of a partition (R563): which publisher keys are installed, and its layout entry. -/
def secPartWord (q : Partition) (hi : Bool) : List Fld :=
  let l := q.layout
  if hi then [roNat 32 14 l.nsExtents.toNat, roNat 16 10 l.gcount.toNat, roNat 0 10 l.g0.toNat]
  else [ro 56 l.function, ro 32 l.hubBlocks, ro 16 l.tiles,
        roNat 4 4 ((List.range 4).foldl (fun a i => match q.pubkeys.toList[i]? with | some (some _) => a + 2 ^ i | _ => a) 0),
        roBit 2 l.requireSigned, roBit 1 l.confidential, roBit 0 l.defined]

/-- A mask over the partitions. -/
def partMask (s : State) (f : Partition → Bool) : Nat := allParts.foldl (fun a p => if f s.parts[p] then a + 2 ^ p.val else a) 0

/-- TST_SPEED of a tile (R599). -/
def speedWord (r : SpeedRegs) (hi : Bool) : List Fld :=
  if hi then [ro 32 r.replays, ro 0 r.tolEvents]
  else [ro 48 r.mismatch, ro 32 r.rate, ro 28 r.result, ⟨24, 1, .wo, 0⟩, rw 16 r.tl, rw 0 r.volt]

/-- One register of each partition or tile: index and word of a stride of 16 bytes. -/
def strided (off base : Nat) : Option (Fin 12 × Bool) :=
  if h : base ≤ off ∧ off < base + 192 then some (⟨(off - base) / 16, by omega⟩, decide ((off - base) / 8 % 2 = 1)) else none

/-- The single registers of the hub region (R416, R420, R450 to R453, R494 to R501, R561 to R567, R581 to R583, R595 to R598). -/
def hubOne (s : State) (off : Nat) : List Fld :=
  let h := s.hub
  let b := s.boot
  let m := s.mgmt
  let x := s.test
  match off with
  | 0x140000 => [rc 32 h.synAdds, rc 0 h.synReleases]
  | 0x180000 => [ro 0 h.hlink]
  | 0x180008 => [rc 32 h.unknown, rc 0 h.filtered]
  | 0x1A0000 => [ro 0 h.epoch]
  | 0x1A0008 => [roBit 10 h.trained, ro 0 h.initGranules]
  | 0x1A0010 => [rc 32 h.linkCorrected, rc 0 h.linkUncorrected]
  | 0x1A0018 => [w1c 62 (h.lfault.extractLsb' 62 2), rc 8 (h.lfault.extractLsb' 8 40)]
  | 0x1A0020 => [ro 48 h.spareBlocks, rc 32 (BitVec.ofNat 14 (freeExtents s)), rc 16 h.ldpcFails, rc 0 h.ldpcRetries]
  | 0x1C0000 => [ro 8 s.sched.acoustic, ro 0 s.sched.budget5]
  | 0x1C0008 => [rc 0 s.sched.emod]
  | 0x1C0010 => [ro 16 h.mgain, ro 0 h.htoff]
  | 0x1E0000 => [ro 0 s.sched.windowMs]
  | 0x1E0008 => [ro 0 s.sched.start]
  | 0x1E0010 => [rc 0 s.sched.reserveMw]
  | 0x1E0018 => [roNat 8 8 (allParts.foldl (fun a p => a + s.parts[p].streams.length) 0), w1cBit 3 s.sched.thermWarn,
                 roBit 2 s.sched.thermLimit, roBit 1 s.sched.overhang, roBit 0 s.sched.slewLimited]
  | 0x300000 => [roNat 20 12 (partMask s (fun q => q.layout.defined && q.layout.confidential)), roNat 8 12 (partMask s (fun q => q.layout.defined)),
                 roBit 2 m.scrubbing, roBit 1 (confidentialMode s), roBit 0 (confidentialMode s)]
  | 0x300010 => [ro 0 (s.fuses.deviceId.extractLsb' 0 64)]
  | 0x300018 => [ro 0 (s.fuses.deviceId.extractLsb' 64 64)]
  | 0x300200 => [ro 32 m.scrubs, ro 0 m.lastUs]
  | 0x320000 => [roNat 32 6 m.netPrefix.toNat, ro 0 m.netAddr]
  | 0x320008 => [ro 0 m.netGateway]
  | 0x320010 => [ro 48 m.authFails, ro 32 m.counterFails, ro 0 m.accepted]
  | 0x320018 => [roNat 16 3 (m.conns.toList.filter id).length,
                 roNat 0 16 ((List.range 16).foldl (fun a i => match (theRecord s).opkeys.toList[i]? with | some (some _) => a + 2 ^ i | _ => a) 0)]
  | 0x340000 => [ro 20 b.detail.kind, ro 16 b.detail.index, ro 8 b.stage, roBit 0 b.stopped]
  | 0x340008 => [ro 0 b.generation]
  | 0x340010 => [ro 0 b.restoreGen]
  | 0x340018 => [w1cBit 3 b.writeFail, roBit 2 b.imported, roBit 1 b.staging.isSome, roBit 0 b.copyIsB]
  | 0x340020 => [ro 0 (theRecord s).fwMin[0]]
  | 0x340028 => [ro 0 (theRecord s).fwMin[1]]
  | 0x340030 => [ro 0 (theRecord s).fwMin[2]]
  | 0x360000 => [ro 16 x.lastCode, roBit 1 x.busy, ⟨0, 1, .rw, x.test.toNat⟩]
  | 0x360010 => [⟨32, 1, .wo, 0⟩, rw 16 x.loopDuration, rw 8 x.loopDepth, rw 4 x.loopInst, rw 0 x.loopIface]
  | 0x360018 => [ro 32 x.lresErrors, ro 8 x.lresLanes, ro 0 x.lresResult]
  | 0x360020 => [ro 24 x.mbistAddr, ro 16 x.mbistResult, ⟨8, 1, .wo, 0⟩, rw 4 x.mbistInst, rw 0 x.mbistTarget]
  | _ => []

/-- A word of the hub register region, by its offset divided by 8 (RNG_SEED: R390; SCH_PART: R502). -/
def hubWord (s : State) (w : Nat) : List Fld :=
  let off := 8 * w
  if h : 0x200000 ≤ off ∧ off < 0x2D0000 then hstWord s ⟨(off - 0x200000) / 0x10000, by omega⟩ (off % 0x10000 / 8)
  else if h : 0x120000 ≤ off ∧ off < 0x120400 then cpyWord s.now s.hub.engines[(off - 0x120000) / 0x100] (off % 0x100 / 8)
  else if 0x1C1000 ≤ off ∧ off < 0x1C1200 then [roNat 0 64 (bytesWord s.sched.mirror ((off - 0x1C1000) / 8))]
  else match strided off 0x100000, strided off 0x160000, strided off 0x1E0100, strided off 0x300100, strided off 0x360100 with
    | some (p, false), _, _, _, _ => [ro 0 s.parts[p].pfault]
    | _, some (p, false), _, _, _ => [rc 0 s.parts[p].pseed]
    | _, _, some (p, false), _, _ => [rc 48 s.parts[p].misses, ro 32 s.parts[p].vadm, rc 0 s.parts[p].deferred]
    | _, _, _, some (p, hi), _ => secPartWord s.parts[p] hi
    | _, _, _, _, some (t, hi) => speedWord s.test.speed[t] hi
    | _, _, _, _, _ => hubOne s off

/-! ## The bracket's LEDs (R608) -/

/-- What the status LED shows. -/
inductive StatusLed | dark | amber | amberBlink | green | greenBlink | alternating
  deriving DecidableEq, Repr

/-- The status LED: of two states that hold at once the one lower in the table of R608. -/
def statusLed (s : State) : StatusLed :=
  if !powered s then .dark
  else if s.boot.ready && (s.sched.thermLimit || s.sched.thermWarn) then .alternating
  else if s.test.test then .greenBlink
  else if s.boot.ready then .green
  else if s.boot.stopped then .amberBlink
  else .amber

/-- What the left RJ45 LED shows. -/
inductive PortLed | dark | on | blinking
  deriving DecidableEq, Repr

/-- The RJ45 LEDs: left on with the link at 1000 Mb/s and blinking while frames pass, right on with a partner at another rate; dark
while the module is off. -/
def rj45Left (s : State) (frames : Bool) : PortLed :=
  if !powered s || s.mgmt.link != .up1000 then .dark else if frames then .blinking else .on
def rj45Right (s : State) : Bool := powered s && s.mgmt.link == .otherRate

end Sys2Proof.Machine
end

