-- ==== Sys2Proof/Machine/Regs.lean ====
section
/-! DEFINITION. Register accesses through the BARs (R3 to R6, R402, R507, R527): what a read returns, what a write does, the
refusal of RC fields under confidential mode. -/

namespace Sys2Proof.Machine

/-! ## Where an access lands (R507) -/

/-- The mirror as BAR0 of a function shows it (R486): through a VF every partition entry but its own reads zero. -/
def mirrorFor (s : State) (f : FuncId) : List Byte :=
  let m := s.sched.mirror
  if f = 0 then m else
  sliceAt m 0 256 ++ allParts.flatMap (fun p => if funcPart s f == some p then sliceAt m (256 + 16 * p.val) 16 else List.replicate 16 0) ++
  sliceAt m 448 64

/-- The fields of the aligned 64-bit word at word index w of a BAR; BAR2 and BAR4 are PF0's. -/
def barWord (s : State) (f : FuncId) (bar : Bar) (w : Nat) : List Fld :=
  match bar with
  | .bar0 =>
    if w < 0x2000 then hstWord s f w
    else if w < 0x2080 then [roNat 0 64 (leNat (memRead (s.funcs[f]).msixTable (8 * w - 0x10000) 8))]
    else if 0x10000 ≤ w ∧ w < 0x10040 then [roNat 0 64 (bytesWord (mirrorFor s f) (w - 0x10000))]
    else []
  | .bar2 => if f = 0 then hubWord s w else []
  | .bar4 => if h : f = 0 ∧ w / 0x100000 < 12 then tileWord s ⟨w / 0x100000, h.2⟩ (w % 0x100000) else []

/-- Whether a field has a bit in a mask. -/
def inMask (x : Fld) (mask : BitVec 64) : Bool := mask.toNat / 2 ^ x.lo % 2 ^ x.len != 0

/-- An access with this mask touches an RC field. -/
def touchesRc (fs : List Fld) (mask : BitVec 64) : Bool := fs.any (fun x => x.acc == .rc && inMask x mask)

/-- An access refused under R4 is recorded in the requesting function's HST_ERR (R527, R532). -/
def recordRefusal (s : State) (f : FuncId) (off : Nat) : State :=
  updFunc s f (fun x => { x with errRefused := true, errCode := stConfidentialDenied, errAddr := BitVec.ofNat 32 off })

/-- Mask and data of word i of an access of n bytes at an offset: the second word holds what crosses the boundary. -/
def accessMask (off n i : Nat) : BitVec 64 := BitVec.ofNat 64 ((2 ^ (8 * min n 8) - 1) * 2 ^ (8 * (off % 8)) / 2 ^ (64 * i))
def accessData (off n i : Nat) (v : BitVec 64) : BitVec 64 :=
  BitVec.ofNat 64 (v.toNat % 2 ^ (8 * min n 8) * 2 ^ (8 * (off % 8)) / 2 ^ (64 * i))

/-- A read of n bytes: the value, and the refusal where it touches an RC field under confidential mode (R3, R4). -/
def readRegister (s : State) (f : FuncId) (bar : Bar) (off n : Nat) : Nat × State :=
  let f0 := barWord s f bar (off / 8)
  let f1 := barWord s f bar (off / 8 + 1)
  if confidentialMode s && (touchesRc f0 (accessMask off n 0) || touchesRc f1 (accessMask off n 1)) then (0, recordRefusal s f off)
  else ((wordValue f0 + 2 ^ 64 * wordValue f1) / 2 ^ (8 * (off % 8)) % 2 ^ (8 * min n 8), s)

/-! ## Writes -/

/-- The bits of a field after a write: written bits take the data, the others stay. -/
def merged {w : Nat} (old : BitVec w) (lo : Nat) (mask data : BitVec 64) : BitVec w :=
  (old &&& ~~~(mask >>> lo).truncate w) ||| ((data &&& mask) >>> lo).truncate w

/-- A register word of flags after a write of ones to W1C bits (R3): `bits` are the W1C bits of the register, `lo` its place
(R6; log entry 86). -/
def cleared {w : Nat} (old : BitVec w) (bits lo : Nat) (data : BitVec 64) : BitVec w :=
  old &&& ~~~((data >>> lo).truncate w &&& BitVec.ofNat w bits)

/-- The same for one bit. -/
def clearedBit (old : Bool) (i : Nat) (data : BitVec 64) : Bool := old && !data.getLsbD i

/-- W1C words of a core. -/
def writeCore (c : Core) (blk w : Nat) (d : BitVec 64) : Core :=
  match blk, w with
  | 9, 0 => { c with fdr := { c.fdr with adry := clearedBit c.fdr.adry 1 d, wdry := clearedBit c.fdr.wdry 0 d } }
  | 10, 3 => { c with drn := { c.drn with fault := cleared c.drn.fault 0xF 0 d } }
  | 13, 4 => { c with pln := { c.pln with busyPorts := cleared c.pln.busyPorts 0x3F 0 d } }
  | 13, 6 => { c with pln := { c.pln with fault := cleared c.pln.fault 0x1F 0 d } }
  | 14, 4 => { c with seq := { c.seq with fault := cleared c.seq.fault 0x7F 0 d } }
  | _, _ => c

/-- CPY_FAULT of an engine. -/
def writeCpy (e : CopyEngine) (w : Nat) (d : BitVec 64) : CopyEngine :=
  if w = 4 then { e with fault := cleared e.fault 0xF 0 d } else e

/-- A write to a tile's register region: `d` holds the written bits, zero elsewhere. -/
def writeTile (s : State) (t : TileId) (w : Nat) (d : BitVec 64) : State :=
  let off := 8 * w
  if 0x80000 ≤ off ∧ off < 0x100000 then
    updCore s ⟨t, ⟨off % 0x10000 / 0x400, by omega⟩⟩ (fun c => writeCore c (off / 0x10000) (off % 0x400 / 8) d)
  else if h : 0x400000 ≤ off ∧ off < 0x400800 then
    updEngine s (.tile t ⟨(off - 0x400000) / 0x100, by omega⟩) (fun e => writeCpy e (off % 0x100 / 8) d)
  else if off = 0x500018 then updTile s t (fun x => { x with syn := { x.syn with fault := cleared x.syn.fault 3 0 d } })
  else if off = 0x600030 then updTile s t (fun x => { x with pas := { x.pas with fault := cleared x.pas.fault 7 0 d } })
  else if off = 0x700010 then
    updTile s t (fun x => { x with mem := { x.mem with fault := cleared x.mem.fault (3 * 2 ^ 62) 0 d } })
  else s

/-- A multiple of 4,096 (R529, R530). -/
def page {w : Nat} (v : BitVec w) : BitVec w := v &&& ~~~(BitVec.ofNat w 0xFFF)

/-- A write to a ring pair's registers (R530): fields other than ENABLE only while it is 0; LOGD takes 0 to 10; a change of ENABLE
to 1 comes after the fields of the same write. -/
def writeRing (s : State) (f : FuncId) (r : Fin 8) (w : Nat) (mask data : BitVec 64) : State :=
  let en := (getRing s f r).enable
  let s := if en then s else updRing s f r (fun g =>
    if w = 0 then { g with cmdBase := page (merged g.cmdBase 0 mask data) }
    else if w = 1 then { g with cplBase := page (merged g.cplBase 0 mask data) }
    else if w = 2 then
      let l := merged g.logd 16 mask data
      { g with mod := merged g.mod 40 mask data, vector := merged g.vector 32 mask data, logd := if l.toNat ≤ 10 then l else g.logd }
    else g)
  if w = 2 ∧ mask.getLsbD 0 then
    (if data.getLsbD 0 then ringEnable s f r else updRing s f r (fun g => { g with enable := false }))
  else s

/-- A write to a function's HST_ block. -/
def writeHst (s : State) (f : FuncId) (w : Nat) (mask data : BitVec 64) : State :=
  let d := data &&& mask
  if w = 2 then updFunc s f (fun x => { x with hbBase := page (merged x.hbBase 0 mask data) })
  else if w = 3 then updFunc s f (fun x => { x with hbLen := page (merged x.hbLen 0 mask data) })
  else if h : 0x20 ≤ w ∧ w < 0x40 then writeRing s f ⟨(w - 0x20) / 4, by omega⟩ (w % 4) mask data
  else if h : 0x40 ≤ w ∧ w < 0x48 then
    (if (mask.truncate 16 : BitVec 16) = 0 then s else ringDoorbell s f ⟨w - 0x40, by omega⟩ (d.truncate 16))
  else if w = 0x60 then
    updFunc s f (fun x => { x with errRange := clearedBit x.errRange 2 d, errDoorbell := clearedBit x.errDoorbell 1 d,
                                   errRefused := clearedBit x.errRefused 0 d })
  else s

/-- TST_LOOP (R596): the fields of a write, then GO. -/
def writeLoop (s : State) (mask data : BitVec 64) : State :=
  let s := updTest s (fun x =>
    { x with loopDuration := merged x.loopDuration 16 mask data, loopDepth := merged x.loopDepth 8 mask data,
             loopInst := merged x.loopInst 4 mask data,
             loopIface := merged x.loopIface 0 mask data })
  if (data &&& mask).getLsbD 32 then loopGo s else s

/-- TST_MBIST (R598). -/
def writeMbist (s : State) (mask data : BitVec 64) : State :=
  let s := updTest s (fun x =>
    { x with mbistInst := merged x.mbistInst 4 mask data,
             mbistTarget := merged x.mbistTarget 0 mask data })
  if (data &&& mask).getLsbD 8 then mbistGo s else s

/-- A voltage and a tolerance line that R593 lists. -/
def voltListed (v : BitVec 10) : Bool := decide (500 ≤ v.toNat) && decide (v.toNat ≤ 850) && v.toNat % 10 == 0

/-- TST_SPEED of a tile (R599): a value that the field does not list is not taken. -/
def writeSpeed (s : State) (t : TileId) (mask data : BitVec 64) : State :=
  let s := setSpeed s t (fun x =>
    let v := merged x.volt 0 mask data
    let l := merged x.tl 16 mask data
    { x with volt := if voltListed v then v else x.volt, tl := if l.toNat ≤ 8 then l else x.tl })
  if (data &&& mask).getLsbD 24 then speedGo s t else s

/-- TST_MODE (R595): TEST is requested or ended; a retraining succeeds here (its failure is an operand of TEST_STATE_END). -/
def writeMode (s : State) (mask data : BitVec 64) : State :=
  if mask.getLsbD 0 then (if data.getLsbD 0 then requestTest s else writeTestEnd s none) else s

/-- A write to the hub register region. -/
def writeHub (s : State) (w : Nat) (mask data : BitVec 64) : State :=
  let off := 8 * w
  let d := data &&& mask
  if h : 0x200000 ≤ off ∧ off < 0x2D0000 then writeHst s ⟨(off - 0x200000) / 0x10000, by omega⟩ (off % 0x10000 / 8) mask data
  else if h : 0x120000 ≤ off ∧ off < 0x120400 then
    updEngine s (.hub ⟨(off - 0x120000) / 0x100, by omega⟩) (fun e => writeCpy e (off % 0x100 / 8) d)
  else if off = 0x1A0018 then updHub s (fun h => { h with lfault := cleared h.lfault (3 * 2 ^ 62) 0 d })
  else if off = 0x1E0018 then updSched s (fun x => { x with thermWarn := clearedBit x.thermWarn 3 d })
  else if off = 0x340018 then updBoot s (fun b => { b with writeFail := clearedBit b.writeFail 3 d })
  else if off = 0x360000 then writeMode s mask data
  else if off = 0x360010 then writeLoop s mask data
  else if off = 0x360020 then writeMbist s mask data
  else match strided off 0x360100 with
    | some (t, false) => writeSpeed s t mask data
    | _ => s

/-- A write of one aligned word through a BAR. -/
def writeWord (s : State) (f : FuncId) (bar : Bar) (w : Nat) (mask data : BitVec 64) : State :=
  match bar with
  | .bar0 =>
    if w < 0x2000 then writeHst s f w mask data
    else if w < 0x2080 then
      updFunc s f (fun x =>
        let old := BitVec.ofNat 64 (leNat (memRead x.msixTable (8 * w - 0x10000) 8))
        { x with msixTable := memWrite x.msixTable (8 * w - 0x10000) (natLe 8 (merged old 0 mask data).toNat) })
    else s
  | .bar2 => if f = 0 then writeHub s w mask data else s
  | .bar4 => if h : f = 0 ∧ w / 0x100000 < 12 then writeTile s ⟨w / 0x100000, h.2⟩ (w % 0x100000) (data &&& mask) else s

/-- A write of n bytes, at most eight (R3 to R6). -/
def writeRegister (s : State) (f : FuncId) (bar : Bar) (off n : Nat) (v : BitVec 64) : State :=
  let w := off / 8
  let m0 := accessMask off n 0
  let m1 := accessMask off n 1
  if confidentialMode s && (touchesRc (barWord s f bar w) m0 || touchesRc (barWord s f bar (w + 1)) m1) then recordRefusal s f off
  else
    let s := writeWord s f bar w m0 (accessData off n 0 v)
    if m1 = 0 then s else writeWord s f bar (w + 1) m1 (accessData off n 1 v)

/-- REGISTER_WRITE (R3, R5, R6). -/
def execRegisterWrite (f : FuncId) (bar : Bar) (offset : Nat) (bytes : Nat) (value : BitVec 64) (s : State) : Out :=
  .next (if busUp s then writeRegister s f bar offset bytes value else s)

/-- RC_FIELD_ACCESS (R4): an access to a word that holds an RC field is refused and recorded while confidential mode is in
force; at other times it is a read, which changes nothing. Eight bytes from an aligned offset, else four. -/
def execRcFieldAccess (f : FuncId) (bar : Bar) (offset : Nat) (s : State) : Out :=
  .next (if busUp s then (readRegister s f bar offset (if offset % 8 = 0 then 8 else 4)).2 else s)

end Sys2Proof.Machine
end

