-- ==== Sys2Proof/Machine/Jtag.lean ====
section
/-! DEFINITION. The IEEE 1149.1 TAP (R537, R594). -/

namespace Sys2Proof.Machine

/-- BYPASS: the bypass register captures zero (IEEE 1149.1; log entry 26). -/
def tapBypass (s : State) : State := updTest s (fun x => { x with tap := .bypass, tapData := 0 })

/-- An instruction that acts outside confidential mode, and outside test state only where R594 says so. -/
def tapActs (s : State) (needsTest : Bool) : Bool := !confidentialMode s && (!needsTest || s.test.test)

def execBypass (s : State) : Out := .next (if powered s then tapBypass s else s)

/-- IDCODE acts in every mode. -/
def execIdcode (s : State) : Out :=
  .next (if powered s then updTest s (fun x => { x with tap := .idcode, tapData := 0x1120446B }) else s)

/-- The boundary register captures what the pads carry, which comes out of the scan, and takes the values scanned in. What comes from
outside the module is left open (log entry 26). -/
def boundaryScan (i : TapInstr) (pads : BitVec 64) (s : State) : State :=
  let (v, s) := drawFree s
  updTest s (fun x => { x with tap := i, tapData := v, pads := pads })

/-- SAMPLE/PRELOAD: the pads are sampled while the module drives them, and the boundary register is loaded. -/
def execSamplePreload (pads : BitVec 64) (s : State) : Out :=
  .next (if !powered s then s else if tapActs s false then boundaryScan .samplePreload pads s else tapBypass s)

/-- EXTEST: the boundary register drives the pads. -/
def execExtest (pads : BitVec 64) (s : State) : Out :=
  .next (if !powered s then s else if tapActs s true then boundaryScan .extest pads s else tapBypass s)

/-- CLAMP: the boundary register drives the pads while the bypass register is scanned. -/
def execClamp (s : State) : Out :=
  .next (if !powered s then s else if tapActs s true then updTest s (fun x => { x with tap := .clamp, tapData := 0 }) else tapBypass s)

/-- HIGHZ: the pads are not driven. -/
def execHighz (s : State) : Out :=
  .next (if !powered s then s else if tapActs s true then updTest s (fun x => { x with tap := .highz, tapData := 0 }) else tapBypass s)

/-- REGACC: a 64-bit access to the hub register region under the rules of BAR2. -/
def execRegacc (isWrite : Bool) (offset : Nat) (value : BitVec 64) (s : State) : Out :=
  .next (if !powered s then s else if !tapActs s false then tapBypass s else
    let s := updTest s (fun x => { x with tap := .regacc })
    if isWrite then writeRegister s 0 .bar2 offset 8 value
    else
      let v := (readRegister s 0 .bar2 offset 8).1
      updTest s (fun x => { x with tapData := BitVec.ofNat 64 v }))

end Sys2Proof.Machine
end

