-- ==== Sys2Proof/Machine/Settings.lean ====
section
/-! DEFINITION. The retained-state record in bytes (R534, R572, R573): layouts and their validity, the record written out and
read back. -/

namespace Sys2Proof.Machine

/-! ## Layouts (R534) -/

/-- A layout entry read from its 32 bytes. -/
def parseEntry (b : List Byte) : LayoutEntry :=
  let f := fieldAt b 1 1
  { defined := decide (f % 2 = 1), confidential := decide (f / 2 % 2 = 1), requireSigned := decide (f / 4 % 2 = 1),
    tiles := BitVec.ofNat 12 (fieldAt b 2 2), hubBlocks := BitVec.ofNat 16 (fieldAt b 4 2), function := BitVec.ofNat 8 (fieldAt b 6 1),
    g0 := BitVec.ofNat 16 (fieldAt b 8 2), gcount := BitVec.ofNat 16 (fieldAt b 10 2), nsExtents := BitVec.ofNat 16 (fieldAt b 12 2) }

/-- Bytes of entry p in a list of layout entries. -/
def entryBytes (bs : List Byte) (p : Nat) : List Byte := sliceAt bs (32 * p) 32

def parseLayout (bs : List Byte) : Vector LayoutEntry 12 := Vector.ofFn (fun (p : Fin 12) => parseEntry (entryBytes bs p.val))

/-- Reserved bytes and bits of twelve entries are zero. -/
def layoutClean (bs : List Byte) : Bool :=
  (List.range 12).all (fun p => let b := entryBytes bs p
    decide (fieldAt b 1 1 < 8) && decide (fieldAt b 2 2 < 4096) && fieldAt b 7 1 == 0 && allZero (sliceAt b 14 18))

/-- PART of each entry is its index. -/
def layoutNumbered (bs : List Byte) : Bool := (List.range 12).all (fun p => fieldAt (entryBytes bs p) 0 1 == p)

/-- One entry by itself: an undefined one is empty, a defined one has a tile, a run within the granules, a function or none. -/
def entryValid (l : LayoutEntry) : Bool :=
  if l.defined then
    l.tiles != 0 && decide (l.g0.toNat + l.gcount.toNat ≤ 744) && (l.gcount != 0 || l.g0 == 0) &&
    (l.function == 0xFF || decide (l.function.toNat ≤ 12))
  else l == LayoutEntry.reset

/-- Two defined entries share no tile, hub block, granule or function. -/
def entriesApart (a b : LayoutEntry) : Bool :=
  (a.tiles &&& b.tiles) == 0 && (a.hubBlocks &&& b.hubBlocks) == 0 &&
  (a.gcount == 0 || b.gcount == 0 || decide (a.g0.toNat + a.gcount.toNat ≤ b.g0.toNat) || decide (b.g0.toNat + b.gcount.toNat ≤ a.g0.toNat)) &&
  (a.function == 0xFF || a.function != b.function)

/-- Every pair of a list. -/
def pairwiseAll {α : Type} (f : α → α → Bool) : List α → Bool
  | [] => true
  | x :: xs => xs.all (f x) && pairwiseAll f xs

/-- A layout is valid (R534). -/
def layoutValid (v : Vector LayoutEntry 12) : Bool :=
  v.toList.all entryValid && pairwiseAll entriesApart (v.toList.filter (fun l => l.defined)) &&
  decide (v.toList.foldl (fun a l => a + l.nsExtents.toNat) 0 ≤ 12288)

/-- The twelve entries of a layout in bytes. -/
def allEntries (v : Vector LayoutEntry 12) : List Byte := (List.finRange 12).flatMap (fun p => layoutBytes p.val v[p] 0)

/-! ## The record (R572) -/

/-- A key slot in bytes; an empty one is zero. -/
def keyBytes (k : Option (List Byte)) : List Byte := sliceAt (k.getD []) 0 1952

def keyMask (v : Vector (Option (List Byte)) 16) : Nat := (List.finRange 16).foldl (fun a i => if v[i].isSome then a + 2 ^ i.val else a) 0

def partSetBytes (x : PartSet) : List Byte :=
  natLe 8 x.pseed.toNat ++ [boolByte x.adaptive] ++ List.replicate 7 0 ++ natLe 8 x.residency.toNat ++ List.replicate 8 0

/-- Bytes 64 on of the record. -/
def recordTail (r : Retained) : List Byte :=
  natLe 2 r.budget5.toNat ++ natLe 1 r.acoustic.toNat ++ natLe 1 r.windowMs.toNat ++ natLe 4 r.netAddr.toNat ++
  [r.netPrefix] ++ natLe 3 0 ++ natLe 4 r.netGateway.toNat ++ r.fwMin.toList.flatMap (fun v => natLe 8 v.toNat) ++ natLe 2 r.teardown.toNat ++
  [boolByte r.layoutPending] ++ List.replicate 21 0 ++ r.toff.toList.flatMap (fun v => natLe 2 v.toNat) ++
  r.gain.toList.flatMap (fun v => natLe 2 v.toNat) ++ natLe 2 r.htoff.toNat ++ natLe 2 r.mgain.toNat ++ List.replicate 12 0 ++
  allEntries r.layout ++ r.partset.toList.flatMap partSetBytes ++ r.counters.toList.flatMap (fun v => natLe 8 v.toNat) ++
  natLe 2 (keyMask r.opkeys) ++ List.replicate 62 0 ++ r.opkeys.toList.flatMap keyBytes ++ r.pubkeys.toList.flatMap keyBytes ++
  List.replicate 4992 0

/-- MAGIC of the record, which reads ZRETAINS (R572). -/
def recordMagic : Nat := 0x534E49415445525A

/-- Bytes 0 to 31 of the record. -/
def recordHead (r : Retained) : List Byte :=
  natLe 8 recordMagic ++ natLe 4 1 ++ natLe 4 131072 ++ natLe 8 r.generation.toNat ++ natLe 8 r.bootCount.toNat

/-- The record in 131,072 bytes, with its digest. -/
def recordBytes (r : Retained) : List Byte :=
  let h := recordHead r
  let t := recordTail r
  h ++ shake 32 (h ++ List.replicate 32 0 ++ t) ++ t

/-- Field of two bytes as int16. -/
def int16At (bs : List Byte) (off : Nat) : BitVec 16 := BitVec.ofNat 16 (fieldAt bs off 2)

def keyAt (bs : List Byte) (off : Nat) : List Byte := sliceAt bs off 1952

/-- The fields of a record's bytes. -/
def parseFields (bs : List Byte) : Retained :=
  { generation := BitVec.ofNat 64 (fieldAt bs 16 8), bootCount := BitVec.ofNat 64 (fieldAt bs 24 8),
    budget5 := BitVec.ofNat 8 (fieldAt bs 64 2), acoustic := BitVec.ofNat 2 (fieldAt bs 66 1), windowMs := BitVec.ofNat 7 (fieldAt bs 67 1),
    netAddr := BitVec.ofNat 32 (fieldAt bs 68 4), netPrefix := BitVec.ofNat 8 (fieldAt bs 72 1), netGateway := BitVec.ofNat 32 (fieldAt bs 76 4),
    fwMin := Vector.ofFn (fun (i : Fin 3) => BitVec.ofNat 64 (fieldAt bs (80 + 8 * i.val) 8)),
    teardown := BitVec.ofNat 12 (fieldAt bs 104 2), layoutPending := decide (fieldAt bs 106 1 = 1),
    toff := Vector.ofFn (fun (i : Fin 12) => int16At bs (128 + 2 * i.val)), gain := Vector.ofFn (fun (i : Fin 12) => int16At bs (152 + 2 * i.val)),
    htoff := int16At bs 176, mgain := int16At bs 178, layout := parseLayout (sliceAt bs 192 384),
    partset := Vector.ofFn (fun (i : Fin 12) =>
      { pseed := BitVec.ofNat 64 (fieldAt bs (576 + 32 * i.val) 8), adaptive := decide (fieldAt bs (584 + 32 * i.val) 1 = 1),
        residency := BitVec.ofNat 64 (fieldAt bs (592 + 32 * i.val) 8) }),
    counters := Vector.ofFn (fun (i : Fin 16) => BitVec.ofNat 64 (fieldAt bs (960 + 8 * i.val) 8)),
    opkeys := Vector.ofFn (fun (i : Fin 16) => if fieldAt bs 1088 2 / 2 ^ i.val % 2 = 1 then some (keyAt bs (1152 + 1952 * i.val)) else none),
    pubkeys := Vector.ofFn (fun (i : Fin 48) => let k := keyAt bs (32384 + 1952 * i.val)
      if allZero k then none else some k) }

/-- A signed value lies within ± n. -/
def within (v : BitVec 16) (n : Int) : Bool := decide (-n ≤ v.toInt) && decide (v.toInt ≤ n)

/-- Reserved bytes of the record are zero. -/
def recordClean (bs : List Byte) : Bool :=
  allZero (sliceAt bs 73 3) && allZero (sliceAt bs 107 21) && allZero (sliceAt bs 180 12) && allZero (sliceAt bs 1090 62) &&
  allZero (sliceAt bs 126080 4992) && layoutClean (sliceAt bs 192 384) &&
  (List.range 12).all (fun i => allZero (sliceAt bs (585 + 32 * i) 7) && allZero (sliceAt bs (600 + 32 * i) 8)) &&
  (List.range 16).all (fun i => fieldAt bs 1088 2 / 2 ^ i % 2 == 1 || allZero (keyAt bs (1152 + 1952 * i)))

/-- Every field lies in its range. -/
def recordRanges (bs : List Byte) (r : Retained) : Bool :=
  decide (30 ≤ fieldAt bs 64 2) && decide (fieldAt bs 64 2 ≤ 84) && decide (fieldAt bs 66 1 ≤ 3) &&
  decide (1 ≤ fieldAt bs 67 1) && decide (fieldAt bs 67 1 ≤ 100) && decide (fieldAt bs 72 1 ≤ 32) &&
  decide (fieldAt bs 104 2 < 4096) && decide (fieldAt bs 106 1 ≤ 1) && r.toff.toList.all (fun v => within v 48) && within r.htoff 48 &&
  r.gain.toList.all (fun v => within v 200) && within r.mgain 200 &&
  (List.range 12).all (fun i => decide (fieldAt bs (584 + 32 * i) 1 ≤ 1)) &&
  layoutNumbered (sliceAt bs 192 384) && layoutValid r.layout

/-- A record read from its bytes, when the copy is valid (R573). -/
def parseRecord (bs : List Byte) : Option Retained :=
  let r := parseFields bs
  if bs.length = 131072 && fieldAt bs 0 8 == recordMagic && fieldAt bs 8 4 == 1 && fieldAt bs 12 4 == 131072 &&
     sliceAt bs 32 32 == shake 32 (sliceAt bs 0 32 ++ List.replicate 32 0 ++ bs.drop 64) && recordClean bs && recordRanges bs r
  then some r else none

end Sys2Proof.Machine
end

