-- ==== Sys2Proof/Machine/Mgmt.lean ====
section
/-! DEFINITION. The management plane (R21, R535, R539, R540, R552 to R560, R577, R608): connections, requests and their checks,
responses, layout changes, firmware, keys, export and import. -/

namespace Sys2Proof.Machine

def stVersionRollback : BitVec 16 := 0x0405
def stMgmtBadRequest : BitVec 16 := 0x0503
def stMgmtLayoutInvalid : BitVec 16 := 0x0504

/-! ## The link and its connections (R552, R567, R608) -/

/-- MGMT_LINK_CHANGE (R608). -/
def execMgmtLinkChange (link : MgmtLink) (s : State) : Out :=
  .next (if powered s then updMgmt s (fun m => { m with link := link }) else s)

/-- The port carries connections: it is open and the link runs at 1000 Mb/s. -/
def portUp (s : State) : Bool := powered s && s.mgmt.portOpen && s.mgmt.link == .up1000

/-- MGMT_CONNECT (R552): a free place of four; a fifth connection is refused. -/
def execMgmtConnect (s : State) : Out :=
  .next (if !portUp s then s else match (List.finRange 4).find? (fun i => !s.mgmt.conns[i]) with
    | some i => updMgmt s (fun m => { m with conns := m.conns.set i true, responses := m.responses.set i none })
    | none => s)

/-- MGMT_CONNECTION_CLOSE (R567): requests that have arrived are still carried out; their responses reach nobody. -/
def execMgmtConnectionClose (c : ConnId) (s : State) : Out :=
  .next (updMgmt s (fun m => { m with
    conns := m.conns.set c false, waiting := m.waiting.map (fun x => if x.2.1 == c then (false, x.2) else x) }))

/-! ## Requests and responses (R553 to R555, R558) -/

/-- TYPE, KEY, COUNTER, BODY_LEN, BODY and SIG of a request. -/
def reqType (r : List Byte) : Nat := fieldAt r 4 1
def reqKey (r : List Byte) : Nat := fieldAt r 5 1
def reqCounter (r : List Byte) : Nat := fieldAt r 24 8
def reqBodyLen (r : List Byte) : Nat := fieldAt r 32 4
def reqBody (r : List Byte) : List Byte := sliceAt r 64 (reqBodyLen r)
def reqSig (r : List Byte) : List Byte := r.drop (64 + reqBodyLen r)

/-- A response (R558), kept as the connection's last one. -/
def respond (s : State) (c : ConnId) (req : List Byte) (status : BitVec 16) (body : List Byte) : State :=
  let b := if status = stOk then body else []
  let head := natLe 4 (128 + b.length + 3312) ++ natLe 1 (reqType req) ++ natLe 1 (reqKey req) ++ natLe 2 status.toNat ++ deviceId s ++
    natLe 8 (reqCounter req) ++ shake 32 req ++ natLe 4 b.length ++ List.replicate 60 0 ++ b
  let msg := head ++ identitySign s head (ascii "G12MGMT-RSP") ++ List.replicate 3 0
  updMgmt s (fun m => { m with responses := m.responses.set c (some msg) })

/-- Sizes and reserved bytes of R553. -/
def requestFormat (r : List Byte) : Bool :=
  let signed := reqKey r != 0xFF
  decide (64 ≤ r.length) && fieldAt r 0 4 == r.length && decide (r.length ≤ 1052672) && decide (reqKey r ≤ 15 ∨ reqKey r = 0xFF) &&
  fieldAt r 6 2 == 0 && decide (reqBodyLen r ≤ 1048576) && allZero (sliceAt r 36 28) &&
  r.length == 64 + reqBodyLen r + (if signed then 3309 else 0)

/-- Operator key of a slot. -/
def opKey (s : State) (slot : Nat) : Option (List Byte) := match (theRecord s).opkeys.toList[slot]? with | some k => k | none => none

/-- SIG verifies under a key (R553). -/
def reqVerifies (k r : List Byte) : Bool := Config.mldsaVerify k (r.take (64 + reqBodyLen r)) (ascii "G12MGMT-REQ") (reqSig r)

/-- DEVICE_ID, KEY and SIG (R554 order 2, R555, R577). -/
def requestAuth (s : State) (r : List Byte) : Bool :=
  sliceAt r 8 16 == deviceId s &&
  (if s.boot.recovery then reqKey r == 0xFF && (reqType r == 0x01 || reqType r == 0x11)
   else if reqKey r = 0xFF then reqType r == 0x01
   else if (theRecord s).opkeys.toList.all (fun k => k.isNone) then
     reqType r == 0x0C && fieldAt (reqBody r) 0 1 == reqKey r && reqVerifies (keyAt (reqBody r) 1) r
   else match opKey s (reqKey r) with
     | some k => reqVerifies k r
     | none => false)

/-- COUNTER exceeds the last one accepted for its key (R554 order 3); an unsigned request names no key. -/
def counterOk (s : State) (r : List Byte) : Bool :=
  reqKey r == 0xFF || decide (((theRecord s).counters.toList[reqKey r]?.getD 0).toNat < reqCounter r)

/-- The accepted counter is written before the request acts. -/
def acceptCounter (s : State) (r : List Byte) : Bool × State :=
  if reqKey r = 0xFF then (true, s)
  else writeRecord s (fun x => { x with counters := x.counters.setIfInBounds (reqKey r) (BitVec.ofNat 64 (reqCounter r)) })

/-- A request of a TYPE that R557 lists. -/
def typeListed (t : Nat) : Bool := decide (1 ≤ t) && decide (t ≤ 0x11)

/-- Carry out a request of a TYPE: `ok` are the sizes and values its body may have, `pre` a refusal that rests on the state
(which, like every refusal, comes before the counter is written), `act` its effect and response. -/
def mgmtServe (ty : Nat) (ok : List Byte → Bool) (pre : State → List Byte → Option (BitVec 16)) (act : List Byte → State → State)
    (c : ConnId) (r : List Byte) (s : State) : State :=
  if !requestFormat r || reqType r != ty || !ok (reqBody r) then respond s c r stMgmtBadRequest []
  else if !requestAuth s r then respond (updMgmt s (fun m => { m with authFails := satAdd m.authFails 1 })) c r stMgmtAuth []
  else if !counterOk s r then respond (updMgmt s (fun m => { m with counterFails := satAdd m.counterFails 1 })) c r stMgmtCounter []
  else match pre s (reqBody r) with
    | some code =>
      respond (if code = stMgmtAuth then updMgmt s (fun m => { m with authFails := satAdd m.authFails 1 }) else s) c r code []
    | none =>
      let (wrote, s) := acceptCounter s r
      if !wrote then respond s c r stRecordWriteFail []
      else act (reqBody r) (updMgmt s (fun m => { m with accepted := satAdd m.accepted 1 }))

/-- A request of a TYPE arrives on an open connection. Requests are carried out one at a time: while a LAYOUT_SET is under way it
waits (R535, R552). -/
def mgmtReq (ty : Nat) (serve : ConnId → List Byte → State → State) (c : ConnId) (r : List Byte) (s : State) : Out :=
  if !portUp s || !s.mgmt.conns[c] || (typeListed (reqType r) && reqType r != ty) then .next s
  else if s.mgmt.job.isSome then .next (updMgmt s (fun m => { m with waiting := m.waiting ++ [(true, c, r)] }))
  else .next (serve c r s)

def noPre (_ : State) (_ : List Byte) : Option (BitVec 16) := none
def bodyLen (n : Nat) (b : List Byte) : Bool := b.length == n

/-- Change the record, then the setting, then respond. -/
def keep (s : State) (c : ConnId) (r : List Byte) (f : Retained → Retained) (act : State → State) (body : List Byte) : State :=
  let (wrote, s) := writeRecord s f
  if wrote then respond (act s) c r stOk body else respond s c r stRecordWriteFail []

/-! ## Information, the pair, telemetry (R21, R557, R558) -/

def getInfoReq (c : ConnId) (req : List Byte) (s : State) : State :=
  mgmtServe 0x01 (bodyLen 0) noPre (fun _ s => respond s c req stOk (deviceId s ++ versionWords s ++ List.replicate 24 0 ++ certificate s)) c req s

def execGetInfo (c : ConnId) (req : List Byte) (s : State) : Out := mgmtReq 0x01 getInfoReq c req s

def pairOk (b : List Byte) : Bool :=
  let w := fieldAt b 0 2
  b.length == 3 && decide (150 ≤ w) && decide (w ≤ 420) && w % 5 == 0 && decide (fieldAt b 2 1 ≤ 3)

def setPairReq (c : ConnId) (req : List Byte) (s : State) : State :=
  mgmtServe 0x02 pairOk noPre (fun b s =>
    let w := BitVec.ofNat 8 (fieldAt b 0 2 / 5)
    let a := BitVec.ofNat 2 (fieldAt b 2 1)
    keep s c req (fun r => { r with budget5 := w, acoustic := a })
      (fun s => updSched s (fun x => { x with pending := putDue x.pending (w, a) (pairStart s) })) (natLe 8 (pairStart s).toNat)) c req s

def execSetPair (c : ConnId) (req : List Byte) (s : State) : Out := mgmtReq 0x02 setPairReq c req s

/-- The pair in force and the pending pair, the last one written for the next window start (R21). -/
def pairBytes (x : Sched) (now : Word64) : List Byte :=
  natLe 2 (5 * (pairNow x now).1.toNat) ++ natLe 1 (pairNow x now).2.toNat ++
  (match (dueLater now x.pending).getLast? with
   | some ((b, a), t) => [1] ++ natLe 2 (5 * b.toNat) ++ natLe 1 a.toNat ++ [0] ++ natLe 8 t.toNat
   | none => List.replicate 13 0)

def getPairReq (c : ConnId) (req : List Byte) (s : State) : State :=
  mgmtServe 0x03 (bodyLen 0) noPre (fun _ s => respond s c req stOk (pairBytes s.sched s.now)) c req s

def execGetPair (c : ConnId) (req : List Byte) (s : State) : Out := mgmtReq 0x03 getPairReq c req s

def mgmtAttestReq (c : ConnId) (req : List Byte) (s : State) : State :=
  mgmtServe 0x04 (bodyLen 32) noPre (fun b s => respond s c req stOk (report s 0x10 b)) c req s

def execMgmtAttest (c : ConnId) (req : List Byte) (s : State) : Out := mgmtReq 0x04 mgmtAttestReq c req s

def telemetryReq (c : ConnId) (req : List Byte) (s : State) : State :=
  mgmtServe 0x05 (bodyLen 0) noPre (fun _ s => respond s c req stOk (sliceAt s.sched.mirror 0 512)) c req s

def execTelemetry (c : ConnId) (req : List Byte) (s : State) : Out := mgmtReq 0x05 telemetryReq c req s

/-- Digest of a key slot; zero when it is empty. -/
def keyDigest (k : Option (List Byte)) : List Byte := match k with | some b => shake 32 b | none => List.replicate 32 0

def layoutGetReq (c : ConnId) (req : List Byte) (s : State) : State :=
  mgmtServe 0x06 (bodyLen 0) noPre (fun _ s =>
    respond s c req stOk (allEntries (Vector.ofFn (fun (p : Fin 12) => s.parts[p].layout)) ++
      s.parts.toList.flatMap (fun q => q.pubkeys.toList.flatMap keyDigest))) c req s

def execLayoutGet (c : ConnId) (req : List Byte) (s : State) : Out := mgmtReq 0x06 layoutGetReq c req s

/-! ## Layout changes (R535, R539, R540) -/

/-- An entry differs only in FUNCTION, or only in REQUIRE_SIGNED. -/
def onlyFunction (a b : LayoutEntry) : Bool := a != b && { a with function := b.function } == b
def onlyRequire (a b : LayoutEntry) : Bool := a != b && { a with requireSigned := b.requireSigned } == b

/-- The partitions that a new layout tears down. -/
def tornMask (s : State) (new : Vector LayoutEntry 12) : BitVec 12 :=
  BitVec.ofNat 12 (allParts.foldl (fun m p =>
    let a := s.parts[p].layout
    if a.defined && a != new[p] && !onlyFunction a new[p] && !onlyRequire a new[p] then m + 2 ^ p.val else m) 0)

/-- A core after the scrub (R539): plain zero with every bank ON and all tags EMPTY, stores, registers, sets and row-function
unit cleared, stream generator cleared. -/
def scrubCore (c : Core) : Core :=
  { stopCore 0 c with
    plain := [], tags := 0, pln := { c.pln with power := 0x5555 }, store := [], sregs := .replicate 32 0, ag := .reset, sp := .reset,
    rfu := .reset, rfuRun := none, rng := .reset, reload := none, masks := [], tables := [] }

/-- A tile after the scrub: cores, fine store, objects, HBM. It belongs to no partition until the change takes effect. -/
def scrubTile (x : Tile) : Tile :=
  { x with
    cores := x.cores.map scrubCore, fine := { x.fine with store := [] }, objs := .replicate 512 .reset, waiters := [], hbm := [],
    credits := [], outbox := [], pas := { x.pas with part := 0xF } }

/-- The hub's share of a scrub: objects of the entry's blocks, its granules. -/
def scrubHub (l : LayoutEntry) (h : Hub) : Hub :=
  { h with
    objs := Vector.ofFn (fun (i : Fin 2048) => if l.hubBlocks.getLsbD (i.val / 128) then .reset else h.objs[i]),
    waiters := h.waiters.filter (fun w => !l.hubBlocks.getLsbD (w.obj / 128)),
    lpddr := memClear h.lpddr (l.g0.toNat * 2 ^ 30) (l.gcount.toNat * 2 ^ 30) }

/-- DELETEs that waited are carried out (R442). -/
def endDeletes (s : State) (p : PartId) : State :=
  let ds := s.parts[p].waitingDeletes
  ds.foldl (fun s d => let s := dropObj s p d.2
    match d.1 with | some c => complete s c stOk [] | none => s) (updPart s p (fun q => { q with waitingDeletes := [] }))

/-- Orders 3 and 4 of R535 for a torn-down partition: waiting commands end, its step is stopped, unbinds that waited complete, its sessions close. -/
def stopPartition (s : State) (p : PartId) : State :=
  let opens := s.parts[p].waitingOpens
  let s := updPart s p (fun q => { q with resJobs := [], damaged := [], waitingOpens := [] })
  let s := opens.foldl (fun s x => complete s x.1 stRefusedPartition []) s
  let s := endDeletes s p
  let s := if (s.parts[p]).run.isSome then finishStep (stopStep s p) p stRefusedPartition else unbindNow s p
  closeAll s p

/-- A block lies in what a scrub of a partition writes anew: its tiles' stacks and its granules. -/
def scrubs (s : State) (p : PartId) (a : BitVec 56) : Bool :=
  let l := s.parts[p].layout
  match placeOf (blockOf a) with
  | some (.hbm t _) => partHasTile s p t
  | some (.lpddr o) => decide (l.g0.toNat * 2 ^ 30 ≤ o) && decide (o < (l.g0.toNat + l.gcount.toNat) * 2 ^ 30)
  | _ => false

/-- Orders 3 to 6 of R535 for a torn-down partition, with its scrub record (CAUSE 0x01). Its digests stay in the attestation store
until order 7: a report shows the old layout with them (R22). -/
def tearDown (s : State) (p : PartId) : State × ScrubRecord :=
  let l := s.parts[p].layout
  let s := stopPartition s p
  let s := forAll (partTiles s p) wakeNow s
  let s := forAll (partTiles s p) (fun s t => updTile s t scrubTile) s
  let s := updHub s (scrubHub l)
  let s := { s with badBlocks := s.badBlocks.filter (fun b => !scrubs s p b.1) }
  let s := eraseObjs (updPart s p (fun q => { q with
    errStatements := [], normMax := [], objects := [], pseed := 0, hurt := [], pfault := 0 })) s.parts[p].objects
  (s, { tick := s.now, part := p.val, cause := 1, layout := l, extents := l.nsExtents })

/-- A partition that a layout change or a start creates empty; the ids of its namespace go on rising (R438). -/
def emptyPartition (q : Partition) (l : LayoutEntry) : Partition :=
  { Partition.reset with layout := l, pubkeys := q.pubkeys, nextObj := q.nextObj }

/-- The whole change up to the end of the scrub (orders 2 to 6). -/
def startLayout (s : State) (c : ConnId) (r : List Byte) (new : Vector LayoutEntry 12) : State :=
  let torn := tornMask s new
  let (wrote, s) := writeRecord s (fun x => { x with layout := new, layoutPending := true, teardown := torn })
  if !wrote then respond s c r stRecordWriteFail [] else
  let ps := allParts.filter (fun p => torn.getLsbD p.val)
  let (s, recs) := ps.foldl (fun (a : State × List ScrubRecord) p =>
    let (s, x) := tearDown a.1 p
    (s, a.2 ++ [x])) (s, [])
  updMgmt s (fun m => { m with
    job := some { conn := c, req := r, layout := new, torn := torn, records := recs, start := s.now }, scrubbing := torn != 0 })

/-- LAYOUT_SET (R535 orders 1 to 6). -/
def layoutSetReq (c : ConnId) (req : List Byte) (s : State) : State :=
  mgmtServe 0x07 (fun b => b.length == 384 && layoutClean b)
    (fun s b => if !layoutNumbered b || !layoutValid (parseLayout b) then some stMgmtLayoutInvalid
      else if s.test.test then some stTestBusy else none)
    (fun b s => startLayout s c req (parseLayout b)) c req s

def execLayoutSet (c : ConnId) (req : List Byte) (s : State) : Out := mgmtReq 0x07 layoutSetReq c req s

/-- Tiles, objects and mode bits follow the layout (R400, R229, R533). -/
def placeOwners (s : State) : State :=
  let owner (t : TileId) : BitVec 8 := BitVec.ofNat 8 (tilePartNo s t)
  let s := forAll allTiles (fun s t => updTile s t (fun x =>
    { x with
      objs := if x.pas.part.toNat = (owner t).toNat % 16 then x.objs else x.objs.map (fun o => { o with owner := owner t }),
      pas := { x.pas with part := (owner t).truncate 4 },
      pwr := let fixed := match tilePart s t with | some p => !s.parts[p].adaptive | none => false
             { x.pwr with reproFixed := fixed, tl := if fixed then 0 else x.pwr.tl } })) s
  let hubOwner (b : Nat) : BitVec 8 := match allParts.find? (fun p => s.parts[p].layout.defined && s.parts[p].layout.hubBlocks.getLsbD b) with
    | some p => BitVec.ofNat 8 p.val
    | none => 0xFF
  updHub s (fun h => { h with objs := Vector.ofFn (fun (i : Fin 2048) => { h.objs[i] with owner := hubOwner (i.val / 128) }) })

/-- One partition under the new layout (order 7): created empty, remapped, which closes its sessions (R526), changed in REQUIRE_SIGNED,
or untouched. -/
def placePartition (j : LayoutJob) (s : State) (p : PartId) : State :=
  let l := s.parts[p].layout
  let new := j.layout[p]
  if l == new then s
  else if j.torn.getLsbD p.val || !l.defined then updPart s p (fun q => emptyPartition q new)
  else
    let s := if onlyFunction l new then
        let opens := s.parts[p].waitingOpens
        closeAll (opens.foldl (fun s x => complete s x.1 stRefusedPartition []) (updPart s p (fun q => { q with waitingOpens := [] }))) p
      else s
    updPart s p (fun q => { q with layout := new })

/-- The 32 most recent scrub records (R540). -/
def keepScrubs (xs : List ScrubRecord) : List ScrubRecord := xs.drop (xs.length - 32)

/-- The partitions that a change creates empty: those torn down and those defined anew. -/
def freshMask (s : State) (j : LayoutJob) : BitVec 12 :=
  BitVec.ofNat 12 (allParts.foldl (fun m p => if j.torn.getLsbD p.val || !(s.parts[p]).layout.defined then m + 2 ^ p.val else m) 0)

/-- The record's settings of the partitions created empty, and the pending state cleared (order 8). -/
def settleRecord (fresh : BitVec 12) (r : Retained) : Retained :=
  { r with
    layoutPending := false, teardown := 0,
    partset := Vector.ofFn (fun (p : Fin 12) =>
      if fresh.getLsbD p.val then { pseed := 0, adaptive := false, residency := 0 } else r.partset[p]) }

/-- Orders 7 to 9 of R535: the scrub has completed, the layout takes effect, the record is settled, the response is
sent. TICK of a scrub record is the tick of this completion, LAST_US the time since the scrub began (R540, R564). The mirror is coarse
from the moment at which a confidential partition exists (R486). -/
def layoutCommit (s : State) (j : LayoutJob) : State :=
  let fresh := freshMask s j
  let s := forAll allParts (placePartition j) s
  let s := coarsenMirror (placeOwners s)
  let recs := j.records.map (fun x => { x with tick := s.now })
  let us := min ((s.now - j.start).toNat / 1000) 0xFFFFFFFF
  let s := updMgmt s (fun m => { m with
    job := none, scrubbing := false, scrubRecords := keepScrubs (m.scrubRecords ++ recs),
    scrubs := satAdd m.scrubs recs.length, lastUs := if recs.isEmpty then m.lastUs else BitVec.ofNat 32 us })
  let (wrote, s) := writeRecord s (settleRecord fresh)
  if wrote then respond s j.conn j.req stOk (natLe 1 recs.length ++ List.replicate 7 0 ++ recs.flatMap scrubBytes)
  else respond s j.conn j.req stRecordWriteFail []

/-! ## Keys and the address (R555, R557) -/

def pubkeyOk (b : List Byte) : Bool := b.length == 1955 && decide (fieldAt b 0 1 ≤ 11) && decide (fieldAt b 1 1 ≤ 3) && decide (fieldAt b 2 1 ≤ 1)

/-- PUBKEY_SET: in force from the partition's next load or bind. -/
def pubkeySetReq (c : ConnId) (req : List Byte) (s : State) : State :=
  mgmtServe 0x08 pubkeyOk noPre (fun b s =>
    let k := if fieldAt b 2 1 = 1 then some (keyAt b 3) else none
    let i := fieldAt b 1 1
    keep s c req (fun r => { r with pubkeys := r.pubkeys.setIfInBounds (4 * fieldAt b 0 1 + i) k })
      (fun s => match tileAt (fieldAt b 0 1) with
        | some p => updPart s p (fun q => { q with pubkeys := q.pubkeys.setIfInBounds i k })
        | none => s) []) c req s

def execPubkeySet (c : ConnId) (req : List Byte) (s : State) : Out := mgmtReq 0x08 pubkeySetReq c req s

/-- KEY_ADD: the slot takes the key. -/
def keyAddReq (c : ConnId) (req : List Byte) (s : State) : State :=
  mgmtServe 0x0C (fun b => b.length == 1953 && decide (fieldAt b 0 1 ≤ 15)) noPre (fun b s =>
    keep s c req (fun r => { r with opkeys := r.opkeys.setIfInBounds (fieldAt b 0 1) (some (keyAt b 1)) }) id []) c req s

def execKeyAdd (c : ConnId) (req : List Byte) (s : State) : Out := mgmtReq 0x0C keyAddReq c req s

/-- KEY_REMOVE: refused where it would leave no key (R555). -/
def keyRemoveReq (c : ConnId) (req : List Byte) (s : State) : State :=
  mgmtServe 0x0D (fun b => b.length == 1 && decide (fieldAt b 0 1 ≤ 15))
    (fun s b => if ((theRecord s).opkeys.setIfInBounds (fieldAt b 0 1) none).toList.all (fun k => k.isNone) then some stMgmtBadRequest else none)
    (fun b s => keep s c req (fun r => { r with opkeys := r.opkeys.setIfInBounds (fieldAt b 0 1) none }) id []) c req s

def execKeyRemove (c : ConnId) (req : List Byte) (s : State) : Out := mgmtReq 0x0D keyRemoveReq c req s

def keyListReq (c : ConnId) (req : List Byte) (s : State) : State :=
  mgmtServe 0x0E (bodyLen 0) noPre (fun _ s => respond s c req stOk ((theRecord s).opkeys.toList.flatMap keyDigest)) c req s

def execKeyList (c : ConnId) (req : List Byte) (s : State) : Out := mgmtReq 0x0E keyListReq c req s

/-- NET_SET: in force once the response has been sent. -/
def netSetReq (c : ConnId) (req : List Byte) (s : State) : State :=
  mgmtServe 0x0F (fun b => b.length == 12 && decide (fieldAt b 4 1 ≤ 32) && allZero (sliceAt b 5 3)) noPre (fun b s =>
    let a := BitVec.ofNat 32 (fieldAt b 0 4)
    let n := BitVec.ofNat 8 (fieldAt b 4 1)
    let g := BitVec.ofNat 32 (fieldAt b 8 4)
    keep s c req (fun r => { r with netAddr := a, netPrefix := n, netGateway := g })
      (fun s => updMgmt s (fun m => { m with netAddr := a, netPrefix := n, netGateway := g })) []) c req s

def execNetSet (c : ConnId) (req : List Byte) (s : State) : Out := mgmtReq 0x0F netSetReq c req s

/-! ## Firmware (R559) -/

def updComp (s : State) (i : Fin 3) (f : FwComp → FwComp) : State := updBoot s (fun b => { b with fw := b.fw.set i (f b.fw[i]) })

/-- The inactive slot takes a value. -/
def setInactive (c : FwComp) (x : FwSlot) : FwComp := if c.runs1 then { c with slot0 := x } else { c with slot1 := x }

/-- COMPONENT 1 to 3 as a place. -/
def compAt (n : Nat) : Option (Fin 3) := if h : 1 ≤ n ∧ n ≤ 3 then some ⟨n - 1, by omega⟩ else none

/-- FW_BEGIN: an earlier uncommitted image is discarded; what the inactive slot held is gone. -/
def fwBeginReq (c : ConnId) (req : List Byte) (s : State) : State :=
  mgmtServe 0x09 (fun b => b.length == 8 && (compAt (fieldAt b 0 1)).isSome && allZero (sliceAt b 1 3)) noPre (fun b s =>
    match compAt (fieldAt b 0 1) with
    | none => s
    | some i =>
      let s := updBoot s (fun x => { x with fw := x.fw.map (fun y => { y with upload := none }), fwTarget := some i })
      respond (updComp s i (fun x =>
        setInactive { x with upload := some (fieldAt b 4 4, []) } { version := 0, image := [], verifies := false })) c req stOk []) c req s

def execFwBegin (c : ConnId) (req : List Byte) (s : State) : Out := mgmtReq 0x09 fwBeginReq c req s

/-- The upload in progress: its component, length and bytes. -/
def upload (s : State) : Option (Fin 3 × Nat × Mem) :=
  match s.boot.fwTarget with
  | none => none
  | some i => match (s.boot.fw[i]).upload with
    | none => none
    | some (n, m) => some (i, n, m)

/-- FW_DATA: bytes within the LENGTH of an upload in progress. -/
def fwDataReq (c : ConnId) (req : List Byte) (s : State) : State :=
  mgmtServe 0x0A (fun b => decide (8 ≤ b.length))
    (fun s b => match upload s with
      | some (_, n, _) => if fieldAt b 0 8 + (b.length - 8) ≤ n then none else some stMgmtBadRequest
      | none => some stMgmtBadRequest)
    (fun b s => match upload s with
      | some (i, n, m) => respond (updComp s i (fun x => { x with upload := some (n, memWrite m (fieldAt b 0 8) (b.drop 8)) })) c req stOk []
      | none => s) c req s

def execFwData (c : ConnId) (req : List Byte) (s : State) : Out := mgmtReq 0x0A fwDataReq c req s

/-- The image uploaded. -/
def uploaded (s : State) : Option (Fin 3 × List Byte) := (upload s).map (fun x => (x.1, memRead x.2.2 0 x.2.1))

/-- FW_COMMIT: signature and minimum are checked; the image becomes active at the next start. -/
def fwCommitReq (c : ConnId) (req : List Byte) (s : State) : State :=
  mgmtServe 0x0B (bodyLen 0)
    (fun s _ => if s.test.test then some stTestBusy else match uploaded s with
      | none => some stMgmtBadRequest
      | some (i, img) =>
        if !Config.fwSignatureOk img then some stSignatureInvalid
        else if (Config.fwVersion img).ult (theRecord s).fwMin[i] then some stVersionRollback else none)
    (fun _ s => match uploaded s with
      | none => s
      | some (i, img) =>
        let s := updComp s i (fun x => setInactive { x with upload := none } { version := Config.fwVersion img, image := img, verifies := true })
        respond (updBoot s (fun b => { b with fwTarget := none })) c req stOk (shake 32 img)) c req s

def execFwCommit (c : ConnId) (req : List Byte) (s : State) : Out := mgmtReq 0x0B fwCommitReq c req s

/-! ## Export and import (R558, R560, R577) -/

/-- The record as EXPORT gives it: without calibration, PSEEDs and confidential residency lists. -/
def exportSettings (r : Retained) : Retained :=
  { r with
    toff := .replicate 12 0, gain := .replicate 12 0, htoff := 0, mgain := 0,
    partset := Vector.ofFn (fun (p : Fin 12) =>
      { r.partset[p] with pseed := 0, residency := if (r.layout[p]).confidential then 0 else (r.partset[p]).residency }) }

def exportBlock (s : State) : List Byte :=
  let b := recordBytes (exportSettings (theRecord s)) ++ certificate s
  b ++ identitySign s b (ascii "G12EXPORT") ++ List.replicate 3 0

def mgmtExportReq (c : ConnId) (req : List Byte) (s : State) : State :=
  mgmtServe 0x10 (bodyLen 0) noPre (fun _ s => respond s c req stOk (exportBlock s)) c req s

def execMgmtExport (c : ConnId) (req : List Byte) (s : State) : Out := mgmtReq 0x10 mgmtExportReq c req s

/-- The settings block within an EXPORT response, and its parts. -/
def importBlock (b : List Byte) : List Byte := sliceAt b 128 140912
def importCert (b : List Byte) : List Byte := sliceAt (importBlock b) 131072 6528

/-- A certificate that Dziwald's key verifies (R543). -/
def certOk (k : List Byte) : Bool :=
  fieldAt k 16 4 == 1 && allZero (sliceAt k 20 12) && allZero (sliceAt k 6509 19) && sliceAt k 3168 32 == shake 32 Config.issuingKey &&
  Config.mldsaVerify Config.issuingKey (k.take 3200) (ascii "G12CERT") (sliceAt k 3200 3309)

/-- The export's certificate and signature (R560). -/
def importSigned (b : List Byte) : Bool :=
  let x := importBlock b
  certOk (importCert b) && Config.mldsaVerify (sliceAt (importCert b) 32 1952) (x.take 137600) (ascii "G12EXPORT") (sliceAt x 137600 3309)

/-- A complete EXPORT response with the record of R572 in it. -/
def importFormat (b : List Byte) : Bool := b.length == 144352 && reqType b == 0x10 && fieldAt b 0 4 == 144352 && fieldAt b 64 4 == 140912
def importRecord (b : List Byte) : Option Retained := parseRecord ((importBlock b).take 131072)

/-- What IMPORT refuses by the export: signature, then a record that is not valid. -/
def importRefusal (b : List Byte) : Option (BitVec 16) :=
  if !importSigned b then some stSignatureInvalid else if (importRecord b).isNone then some stMgmtBadRequest else none

/-- IMPORT: staged for the next start. -/
def mgmtImportReq (c : ConnId) (req : List Byte) (s : State) : State :=
  mgmtServe 0x11 importFormat (fun s b => if s.test.test then some stTestBusy else importRefusal b) (fun b s =>
    match importRecord b with
    | none => s
    | some r =>
      if s.boot.writable then
        respond (updBoot s (fun x => { x with staging := some { r with generation := 0 } })) c req stOk (natLe 8 (s.boot.generation.toNat + 1))
      else respond (updBoot s (fun x => { x with staging := none, writeFail := true })) c req stRecordWriteFail []) c req s

def execMgmtImport (c : ConnId) (req : List Byte) (s : State) : Out :=
  if s.boot.recovery && reqKey req == 0xFF then .next s else mgmtReq 0x11 mgmtImportReq c req s

/-- Generation 1 that a recovery writes (R577). -/
def recoveryRecord (s : State) (r : Retained) : Retained :=
  { r with
    generation := 1, bootCount := r.bootCount + BitVec.ofNat 64 (2 ^ 32), counters := r.counters.map (fun v => v + BitVec.ofNat 64 (2 ^ 32)),
    toff := .replicate 12 0, gain := .replicate 12 0, htoff := 0, mgain := 0, layoutPending := false, teardown := 0,
    fwMin := Vector.ofFn (fun (i : Fin 3) => runningVersion s i.val),
    partset := r.partset.map (fun x => { x with pseed := 0 }) }

/-- RECOVERY_IMPORT (R577): an unsigned IMPORT of this device's own export, after both copies of the record failed. The device
stays stopped. -/
def recoveryReq (c : ConnId) (req : List Byte) (s : State) : State :=
  mgmtServe 0x11 importFormat
    (fun s b => if sliceAt (importCert b) 0 16 != deviceId s then some stMgmtAuth else importRefusal b)
    (fun b s => match importRecord b with
      | none => s
      | some r =>
        if s.boot.writable then
          respond (updBoot s (fun x => { x with copyA := some (recoveryRecord s r), copyB := none, copyIsB := false, generation := 1 }))
            c req stOk (natLe 8 1)
        else respond (updBoot s (fun x => { x with writeFail := true })) c req stRecordWriteFail []) c req s

def execRecoveryImport (c : ConnId) (req : List Byte) (s : State) : Out :=
  if !s.boot.recovery || reqKey req != 0xFF then .next s else mgmtReq 0x11 recoveryReq c req s

/-! ## The end of a layout change, and the requests that waited for it (R535, R552) -/

/-- Serve a request of any TYPE; one of a TYPE that R557 does not list fails as a bad request. -/
def serveReq (c : ConnId) (r : List Byte) (s : State) : State :=
  match reqType r with
  | 0x02 => setPairReq c r s
  | 0x03 => getPairReq c r s
  | 0x04 => mgmtAttestReq c r s
  | 0x05 => telemetryReq c r s
  | 0x06 => layoutGetReq c r s
  | 0x07 => layoutSetReq c r s
  | 0x08 => pubkeySetReq c r s
  | 0x09 => fwBeginReq c r s
  | 0x0A => fwDataReq c r s
  | 0x0B => fwCommitReq c r s
  | 0x0C => keyAddReq c r s
  | 0x0D => keyRemoveReq c r s
  | 0x0E => keyListReq c r s
  | 0x0F => netSetReq c r s
  | 0x10 => mgmtExportReq c r s
  | 0x11 => mgmtImportReq c r s
  | _ => getInfoReq c r s

/-- A request that waited is carried out now, or waits on for a LAYOUT_SET that came before it. The response to a connection that has
been closed reaches nobody. -/
def serveWaiting (s : State) (x : Bool × ConnId × List Byte) : State :=
  if s.mgmt.job.isSome then updMgmt s (fun m => { m with waiting := m.waiting ++ [x] })
  else
    let u := serveReq x.2.1 x.2.2 s
    if x.1 then u else updMgmt u (fun m => { m with responses := s.mgmt.responses })

/-- LAYOUT_COMMIT (R535 orders 7 to 9): the layout change under way ends, and the requests that waited for it follow in their order. -/
def execLayoutCommit (s : State) : Out :=
  match s.mgmt.job with
  | none => .next s
  | some j =>
    if !powered s then .next s else
    let s := layoutCommit s j
    .next (s.mgmt.waiting.foldl serveWaiting (updMgmt s (fun m => { m with waiting := [] })))

end Sys2Proof.Machine
end

