-- ==== Sys2Proof/Machine/Boot.lean ====
section
/-! DEFINITION. Start-up (R538, R568 to R580): firmware verification, the choice and the next generation of the record, settings,
the interrupted layout change, the stop. -/

namespace Sys2Proof.Machine

/-! ## Firmware (R570, R571) -/

/-- Whether slot 1 of a component runs: of the slots that verify the one with the higher version, slot 0 of two alike. -/
def chosenSlot (c : FwComp) : Option Bool :=
  if c.slot0.verifies && c.slot1.verifies then some (c.slot0.version.ult c.slot1.version)
  else if c.slot0.verifies then some false
  else if c.slot1.verifies then some true
  else none

/-- FIRMWARE_VERIFY of the components at places lo to hi - 1: the components with their slots chosen, or the one that fails. -/
def verifyFw (fw : Vector FwComp 3) (lo hi : Nat) : Except BootDetail (Vector FwComp 3) :=
  ((List.finRange 3).filter (fun i => decide (lo ≤ i.val) && decide (i.val < hi))).foldlM (fun v (i : Fin 3) =>
    match chosenSlot v[i] with
    | some r => .ok (v.set i { v[i] with runs1 := r, upload := none })
    | none => .error ⟨5, BitVec.ofNat 4 (i.val + 1)⟩) fw

/-! ## The record (R571, R573, R575) -/

/-- The copy restored: the valid one with the higher generation, copy A of two alike; true for copy B. -/
def selectCopy (b : Boot) : Option (Bool × Retained) :=
  match b.copyA, b.copyB with
  | some x, some y => if x.generation.ult y.generation then some (true, y) else some (false, x)
  | some x, none => some (false, x)
  | none, some y => some (true, y)
  | none, none => none

/-- A component that runs below its minimum. -/
def belowMinimum (fw : Vector FwComp 3) (r : Retained) : Option (Fin 3) :=
  (List.finRange 3).find? (fun i => (runningSlot fw[i]).version.ult r.fwMin[i])

/-- A staged import merged over the restored copy (R575 item 3). -/
def mergeStaged (r x : Retained) : Retained :=
  { r with
    layout := x.layout, opkeys := x.opkeys, pubkeys := x.pubkeys, budget5 := x.budget5, acoustic := x.acoustic, windowMs := x.windowMs,
    netAddr := x.netAddr, netPrefix := x.netPrefix, netGateway := x.netGateway,
    partset := Vector.ofFn (fun (p : Fin 12) =>
      { pseed := (r.partset[p]).pseed, adaptive := (x.partset[p]).adaptive,
        residency := if (x.layout[p]).confidential then (r.partset[p]).residency else (x.partset[p]).residency }),
    counters := Vector.ofFn (fun (i : Fin 16) => if (r.counters[i]).ult x.counters[i] then x.counters[i] else r.counters[i]) }

/-- The settings of confidential partitions (R538, R575 item 4). -/
def sealConfidential (r : Retained) : Retained :=
  { r with partset := Vector.ofFn (fun (p : Fin 12) =>
      if (r.layout[p]).confidential then { pseed := 0, adaptive := false, residency := 0 } else r.partset[p]) }

/-- The generation that order 6 writes. -/
def nextRecord (r : Retained) (fw : Vector FwComp 3) (staged : Option Retained) : Retained :=
  let r := { r with bootCount := r.bootCount + 1, generation := r.generation + 1,
                    fwMin := Vector.ofFn (fun (i : Fin 3) =>
                      let v := (runningSlot fw[i]).version
                      if (r.fwMin[i]).ult v then v else r.fwMin[i]) }
  sealConfidential (match staged with | some x => mergeStaged r x | none => r)

/-- Order 6: the copy restored and the next generation written into the other, or the unit that stops start-up. -/
def restoreRecord (b : Boot) : Except BootDetail Boot :=
  match selectCopy b with
  | none => .error ⟨0, 0⟩
  | some (isB, r) =>
    match belowMinimum b.fw r with
    | some i => .error ⟨5, BitVec.ofNat 4 (i.val + 1)⟩
    | none =>
      if !b.writable then .error ⟨0, 0⟩ else
      let n := nextRecord r b.fw b.staging
      .ok { b with copyA := if isB then some n else b.copyA, copyB := if isB then b.copyB else some n, copyIsB := !isB,
                   restoreGen := r.generation, generation := n.generation, imported := b.staging.isSome, staging := none }

/-! ## Settings (order 10, R538, R575, R576) -/

/-- A partition after a start: its layout, keys and settings, its SEALED objects unless its namespace is emptied. -/
def startPartition (r : Retained) (emptied : Bool) (p : PartId) (q : Partition) : Partition :=
  let x := r.partset[p]
  { Partition.reset with
      layout := r.layout[p], pseed := x.pseed, adaptive := x.adaptive, residency := x.residency,
      pubkeys := Vector.ofFn (fun (i : Fin 4) => r.pubkeys[4 * p.val + i.val]),
      objects := if emptied then [] else q.objects.filter (fun o => o.sealed), nextObj := q.nextObj }

/-- The partitions whose namespaces a start empties: those torn down by an interrupted change, and the confidential ones. -/
def emptiedMask (r : Retained) : BitVec 12 :=
  BitVec.ofNat 12 ((List.finRange 12).foldl (fun m p =>
    if (r.layoutPending && r.teardown.getLsbD p.val) || ((r.layout[p]).defined && (r.layout[p]).confidential) then m + 2 ^ p.val else m) 0)

/-- Calibration (order 8, R578): factory values by the fuses, user values on top. -/
def calibrate (f : Fuses) (r : Retained) (t : TileId) : Tile :=
  let x := Tile.reset f t
  { x with pwr := { x.pwr with toff := r.toff[t], gain := r.gain[t] } }

/-- Orders 7 to 10 on a module whose record has been restored. -/
def restoreSettings (s : State) : State :=
  let r := theRecord s
  let m := emptiedMask r
  let r' := if r.layoutPending then settleRecord r.teardown r else r
  let s := { s with tiles := Vector.ofFn (calibrate s.fuses r) }
  let gone := allParts.flatMap (fun p => s.parts[p].objects.filter (fun o => m.getLsbD p.val || !o.sealed))
  let s := eraseObjs s gone
  let s := updHub s (fun h =>
    { Hub.reset with epoch := r.bootCount, htoff := r.htoff, mgain := r.mgain, endpoint := h.endpoint, perst := h.perst, spareBlocks := h.spareBlocks })
  let s := { s with parts := Vector.ofFn (fun (p : Fin 12) => startPartition r' (m.getLsbD p.val) p s.parts[p]) }
  let s := updSched s (fun x => { x with budget5 := r.budget5, acoustic := r.acoustic, windowMs := r.windowMs, lenMs := r.windowMs.toNat })
  let recs : List ScrubRecord := (allParts.filter (fun p => m.getLsbD p.val)).map (fun p =>
    { tick := s.now, part := p.val, cause := 2, layout := r.layout[p], extents := (r.layout[p]).nsExtents })
  let s := updMgmt s (fun y =>
    { y with netAddr := r.netAddr, netPrefix := r.netPrefix, netGateway := r.netGateway, scrubRecords := keepScrubs (y.scrubRecords ++ recs) })
  let s := placeOwners s
  if r.layoutPending then (writeRecord s (settleRecord r.teardown)).2 else s

/-! ## The start -/

/-- Tiers 1 and 2 before their training at order 5 of R568: no stack and no channel has passed it (R422, R446, R451). -/
def untrained (s : State) : State :=
  forAll allTiles (fun s t => updTile s t (fun x => { x with mem := { x.mem with trained := false } }))
    (updHub s (fun h => { h with trained := false }))

/-- What start-up has done when it stops in an order: a failed training is recorded (R399, R422); from order 9 on the tiles and the hub
are calibrated (R578), and the tiles are still in CALIBRATION, with tolerance line 2, when a sweep stops it (R214, R580). -/
def partWay (s : State) (order : Nat) (d : BootDetail) : State :=
  if order < 5 then untrained (if order = 4 then trainingFailed true s d else s)
  else if order = 5 then memoryFailed s d
  else if order < 9 then s
  else
    let s := { s with tiles := Vector.ofFn (calibrate s.fuses (theRecord s)) }
    let s := updHub s (fun h => { h with htoff := (theRecord s).htoff, mgain := (theRecord s).mgain })
    if order = 9 then forAll allTiles (fun s t => updTile s t (fun x => { x with pwr := { x.pwr with context := 1, tl := 2 } })) s else s

/-- Start-up stops in an order (R569). After a stop at order 6 for want of a record the management port opens (R577). -/
def stopStart (s : State) (order : Nat) (d : BootDetail) : State :=
  let s := partWay s order d
  let bare := order = 6 && d.kind = 0 && (selectCopy s.boot).isNone
  let s := updBoot s (fun b =>
    { b with stage := BitVec.ofNat 4 order, stopped := true, started := true, detail := d, recovery := bare,
             writeFail := order = 6 && d.kind = 0 && !bare })
  updMgmt s (fun m => { m with portOpen := bare })

/-- What a condition of R568 finds to fail at an order. -/
def failsAt (found : StartInput) (order : Nat) : Option BootDetail :=
  match found.failure with
  | some (o, d) => if o.val = order then some d else none
  | none => none

/-- The endpoint is enabled once order 2 has completed and PERST# is deasserted (order 3). -/
def enableEndpoint (s : State) : State := updHub s (fun h => { h with endpoint := !h.perst })

/-- The eight voltages of R456 in mV. -/
def sweepVolts : List Nat := [500, 550, 600, 650, 700, 750, 800, 850]

/-- A tile passes its calibration sweep (R580): at every voltage its rate is at least the factory rate at its junction temperature, the
pattern's outputs differ by no more than tolerated events account for, and the junction stays at 105 °C or below. -/
def sweepOk (w : PwrRegs) (x : SweepInput) : Bool :=
  (x.rates.toList.zip sweepVolts).all (fun y => decide (rateAt w y.2 x.tj.toInt ≤ y.1.toNat)) && x.mismatch == 0 && decide (x.tj.toInt ≤ 1680)

/-- The tile whose sweep stops start-up at order 9. -/
def sweepFails (s : State) (found : StartInput) : Option BootDetail :=
  (allTiles.find? (fun t => !sweepOk (calibrate s.fuses (theRecord s) t).pwr found.sweep[t])).map (fun t => ⟨1, BitVec.ofNat 4 t.val⟩)

/-- What the time without power has left of the record and the objects (R574, R425): the copy that was being written is not valid, the NOR
takes writes or does not, sectors of objects are lost. -/
def afterPower (found : StartInput) (s : State) : State :=
  let s := updBoot s (fun b =>
    { b with writable := found.writable, copyA := if found.torn && b.copyIsB then none else b.copyA,
             copyB := if found.torn && !b.copyIsB then none else b.copyB })
  found.lost.foldl (fun s x => updPart s x.1 (fun q => { q with objects := q.objects.map (fun o =>
    if o.id == x.2.1 && !o.lost.contains x.2.2 then { o with lost := o.lost ++ [x.2.2] } else o) })) s

/-- The first of orders 7 to 10 that fails: order 9 by its sweeps. -/
def lateFailure (s : State) (found : StartInput) : Option (Nat × BootDetail) :=
  (([7, 8, 9, 10] : List Nat).filterMap (fun o => (if o = 9 then sweepFails s found else failsAt found o).map (fun d => (o, d)))).head?

/-- STARTUP (R568, orders 1 to 10) of a module that has its supply and has not started. Order 11 is in progress once order 3 has
completed too; until then STAGE keeps order 10 (log entry 90). -/
def execStartup (found : StartInput) (s : State) : Out :=
  if !powered s || s.boot.started then .next s else
  let s := afterPower found s
  match failsAt found 1, verifyFw s.boot.fw 0 1 with
  | some d, _ => .next (stopStart s 1 d)
  | none, .error d => .next (stopStart s 1 d)
  | none, .ok fw1 =>
    match failsAt found 2, verifyFw fw1 1 3 with
    | some d, _ => .next (stopStart (updBoot s (fun b => { b with fw := fw1 })) 2 d)
    | none, .error d => .next (stopStart (updBoot s (fun b => { b with fw := fw1 })) 2 d)
    | none, .ok fw =>
      let s := enableEndpoint (updBoot s (fun b => { b with fw := fw }))
      match failsAt found 4, failsAt found 5 with
      | some d, _ => .next (stopStart s 4 d)
      | none, some d => .next (stopStart s 5 d)
      | none, none =>
        match failsAt found 6, restoreRecord s.boot with
        | some d, _ => .next (stopStart s 6 d)
        | none, .error d => .next (stopStart s 6 d)
        | none, .ok b =>
          let s := { s with boot := b }
          let s := updHub s (fun h => { h with epoch := (theRecord s).bootCount })
          match lateFailure s found with
          | some (o, d) => .next (stopStart s o d)
          | none => .next (updBoot (restoreSettings s) (fun b => { b with stage := if s.hub.endpoint then 0xB else 0xA, started := true }))

end Sys2Proof.Machine
end

