-- ==== Sys2Proof/Machine/Sparse.lean ====
section
/-! DEFINITION. The sparse engine (R139 to R166): compressed regions, lanes, promotion, heavy rows; and PASS_COMPLETE of both
matrix engines. -/

namespace Sys2Proof.Machine

/-- A non-zero of a lane: its position after wrapping (R159) and its code. -/
structure NonZero where
  pos : Nat
  code : Nat

/-- The first n non-zeros of a CSR16 lane (R143). -/
def csr16 (c : Core) (r : Region) (e : LaneEntry) (b kpad n : Nat) : List NonZero :=
  (List.range n).map (fun i =>
    let bit := e.valOff + i * b
    let raw := regionNat c r (r.valBase + bit / 8) 2
    { pos := regionNat c r (r.recBase + e.recOff + 2 * i) 2 % kpad, code := raw / 2 ^ (bit % 8) % 2 ^ b })

/-- Read CSR8D records until n non-zeros are found (R144); the fuel bounds runs of escapes. -/
def csr8d (c : Core) (r : Region) (b kpad : Nat) : Nat → Nat → Nat → Int → List NonZero
  | 0, _, _, _ => []
  | _, 0, _, _ => []
  | fuel + 1, n + 1, off, x =>
    let delta := regionByte c r off
    let value := regionByte c r (off + 1)
    if delta = 0 then csr8d c r b kpad fuel (n + 1) (off + 2) (x + 256 * value)
    else
      let x := x + delta
      { pos := (x % kpad).toNat, code := value % 2 ^ b } :: csr8d c r b kpad fuel n (off + 2) x

/-- The non-zeros a lane consumes: min(NNZ, n_b) (R150), in the operation's format (log entry 80). -/
def laneNonZeros (c : Core) (o : Op) (r : Region) (e : LaneEntry) (kpad planned : Nat) : List NonZero :=
  let n := min e.nnz planned
  if kpad = 0 then [] else
  if o.engopt = 1 then csr16 c r e (opWBits o) kpad n
  else csr8d c r (opWBits o) kpad ((n + 1) * (r.len + 1)) n (r.recBase + e.recOff) (e.start - 1)

/-- The turn in which each non-zero is consumed (R150); the waits are the turns beyond one each. -/
def lastTurn (xs : List NonZero) : Nat := xs.foldl (fun t x => max (t + 1) (x.pos / 64 + 1)) 0

/-- Runs of non-zeros under one promotion each (R148): CSR16 promotes when the group changes. -/
def csr16Chunks (g : Nat) : List NonZero → List (Nat × List NonZero)
  | [] => []
  | x :: xs =>
    match csr16Chunks g xs with
    | [] => [(x.pos / g, [x])]
    | (γ, ys) :: rest => if γ = x.pos / g then (γ, x :: ys) :: rest else (x.pos / g, [x]) :: (γ, ys) :: rest

/-- CSR8D promotes by the counts: after c_j records of group j, and after the last (R148). The counts repeat every REGION_LEN
bytes (R159), so a fuel of that many for each record ends only where every count is zero. -/
def csr8dChunks (count : Nat → Nat) : Nat → Nat → List NonZero → List (Nat × List NonZero)
  | _, _, [] => []
  | 0, γ, xs => [(Config.countlessGroup γ xs.length, xs)]
  | fuel + 1, γ, xs => (γ, xs.take (count γ)) :: csr8dChunks count fuel (γ + 1) (xs.drop (count γ))

/-- The activation record of a position and column: mantissa and exponent after conversion (R145, R146). A panel or
side array that runs past the plain raises no fault and its bytes there are not stated (log entry 81). -/
def panelElem (c : Core) (o : Op) (a kLen panel side x col : Nat) : Int × Int × Bool × Bool :=
  let w := opABits o
  let bit := w * col
  let code := leNat ((List.range 3).map (fun i => plainByte c (panel + x * 4 * w + bit / 8 + i))) / 2 ^ (bit % 8) % 2 ^ w
  let word := if opAscale o = 1 then x / opGroup o else 0
  let e := toSigned (plainByte c (side + 64 * word + 2 * col)).toNat 8
  let zp := (plainByte c (side + 64 * word + 2 * col + 1)).toNat
  actElement o a kLen code zp e x

/-- The activation exponent of a group and column after clipping. A group past the pass's own, which only wrong counts reach, is
taken modulo their number, so that no read leaves the panel's side array (R159; DEDUCED, log entry 81). -/
def panelExp (c : Core) (o : Op) (kLen side γ col : Nat) : Int :=
  let word := if opAscale o = 1 then γ % groupsOf o kLen else 0
  let e := toSigned (plainByte c (side + 64 * word + 2 * col)).toNat 8
  (clipAct o 0 (if opAscale o = 2 then 0 else e)).2.1

/-- The total of one lane and column: plane by plane into P_c, P_c into the chunk, chunks promoted (R147, R148). -/
def laneTotal (c : Core) (o : Op) (a kLen : Nat) (r : Region) (e : LaneEntry) (planned panel side col : Nat) : Int :=
  let g := opGroup o
  let xs := laneNonZeros c o r e (padK o kLen) planned
  let chunks :=
    if o.engopt = 1 then csr16Chunks g xs
    else
      let first := e.start / g
      csr8dChunks (fun γ => regionByte c r (r.valBase + e.valOff + (γ - first))) ((xs.length + 1) * (r.len + 1)) first xs
  (chunks.map (fun ch =>
    let ew := toSigned (regionByte c r (r.expBase + e.expOff + ch.1)) 8
    let chunk := ch.2.foldl (fun (s : Word32) x =>
      s + (planeSum o [weightMantissa o x.code 0] [(panelElem c o a kLen panel side x.pos col).1]).signExtend 32) 0
    promote o chunk.toInt ew (panelExp c o kLen side ch.1 col))).foldl (· + ·) 0

/-- Offsets of the panel and the side array of token block n (R145, R301). -/
def panelOffset (j : MtileJob) (n : Nat) : Nat := if n = 0 then j.a1 else j.a1 + Config.sparsePanel j.opidx n
def panelSide (j : MtileJob) (n : Nat) : Nat := if n = 0 then j.a3 else j.a3 + Config.sparseSide j.opidx n

/-- Planned length n_b of a band of a share (R150, R280). -/
def plannedBand (s : State) (k : CoreId) (sl : Slice) (band : Nat) : Nat :=
  match coreConst s k with
  | none => 0
  | some c => (c.bands[sl.bandOff + band]?).getD 0

/-- The bank lines of region, panel and side array of a pass, as far as they lie in the plain: a REGION_LEN that reaches past it
raises no alarm (R159). A pass of an instruction with K = 0 reads nothing (R152). -/
def sparseLines (c : Core) (o : Op) (job : MtileJob) (n : Nat) : List Nat :=
  if job.k = 0 then [] else
  let r := regionAt c job.a0
  ((lineSpans job.a0 (min (max 64 r.len) (plainSize - job.a0)) ++ lineSpans (panelOffset job n) (padK o job.k * 4 * opABits o) ++
    lineSpans (panelSide job n) (64 * (if opAscale o = 1 then groupsOf o job.k else 1))).map (fun x => x.1)).filter
      (fun a => decide (a < plainSize))

/-- The first bank line of a pass that port SX cannot read, as its access. -/
def sparseAccess (c : Core) (o : Op) (job : MtileJob) (n : Nat) : Option Access :=
  ((sparseLines c o job n).map (fun a => accessFor c .sx false a none)).find? (fun x => x != .proceeds)

/-- CONSUME slots that a pass has read to their last bank line empty (R246). -/
def sparseConsume (c : Core) (o : Op) (job : MtileJob) (n : Nat) : Core :=
  (sparseLines c o job n).foldl (fun c a => afterAccess c .sx false a) c

/-- The EA96 total of a lane and column of a sparse set (R139); one that no pass has defined holds a free value. -/
def oldLane (s : State) (a : AccSet) (lane col : Nat) : Word64 :=
  match (a.laneTotals.find? (fun x => x.1 == lane)).bind (fun x => x.2[col]?) with
  | some t => t
  | none => Config.freeValue (s.freeNext + lane * 32 + col)

/-- The set of a sparse pass (R155, R156, R160): each fed lane's total by lane (R139), the merged total in the lowest lane of a
row's segments, which leaves the merged lanes at zero, so that a later ADD counts none twice (R149; log entry 80). -/
def fillSparse (s : State) (k : CoreId) (o : Op) (r : StepRun) (sl : Slice) (run : MatRun) (mActual : Nat) : AccSet :=
  let job := run.job
  let c := getCore s k
  let (n, band) := passBlock o job run.pass
  let a := accSet c.sp (passSet job run.pass)
  let reg := regionAt c job.a0
  let live := liveLanes c reg band mActual
  let shown := drainLanes live
  let nc := min 32 (job.n - n * 32)
  let planned := plannedBand s k sl band
  let lane (e : LaneEntry) (col : Nat) : Int :=
    if job.k = 0 then 0 else laneTotal c o (stepA r o) job.k reg e planned (panelOffset job n) (panelSide job n) col
  let own := live.map (fun x => (x.1, (List.range nc).map (fun col =>
    (if job.add then oldLane s a x.1 col else 0) + BitVec.ofInt 64 (lane x.2 col + chunkError s o a (x.1 * 32 + col)))))
  let total (x : Nat × LaneEntry) (col : Nat) : Word64 :=
    let parts := if x.2.seg then live.filter (fun y => y.2.seg && y.2.row == x.2.row) else [x]
    (parts.map (fun y => (((own.find? (fun z => z.1 == y.1)).bind (fun z => z.2[col]?)).getD 0))).foldl (· + ·) 0
  let totals := shown.flatMap (fun x => (List.range nc).map (fun col => total x col))
  let merged := own.map (fun x => match shown.find? (fun y => y.1 == x.1) with
    | some y => (x.1, (List.range nc).map (fun col => total y col))
    | none => (x.1, List.replicate nc 0))
  let kept := if job.add then a.laneTotals.filter (fun x => !(own.any (fun y => y.1 == x.1))) else []
  { a with laneTotals := merged ++ kept, phase := .complete, nrows := shown.length, ncols := nc, rows := shown.map (fun x => x.2.row), col0 := job.n0 + n * 32,
           firstPass := band == 0, lbase := job.lbase, chunks := [], totals := totals }

/-- Counters of a finished sparse pass (R146, R163 to R166). -/
def countSparse (s : State) (k : CoreId) (o : Op) (r : StepRun) (sl : Slice) (run : MatRun) (mActual : Nat) : State :=
  let job := run.job
  let c := getCore s k
  let (n, band) := passBlock o job run.pass
  let kpad := padK o job.k
  let planned := plannedBand s k sl band
  let lanes := if job.k = 0 then [] else
    (liveLanes c (regionAt c job.a0) band mActual).map (fun x => laneNonZeros c o (regionAt c job.a0) x.2 kpad planned)
  let nz := (lanes.map (fun l => l.length)).foldl (· + ·) 0
  let waits := (lanes.map (fun l => lastTurn l - l.length)).foldl (· + ·) 0
  let turns := if job.k = 0 then 0 else max planned (ceilDiv kpad 64)
  let s := updCore s k (fun c => { c with spx := { c.spx with
    turns := c.spx.turns + BitVec.ofNat 64 turns, nonzero := c.spx.nonzero + BitVec.ofNat 64 nz,
    cursorWaits := satAdd c.spx.cursorWaits waits, passes := satAdd c.spx.passes 1 } })
  let nc := min 32 (job.n - n * 32)
  let ins := countsInputs sl job band && job.k != 0
  let clips := ((List.range nc).map (fun col => ((List.range job.k).filter (fun x =>
    (panelElem c o (stepA r o) job.k (panelOffset job n) (panelSide job n) x col).2.2.1)).length)).foldl (· + ·) 0
  updRec s k job.opidx (fun x => { x with
    inElems := x.inElems + (if ins then nc * job.k else 0), inClips := x.inClips + (if ins then clips else 0) })

/-- hc that the sparse engine stalled on plain arbitration in a pass (R152, R165): a free amount (log entry 10). -/
def countArbitration (s : State) (k : CoreId) : State :=
  let (v, s) := drawFree s
  updCore s k (fun c => { c with spx := { c.spx with stallHc := satAdd c.spx.stallHc v.toNat } })

/-- PASS_COMPLETE on the sparse engine (R151, R155, R156). M of R159 is the step's M of the operation (log entry 80). -/
def sparsePassComplete (s : State) (k : CoreId) : State :=
  let c := getCore s k
  match c.sp.running, coreRun s k with
  | some run, some (_, r) =>
    match coreOp s k run.job.opidx, findShare r k run.job.opidx, findShape r run.job.opidx with
    | some o, some sl, some sh =>
      if !run.opened then s else
      let n := (passBlock o run.job run.pass).1
      match sparseAccess c o run.job n with
      | some (.blocked slot) => noteTagBlock s k .sx slot none
      | some (.faults b) => plnFault s k b stStepFault run.job.opidx run.job.pc
      | some _ => s
      | none =>
        let y := spoilLines k .sx c.sp.writes (sparseLines c o run.job n) s s
        let filled := fillSparse { y.1 with freeNext := y.2.freeNext } k o r sl run sh.m
        let s := countArbitration (countStall y.2 k true) k
        let s := countSparse { s with freeNext := s.freeNext + 16384 } k o r sl run sh.m
        let s := updCore s k (fun c =>
          sparseConsume { c with sp := { setAccSet c.sp (passSet run.job run.pass) filled with writes := [] } } o run.job n)
        nextPass s k .sparse o run
    | _, _, _ => s
  | _, _ => s

/-- PASS_COMPLETE (R81, R85, R110, R151): the chunks of a pass are complete and its set awaits release. -/
def execPassComplete (k : CoreId) (eng : MatEngine) (s : State) : Out :=
  if !powered s || !tileAwake s k.tile then .next s else
  .next (markRecWait (match eng with
    | .array => arrayPassComplete s k
    | .sparse => sparsePassComplete s k) k)

end Sys2Proof.Machine
end

