-- ==== Sys2Proof/Machine/Dispatch.lean ====
section
/-! DEFINITION. The meaning of each command, one arm per constructor of Instr. -/

namespace Sys2Proof.Machine

def exec (i : Instr) (s : State) : Host.Outcome State Fault Refusal :=
  match i with
  | .nop k => Sys2Proof.Machine.execNop k s
  | .li k rd imm => Sys2Proof.Machine.execLi k rd imm s
  | .lih k rd imm => Sys2Proof.Machine.execLih k rd imm s
  | .add k rd ra rb imm => Sys2Proof.Machine.execAdd k rd ra rb imm s
  | .sub k rd ra rb => Sys2Proof.Machine.execSub k rd ra rb s
  | .mul k rd ra rb => Sys2Proof.Machine.execMul k rd ra rb s
  | .divu k rd ra rb => Sys2Proof.Machine.execDivu k rd ra rb s
  | .and k rd ra rb => Sys2Proof.Machine.execAnd k rd ra rb s
  | .or k rd ra rb => Sys2Proof.Machine.execOr k rd ra rb s
  | .xor k rd ra rb => Sys2Proof.Machine.execXor k rd ra rb s
  | .shl k rd ra rb imm => Sys2Proof.Machine.execShl k rd ra rb imm s
  | .shr k rd ra rb imm => Sys2Proof.Machine.execShr k rd ra rb imm s
  | .sar k rd ra rb imm => Sys2Proof.Machine.execSar k rd ra rb imm s
  | .min k rd ra rb => Sys2Proof.Machine.execMin k rd ra rb s
  | .max k rd ra rb => Sys2Proof.Machine.execMax k rd ra rb s
  | .jmp k imm => Sys2Proof.Machine.execJmp k imm s
  | .br k cond ra rb imm => Sys2Proof.Machine.execBr k cond ra rb imm s
  | .loop k rd imm => Sys2Proof.Machine.execLoop k rd imm s
  | .bsel k rd field op => Sys2Proof.Machine.execBsel k rd field op s
  | .meridian k => Sys2Proof.Machine.execMeridian k s
  | .fence k mask => Sys2Proof.Machine.execFence k mask s
  | .mtile k rd ra add set hold op => Sys2Proof.Machine.execMtile k rd ra add set hold op s
  | .drain k set => Sys2Proof.Machine.execDrain k set s
  | .listMerge k ra op => Sys2Proof.Machine.execListMerge k ra op s
  | .rowfn k rd op => Sys2Proof.Machine.execRowfn k rd op s
  | .fine k rd op => Sys2Proof.Machine.execFine k rd op s
  | .copy k ra imm hub eng => Sys2Proof.Machine.execCopy k ra imm hub eng s
  | .signal k ra rb mask imm => Sys2Proof.Machine.execSignal k ra rb mask imm s
  | .wait k rd ra faultto => Sys2Proof.Machine.execWait k rd ra faultto s
  | .tag k ra rb full imm => Sys2Proof.Machine.execTag k ra rb full imm s
  | .mtileStart k eng => Sys2Proof.Machine.execMtileStart k eng s
  | .passComplete k eng => Sys2Proof.Machine.execPassComplete k eng s
  | .setRelease k eng set => Sys2Proof.Machine.execSetRelease k eng set s
  | .validClear k eng set => Sys2Proof.Machine.execValidClear k eng set s
  | .drainPortStart k => Sys2Proof.Machine.execDrainPortStart k s
  | .drainComplete k => Sys2Proof.Machine.execDrainComplete k s
  | .rowfnComplete k => Sys2Proof.Machine.execRowfnComplete k s
  | .dusk k => Sys2Proof.Machine.execDusk k s
  | .timingError k eng set elem stage diff => Sys2Proof.Machine.execTimingError k eng set elem stage diff s
  | .rfuNop k => Sys2Proof.Machine.execRfuNop k s
  | .ld k vd => Sys2Proof.Machine.execLd k vd s
  | .lda k vd => Sys2Proof.Machine.execLda k vd s
  | .st k va => Sys2Proof.Machine.execSt k va s
  | .sti k va => Sys2Proof.Machine.execSti k va s
  | .rfuMul k vd va vb => Sys2Proof.Machine.execRfuMul k vd va vb s
  | .div k vd va vb => Sys2Proof.Machine.execDiv k vd va vb s
  | .rfuAdd k vd va vb => Sys2Proof.Machine.execRfuAdd k vd va vb s
  | .rfuSub k vd va vb => Sys2Proof.Machine.execRfuSub k vd va vb s
  | .mulk k vd va kidx => Sys2Proof.Machine.execMulk k vd va kidx s
  | .addk k vd va kidx => Sys2Proof.Machine.execAddk k vd va kidx s
  | .neg k vd va => Sys2Proof.Machine.execNeg k vd va s
  | .abs k vd va => Sys2Proof.Machine.execAbs k vd va s
  | .recip k vd va => Sys2Proof.Machine.execRecip k vd va s
  | .sqrt k vd va => Sys2Proof.Machine.execSqrt k vd va s
  | .rsqrt k vd va => Sys2Proof.Machine.execRsqrt k vd va s
  | .exp2 k vd va => Sys2Proof.Machine.execExp2 k vd va s
  | .log2 k vd va => Sys2Proof.Machine.execLog2 k vd va s
  | .tadd k va => Sys2Proof.Machine.execTadd k va s
  | .tmax k va => Sys2Proof.Machine.execTmax k va s
  | .tget k vd maximum => Sys2Proof.Machine.execTget k vd maximum s
  | .qexp k va => Sys2Proof.Machine.execQexp k va s
  | .fdot t => Sys2Proof.Machine.execFdot t s
  | .fnorm t => Sys2Proof.Machine.execFnorm t s
  | .femb t => Sys2Proof.Machine.execFemb t s
  | .fopt t => Sys2Proof.Machine.execFopt t s
  | .fineComplete t => Sys2Proof.Machine.execFineComplete t s
  | .move e tier => Sys2Proof.Machine.execMove e tier s
  | .zero e => Sys2Proof.Machine.execZero e s
  | .transpose e tier => Sys2Proof.Machine.execTranspose e tier s
  | .diag e tier => Sys2Proof.Machine.execDiag e tier s
  | .gather e tier => Sys2Proof.Machine.execGather e tier s
  | .region e tier => Sys2Proof.Machine.execRegion e tier s
  | .descriptorComplete e j => Sys2Proof.Machine.execDescriptorComplete e j s
  | .objectAddCommit o j => Sys2Proof.Machine.execObjectAddCommit o j s
  | .waitRegister k => Sys2Proof.Machine.execWaitRegister k s
  | .waitExpiry o w => Sys2Proof.Machine.execWaitExpiry o w s
  | .tagBlockRelease k p => Sys2Proof.Machine.execTagBlockRelease k p s
  | .tagTimeout k p => Sys2Proof.Machine.execTagTimeout k p s
  | .combineTimeout k => Sys2Proof.Machine.execCombineTimeout k s
  | .watchdog p => Sys2Proof.Machine.execWatchdog p s
  | .parityRerun k port word => Sys2Proof.Machine.execParityRerun k port word s
  | .rerunRestart p => Sys2Proof.Machine.execRerunRestart p s
  | .residentBankReload k bank => Sys2Proof.Machine.execResidentBankReload k bank s
  | .stepFaultAbort p => Sys2Proof.Machine.execStepFaultAbort p s
  | .stepRelease p => Sys2Proof.Machine.execStepRelease p s
  | .openingMeridian p => Sys2Proof.Machine.execOpeningMeridian p s
  | .modelUnbindEffect p => Sys2Proof.Machine.execModelUnbindEffect p s
  | .closingMeridian p => Sys2Proof.Machine.execClosingMeridian p s
  | .releaseTick p contract => Sys2Proof.Machine.execReleaseTick p contract s
  | .budgetWindowStart meters => Sys2Proof.Machine.execBudgetWindowStart meters s
  | .valleyEntry t => Sys2Proof.Machine.execValleyEntry t s
  | .valleyWake t => Sys2Proof.Machine.execValleyWake t s
  | .tileAwake t => Sys2Proof.Machine.execTileAwake t s
  | .temperatureMeasurement die raw => Sys2Proof.Machine.execTemperatureMeasurement die raw s
  | .thermalTrip die raw => Sys2Proof.Machine.execThermalTrip die raw s
  | .senseSample watts => Sys2Proof.Machine.execSenseSample watts s
  | .powerApply watts => Sys2Proof.Machine.execPowerApply watts s
  | .powerRemove => Sys2Proof.Machine.execPowerRemove s
  | .startup found => Sys2Proof.Machine.execStartup found s
  | .ready => Sys2Proof.Machine.execReady s
  | .granuleInit => Sys2Proof.Machine.execGranuleInit s
  | .patrolRead t corrected uncorrected => Sys2Proof.Machine.execPatrolRead t corrected uncorrected s
  | .modelSectionRepair p => Sys2Proof.Machine.execModelSectionRepair p s
  | .flitWrite src dst => Sys2Proof.Machine.execFlitWrite src dst s
  | .flitReadRequest src dst => Sys2Proof.Machine.execFlitReadRequest src dst s
  | .flitReadResponse src dst => Sys2Proof.Machine.execFlitReadResponse src dst s
  | .flitSignal src dst => Sys2Proof.Machine.execFlitSignal src dst s
  | .flitWaitRegistration src dst => Sys2Proof.Machine.execFlitWaitRegistration src dst s
  | .flitWaitRelease src dst => Sys2Proof.Machine.execFlitWaitRelease src dst s
  | .flitCommitAck src dst => Sys2Proof.Machine.execFlitCommitAck src dst s
  | .flitCreditReturn src dst => Sys2Proof.Machine.execFlitCreditReturn src dst s
  | .flitRefusal src dst => Sys2Proof.Machine.execFlitRefusal src dst s
  | .passReplay t dir ok => Sys2Proof.Machine.execPassReplay t dir ok s
  | .doorbell f ring tail posted => Sys2Proof.Machine.execDoorbell f ring tail posted s
  | .ringEnable f ring => Sys2Proof.Machine.execRingEnable f ring s
  | .registerWrite f bar offset bytes value => Sys2Proof.Machine.execRegisterWrite f bar offset bytes value s
  | .rcFieldAccess f bar offset => Sys2Proof.Machine.execRcFieldAccess f bar offset s
  | .msixModerationExpiry f ring => Sys2Proof.Machine.execMsixModerationExpiry f ring s
  | .identify c => Sys2Proof.Machine.execIdentify c s
  | .queryErrorStatement c => Sys2Proof.Machine.execQueryErrorStatement c s
  | .queryBindState c => Sys2Proof.Machine.execQueryBindState c s
  | .attest c => Sys2Proof.Machine.execAttest c s
  | .constLoad c => Sys2Proof.Machine.execConstLoad c s
  | .modelBind c => Sys2Proof.Machine.execModelBind c s
  | .modelUnbind c => Sys2Proof.Machine.execModelUnbind c s
  | .sessionOpen c => Sys2Proof.Machine.execSessionOpen c s
  | .sessionOpenAfterBind p => Sys2Proof.Machine.execSessionOpenAfterBind p s
  | .sessionClose c => Sys2Proof.Machine.execSessionClose c s
  | .enqueue c => Sys2Proof.Machine.execEnqueue c s
  | .create c => Sys2Proof.Machine.execCreate c s
  | .append c => Sys2Proof.Machine.execAppend c s
  | .seal c => Sys2Proof.Machine.execSeal c s
  | .get c tier => Sys2Proof.Machine.execGet c tier s
  | .delete c => Sys2Proof.Machine.execDelete c s
  | .deleteAfterRead p => Sys2Proof.Machine.execDeleteAfterRead p s
  | .list c => Sys2Proof.Machine.execList c s
  | .setPseed c => Sys2Proof.Machine.execSetPseed c s
  | .setReproducibilityMode c => Sys2Proof.Machine.execSetReproducibilityMode c s
  | .setResidencyList c => Sys2Proof.Machine.execSetResidencyList c s
  | .setWindowLength c => Sys2Proof.Machine.execSetWindowLength c s
  | .setSensorOffset c => Sys2Proof.Machine.execSetSensorOffset c s
  | .setMeterGain c => Sys2Proof.Machine.execSetMeterGain c s
  | .configRequest f => Sys2Proof.Machine.execConfigRequest f s
  | .perst asserted => Sys2Proof.Machine.execPerst asserted s
  | .functionLevelReset f => Sys2Proof.Machine.execFunctionLevelReset f s
  | .mgmtConnect => Sys2Proof.Machine.execMgmtConnect s
  | .getInfo c req => Sys2Proof.Machine.execGetInfo c req s
  | .setPair c req => Sys2Proof.Machine.execSetPair c req s
  | .getPair c req => Sys2Proof.Machine.execGetPair c req s
  | .mgmtAttest c req => Sys2Proof.Machine.execMgmtAttest c req s
  | .telemetry c req => Sys2Proof.Machine.execTelemetry c req s
  | .layoutGet c req => Sys2Proof.Machine.execLayoutGet c req s
  | .layoutSet c req => Sys2Proof.Machine.execLayoutSet c req s
  | .layoutCommit => Sys2Proof.Machine.execLayoutCommit s
  | .pubkeySet c req => Sys2Proof.Machine.execPubkeySet c req s
  | .fwBegin c req => Sys2Proof.Machine.execFwBegin c req s
  | .fwData c req => Sys2Proof.Machine.execFwData c req s
  | .fwCommit c req => Sys2Proof.Machine.execFwCommit c req s
  | .keyAdd c req => Sys2Proof.Machine.execKeyAdd c req s
  | .keyRemove c req => Sys2Proof.Machine.execKeyRemove c req s
  | .keyList c req => Sys2Proof.Machine.execKeyList c req s
  | .netSet c req => Sys2Proof.Machine.execNetSet c req s
  | .mgmtExport c req => Sys2Proof.Machine.execMgmtExport c req s
  | .mgmtImport c req => Sys2Proof.Machine.execMgmtImport c req s
  | .recoveryImport c req => Sys2Proof.Machine.execRecoveryImport c req s
  | .testStateRequest f => Sys2Proof.Machine.execTestStateRequest f s
  | .testStateEnd f retrained => Sys2Proof.Machine.execTestStateEnd f retrained s
  | .loopbackGo f => Sys2Proof.Machine.execLoopbackGo f s
  | .loopbackEnd res => Sys2Proof.Machine.execLoopbackEnd res s
  | .hostDirectedLoopback => Sys2Proof.Machine.execHostDirectedLoopback s
  | .mbistGo f => Sys2Proof.Machine.execMbistGo f s
  | .mbistDone mismatch => Sys2Proof.Machine.execMbistDone mismatch s
  | .speedRun f t => Sys2Proof.Machine.execSpeedRun f t s
  | .speedRunEnd t res => Sys2Proof.Machine.execSpeedRunEnd t res s
  | .bypass => Sys2Proof.Machine.execBypass s
  | .idcode => Sys2Proof.Machine.execIdcode s
  | .samplePreload pads => Sys2Proof.Machine.execSamplePreload pads s
  | .extest pads => Sys2Proof.Machine.execExtest pads s
  | .clamp => Sys2Proof.Machine.execClamp s
  | .highz => Sys2Proof.Machine.execHighz s
  | .regacc isWrite offset value => Sys2Proof.Machine.execRegacc isWrite offset value s
  | .pcieLinkTraining mps width speed => Sys2Proof.Machine.execPcieLinkTraining mps width speed s
  | .pcieLinkError f code => Sys2Proof.Machine.execPcieLinkError f code s
  | .mgmtLinkChange link => Sys2Proof.Machine.execMgmtLinkChange link s
  | .mgmtConnectionClose c => Sys2Proof.Machine.execMgmtConnectionClose c s

end Sys2Proof.Machine
end

