-- ==== Sys2Proof/Machine/Tick.lean ====
section
/-! DEFINITION. What the module does when no command waits: its timebase counts (R1, R8), and the hub goes on with a residency
list in the background (R445). DESIGN CHOICE, log entry 3. -/

namespace Sys2Proof.Machine

/-- The first partition whose residency list has a job that can go on. -/
def nextResidency (s : State) : Option PartId :=
  allParts.find? (fun p => !s.parts[p].resJobs.isEmpty && !residencyWaits s p)

/-- One tick of the timebase, and one job of a residency list once the device is ready and outside test state. -/
def tick (s : State) : State :=
  if !powered s then s else
  let s := { s with now := s.now + 1 }
  if !hostReady s || s.test.test then s else
  match nextResidency s with
  | some p => residencyStep s p
  | none => s

end Sys2Proof.Machine
end

