-- ==== Sys2Proof/Safety.lean ====
section
/-! DEFINITION. What counts as a well-kept state and a safe run, and the terms the statements use: every memory in canonical
form, no step that stops, one byte of any memory, and states that differ in one part only. -/

namespace Sys2Proof

open Machine

/-- The memories of a tile: its plains, its HBM stack, its fine store. -/
def tileMemWf (t : Tile) : Bool := t.cores.all (fun c => memWf c.plain) && memWf t.hbm && memWf t.fine.store

/-- Every memory of a state is in canonical form: addresses strictly rising and no byte equal to what an unlisted one reads. -/
def MemWf (s : State) : Prop :=
  (∀ t : TileId, tileMemWf s.tiles[t] = true) ∧ memWf s.hub.lpddr = true ∧ memWf s.hostMem = true ∧
  (∀ f : FuncId, memWf (s.funcs[f]).msixTable = true) ∧
  (∀ (i : Fin 3) (n : Nat) (m : Mem), (s.boot.fw[i]).upload = some (n, m) → memWf m = true)

/-- A step from this state answers a next state. -/
def Steps (s : State) : Prop := ∃ s', step s = .next s'

/-- The first n steps from a state all answer a next state. -/
def SafeRun (n : Nat) (s : State) : Prop := ∃ s', Host.Core.run core n s = .next s'

/-! ## Memory by byte -/

/-- The addressed memories of the module and its host. -/
inductive Space
  | plain (k : CoreId)
  | hbm (t : TileId)
  | lpddr
  | host
  | fineStore (t : TileId)
  | msix (f : FuncId)
  deriving DecidableEq, Repr

/-- One byte of a memory. -/
def byteAt (s : State) : Space → Nat → Byte
  | .plain k, a => memGet (getCore s k).plain a
  | .hbm t, a => memGet s.tiles[t].hbm a
  | .lpddr, a => memGet s.hub.lpddr a
  | .host, a => memGet s.hostMem a
  | .fineStore t, a => memGet s.tiles[t].fine.store a
  | .msix f, a => memGet (s.funcs[f]).msixTable a

/-- Every byte of every memory reads the same in both states. -/
def SameBytes (s t : State) : Prop := ∀ (m : Space) (a : Nat), byteAt t m a = byteAt s m a

/-- The byte lies in a window for partial results or row-function records, which a re-run clears (R255). -/
def InCombineWindow (c : Constellation) (m : Space) (a : Nat) : Prop :=
  ∃ w ∈ c.windows, w.kind ≠ 1 ∧ ∃ k o, placeOf w.base = some (.plain k o) ∧ m = .plain k ∧ o ≤ a ∧ a < o + w.len

/-- A byte of a stack of tier 1, of tier 2 or of a fine store. -/
def TierByte : Space → Prop
  | .hbm _ => True
  | .lpddr => True
  | .fineStore _ => True
  | _ => False

/-- The byte lies in a range of x.2 bytes from the fabric address x.1 on. -/
def InRange (m : Space) (a : Nat) (x : Nat × Nat) : Prop :=
  ∃ o, (placeOf x.1 = some (.lpddr o) ∧ m = .lpddr ∨ (∃ t, placeOf x.1 = some (.hbm t o) ∧ m = .hbm t) ∨
    (∃ t, placeOf x.1 = some (.fine t o) ∧ m = .fineStore t) ∨ (∃ k, placeOf x.1 = some (.plain k o) ∧ m = .plain k)) ∧
    o ≤ a ∧ a < o + x.2

/-! ## States that differ in one part -/

/-- Only core k may differ. -/
def OnlyCore (k : CoreId) (s t : State) : Prop := t = updCore s k (fun _ => getCore t k)

/-- Only core k and the count of free values may differ. -/
def OnlyCoreFree (k : CoreId) (s t : State) : Prop :=
  t = { updCore s k (fun _ => getCore t k) with freeNext := t.freeNext }

/-- Only partition p may differ. -/
def OnlyPart (p : PartId) (s t : State) : Prop := t = updPart s p (fun _ => t.parts[p])

/-- Only tile n may differ. -/
def OnlyTile (n : TileId) (s t : State) : Prop := t = updTile s n (fun _ => t.tiles[n])

/-- Only the hub may differ. -/
def OnlyHub (s t : State) : Prop := t = updHub s (fun _ => t.hub)

/-- Only a part of the hub may differ that store commands use up: the spare blocks, and the count of free values. -/
def spentStore (s u : State) : State :=
  { s with
    hub := { s.hub with spareBlocks := u.hub.spareBlocks }
    freeNext := u.freeNext }

/-- Of the tiles only VADM may differ, which follows the open streams (R487). -/
def OnlyVadm (s u : State) : Prop :=
  ∀ t : TileId, u.tiles[t] = { s.tiles[t] with pwr := { s.tiles[t].pwr with vadm := u.tiles[t].pwr.vadm } }

/-! ## Sequencer instructions as R299 writes them -/

/-- The state after an instruction of core k that writes v into sd and goes on at the next: s0 takes no write (R295). -/
def wroteReg (s : State) (k : CoreId) (rd : SReg) (v : Word64) : State :=
  updCore s k (fun c => { c with
    sregs := if rd = 0 then c.sregs else c.sregs.set rd v,
    seq := { c.seq with pc := c.seq.pc + 1, state := .issuing, issued := c.seq.issued + 1 } })

/-- The state after an instruction of core k that only chooses the next pc. -/
def wentTo (s : State) (k : CoreId) (pc : BitVec 13) : State :=
  updCore s k (fun c => { c with seq := { c.seq with pc := pc, state := .issuing, issued := c.seq.issued + 1 } })

/-- The command that the program store of core k holds at its pc (R282, R296, R298). -/
def storedInstr (s : State) (k : CoreId) : Option Instr :=
  match coreConst s k with
  | none => none
  | some c =>
    let x := getCore s k
    ((x.store.find? (fun p => p.1 == entryOf c k x.seq.entry.toNat)).bind (fun p => p.2[x.seq.pc.toNat]?)).bind (decodeSequencer k)

/-- The command that the function block running on core k holds where its row-function unit stands (R179, R180). -/
def storedMicro (s : State) (k : CoreId) : Option Instr :=
  match rfuCtx s k with
  | none => none
  | some x => match x.f.phases[x.run.phase]? with
    | none => none
    | some ph => (x.f.micro[ph.start + (if x.run.inBody then ph.proLen else 0) + x.run.upc]?).bind (decodeMicro k)

/-- The command in front is the one that the device's own store holds there, where it is one that a word spells (R298, R180). The model
answers commands in any order (log entry 27); a run of the hardware has this in every state. -/
def AsStored (s : State) : Prop :=
  ∀ i rest k, s.pending = i :: rest →
    (∀ w, decodeSequencer k w = some i → storedInstr s k = some i) ∧ (∀ w, decodeMicro k w = some i → storedMicro s k = some i)

/-- Core k runs a step of partition p: the run is r, the core can issue, and no parity re-run is pending. -/
def Issuing (s : State) (k : CoreId) (p : PartId) (r : StepRun) : Prop :=
  canIssue s k = true ∧ coreRun s k = some (p, r) ∧ r.rerunPending = false

/-- A fault of the step of core k is recorded in its SEQ_FAULT (R323, R329) and the core issues nothing more; the partition's
step takes the code unless it has a fault already (R324). -/
def SeqFaulted (s t : State) (k : CoreId) (bit : Nat) (code : BitVec 16) : Prop :=
  (getCore t k).seq.fault.getLsbD bit = true ∧ (getCore t k).seq.state = .faulted ∧
  (∀ p r, coreRun s k = some (p, r) → ∃ r', t.parts[p].run = some r' ∧
    r'.fault.map (fun f => f.code) = some (match r.fault with | some f => f.code | none => code))

/-- Core k has started its program of run r from frame f (R296): instruction 0 and the registers' values, nothing else of it
changed but what a start resets. -/
def ProgramStarted (s u : State) (k : CoreId) (f : CoreFrame) (r : StepRun) : Prop :=
  (∀ i : Fin 32, sreg (getCore u k) i =
    if i.val = 0 then 0
    else if i.val ≤ 22 then (f.sreg[i.val - 1]?).getD 0
    else if i.val = 23 then r.stepno
    else (r.step.args[i.val - 24]?).getD 0) ∧
  (getCore u k).seq.pc = 0 ∧ (getCore u k).seq.state = .issuing ∧ (getCore u k).seq.stepno = r.stepno ∧
  (getCore u k).seq.fault = (getCore s k).seq.fault ∧ (getCore u k).blocked = .none ∧ (getCore u k).taking = true ∧
  (getCore u k).reported = false ∧ (getCore u k).plain = (getCore s k).plain ∧ (getCore u k).tags = (getCore s k).tags ∧
  (getCore u k).pln = (getCore s k).pln

/-! ## What a reduction comes to -/

/-- Sum of the products of two lists of mantissas. -/
def dot (ws xs : List Int) : Int := ((ws.zip xs).map (fun x => x.1 * x.2)).sum

/-- The sum of the products of a scale group (R41, R45). -/
def groupSum (o : Op) (x : CellFeed) (γ : Nat) : Int :=
  ((List.range (opGroup o / 4)).map (fun i => dot (x.weights (γ * (opGroup o / 4) + i)) (x.acts (γ * (opGroup o / 4) + i)))).sum

/-- What a reduction adds to a total: its groups' sums, each in units of 2^ANCHOR (R46, R48). -/
def passTotal (o : Op) (x : CellFeed) (groups : Nat) : Int :=
  ((List.range groups).map (fun γ => promote o (groupSum o x γ) (x.expW γ) (x.expA γ))).sum

/-- An operation's codes as a load admits them (R32, R37, R207). -/
def FormatOk (o : Op) : Prop :=
  opWBits o ≤ 8 ∧ opGroup o ≤ 128 ∧ (opCheckP o ≠ 0 → opWBits o = 1 ∧ opWzp o = false)

/-- What the cell of row i and column c of the pass of a run works on (R72, R75, R77). -/
def passCell (o : Op) (r : StepRun) (m : MatRun) (i c : Nat) : CellFeed :=
  let wf := feedPair m.wfeeds (i / 32)
  let af := feedPair m.afeeds (c / 32)
  cellFeed o (stepA r o) m.job.k wf.2 wf.1 af.2 af.1 (m.pass % innerCount o m.job.m) (i % 32) (c % 32)

/-- The non-zeros that a sparse lane consumes, run by run under one promotion, each run with its group (R148). -/
def laneRuns (c : Core) (o : Op) (kLen : Nat) (r : Region) (e : LaneEntry) (planned : Nat) : List (Nat × List NonZero) :=
  let xs := laneNonZeros c o r e (padK o kLen) planned
  if o.engopt = 1 then csr16Chunks (opGroup o) xs else
    csr8dChunks (fun γ => regionByte c r (r.valBase + e.valOff + (γ - e.start / opGroup o))) ((xs.length + 1) * (r.len + 1))
      (e.start / opGroup o) xs

/-- What the non-zeros of a sparse lane come to in a column: the sum of their products, promoted run by run (R147, R148). -/
def laneSum (c : Core) (o : Op) (a kLen : Nat) (r : Region) (e : LaneEntry) (planned panel side col : Nat) : Int :=
  ((laneRuns c o kLen r e planned).map (fun run => promote o
    ((run.2.map (fun x => weightMantissa o x.code 0 * (panelElem c o a kLen panel side x.pos col).1)).sum)
    (toSigned (regionByte c r (r.expBase + e.expOff + run.1)) 8) (panelExp c o kLen side run.1 col))).sum

/-! ## What a drain writes -/

/-- The total that a drain converts for element i: the set's own and those of the landed records (R118). -/
def combinedTotal (c : Core) (a : AccSet) (recs : List Record) (i : Nat) : Word64 :=
  recs.foldl (fun t r => t + BitVec.ofNat 64 (leNat (memRead c.plain (r.base + 16 + 8 * i) 8))) ((a.totals[i]?).getD 0)

/-- Feature row, counted from the share's first, and token column of element i of a set (R132). -/
def elementAt (sl : Slice) (a : AccSet) (i : Nat) : Nat × Nat := ((a.rows[i / a.ncols]?).getD 0 - sl.row0, a.col0 + i % a.ncols)

/-- Where the fused element of (m, n) lies (R126). -/
def fusedAddr (o : Op) (w : Word32) (m n : Nat) : Nat :=
  if dwFbcast w then o.fbase + m * o.fstride else layoutOffset (dwTokenMajor w) o.fbase o.fstride m n (fuseBytes (dwFfmt w))

/-- The exact value of element i before its one rounding (R45, R126). -/
def drainValue (c : Core) (o : Op) (sl : Slice) (a : AccSet) (recs : List Record) (i : Nat) : Exact :=
  let v : Exact := { m := (combinedTotal c a recs i).toInt, e := opAnchor o }
  let x := elementAt sl a i
  let f := (fuseValue a.drainWord (leNat (memRead c.plain (fusedAddr o a.drainWord x.1 x.2) (fuseBytes (dwFfmt a.drainWord))))).1
  if dwFuse a.drainWord = 0 then v else if dwFuse a.drainWord = 1 then dyAdd v f else dyMul v f

/-- The code that element i is written with (R55, R125). -/
def drainCode (c : Core) (o : Op) (sl : Slice) (seed : Word64) (a : AccSet) (recs : List Record) (i : Nat) : Nat :=
  (convert (opOfmt o) (opOexp o) (drainValue c o sl a recs i)
    (if opStoch o then .stoch (rngDraw seed (opStream o) (tagInvoc a.tag) ((a.rows[i / a.ncols]?).getD 0) (a.col0 + i % a.ncols))
      else .rne)).code

/-- The place of element (m, n) of an output, in half bytes from the plain's start, and its size (R132). -/
def elementPlace (o : Op) (tokenMajor : Bool) (x : Nat × Nat) : Nat × Nat :=
  match opOfmt o with
  | .int4 => (2 * (o.obase + (if tokenMajor then x.2 * o.ostride else x.1 * o.ostride)) + (if tokenMajor then x.1 else x.2), 1)
  | f => (2 * layoutOffset tokenMajor o.obase o.ostride x.1 x.2 (fmtBytes f), 2 * fmtBytes f)

/-- The half bytes of two places have none in common. -/
def Apart (x y : Nat × Nat) : Prop := x.1 + x.2 ≤ y.1 ∨ y.1 + y.2 ≤ x.1

/-- The code that stands at a place of half bytes of a plain. -/
def codeAt (c : Core) (x : Nat × Nat) : Nat :=
  leNat (memRead c.plain (x.1 / 2) ((x.2 + 1) / 2)) / 16 ^ (x.1 % 2) % 16 ^ x.2

/-- The bytes of the operand that a fused operation reads for (m, n), as a place. -/
def fusedPlace (o : Op) (w : Word32) (x : Nat × Nat) : Nat × Nat := (2 * fusedAddr o w x.1 x.2, 2 * fuseBytes (dwFfmt w))

/-- The bytes of the list of token column n of a top-k drain (R129, R301). -/
def listPlace (a : AccSet) (n : Nat) : Nat × Nat := (2 * (a.lbase + 8 * dwK a.drainWord * n), 16 * dwK a.drainWord)

/-- The drain port may read and write every bank of a plain: unified mode, no RESIDENT bank, no bank OFF (R239, R243, R244). -/
def PlainOpen (c : Core) : Prop := c.pln.split = false ∧ c.pln.resident = 0 ∧ ∀ b < 8, bankPower c b ≠ 0

/-- No other port has an access to the plain of core k under way, so that no access of its DR port collides (R251). -/
def PortQuiet (s : State) (k : CoreId) : Prop := ∀ a, writersOf s k .dr a = [] ∧ readersOf s k .dr a = []

/-- The DR port of core k reads and writes freely (R239, R243, R244, R251). -/
def PortFree (s : State) (k : CoreId) : Prop := PlainOpen (getCore s k) ∧ PortQuiet s k

/-! ## What a descriptor copies -/

/-- The byte of a tile's HBM stack, and of a core's plain, at a fabric address. -/
def hbmAt (s : State) (t : TileId) (a : Nat) : Byte := memGet s.tiles[t].hbm (a - (t.val + 1) * 2 ^ 48)
def plainAt (s : State) (k : CoreId) (a : Nat) : Byte := memGet (getCore s k).plain (a - plainAddr k 0)

/-- A range of fabric addresses lies in a tile's HBM stack, or in a core's plain (R19). -/
def InHbm (t : TileId) (x : Nat × Nat) : Prop := (t.val + 1) * 2 ^ 48 ≤ x.1 ∧ x.1 + x.2 ≤ (t.val + 1) * 2 ^ 48 + 0x5D0000000
def InPlain (k : CoreId) (x : Nat × Nat) : Prop := plainAddr k 0 ≤ x.1 ∧ x.1 + x.2 ≤ plainAddr k 0 + plainSize

/-- The w bits from bit b of the bytes that start at an address, low bits first (R38). -/
def bitsIn (f : Nat → Byte) (a b w : Nat) : Nat := leNat ((List.range 4).map (fun j => f (a + b / 8 + j))) / 2 ^ (b % 8) % 2 ^ w

/-- Element x of lane r of block j of a layout descriptor, 0 outside the valid extent (R340, R341, R343). -/
def laneCode (s : State) (t : TileId) (d : List Byte) (j r x : Nat) : Nat :=
  if x < dK d ∧ r < laneCount d j then bitsIn (hbmAt s t) (laneSrc d j r) (x * dCb d) (dCb d) else 0

/-- Exponent and zero point of lane r of block j for group γ (R340, R342). -/
def laneSide (s : State) (t : TileId) (d : List Byte) (j r γ : Nat) : Byte × Byte :=
  if laneCount d j ≤ r then (0, 0)
  else if dSkind d = 2 then (dConstExp d, if dZp d then dConstZp d else 0)
  else
    let ix := if dSkind d = 0 then (j * dRb d + r) * dGroups d + γ else j * dRb d + r
    (hbmAt s t (moveAddr (dEsrc d) (ix : Nat)), if dZp d then hbmAt s t (moveAddr (dEsrc d) ((ix + dZoff d : Nat) : Int)) else 0)

/-- The CE port writes core k's plain freely: no bank OFF or in RETAIN, unified mode, no RESIDENT bank, no tagged slot (R239, R243,
R244, R246). -/
def CeOpen (c : Core) : Prop :=
  PlainOpen c ∧ (∀ b < 8, bankPower c b ≠ 2) ∧ (∀ slot, tagModeOf c slot = 0) ∧ c.tagBlocks = []

/-! ## The row-function unit -/

/-- Core k runs a row function that can carry out a microinstruction which does not end its phase (R179, R180). -/
def MidPhase (s : State) (k : CoreId) (x : RfuCtx) : Prop :=
  powered s = true ∧ tileAwake s k.tile = true ∧ rfuCtx s k = some x ∧ x.run.waiting = false ∧ x.run.finished = false ∧
  (x.run.inBody = false ∨ ∃ ph, x.f.phases[x.run.phase]? = some ph ∧ x.run.upc + 1 < ph.bodyLen)

/-- The running function r goes on from that of x within the same phase and block, with neither its extent nor its place changed. -/
def SamePhase (x : RfuCtx) (r : RfuRun) : Prop :=
  r.phase = x.run.phase ∧ r.block = x.run.block ∧ r.elem = x.run.elem ∧ r.n = x.run.n ∧ r.cols = x.run.cols ∧ r.finished = false ∧
  r.waiting = false

/-- After a microinstruction of core k the running function is r, within the same phase and body; the core changed in its
row-function unit and nowhere else, and no other core changed. -/
def RfuWent (s t : State) (k : CoreId) (x : RfuCtx) (r : RfuRun) : Prop :=
  (getCore t k).rfuRun = some r ∧ SamePhase x r ∧
  getCore t k = { getCore s k with
    rfu := (getCore t k).rfu
    rfuRun := some r } ∧
  (∀ j, j ≠ k → getCore t j = getCore s j)

/-- The same for one that reads over the DR port: the notes of lines being read change too. -/
def RfuLoaded (s t : State) (k : CoreId) (x : RfuCtx) (r : RfuRun) : Prop :=
  (getCore t k).rfuRun = some r ∧ SamePhase x r ∧
  getCore t k = { getCore s k with
    rfu := (getCore t k).rfu
    rfuRun := some r
    drLines := (getCore t k).drLines } ∧
  (∀ j, j ≠ k → getCore t j = getCore s j)

/-- The same for one that writes over the DR port: the core changed in its unit, its plain, the notes of lines being written and
PLN_BUSY. -/
def RfuWrote (s t : State) (k : CoreId) (x : RfuCtx) (r : RfuRun) : Prop :=
  (getCore t k).rfuRun = some r ∧ SamePhase x r ∧
  getCore t k = { getCore s k with
    plain := (getCore t k).plain
    rfu := (getCore t k).rfu
    rfuRun := some r
    drLines := (getCore t k).drLines
    ag := { (getCore s k).ag with writes := (getCore t k).ag.writes }
    sp := { (getCore s k).sp with writes := (getCore t k).sp.writes }
    pln := { (getCore s k).pln with
      busyWord := (getCore t k).pln.busyWord
      busyPorts := (getCore t k).pln.busyPorts
      busyCount := (getCore t k).pln.busyCount } } ∧
  (∀ j, j ≠ k → getCore t j = getCore s j)

/-- Every lane that carries a token column of the block changed by f, and no other lane changed. -/
def LanesWent (x r : RfuRun) (f : Fin 32 → Lane → Lane) : Prop :=
  ∀ j : Fin 32, r.lanes[j] = if 32 * x.block + j.val < x.cols then f j x.lanes[j] else x.lanes[j]

/-! ## Host commands and management requests -/

/-- The command in slot c, with entry e and this opcode, is the only one fetched of its ring and may start; the host has posted no
more; the device is ready and not in test state (R511, R512, R514, R524). -/
def CommandReady (s : State) (c : HostSlot) (op : Nat) (e : List Byte) : Prop :=
  hostReady s = true ∧ s.test.test = false ∧
  (getRing s c.func c.ring).fetched = [{ slot := c.slot, entry := e, started := false }] ∧
  (getRing s c.func c.ring).head = (getRing s c.func c.ring).tail ∧ entOpcode e = op

/-- Where the completion entry of a slot lies on the bus (R508, R509). -/
def completionAt (s : State) (c : HostSlot) : Nat :=
  busAddr s.funcs[c.func] ((getRing s c.func c.ring).cplBase.toNat + 16 * c.slot.toNat)

/-- In u the command of slot c has its completion: STATUS and 14 result bytes (R510, R515). -/
def Answered (s u : State) (c : HostSlot) (status : BitVec 16) (result : List Byte) : Prop :=
  memRead u.hostMem (completionAt s c) 16 = natLe 2 status.toNat ++ sliceAt result 0 14 ∧
  (getRing u c.func c.ring).done = (getRing s c.func c.ring).done + 1 ∧ (getRing u c.func c.ring).fetched = []

/-- The command's buffer holds these bytes, except where the completion entry lies over it. -/
def BufferHolds (s u : State) (c : HostSlot) (e : List Byte) (bs : List Byte) : Prop :=
  ∀ i b, bs[i]? = some b → ¬(completionAt s c ≤ busAddr s.funcs[c.func] (entBuf e) + i ∧
    busAddr s.funcs[c.func] (entBuf e) + i < completionAt s c + 16) →
    memGet u.hostMem (busAddr s.funcs[c.func] (entBuf e) + i) = b

/-- Only host memory and the functions' registers may differ. -/
def OnlyHost (s t : State) : Prop :=
  t = { s with
    hostMem := t.hostMem
    funcs := t.funcs }

/-- Only partition p, host memory and the functions' registers may differ. -/
def OnlyPartAndHost (p : PartId) (s t : State) : Prop :=
  t = { updPart s p (fun _ => t.parts[p]) with
    hostMem := t.hostMem
    funcs := t.funcs }

/-- A request of a TYPE on connection c that is carried out or refused now: the port is up, the connection open, no layout change
under way, and its sizes and fields are those of R553. -/
def RequestReady (s : State) (c : ConnId) (req : List Byte) (ty : Nat) : Prop :=
  portUp s = true ∧ s.mgmt.conns[c] = true ∧ s.mgmt.job = none ∧ requestFormat req = true ∧ reqType req = ty

/-- The checks of R554 on key, signature and counter pass, and the record can be written. -/
def accepted (s : State) (req : List Byte) : Bool := requestAuth s req && counterOk s req && s.boot.writable

/-- The last response of connection c answers the request with a status and a body (R558). -/
def Responded (u : State) (c : ConnId) (req : List Byte) (status : BitVec 16) (body : List Byte) : Prop :=
  ∃ msg, u.mgmt.responses[c] = some msg ∧ fieldAt msg 4 1 = reqType req ∧ fieldAt msg 6 2 = status.toNat ∧
    sliceAt msg 128 body.length = body

/-- A request that the checks of R554 refuse: the response says so in their order, nothing outside the management plane and the
record changes, and a request that fails them does not reach the record. -/
def RefusedByChecks (s u : State) (c : ConnId) (req : List Byte) : Prop :=
  Responded u c req (if requestAuth s req = false then 0x0501 else if counterOk s req = false then 0x0502 else 0x020D) [] ∧
  u = { s with
    mgmt := u.mgmt
    boot := u.boot } ∧ ((requestAuth s req && counterOk s req) = false → u.boot = s.boot)

end Sys2Proof
end

