-- ==== Sys2Proof/Certificates/Slice0/Obligations.lean ====
section
/-! DEFINITION. The statements for the provers, one definition each (listed in OBLIGATIONS.json). A docstring names the rules of
the spec a statement rests on, and the log entry where it rests on a choice of the model. -/

open Sys2Proof Sys2Proof.Machine

/-- The front of the queue is carried out with the queue's rest; an empty queue lets the module tick (log entry 3). -/
def Obligations.StepCarriesOutTheFrontCommand : Prop :=
  (∀ (c : Instr) (rest : List Instr) (s : State), step { s with pending := c :: rest } = exec c { s with pending := rest }) ∧
  (∀ s : State, s.pending = [] → step s = .next (tick s))

/-- (Rests on R299, rows NOP to MAX.) What each writes into sd, that the next instruction follows, and that nothing else
changes. (Rests on R295.) s0 reads as zero and writes to it are ignored, at the registers and at an instruction that names it; a
write of another register is read back and leaves the rest. -/
def Obligations.SequencerArithmeticFollowsItsTable : Prop :=
  (∀ (s : State) (k : CoreId) (rd ra rb : SReg) (imm : Word32), canIssue s k = true →
     let a := sreg (getCore s k) ra
     let b := sreg (getCore s k) rb
     let n := (b.toNat + imm.toNat) % 64
     exec (.nop k) s = .next (wentTo s k ((getCore s k).seq.pc + 1)) ∧
     exec (.li k rd imm) s = .next (wroteReg s k rd (BitVec.ofInt 64 imm.toInt)) ∧
     exec (.lih k rd imm) s = .next (wroteReg s k rd
       (BitVec.ofNat 64 (imm.toNat * 2 ^ 32 + (sreg (getCore s k) rd).toNat % 2 ^ 32))) ∧
     exec (.add k rd ra rb imm) s = .next (wroteReg s k rd (BitVec.ofInt 64 (a.toInt + b.toInt + imm.toInt))) ∧
     exec (.sub k rd ra rb) s = .next (wroteReg s k rd (BitVec.ofInt 64 (a.toInt - b.toInt))) ∧
     exec (.mul k rd ra rb) s = .next (wroteReg s k rd (BitVec.ofNat 64 (a.toNat * b.toNat))) ∧
     exec (.divu k rd ra rb) s = .next (wroteReg s k rd
       (if b = 0 then 0xFFFFFFFFFFFFFFFF else BitVec.ofNat 64 (a.toNat / b.toNat))) ∧
     exec (.and k rd ra rb) s = .next (wroteReg s k rd (a &&& b)) ∧
     exec (.or k rd ra rb) s = .next (wroteReg s k rd (a ||| b)) ∧
     exec (.xor k rd ra rb) s = .next (wroteReg s k rd (a ^^^ b)) ∧
     exec (.shl k rd ra rb imm) s = .next (wroteReg s k rd (BitVec.ofNat 64 (a.toNat * 2 ^ n))) ∧
     exec (.shr k rd ra rb imm) s = .next (wroteReg s k rd (BitVec.ofNat 64 (a.toNat / 2 ^ n))) ∧
     exec (.sar k rd ra rb imm) s = .next (wroteReg s k rd (BitVec.ofInt 64 (a.toInt / 2 ^ n))) ∧
     exec (.min k rd ra rb) s = .next (wroteReg s k rd (if a.toInt ≤ b.toInt then a else b)) ∧
     exec (.max k rd ra rb) s = .next (wroteReg s k rd (if a.toInt ≤ b.toInt then b else a))) ∧
  ((∀ (c : Core) (v : Word64), sreg c 0 = 0 ∧ setSreg c 0 v = c) ∧
   (∀ (c : Core) (r q : SReg) (v : Word64), r ≠ 0 → sreg (setSreg c r v) r = v ∧ (q ≠ r → sreg (setSreg c r v) q = sreg c q)) ∧
   (∀ (s : State) (k : CoreId) (imm : Word32), canIssue s k = true →
     ∃ t, exec (.li k 0 imm) s = .next t ∧ (getCore t k).sregs = (getCore s k).sregs ∧ sreg (getCore t k) 0 = 0 ∧
       (getCore t k).seq.pc = (getCore s k).seq.pc + 1))

/-- (Rests on R299, rows JMP, BR, LOOP.) The next pc, the counted register, and nothing else; a target that no program of 8,192
instructions has is refused (R321). LOOP tests sd as it reads after the write, so a LOOP on s0 falls through (log entry 11, the
model's reading). -/
def Obligations.BranchesChooseTheNextInstruction : Prop :=
  ∀ (s : State) (k : CoreId) (rd ra rb : SReg) (imm : Word32),
    let a := sreg (getCore s k) ra
    let b := sreg (getCore s k) rb
    let d := sreg (getCore s k) rd
    let next := (getCore s k).seq.pc + 1
    let target := BitVec.ofNat 13 imm.toNat
    (canIssue s k = true → imm.toNat < 8192 →
      exec (.jmp k imm) s = .next (wentTo s k target) ∧
      exec (.br k .eq ra rb imm) s = .next (wentTo s k (if a = b then target else next)) ∧
      exec (.br k .ne ra rb imm) s = .next (wentTo s k (if a = b then next else target)) ∧
      exec (.br k .lt ra rb imm) s = .next (wentTo s k (if a.toInt < b.toInt then target else next)) ∧
      exec (.br k .ge ra rb imm) s = .next (wentTo s k (if b.toInt ≤ a.toInt then target else next)) ∧
      exec (.br k .ltu ra rb imm) s = .next (wentTo s k (if a.toNat < b.toNat then target else next)) ∧
      exec (.br k .geu ra rb imm) s = .next (wentTo s k (if b.toNat ≤ a.toNat then target else next)) ∧
      exec (.loop k rd imm) s = .next (wentTo (updCore s k (fun c => setSreg c rd (d - 1))) k
        (if rd = 0 ∨ d = 1 then next else target))) ∧
    (8192 ≤ imm.toNat → ∀ cond : Cond,
      exec (.jmp k imm) s = .refused .neverLoaded ∧ exec (.br k cond ra rb imm) s = .refused .neverLoaded ∧
      exec (.loop k rd imm) s = .refused .neverLoaded)

/-- R318: the fields BSEL returns, and the frame of BSEL. -/
def Obligations.BselReturnsTheFieldsOfShapeAndShare : Prop :=
  ∀ (s : State) (k : CoreId) (p : PartId) (r : StepRun) (rd : SReg) (op : OpIdx) (sh : OpShape),
    canIssue s k = true → coreRun s k = some (p, r) → findShape r op.toNat = some sh →
    let put (v : Nat) := Host.Outcome.next (φ := Fault) (ρ := Refusal) (wroteReg s k rd (BitVec.ofNat 64 v))
    exec (.bsel k rd .bucket op) s = put sh.bucket ∧
    exec (.bsel k rd .mActual op) s = put sh.m ∧
    exec (.bsel k rd .nActual op) s = put sh.n ∧
    exec (.bsel k rd .kActual op) s = put sh.k ∧
    exec (.bsel k rd .skip op) s = put (if sh.skipped = true then 1 else 0) ∧
    (∀ sl : Slice, findShare r k op.toNat = some sl →
      exec (.bsel k rd .shareRow0 op) s = put sl.row0 ∧
      exec (.bsel k rd .shareRows op) s = put sl.rows ∧
      exec (.bsel k rd .shareM op) s = put (max 0 (min (sl.rows : Int) (sh.m - sl.row0))).toNat ∧
      exec (.bsel k rd .shareK0 op) s = put sl.k0 ∧
      exec (.bsel k rd .shareK op) s = put (max 0 (min (sl.klen : Int) (sh.k - sl.k0))).toNat) ∧
    (findShare r k op.toNat = none → ∀ f ∈ [BselField.shareRow0, .shareRows, .shareM, .shareK0, .shareK],
      exec (.bsel k rd f op) s = put 0)

/-- (Rests on R315.) MERIDIAN with nothing outstanding and no set held ends the core's part of the step and changes nothing
else; with work outstanding it waits; with a set held it faults the step with HELD (bit 3 of SEQ_FAULT). (Rests on R299, R313.)
FENCE waits for the classes it names and for no other; BLOCK_HC grows by a free value (log entry 10). (Rests on R299, R313,
R366, R368, R393.) SIGNAL on an object of the partition waits for the classes it names, with class DR also for the record lines
of the core that have not committed; then its add of (sb + sext(IMM)) mod 2^32 is in flight at the object, or in a signal flit
of the next transaction id and of four payload bytes to the object's node, and the core stays blocked until the commit. (Rests
on R299, R313, R370.) WAIT on an object of the partition blocks the core with its address; an object of another node is told by
a wait-registration flit. (Rests on R248, R299.) TAG on a range within slots 0 to 4,095 with class DR idle turns exactly the
slots of the range FULL or EMPTY, and changes nothing else of the tags, no byte and no other core; with class DR busy it waits.
-/
def Obligations.BlockingInstructionsWaitForTheirClasses : Prop :=
  (∀ (s : State) (k : CoreId), canIssue s k = true →
     let c := getCore s k
     (anyHeld c = false → maskBusy c 31 = false →
       exec (.meridian k) s = .next (updCore s k (fun c => { c with
         reported := true, seq := { c.seq with state := .idle, issued := c.seq.issued + 1 } }))) ∧
     (anyHeld c = false → maskBusy c 31 = true →
       exec (.meridian k) s = .next (updCore s k (fun c => { c with
         blocked := .meridian, seq := { c.seq with state := .inMeridian, issued := c.seq.issued + 1 } }))) ∧
     (anyHeld c = true → aborting s k = false →
       ∃ t, exec (.meridian k) s = .next t ∧ SeqFaulted s t k 3 0x0204 ∧ (getCore t k).seq.pc = c.seq.pc ∧ SameBytes s t)) ∧
  (∀ (s : State) (k : CoreId) (mask : BitVec 5), canIssue s k = true →
     let c := getCore s k
     ((∀ i < 5, mask.getLsbD i = true → classBusy c i = false) →
       exec (.fence k mask) s = .next { updCore s k (fun c => { c with
           seq := { c.seq with pc := c.seq.pc + 1, state := .issuing, issued := c.seq.issued + 1,
                               blockHc := satAdd c.seq.blockHc (Config.freeValue s.freeNext).toNat } }) with
         freeNext := s.freeNext + 1 }) ∧
     ((∃ i < 5, mask.getLsbD i = true ∧ classBusy c i = true) →
       exec (.fence k mask) s = .next (updCore s k (fun c => { c with
         blocked := .fence mask, seq := { c.seq with state := .blocked, issued := c.seq.issued + 1 } })))) ∧
  (∀ (s : State) (k : CoreId) (p : PartId) (r : StepRun) (ra rb : SReg) (mask : BitVec 5) (imm : Word32) (o : ObjId),
     canIssue s k = true → coreRun s k = some (p, r) →
     let c := getCore s k
     let a := (sreg c ra).setWidth 56
     let v : Word32 := BitVec.ofInt 32 ((sreg c rb).toInt + imm.toInt)
     let waits (sent : Bool) := updCore s k (fun c => { c with
       blocked := .signal mask a v sent, seq := { c.seq with state := .blocked, issued := c.seq.issued + 1 } })
     partObj s p a = some o →
     (maskBusy c mask = true ∨ (mask.getLsbD 2 = true ∧ linesOut s k = true) →
       exec (.signal k ra rb mask imm) s = .next (waits false)) ∧
     (maskBusy c mask = false → mask.getLsbD 2 = false ∨ linesOut s k = false → o.node = tileNode k.tile →
       exec (.signal k ra rb mask imm) s = .next { waits true with
         adds := s.adds ++ [{ obj := o, addend := v, src := .core k, ack := true, part := p.val, xid := 0 }] }) ∧
     (maskBusy c mask = false → mask.getLsbD 2 = false ∨ linesOut s k = false → o.node ≠ tileNode k.tile →
       ∃ seqs, exec (.signal k ra rb mask imm) s = .next { waits true with
         fabric := s.fabric ++ [{ src := tileNode k.tile, dst := o.node, part := BitVec.ofNat 4 p.val, kind := .signal,
                                  addr := objAddr o, payload := natLe 4 v.toNat, origin := .core k, xid := s.xid, seqs := seqs }]
         xid := s.xid + 1
         links := cross s.links (route s (tileNode k.tile) o.node) })) ∧
  (∀ (s : State) (k : CoreId) (p : PartId) (r : StepRun) (rd ra : SReg) (faultto : Bool) (o : ObjId),
     canIssue s k = true → coreRun s k = some (p, r) →
     let a := (sreg (getCore s k) ra).setWidth 56
     let waits := updCore s k (fun c => { c with
       blocked := .wait rd a faultto false, seq := { c.seq with state := .blocked, issued := c.seq.issued + 1 } })
     partObj s p a = some o →
     (o.node = tileNode k.tile → exec (.wait k rd ra faultto) s = .next waits) ∧
     (o.node ≠ tileNode k.tile → ∃ seqs, exec (.wait k rd ra faultto) s = .next { waits with
       fabric := s.fabric ++ [{ src := tileNode k.tile, dst := o.node, part := BitVec.ofNat 4 p.val, kind := .waitRegistration,
                                addr := a, payload := [], origin := .core k, xid := s.xid, seqs := seqs }]
       xid := s.xid + 1
       links := cross s.links (route s (tileNode k.tile) o.node) })) ∧
  (∀ (s : State) (k : CoreId) (ra rb : SReg) (full : Bool) (imm : Word32), canIssue s k = true →
     let c := getCore s k
     let first := (sreg c ra + imm.signExtend 64).toInt
     let n := (sreg c rb).toNat
     n = 0 ∨ (0 ≤ first ∧ first + n ≤ 4096) →
     (classBusy c 2 = false → ∃ t, exec (.tag k ra rb full imm) s = .next t ∧ OnlyCoreFree k s t ∧ SameBytes s t ∧
       (∀ j : Nat, j < 4096 → (getCore t k).tags.getLsbD j =
         if first ≤ j ∧ (j : Int) < first + n then full else c.tags.getLsbD j) ∧
       (getCore t k).tagMode = c.tagMode ∧ (getCore t k).sregs = c.sregs ∧ (getCore t k).blocked = .none ∧
       (getCore t k).seq.pc = c.seq.pc + 1 ∧ (getCore t k).seq.issued = c.seq.issued + 1) ∧
     (classBusy c 2 = true → ∃ t, exec (.tag k ra rb full imm) s = .next t ∧ OnlyCore k s t ∧
       (getCore t k).tags = c.tags ∧ (getCore t k).blocked = .tag first n full ∧ (getCore t k).seq.pc = c.seq.pc))

/-- (Rests on R301, R302, R303, R310.) MTILE whose offsets are in range joins its engine's queue with its shape clamped to the
step, and its automatic drains take their place at the drain port unless it has HOLD; a full queue stalls it; a zero extent
completes at issue. (Rests on R303, R304, R310.) DRAIN of a held set joins the drain port's queue and the set is no longer held;
a port with sixteen entries stalls it. Where both engines hold a set of that name it is the array group's (log entry 13, the
model's choice). (Rests on R304, R305, R310.) LIST_MERGE and ROWFN join the drain port's queue in issue order with their columns
clamped to the step, FINE joins the fine unit's queue of the tile; a zero extent of LIST_MERGE or FINE completes at issue, and
DRN_DRAINS counts that LIST_MERGE (R138). The LBASE of an FDOT is below 4 MiB and a multiple of 8; the other kinds ignore it
(R306, R323). (Rests on R307, R347.) COPY completes: it hands the descriptor at sa + sext(IMM) to a copy engine with room once
its line, and of a REGION its region's header, is read over the CE port and breaks no rule of R350. The line is read as it
stands where no other port writes it. The engine's queue takes the 64 bytes, and the copy is outstanding. -/
def Obligations.EngineInstructionsJoinTheirQueues : Prop :=
  (∀ (s : State) (k : CoreId) (p : PartId) (r : StepRun) (rd ra : SReg) (add : Bool) (set : SetId) (hold : Bool) (op : OpIdx)
     (o : Op) (sh : OpShape) (sl : Slice),
     canIssue s k = true → coreRun s k = some (p, r) → coreOp s k op.toNat = some o → o.engine.toNat ≤ 1 →
     findShape r op.toNat = some sh → findShare r k op.toNat = some sl →
     1 ≤ rd.val → rd.val ≤ 29 → 1 ≤ ra.val → ra.val ≤ 28 →
     let c := getCore s k
     let eng : MatEngine := if o.engine = 1 then .sparse else .array
     let lo (q : SReg) (i : Nat) : Nat := (sregAt c q i).toNat % 2 ^ 32
     let hi (q : SReg) (i : Nat) : Nat := (sregAt c q i).toNat / 2 ^ 32
     let m : Nat := (min ((lo rd 0 : Nat) : Int) (max 0 (((shareM sh sl : Nat) : Int) - ((hi rd 0 : Nat) : Int)))).toNat
     let n : Nat := (min ((lo rd 1 : Nat) : Int) (max 0 ((sh.n : Int) - ((hi rd 1 : Nat) : Int)))).toNat
     let j : MtileJob :=
       { opidx := op.toNat, set := set, add := add, hold := hold, onHeld := add && (accSet (matUnit c eng) set).held,
         m := m, n := n, k := min (lo rd 2) (shareK sh sl), m0 := hi rd 0, n0 := hi rd 1, lbase := hi rd 2,
         a0 := lo ra 0, a0b := hi ra 0, a1 := lo ra 1, a1b := hi ra 1, a2 := lo ra 2, a2b := hi ra 2, a3 := lo ra 3,
         a3b := hi ra 3, invoc := r.stepno.toNat % 2 ^ 24, drainWord := if sl.drainOvr = 0 then o.drain else sl.drainOvr,
         pc := c.seq.pc, ticket := c.tickets }
     (m = 0 ∨ n = 0 → hold = true ∨ dwCmode j.drainWord ≠ 1 →
       exec (.mtile k rd ra add set hold op) s = .next (wentTo s k (c.seq.pc + 1))) ∧
     (m = 0 ∨ n = 0 → ∃ t, exec (.mtile k rd ra add set hold op) s = .next t ∧
       (matUnit (getCore t k) eng).queue = (matUnit c eng).queue ∧ (getCore t k).port = c.port ∧
       (getCore t k).seq.pc = c.seq.pc + 1) ∧
     (m ≠ 0 → n ≠ 0 → mtileAddrOk o j = true → (add = false ∧ hold = false) ∨ passCount o m n ≤ 1 →
       (accSet (matUnit c eng) set).held = false ∨ add = true →
       (accSet (matUnit c eng) (otherSet set)).held = false ∨ passCount o m n ≤ 1 →
       ((matUnit c eng).queue.length < 4 → ∃ t, exec (.mtile k rd ra add set hold op) s = .next t ∧ OnlyCore k s t ∧
         SameBytes s t ∧ (matUnit (getCore t k) eng).queue = (matUnit c eng).queue ++ [j] ∧
         (getCore t k).port = (if hold then c.port else c.port ++ [.auto eng set (passCount o m n) c.tickets]) ∧
         (accSet (matUnit (getCore t k) eng) set).held =
           (if hold then true else if add then false else (accSet (matUnit c eng) set).held) ∧
         (getCore t k).tickets = c.tickets + 1 ∧ (getCore t k).sregs = c.sregs ∧
         (getCore t k).seq.pc = c.seq.pc + 1 ∧ (getCore t k).seq.issued = c.seq.issued + 1) ∧
       (4 ≤ (matUnit c eng).queue.length → ∃ t, exec (.mtile k rd ra add set hold op) s = .next t ∧ OnlyCoreFree k s t ∧
         SameBytes s t ∧ (matUnit (getCore t k) eng).queue = (matUnit c eng).queue ∧ (getCore t k).seq.state = .stalled ∧
         (getCore t k).seq.pc = c.seq.pc ∧ (getCore t k).seq.issued = c.seq.issued))) ∧
  (∀ (s : State) (k : CoreId) (set : SetId) (e : MatEngine), canIssue s k = true →
     let c := getCore s k
     (accSet (matUnit c e) set).held = true → (e = .sparse → (accSet c.ag set).held = false) →
     (portQueued c < 16 → ∃ t, exec (.drain k set) s = .next t ∧ OnlyCore k s t ∧ SameBytes s t ∧
       (getCore t k).port = c.port ++ [.explicit e set c.seq.pc c.tickets] ∧
       (accSet (matUnit (getCore t k) e) set).held = false ∧
       (accSet (matUnit (getCore t k) e) set).tag = (accSet (matUnit c e) set).tag ∧
       (accSet (matUnit (getCore t k) e) set).totals = (accSet (matUnit c e) set).totals ∧
       (getCore t k).sregs = c.sregs ∧ (getCore t k).seq.pc = c.seq.pc + 1 ∧ (getCore t k).seq.issued = c.seq.issued + 1) ∧
     (16 ≤ portQueued c → ∃ t, exec (.drain k set) s = .next t ∧ OnlyCoreFree k s t ∧ SameBytes s t ∧
       (getCore t k).port = c.port ∧ (accSet (matUnit (getCore t k) e) set).held = true ∧ (getCore t k).seq.state = .stalled ∧
       (getCore t k).seq.pc = c.seq.pc)) ∧
  (∀ (s : State) (k : CoreId) (p : PartId) (r : StepRun) (ra : SReg) (op : OpIdx) (sh : OpShape),
     canIssue s k = true → coreRun s k = some (p, r) → findShape r op.toNat = some sh → 1 ≤ ra.val → ra.val ≤ 30 →
     let c := getCore s k
     let lo (i : Nat) : Nat := (sregAt c ra i).toNat % 2 ^ 32
     let hi (i : Nat) : Nat := (sregAt c ra i).toNat / 2 ^ 32
     let queued (t : State) (w : PortItem) : Prop :=
       OnlyCore k s t ∧ SameBytes s t ∧ (getCore t k).port = c.port ++ [w] ∧ (getCore t k).tickets = c.tickets + 1 ∧
       (getCore t k).sregs = c.sregs ∧ (getCore t k).seq.pc = c.seq.pc + 1 ∧ (getCore t k).seq.issued = c.seq.issued + 1
     let dot : Prop := ∃ o, coreOp s k op.toNat = some o ∧ opFineKind o = 0
     (min (lo 1) (sh.n - hi 1) = 0 → exec (.listMerge k ra op) s = .next (updCore s k (fun c => { c with
       drn := { c.drn with drains := satAdd c.drn.drains 1 }
       seq := { c.seq with pc := c.seq.pc + 1, state := .issuing, issued := c.seq.issued + 1 } }))) ∧
     (min (lo 1) (sh.n - hi 1) ≠ 0 → lo 0 < 0x400000 → lo 0 % 8 = 0 → portQueued c < 16 →
       ∃ t, exec (.listMerge k ra op) s = .next t ∧
         queued t (.merge op.toNat (lo 0) (hi 0 % 2 ^ 16) (min (lo 1) (sh.n - hi 1)) (hi 1) (lo 1) c.seq.pc)) ∧
     (∀ sl : Slice, findShare r k op.toNat = some sl →
       (min (lo 0) (sh.n - hi 0) ≠ 0 → min (sregAt c ra 1).toNat (shareK sh sl) ≠ 0 → portQueued c < 16 →
         ∃ t, exec (.rowfn k ra op) s = .next t ∧
           queued t (.rowfn op.toNat (min (lo 0) (sh.n - hi 0)) (hi 0) (min (sregAt c ra 1).toNat (shareK sh sl)) c.seq.pc)) ∧
       (min (lo 0) (sh.n - hi 0) = 0 ∨ min (sregAt c ra 1).toNat (shareK sh sl) = 0 → ∃ t, exec (.rowfn k ra op) s = .next t ∧
         (getCore t k).port = c.port ∧ (getCore t k).seq.pc = c.seq.pc + 1) ∧
       (ra.val ≤ 29 → min (lo 0) (shareM sh sl - hi 0) = 0 ∨ min (lo 1) (sh.n - hi 1) = 0 →
         exec (.fine k ra op) s = .next (wentTo s k (c.seq.pc + 1))) ∧
       (ra.val ≤ 29 → min (lo 0) (shareM sh sl - hi 0) ≠ 0 → min (lo 1) (sh.n - hi 1) ≠ 0 →
         (dot → hi 2 < 0x400000 ∧ hi 2 % 8 = 0) →
         (s.tiles[k.tile].fine.queue.filter (fun j => j.core == k.core)).length < 4 →
         ∃ t, exec (.fine k ra op) s = .next t ∧ OnlyTile k.tile s t ∧ SameBytes s t ∧
           (∃ j : FineJob, t.tiles[k.tile].fine.queue = s.tiles[k.tile].fine.queue ++ [j] ∧ j.core = k.core ∧ j.opidx = op.toNat ∧
             j.m = min (lo 0) (shareM sh sl - hi 0) ∧ j.n = min (lo 1) (sh.n - hi 1) ∧ j.k = min (lo 2) (shareK sh sl) ∧
             j.n0 = hi 1 ∧ j.m0 = hi 0 ∧ (dot → j.lbase = hi 2) ∧ j.invoc = r.stepno.toNat % 2 ^ 24 ∧ j.pc = c.seq.pc) ∧
           (getCore t k).fines = c.fines + 1 ∧ (getCore t k).sregs = c.sregs ∧ (getCore t k).seq.pc = c.seq.pc + 1 ∧
           (∀ j, j ≠ k → getCore t j = getCore s j)))) ∧
  (∀ (s : State) (k : CoreId) (p : PartId) (r : StepRun) (ra : SReg) (imm : Word32) (hub : Bool) (eng : Fin 8),
     canIssue s k = true → coreRun s k = some (p, r) → (hub = true → eng.val < 4) →
     let c := getCore s k
     let off := (sreg c ra + imm.signExtend 64).toNat
     let e : EngineId := if hub then .hub ⟨eng.val % 4, Nat.mod_lt _ (by decide)⟩ else .tile k.tile eng
     let d := memRead c.plain off 64
     off < 0x400000 → off % 64 = 0 →
     (accessFor c .ce false off none = .proceeds → writersOf s k .ce off = [] → dKind d ≠ 6 →
       descLines e none p (plainAddr k off) s = .got d (updCore (countWait s k .ce) k (fun c => afterAccess c .ce false off))) ∧
     (∀ bs u, (getEngine s e).queue.length < queueRoom e → c.copies < 8 → descLines e none p (plainAddr k off) s = .got bs u →
       descError (updCore u k retire) e p (bs.take 64) (lineRegion bs) = none →
       ∃ t j, exec (.copy k ra imm hub eng) s = .next t ∧ SameBytes s t ∧
         (getEngine t e).queue = (getEngine s e).queue ++ [j] ∧ j.issuer = some k ∧ j.desc = bs.take 64 ∧ j.part = p.val ∧
         (getCore t k).copies = c.copies + 1 ∧ (getCore t k).sregs = c.sregs ∧ (getCore t k).seq.pc = c.seq.pc + 1 ∧
         (dKind (bs.take 64) ≠ 6 → ∀ j, j ≠ k → getCore t j = getCore s j)))

/-- (Rests on R323.) What faults a step at issue, with its bit of SEQ_FAULT (0 ADDR, 1 OBJECT, 2 FOLD, 3 HELD, 4 NOT_HELD) and
ST_STEP_FAULT, and that a faulting instruction changes no byte of memory. -/
def Obligations.IssueFaultsFollowTheirTable : Prop :=
  ∀ (s : State) (k : CoreId) (p : PartId) (r : StepRun), canIssue s k = true → coreRun s k = some (p, r) →
    r.rerunPending = false →
    let c := getCore s k
    let faults (i : Instr) (bit : Nat) : Prop :=
      ∃ t, exec i s = .next t ∧ SeqFaulted s t k bit 0x0204 ∧ SameBytes s t ∧ (getCore t k).seq.pc = c.seq.pc
    (∀ (ra rb : SReg) (mask : BitVec 5) (imm : Word32), partObj s p ((sreg c ra).setWidth 56) = none →
      faults (.signal k ra rb mask imm) 1) ∧
    (∀ (rd ra : SReg) (f : Bool), partObj s p ((sreg c ra).setWidth 56) = none → faults (.wait k rd ra f) 1) ∧
    (∀ (ra rb : SReg) (full : Bool) (imm : Word32), sreg c rb ≠ 0 →
      ((sreg c ra + imm.signExtend 64).toInt < 0 ∨ 4096 < (sreg c ra + imm.signExtend 64).toInt + (sreg c rb).toNat) →
      faults (.tag k ra rb full imm) 0) ∧
    (∀ set : SetId, (accSet c.ag set).held = false → (accSet c.sp set).held = false → faults (.drain k set) 4) ∧
    (∀ (ra : SReg) (imm : Word32) (eng : Fin 8), 0x400000 ≤ (sreg c ra + imm.signExtend 64).toNat ∨
      (sreg c ra + imm.signExtend 64).toNat % 64 ≠ 0 → faults (.copy k ra imm false eng) 0) ∧
    (∀ (ra : SReg) (op : OpIdx) (o : Op) (sh : OpShape) (sl : Slice), coreOp s k op.toNat = some o → opFineKind o = 0 →
      findShape r op.toNat = some sh → findShare r k op.toNat = some sl → 1 ≤ ra.val → ra.val ≤ 29 →
      min (lowHalf c ra 0) (shareM sh sl - highHalf c ra 0) ≠ 0 → min (lowHalf c ra 1) (sh.n - highHalf c ra 1) ≠ 0 →
      (0x400000 ≤ highHalf c ra 2 ∨ highHalf c ra 2 % 8 ≠ 0) → faults (.fine k ra op) 0) ∧
    (∀ (rd ra : SReg) (add : Bool) (set : SetId) (hold : Bool) (op : OpIdx) (o : Op) (sh : OpShape) (sl : Slice),
      coreOp s k op.toNat = some o → o.engine.toNat ≤ 1 → findShape r op.toNat = some sh → findShare r k op.toNat = some sl →
      1 ≤ rd.val → rd.val ≤ 29 → 1 ≤ ra.val → ra.val ≤ 28 →
      let u := matUnit c (if o.engine = 1 then .sparse else .array)
      let m := min (lowHalf c rd 0) (shareM sh sl - highHalf c rd 0)
      let n := min (lowHalf c rd 1) (sh.n - highHalf c rd 1)
      m ≠ 0 → n ≠ 0 →
      (0x400000 ≤ highHalf c rd 2 ∨ highHalf c rd 2 % 8 ≠ 0 → faults (.mtile k rd ra add set hold op) 0) ∧
      (∀ j : MtileJob, j.lbase = highHalf c rd 2 → j.m = m → j.n = n → j.a0 = lowHalf c ra 0 → j.a0b = highHalf c ra 0 →
        j.a1 = lowHalf c ra 1 → j.a1b = highHalf c ra 1 → j.a2 = lowHalf c ra 2 → j.a2b = highHalf c ra 2 →
        j.a3 = lowHalf c ra 3 → j.a3b = highHalf c ra 3 → mtileAddrOk o j = true →
        (add = true ∨ hold = true → 1 < passCount o m n → faults (.mtile k rd ra add set hold op) 2) ∧
        (add = false → hold = false → (accSet u set).held = true → faults (.mtile k rd ra add set hold op) 3)))

/-- (Rests on R107, R109, R302, R310.) MTILE_START completes: it takes the front MTILE of a free engine whose first pass may
open its set. It leaves the queue, its first pass opens the named set, and the set's tag states operation, invocation and pass 0
with VALID. -/
def Obligations.MtileStartOpensItsSet : Prop :=
  ∀ (s : State) (k : CoreId) (eng : MatEngine) (j : MtileJob) (rest : List MtileJob) (p : PartId) (r : StepRun) (o : Op)
    (sl : Slice) (sh : OpShape),
    powered s = true → tileAwake s k.tile = true →
    (matUnit (getCore s k) eng).queue = j :: rest → (matUnit (getCore s k) eng).running = none →
    coreRun s k = some (p, r) → coreOp s k j.opidx = some o → findShare r k j.opidx = some sl → findShape r j.opidx = some sh →
    (accSet (matUnit (getCore s k) eng) j.set).tag.getLsbD 63 = false → j.add = false → opPpol o = 0 →
    j.opidx < 4096 → j.invoc < 2 ^ 24 →
    ∃ t m, exec (.mtileStart k eng) s = .next t ∧ (matUnit (getCore t k) eng).queue = rest ∧
      (matUnit (getCore t k) eng).running = some m ∧ m.job = j ∧ m.pass = 0 ∧ m.opened = true ∧
      m.computeRow = List.replicate j.m true ∧
      (accSet (matUnit (getCore t k) eng) j.set).phase = .filling ∧
      (accSet (matUnit (getCore t k) eng) j.set).tag = BitVec.ofNat 64 (2 ^ 63 + j.opidx * 2 ^ 48 + j.invoc * 2 ^ 24) ∧
      accSet (matUnit (getCore t k) eng) (otherSet j.set) = accSet (matUnit (getCore s k) eng) (otherSet j.set) ∧ SameBytes s t

/-- R112: an ADD instruction requires a set whose tag has VALID = 1: on a set whose VALID is 0 it faults its step with
ST_STEP_FAULT (0x0204) and TAG_INVALID (bit 0 of DRN_FAULT), and does not start. -/
def Obligations.AddOntoAnInvalidSetFaults : Prop :=
  ∀ (s : State) (k : CoreId) (eng : MatEngine) (j : MtileJob) (rest : List MtileJob) (p : PartId) (r : StepRun) (o : Op)
    (sl : Slice) (sh : OpShape),
    powered s = true → tileAwake s k.tile = true →
    (matUnit (getCore s k) eng).queue = j :: rest → (matUnit (getCore s k) eng).running = none →
    coreRun s k = some (p, r) → r.rerunPending = false → coreOp s k j.opidx = some o → findShare r k j.opidx = some sl →
    findShape r j.opidx = some sh →
    (accSet (matUnit (getCore s k) eng) j.set).tag.getLsbD 63 = false → j.add = true →
    ∃ t, exec (.mtileStart k eng) s = .next t ∧ (getCore t k).drn.fault.getLsbD 0 = true ∧
      (matUnit (getCore t k) eng) = matUnit (getCore s k) eng ∧
      (∃ r', t.parts[p].run = some r' ∧
        r'.fault.map (fun f => f.code) = some (match r.fault with | some f => f.code | none => 0x0204)) ∧ SameBytes s t

/-- (Rests on R46, R48, R81, R85, R93, R110.) PASS_COMPLETE completes for an array pass whose lines are all in. Each total of
its valid extent is the old one (0 without ADD) and the sum of the products of its row and column, group by group in units of
2^ANCHOR; 0 in a row that a predictor leaves out. The set is complete, its chunks empty, its tag unchanged. The next pass
follows; after the last the engine is free and idles. (Rests on R93, R147 to R149, R151, R155, R156.) PASS_COMPLETE completes
for a sparse pass that can read its lines. The total of a lane, or of the merged lanes of one row, is the old one (0 without
ADD) and the sum of the products of its non-zeros, run by run of the groups (no run longer than the largest group); nothing is
added with K = 0. SPX_PASSES counts the pass. -/
def Obligations.PassesFillTheirSets : Prop :=
  (∀ (s : State) (k : CoreId) (m : MatRun) (p : PartId) (r : StepRun) (o : Op) (sl : Slice),
     powered s = true → tileAwake s k.tile = true →
     (getCore s k).ag.running = some m → (getCore s k).ag.tail = [] → lastStepIn o m = true → (getCore s k).ag.writes = [] →
     coreRun s k = some (p, r) → coreOp s k m.job.opidx = some o → findShare r k m.job.opidx = some sl → o.engine ≠ 1 →
     let n := m.pass / innerCount o m.job.m
     let j := m.pass % innerCount o m.job.m
     let nr := min (opRg o) (m.job.m - j * opRg o)
     let nc := min (opCg o) (m.job.n - n * opCg o)
     let set : SetId := if m.pass % 2 = 0 then m.job.set else otherSet m.job.set
     let a := accSet (getCore s k).ag set
     a.chunks = [] →
     ∃ t, exec (.passComplete k .array) s = .next t ∧ (getCore t k).ag.queue = (getCore s k).ag.queue ∧
       (accSet (getCore t k).ag set).phase = .complete ∧ (accSet (getCore t k).ag set).chunks = [] ∧
       (accSet (getCore t k).ag set).tag = a.tag ∧
       (accSet (getCore t k).ag set).nrows = nr ∧ (accSet (getCore t k).ag set).ncols = nc ∧
       (accSet (getCore t k).ag set).totals.length = nr * nc ∧
       (FormatOk o → ∀ i < nr, ∀ c < nc, ∀ v : Word64,
         (m.job.add = false ∧ v = 0 ∨ m.job.add = true ∧ i < a.nrows ∧ c < a.ncols ∧ a.totals[i * a.ncols + c]? = some v) →
         (accSet (getCore t k).ag set).totals[i * nc + c]? =
           some (if (m.computeRow[j * opRg o + i]?).getD true then
             v + BitVec.ofInt 64 (passTotal o (passCell o r m i c) (groupsOf o m.job.k)) else 0)) ∧
       (m.pass + 1 < passCount o m.job.m m.job.n →
         ∃ m', (getCore t k).ag.running = some m' ∧ m'.job = m.job ∧ m'.pass = m.pass + 1) ∧
       (passCount o m.job.m m.job.n = m.pass + 1 → (getCore t k).ag.running = none ∧
         ((getCore s k).arr.state = .running → (getCore t k).arr.state = .idleHold) ∧
         accSet (getCore t k).ag (otherSet set) = accSet (getCore s k).ag (otherSet set)) ∧ SameBytes s t) ∧
  (∀ (s : State) (k : CoreId) (m : MatRun) (p : PartId) (r : StepRun) (o : Op) (sl : Slice) (sh : OpShape),
     powered s = true → tileAwake s k.tile = true →
     (getCore s k).sp.running = some m → m.opened = true →
     coreRun s k = some (p, r) → coreOp s k m.job.opidx = some o → findShare r k m.job.opidx = some sl →
     findShape r m.job.opidx = some sh → o.engine = 1 →
     let n := m.pass / innerCount o m.job.m
     let band := m.pass % innerCount o m.job.m
     (m.job.k ≠ 0 → sparseAccess (getCore s k) o m.job n = none ∧ (getCore s k).sp.writes = [] ∧ ∀ x, writersOf s k .sx x = []) →
     let set : SetId := if m.pass % 2 = 0 then m.job.set else otherSet m.job.set
     let a := accSet (getCore s k).sp set
     let reg := regionAt (getCore s k) m.job.a0
     let live := liveLanes (getCore s k) reg band sh.m
     let nc := min 32 (m.job.n - n * 32)
     a.chunks = [] →
     ∃ t, exec (.passComplete k .sparse) s = .next t ∧
       (accSet (getCore t k).sp set).phase = .complete ∧ (accSet (getCore t k).sp set).chunks = [] ∧
       (accSet (getCore t k).sp set).tag = a.tag ∧
       (FormatOk o → ∀ i x, (drainLanes live)[i]? = some x → ∀ col < nc, ∀ old : Nat → Word64,
         let parts := if x.2.seg then live.filter (fun y => y.2.seg && y.2.row == x.2.row) else [x]
         (∀ y ∈ parts, (m.job.add = false ∧ old y.1 = 0 ∨
           m.job.add = true ∧ (a.laneTotals.find? (fun z => z.1 == y.1)).bind (fun z => z.2[col]?) = some (old y.1)) ∧
           ∀ run ∈ laneRuns (getCore s k) o m.job.k reg y.2 (plannedBand s k sl band), run.2.length ≤ 128) →
         (accSet (getCore t k).sp set).totals[i * nc + col]? =
           some ((parts.map (fun y => old y.1 + BitVec.ofInt 64 (if m.job.k = 0 then 0 else
             laneSum (getCore s k) o (stepA r o) m.job.k reg y.2 (plannedBand s k sl band) (panelOffset m.job n)
               (panelSide m.job n) col))).foldl (· + ·) 0)) ∧
       (m.pass + 1 < passCount o m.job.m m.job.n →
         ∃ m', (getCore t k).sp.running = some m' ∧ m'.job = m.job ∧ m'.pass = m.pass + 1) ∧
       (passCount o m.job.m m.job.n = m.pass + 1 → (getCore t k).sp.running = none ∧
         ((getCore s k).spx.state ≠ .frozen → (getCore t k).spx.state = .idle)) ∧
       (getCore t k).spx.passes = satAdd (getCore s k).spx.passes 1 ∧ SameBytes s t)

/-- (Rests on R115, R116, R118, R126 to R129, R132.) SET_RELEASE completes for the next drain, of a complete set that waits for
no record: the set is being read out. A drain that exports hands over the set's record and writes no byte. One that converts
gives each element its combined and fused value rounded once; with WELEM each stands at its place and every other half byte
stays; with TOPK each token column has its list, of the earlier passes' and these candidates (all of it at this event: model,
log entry 49). (Rests on R49 to R51, R54.) What CONVERT gives. An INT code is the nearest multiple of 2^OEXP, on a tie the even
one, or stochastically one of the two next to it, and saturates symmetrically as a clip; a float keeps every value it can
represent and is never an infinity or a NaN. (Rests on R107, R109.) VALID_CLEAR completes while a drain reads its set out: the
read of the last total clears the set's VALID bit and frees the set, and a frozen engine goes on with it. Nothing else changes
where the engine is not frozen. -/
def Obligations.SetsAreReadOutAndFreed : Prop :=
  (∀ (s : State) (k : CoreId) (eng : MatEngine) (set : SetId) (isAuto : Bool) (ticket : Nat) (p : PartId) (r : StepRun) (o : Op)
     (sl : Slice),
     powered s = true → tileAwake s k.tile = true →
     nextDrain (getCore s k) = some (eng, set, isAuto, ticket) → coreRun s k = some (p, r) →
     let a := accSet (matUnit (getCore s k) eng) set
     a.tag.getLsbD 63 = true → tailPast (getCore s k) (eng, set, isAuto, ticket) = true →
     recordsMissing s k (eng, set, isAuto, ticket) = false →
     coreOp s k (tagOp a.tag) = some o → findShare r k (tagOp a.tag) = some sl →
     let recs := if combineParts s k a = 0 then [] else landedRecords (getCore s k) a.tag
     let w := a.drainWord
     let place (i : Nat) := elementPlace o (dwTokenMajor w) (elementAt sl a i)
     let total := a.nrows * a.ncols
     let code (i : Nat) := drainCode (getCore s k) o sl r.seed a recs i
     ∃ t, exec (.setRelease k eng set) s = .next t ∧
       (getCore t k).active = some (.drain eng set isAuto .reading ticket) ∧
       (accSet (matUnit (getCore t k) eng) set).phase = .reading ∧ (accSet (matUnit (getCore t k) eng) set).tag = a.tag ∧
       (accSet (matUnit (getCore t k) eng) set).totals = a.totals ∧
       (∀ j, j ≠ k → getCore t j = getCore s j) ∧
       (∀ m, m ≠ Space.plain k → ∀ x, byteAt t m x = byteAt s m x) ∧
       (dwCmode w = 1 → SameBytes s t) ∧
       (dwCmode w ≠ 1 → PortFree s k → a.totals.length = total →
         (∀ x ∈ recs, x.nrows = a.nrows ∧ x.ncols = a.ncols ∧ x.base + 16 + 8 * total ≤ plainSize) →
         (dwFuse w ≠ 0 → ∀ i < total, fusedAddr o w (elementAt sl a i).1 (elementAt sl a i).2 + fuseBytes (dwFfmt w) ≤ plainSize) →
         (dwWelem w = true → ∀ i < total, (place i).1 + (place i).2 ≤ 2 * plainSize ∧
           (∀ j < total, j ≠ i → Apart (place i) (place j)) ∧
           (dwFuse w ≠ 0 → ∀ j < total, Apart (place i) (fusedPlace o w (elementAt sl a j))) ∧
           (dwTopk w = true → ∀ c < a.ncols, Apart (place i) (listPlace a (a.col0 + c)))) →
         (dwTopk w = true → ∀ c < a.ncols, (listPlace a (a.col0 + c)).1 + (listPlace a (a.col0 + c)).2 ≤ 2 * plainSize) →
         (dwWelem w = true → ∀ i < total, codeAt (getCore t k) (place i) = code i) ∧
         (∀ x : Nat, (dwWelem w = true → ∀ i < total, Apart (x, 1) (place i)) →
           (dwTopk w = true → ∀ c < a.ncols, Apart (x, 1) (listPlace a (a.col0 + c))) →
           codeAt (getCore t k) (x, 1) = codeAt (getCore s k) (x, 1)) ∧
         (dwTopk w = true → ∀ c < a.ncols, memRead (getCore t k).plain (a.lbase + 8 * dwK w * (a.col0 + c)) (8 * dwK w) =
           listBytes (opOfmt o) (dwK w) (topOf (opOfmt o) (dwK w)
             ((if a.firstPass then [] else listEntries (opOfmt o) (dwK w)
                 (memRead (getCore s k).plain (a.lbase + 8 * dwK w * (a.col0 + c)) (8 * dwK w))) ++
               (List.range a.nrows).map (fun i => (code (i * a.ncols + c), (a.rows[i]?).getD 0))))))) ∧
  ((∀ (f : OutFmt) (b : Nat), (f = .int4 ∧ b = 4 ∨ f = .int8 ∧ b = 8 ∨ f = .int16 ∧ b = 16) → ∀ (x : Exact) (oexp n : Int) (rd : Rounding),
     (if oexp ≤ x.e then n = x.m * 2 ^ (x.e - oexp).toNat
       else let d : Int := 2 ^ (oexp - x.e).toNat
         match rd with
         | .rne => -d ≤ 2 * (x.m - n * d) ∧ 2 * (x.m - n * d) ≤ d ∧ ((2 * (x.m - n * d) = d ∨ 2 * (x.m - n * d) = -d) → n % 2 = 0)
         | .stoch r => n = x.m / d + if 2 ^ 16 ≤ x.m % d * 2 ^ 16 / d + r ∧ x.m % d ≠ 0 then 1 else 0) →
     let top : Int := 2 ^ (b - 1) - 1
     (convert f oexp x rd).code < 2 ^ b ∧ toSigned (convert f oexp x rd).code b = max (-top) (min top n) ∧
     ((convert f oexp x rd).clip = true ↔ n < -top ∨ top < n)) ∧
   (∀ (f : OutFmt) (p : Nat), (f = .bf16 ∧ p = 7 ∨ f = .fp32 ∧ p = 23) →
     (∀ (oexp : Int) (x : Exact) (rd : Rounding), (convert f oexp x rd).code < 2 ^ (p + 9) ∧
       (convert f oexp x rd).code / 2 ^ p % 256 ≠ 255 ∧ (x.m = 0 → convert f oexp x rd = { code := 0, clip := false })) ∧
     (∀ (oexp : Int) (c : Nat) (rd : Rounding), c < 2 ^ (p + 9) → c / 2 ^ p % 256 ≠ 255 → c % 2 ^ (p + 8) ≠ 0 →
       convert f oexp (ofFloat p c).1 rd = { code := c, clip := false }))) ∧
  (∀ (s : State) (k : CoreId) (eng : MatEngine) (set : SetId) (isAuto : Bool) (ticket : Nat),
     (getCore s k).active = some (.drain eng set isAuto .reading ticket) →
     ∃ u, exec (.validClear k eng set) s = .next (thaw u k eng) ∧ OnlyCore k s u ∧ SameBytes s u ∧
       (getCore u k).active = some (.drain eng set isAuto .cleared ticket) ∧
       (accSet (matUnit (getCore u k) eng) set).tag.getLsbD 63 = false ∧
       (∀ i < 63, (accSet (matUnit (getCore u k) eng) set).tag.getLsbD i =
         (accSet (matUnit (getCore s k) eng) set).tag.getLsbD i) ∧
       (accSet (matUnit (getCore u k) eng) set).phase = .empty ∧
       accSet (matUnit (getCore u k) eng) (otherSet set) = accSet (matUnit (getCore s k) eng) (otherSet set) ∧
       ((∀ m, (matUnit (getCore s k) eng).running = some m → m.opened = true) →
         ((getCore s k).arr.state = .frozen → eng = .sparse) → ((getCore s k).spx.state = .frozen → eng = .array) →
         exec (.validClear k eng set) s = .next u))

/-- (Rests on R128 to R130, R304, R310, R312.) DRAIN_PORT_START completes: the free drain port takes the front of its queue: an
explicit DRAIN waits for its set, a row function starts its first phase, a merge writes for each token column the list of the k
first of all its lists' candidates and no other byte (all at this event: model, log entry 49). (Rests on R122, R138, R183,
R311.) DRAIN_COMPLETE and ROWFN_COMPLETE complete: the end of a drain or a merge, whose writes were made before it (model, log
entry 49), or of a row function, once every record line it sent has committed, frees the port; DRN_DRAINS.DRAINS counts DRAIN
instructions and not automatic drains. -/
def Obligations.DrainPortServesItsQueue : Prop :=
  (∀ (s : State) (k : CoreId) (rest : List PortItem), powered s = true → tileAwake s k.tile = true →
     (getCore s k).active = none →
     (∀ eng set pc ticket, (getCore s k).port = .explicit eng set pc ticket :: rest →
       ∃ t, exec (.drainPortStart k) s = .next t ∧ OnlyCore k s t ∧ SameBytes s t ∧ (getCore t k).port = rest ∧
         (getCore t k).active = some (.drain eng set false .waiting ticket)) ∧
     (∀ op base n cols n0 stride pc o p r, (getCore s k).port = .merge op base n cols n0 stride pc :: rest →
       coreOp s k op = some o → coreRun s k = some (p, r) →
       ∃ t, exec (.drainPortStart k) s = .next t ∧ (getCore t k).port = rest ∧ (getCore t k).active = some (.merge op) ∧
         (∀ j, j ≠ k → getCore t j = getCore s j) ∧ (∀ m, m ≠ Space.plain k → ∀ x, byteAt t m x = byteAt s m x) ∧
         let kk := dwK (match findShare r k op with | some sl => drainOf o sl | none => o.drain)
         let out (i : Nat) := o.obase + (n0 + i) * o.ostride
         let list (j i : Nat) := base + 8 * kk * (j * stride + i)
         (PortFree s k →
           (∀ i < cols, out i + 8 * kk ≤ plainSize ∧ (∀ i' < cols, i' ≠ i → Apart (out i, 8 * kk) (out i', 8 * kk)) ∧
             ∀ j < n, list j i + 8 * kk ≤ plainSize ∧ ∀ i' < cols, Apart (out i', 8 * kk) (list j i, 8 * kk)) →
           (∀ i < cols, memRead (getCore t k).plain (out i) (8 * kk) = listBytes (opOfmt o) kk (topOf (opOfmt o) kk
             ((List.range n).flatMap (fun j => listEntries (opOfmt o) kk (memRead (getCore s k).plain (list j i) (8 * kk)))))) ∧
           (∀ x, (∀ i < cols, Apart (x, 1) (out i, 8 * kk)) → byteAt t (.plain k) x = byteAt s (.plain k) x))) ∧
     (∀ op cols n0 n pc o cst f, (getCore s k).port = .rowfn op cols n0 n pc :: rest → coreOp s k op = some o →
       coreConst s k = some cst → cst.funcs[opFunc o]? = some f →
       ∃ t q, exec (.drainPortStart k) s = .next t ∧ SameBytes s t ∧ (getCore t k).port = rest ∧
         (getCore t k).active = some .rowfn ∧ (getCore t k).rfuRun = some q ∧ q.opidx = op ∧ q.cols = cols ∧ q.n0 = n0 ∧
         q.n = n ∧ q.block = 0 ∧ q.phase = 0 ∧ q.upc = 0 ∧ q.finished = false ∧ (getCore t k).rfu.state = .running ∧
         (getCore t k).rfu.phase = 0)) ∧
  (∀ (s : State) (k : CoreId), (getCore s k).blocked = .none →
     (∀ eng set ticket op, (getCore s k).active = some (.drain eng set false .cleared ticket) ∨ (getCore s k).active = some (.merge op) →
       ∃ t, exec (.drainComplete k) s = .next t ∧ OnlyCoreFree k s t ∧ SameBytes s t ∧ (getCore t k).active = none ∧
         (getCore t k).port = (getCore s k).port ∧ (getCore t k).drn.drains = satAdd (getCore s k).drn.drains 1) ∧
     (∀ eng set ticket n rest, (getCore s k).active = some (.drain eng set true .cleared ticket) →
       (getCore s k).port = .auto eng set n ticket :: rest →
       ∃ t, exec (.drainComplete k) s = .next t ∧ OnlyCoreFree k s t ∧ SameBytes s t ∧ (getCore t k).active = none ∧
         (getCore t k).port = (if n ≤ 1 then rest else .auto eng (otherSet set) (n - 1) ticket :: rest) ∧
         (getCore t k).drn = (getCore s k).drn) ∧
     (∀ q, (getCore s k).active = some .rowfn → (getCore s k).rfuRun = some q → q.finished = true → q.waiting = false →
       linesOut s k = false → ∃ t, exec (.rowfnComplete k) s = .next t ∧ OnlyCoreFree k s t ∧ SameBytes s t ∧ (getCore t k).active = none ∧
         (getCore t k).rfuRun = none ∧ (getCore t k).port = (getCore s k).port))

/-- (Rests on R89, R102.) Dusk ends with the array group asleep and one more in DUSKS. R213, R215, R216: a timing error in
SERVICE is replayed, with a stall of 2 hc and results unchanged; below a tolerance line a difference is kept in one chunk of the
set being filled and counted as tolerated. -/
def Obligations.DuskAndTimingErrorsAreCounted : Prop :=
  ∀ (s : State) (k : CoreId),
    ((getCore s k).arr.state = .idleHold → (getCore s k).ag.queue = [] → (getCore s k).ag.running = none →
      (getCore s k).ag.tail = [] →
      exec (.dusk k) s = .next (updCore s k (fun c => { c with
        arr := { c.arr with state := .asleep, dusks := satAdd c.arr.dusks 1 } }))) ∧
    (∀ eng set elem stage diff, powered s = true → tileAwake s k.tile = true → s.tiles[k.tile].pwr.context = 0 →
      ∃ t, exec (.timingError k eng set elem stage diff) s = .next t ∧
        getCore t k = { getCore s k with arr := { (getCore s k).arr with
          replays := satAdd (getCore s k).arr.replays 1, freezeHc := (getCore s k).arr.freezeHc + 2 } } ∧ SameBytes s t) ∧
    (∀ eng set elem (diff : Word32) m o, powered s = true → tileAwake s k.tile = true → s.tiles[k.tile].pwr.context ≠ 0 →
      s.tiles[k.tile].pwr.reproFixed = false → diff ≠ 0 → diff.toNat < 2 ^ s.tiles[k.tile].pwr.tl.toNat → elem < 4096 →
      oldestRun (matUnit (getCore s k) eng) = some m → coreOp s k m.job.opidx = some o →
      (accSet (matUnit (getCore s k) eng) set).phase = .filling →
      ∃ t, exec (.timingError k eng set elem .chunkAdder diff) s = .next t ∧
        (getCore t k).arr = { (getCore s k).arr with tolerated := satAdd (getCore s k).arr.tolerated 1 } ∧
        (accSet (matUnit (getCore t k) eng) set).tag = (accSet (matUnit (getCore s k) eng) set).tag ∧
        (∀ i, i ≠ elem → ((accSet (matUnit (getCore t k) eng) set).chunks[i]?).getD 0 =
          ((accSet (matUnit (getCore s k) eng) set).chunks[i]?).getD 0) ∧
        (∃ d : Int, -(diff.toNat : Int) ≤ d ∧ d ≤ diff.toNat ∧
          ((accSet (matUnit (getCore t k) eng) set).chunks[elem]?).getD 0 =
            ((accSet (matUnit (getCore s k) eng) set).chunks[elem]?).getD 0 + BitVec.ofInt 32 d) ∧ SameBytes s t)

/-- R167, R53: the exact operations on LNS20 codes. Multiplication adds L and joins the signs, division subtracts, reciprocal
negates L, negation turns the sign and absolute value drops it; a result above the range saturates, one below becomes zero, both
with a clip; the rows for zero operands. -/
def Obligations.LnsExactOperations : Prop :=
  let zero : Lns := 0x40000
  let fits (neg : Bool) (l : Int) (r : LnsOut) : Prop :=
    (262143 < l → r = { code := lnsCode neg 262143, clip := true }) ∧ (l < -262143 → r = { code := zero, clip := true }) ∧
    (-262143 ≤ l → l ≤ 262143 → r.clip = false ∧ lnsNeg r.code = neg ∧ lnsL r.code = l ∧ lnsIsZero r.code = false)
  (∀ x y : Lns, lnsIsZero x = false → lnsIsZero y = false →
    fits (xor (lnsNeg x) (lnsNeg y)) (lnsL x + lnsL y) (lnsMul x y) ∧
    fits (xor (lnsNeg x) (lnsNeg y)) (lnsL x - lnsL y) (lnsDiv x y)) ∧
  (∀ x : Lns, lnsIsZero x = false → fits (lnsNeg x) (-(lnsL x)) (lnsRecip x) ∧
    lnsL (lnsNegate x).code = lnsL x ∧ lnsNeg (lnsNegate x).code = !(lnsNeg x) ∧ lnsL (lnsAbs x).code = lnsL x ∧
    lnsNeg (lnsAbs x).code = false) ∧
  (∀ x y : Lns, lnsIsZero x = true ∨ lnsIsZero y = true → lnsMul x y = { code := zero, clip := false }) ∧
  (∀ x y : Lns, lnsIsZero x = true → lnsDiv x y = { code := zero, clip := false }) ∧
  (∀ x y : Lns, lnsIsZero x = false → lnsIsZero y = true → lnsDiv x y = { code := lnsCode (lnsNeg x) 262143, clip := true }) ∧
  (∀ x : Lns, lnsIsZero x = true → lnsRecip x = { code := lnsCode false 262143, clip := true } ∧
    (lnsNegate x).code = zero ∧ (lnsAbs x).code = zero)

/-- (Rests on R180, R617.) What each computing microinstruction writes into vd of every lane that carries a token column; a void
operand gives a void value; nothing else of the lanes changes, and no byte of memory. (Rests on R172, R180, R617, R620.) NOP
changes no lane; TADD and TMAX feed a tree, and QEXP sets the output exponent, of every lane that carries a column and holds a
value in va. (Rests on R168.) ⊕ commutes; its rows that read no table; and the sign of a result that is not zero is that of the
operand of the larger L, also where L leaves the range (log entry 15). (Rests on R168 to R170.) The rows of x ⊕ y that read a
table, where the result stays in range: L_max and the sign that goes with it, and L_corr, which is (F + S × r)/16 to nearest,
ties to even; LG as the nearest integers of R170. (Rests on R176, R177, R620.) The single-operand steps. SQRT and RSQRT halve L,
odd L to the even neighbour; A[j] is the nearest integer to 2^(23 + j/2,048), EXP2 the nearest L to 2,048 x of its value; LOG2
the nearest L to 2,048 log2 |L/2,048|; QEXP the smallest exponent; with their rows for zero (the root of zero: log entry 16). -/
def Obligations.MicroinstructionsComputeTheirRegister : Prop :=
  (∀ (s : State) (k : CoreId) (x : RfuCtx) (vd va vb : VReg) (kidx : Fin 16), MidPhase s k x →
     let writes (i : Instr) (v : Lane → Option Lns) : Prop :=
       ∃ t r, exec i s = .next t ∧ RfuWent s t k x r ∧ SameBytes s t ∧
         LanesWent x.run r (fun _ l => { l with regs := l.regs.set vd (v l) })
     let one (g : Lns → LnsOut) (l : Lane) : Option Lns := (l.regs[va]).map (fun u => (g u).code)
     let two (g : Lns → Lns → Lns) (l : Lane) : Option Lns := (l.regs[va]).bind (fun u => (l.regs[vb]).map (fun v => g u v))
     let const : Lns := (x.f.consts[kidx.val]?).getD 0x40000
     writes (.rfuMul k vd va vb) (two (fun u v => (lnsMul u v).code)) ∧
     writes (.div k vd va vb) (two (fun u v => (lnsDiv u v).code)) ∧
     writes (.rfuAdd k vd va vb) (two (fun u v => (lnsAdd x.f.dt u v).code)) ∧
     writes (.rfuSub k vd va vb) (two (fun u v => (lnsAdd x.f.dt u (lnsNegate v).code).code)) ∧
     writes (.mulk k vd va kidx) (one (fun u => lnsMul u const)) ∧
     writes (.addk k vd va kidx) (fun l => (l.regs[va]).map (fun u => (lnsAdd x.f.dt u const).code)) ∧
     writes (.neg k vd va) (one lnsNegate) ∧ writes (.abs k vd va) (one lnsAbs) ∧ writes (.recip k vd va) (one lnsRecip) ∧
     writes (.sqrt k vd va) (one lnsSqrt) ∧ writes (.rsqrt k vd va) (one lnsRsqrt) ∧ writes (.exp2 k vd va) (one lnsExp2) ∧
     writes (.log2 k vd va) (one lnsLog2) ∧ writes (.tget k vd true) (fun l => some l.max) ∧
     writes (.tget k vd false) (fun l => some l.sum)) ∧
  (∀ (s : State) (k : CoreId) (x : RfuCtx) (va : VReg), MidPhase s k x →
     let does (i : Instr) (f : Lane → Lane) : Prop :=
       ∃ t r, exec i s = .next t ∧ RfuWent s t k x r ∧ SameBytes s t ∧ LanesWent x.run r (fun _ => f)
     does (.rfuNop k) (fun l => l) ∧
     does (.tadd k va) (fun l => { l with sums := l.sums ++ (l.regs[va]).toList }) ∧
     does (.tmax k va) (fun l => { l with maxs := l.maxs ++ (l.regs[va]).toList }) ∧
     does (.qexp k va) (fun l => match l.regs[va] with
       | some v => { l with oexp := BitVec.ofInt 8 (qexp (intWidth x.f.outFmt) v) }
       | none => l)) ∧
  ((∀ (dt : Nat) (x y : Lns), lnsAdd dt x y = lnsAdd dt y x) ∧
   (∀ (dt : Nat) (x y : Lns), lnsIsZero x = false →
     (lnsIsZero y = true → (lnsAdd dt x y).code = x ∧ (lnsAdd dt y x).code = x) ∧
     (lnsIsZero y = false → 2048 * (dt : Int) < lnsL x - lnsL y → (lnsAdd dt x y).code = x ∧ (lnsAdd dt y x).code = x) ∧
     (lnsIsZero y = false → lnsNeg x ≠ lnsNeg y → lnsL x = lnsL y → (lnsAdd dt x y).code = 0x40000 ∧
       (lnsAdd dt x y).clip = false) ∧
     (lnsIsZero y = false → lnsL y < lnsL x → (lnsAdd dt x y).code = 0x40000 ∨ lnsNeg (lnsAdd dt x y).code = lnsNeg x))) ∧
  (let rounded (num den c : Int) : Prop :=
     2 * (c * den - num) ≤ den ∧ 2 * (num - c * den) ≤ den ∧ (2 * (num - c * den) = den ∨ 2 * (num - c * den) = -den → c % 2 = 0)
   let reads (point : Nat → Nat) (fix : Nat → Int) (n : Nat) (base : Int) (d : Nat) (c : Int) : Prop :=
     ∀ j < n, point j ≤ d → (d < point (j + 1) ∨ j + 1 = n ∧ d = point n) →
       rounded ((base + toUnits (fix (point j))) * (point (j + 1) - point j : Nat) +
         toUnits (fix (point (j + 1)) - fix (point j)) * (d - point j : Nat)) (16 * (point (j + 1) - point j : Nat)) c
   (∀ (dt : Nat) (x y : Lns) (d : Nat), dt ≤ 16 → lnsIsZero x = false → lnsIsZero y = false → lnsL x - lnsL y = d → d ≤ 2048 * dt →
     (lnsNeg x = lnsNeg y ∨ d ≠ 0) →
     ∃ c : Int, (lnsNeg x = lnsNeg y → reads plusPoint plusFix 64 0 d c) ∧
       (lnsNeg x ≠ lnsNeg y → d < 2048 → reads cancelPoint cancelFix 16 (lgTable d - 11 * 2 ^ 15) d c) ∧
       (lnsNeg x ≠ lnsNeg y → 2048 ≤ d → reads minusPoint minusFix 64 0 d c) ∧
       (-262143 ≤ lnsL x + c → lnsL x + c ≤ 262143 → (lnsAdd dt x y).clip = false ∧ (lnsAdd dt x y).exactPath = true ∧
         lnsNeg (lnsAdd dt x y).code = lnsNeg x ∧ lnsL (lnsAdd dt x y).code = lnsL x + c)) ∧
   (∀ d : Nat, 0 < d → ∃ n : Nat, lgTable d = n ∧ (n = 0 ∨ 2 ^ (2 * n - 1) ≤ d ^ 65536) ∧ d ^ 65536 < 2 ^ (2 * n + 1))) ∧
  (let half (l : Int) (r : LnsOut) : Prop :=
     r.clip = false ∧ lnsNeg r.code = false ∧ (l % 2 = 0 → 2 * lnsL r.code = l) ∧
     (l % 2 ≠ 0 → lnsL r.code % 2 = 0 ∧ (2 * lnsL r.code = l - 1 ∨ 2 * lnsL r.code = l + 1))
   (∀ x : Lns, lnsIsZero x = false → half (lnsL x) (lnsSqrt x) ∧ half (-(lnsL x)) (lnsRsqrt x)) ∧
   (∀ x : Lns, lnsIsZero x = true → lnsSqrt x = { code := 0x40000, clip := false } ∧
     lnsRsqrt x = { code := lnsCode false 262143, clip := true } ∧ lnsLog2 x = { code := lnsCode true 262143, clip := true }) ∧
   (∀ j < 2048, 0 < antilog j ∧ (2 * antilog j - 1) ^ 2048 ≤ 2 ^ (49152 + j) ∧ 2 ^ (49152 + j) < (2 * antilog j + 1) ^ 2048) ∧
   (∀ x : Lns, lnsIsZero x = false → (lnsValue x).e = lnsL x / 2048 - 23 ∧
     (lnsValue x).m = (if lnsNeg x then -1 else 1) * antilog (lnsL x % 2048).toNat) ∧
   (∀ (x : Lns) (p d : Int), p = (lnsValue x).m * 2 ^ ((lnsValue x).e + 11).toNat → d = 2 ^ (-((lnsValue x).e + 11)).toNat →
     (262143 * d < p → lnsExp2 x = { code := lnsCode false 262143, clip := true }) ∧
     (p < -262143 * d → lnsExp2 x = { code := 0x40000, clip := false }) ∧
     (-262143 * d ≤ p → p ≤ 262143 * d → (lnsExp2 x).clip = false ∧ lnsNeg (lnsExp2 x).code = false ∧
       let l := lnsL (lnsExp2 x).code
       2 * (l * d - p) ≤ d ∧ 2 * (p - l * d) ≤ d ∧ (2 * (p - l * d) = d ∨ 2 * (p - l * d) = -d → l % 2 = 0))) ∧
   (∀ x : Lns, lnsIsZero x = false → (lnsLog2 x).clip = false ∧
     (lnsL x = 0 → (lnsLog2 x).code = 0x40000) ∧
     (lnsL x ≠ 0 → lnsNeg (lnsLog2 x).code = decide (lnsL x < 0) ∧ ∃ n : Nat, lnsL (lnsLog2 x).code = n - 22528 ∧
       (n = 0 ∨ 2 ^ (2 * n - 1) ≤ (lnsL x).natAbs ^ 4096) ∧ (lnsL x).natAbs ^ 4096 < 2 ^ (2 * n + 1))) ∧
   (∀ (w : Nat) (v : Lns), let le (e : Int) : Prop := dyLe (dyAbs (lnsValue v)) { m := 2 ^ (w - 1) - 1, e := e } = true
     qexp w v ≤ 127 ∧ -128 ≤ qexp w v ∧ (qexp w v < 127 → le (qexp w v)) ∧ ∀ e, -128 ≤ e → e < qexp w v → ¬le e))

/-- (Rests on R176, R178, R191, R617, R620.) LD and LDA read the next element of every lane's column from the plain and convert
it; at or beyond n they give a void value; RFU_ELEMS counts what LD read below n. No other port writes the plain meanwhile
(R251). (Rests on R176, R178, R182, R620.) ST writes each lane's value, converted, at its element of the output, and STI as
LNS20 over the element last read; every other byte of every memory stays; a void value writes nothing. ST is stated for the
feature-major layout with formats of whole bytes. -/
def Obligations.MicroinstructionsReadAndWriteThePlain : Prop :=
  (∀ (s : State) (k : CoreId) (x : RfuCtx) (vd : VReg), MidPhase s k x → PlainOpen (getCore s k) → PortQuiet s k →
     let size (fmt : Nat) : Nat := if fmt = 2 then 2 else 4
     let place (base stride fmt i : Nat) (j : Fin 32) : Nat :=
       base + i * stride + (x.run.n0 + 32 * x.run.block + j.val) * size fmt
     let loads (i : Instr) (fmt asFmt base stride at' : Nat) (count : RfuRun → Nat) (elems : BitVec 64) : Prop :=
       (∀ j : Fin 32, place base stride fmt at' j + size fmt ≤ 0x400000) →
       ∃ t r, exec i s = .next t ∧ RfuLoaded s t k x r ∧ SameBytes s t ∧ count r = at' + 1 ∧
         (getCore t k).rfu.elems = (getCore s k).rfu.elems + elems ∧
         LanesWent x.run r (fun j l =>
           let v : Lns := (lnsIn asFmt (leNat (memRead (getCore s k).plain (place base stride fmt at' j) (size fmt)))).code
           { l with regs := l.regs.set vd (if x.run.n ≤ at' then none else some v) })
     loads (.ld k vd) x.f.inFmt
       (match x.run.stiPhase with | some p => if p < x.run.phase then 1 else x.f.inFmt | none => x.f.inFmt)
       (opInBase x.op) (opInStride x.op) x.run.lds (fun r => r.lds)
       (BitVec.ofNat 64 (if x.run.lds < x.run.n then min 32 (x.run.cols - 32 * x.run.block) else 0)) ∧
     loads (.lda k vd) x.f.auxFmt x.f.auxFmt (opAuxBase x.op) (opAuxStride x.op) x.run.ldas (fun r => r.ldas) 0) ∧
  (∀ (s : State) (k : CoreId) (x : RfuCtx) (va : VReg), MidPhase s k x → PlainOpen (getCore s k) →
     let col (j : Fin 32) : Nat := x.run.n0 + 32 * x.run.block + j.val
     let carries (j : Fin 32) : Prop := 32 * x.run.block + j.val < x.run.cols
     let stores (i : Instr) (n : Nat) (place : Fin 32 → Nat) (value : Fin 32 → Lns → Nat) (el : Nat) : Prop :=
       (∀ j : Fin 32, place j + n ≤ 0x400000) →
       ∃ t r, exec i s = .next t ∧ RfuWrote s t k x r ∧ r.lanes = x.run.lanes ∧
         (∀ (j : Fin 32) (v : Lns), carries j → (x.run.lanes[j]).regs[va] = some v → el < x.run.n →
           memRead (getCore t k).plain (place j) n = natLe n (value j v)) ∧
         (∀ m a, (m = Space.plain k → x.run.n ≤ el ∨ ∀ j : Fin 32, carries j → (x.run.lanes[j]).regs[va] ≠ none →
           ¬(place j ≤ a ∧ a < place j + n)) → byteAt t m a = byteAt s m a)
     (x.f.outLayout = 0 → x.f.outFmt ≠ 3 →
       stores (.st k va) (fmtBytes (rfuOutFmt x.f))
         (fun j => x.op.obase + x.run.sts * x.op.ostride + col j * fmtBytes (rfuOutFmt x.f))
         (fun j v => (lnsConvOut x.f.outFmt (x.run.lanes[j]).oexp.toInt v).code) x.run.sts) ∧
     (x.f.inFmt ≠ 2 → 0 < x.run.lds →
       stores (.sti k va) 4 (fun j => opInBase x.op + (x.run.lds - 1) * opInStride x.op + col j * 4)
         (fun _ v => (lnsNorm v).toNat) (x.run.lds - 1)))

/-- (Rests on R188, R189, R194.) An idle fine unit starts the front operation of its queue when the command is of the
operation's kind: its store takes the operation's results, the registers show it, and no other memory changes. FIN_FMAS is not
stated (log entry 19). Where operands lie, their format and FNORM's value are uninterpreted (log entry 8). (Rests on R187,
R189.) An output of FDOT starts at +0 and takes one fused multiply-add, rounded once to nearest even, for each element of its
part of the reduction in ascending order; LBASE enters the place of its input (R306). (Rests on R311.) The last output of a
fine-unit operation frees the unit and completes the FINE in class FN of its core. -/
def Obligations.FineUnitRunsItsQueue : Prop :=
  (∀ (s : State) (t : TileId) (j : FineJob) (rest : List FineJob) (o : Op) (c : Constellation) (p : PartId) (r : StepRun),
     powered s = true → tileAwake s t = true → s.tiles[t].fine.running = none → s.tiles[t].fine.queue = j :: rest →
     coreOp s ⟨t, j.core⟩ j.opidx = some o → coreConst s ⟨t, j.core⟩ = some c → coreRun s ⟨t, j.core⟩ = some (p, r) →
     let f := finePart r ⟨t, j.core⟩ j.opidx
     let runs (i : Instr) (kind : Nat) (a : FineAcc) : Prop :=
       opFineKind o = kind → ∃ u, exec i s = .next u ∧ u.tiles[t].fine.running = some j ∧ u.tiles[t].fine.queue = rest ∧
         u.tiles[t].fine.store = a.store ∧ u.tiles[t].fine.clips = satAdd s.tiles[t].fine.clips a.clips ∧
         u.tiles[t].fine.kind = BitVec.ofNat 2 kind ∧ u.tiles[t].fine.opidx = BitVec.ofNat 12 j.opidx ∧
         u.tiles[t].fine.bf16 = opFineBf16 o ∧ u.tiles[t].fine.state = .running ∧
         (∀ m, m ≠ Space.fineStore t → ∀ x, byteAt u m x = byteAt s m x) ∧
         (∀ k, (getCore u k).seq = (getCore s k).seq ∧ (getCore u k).sregs = (getCore s k).sregs)
     runs (.fdot t) 0 (runFdot o j f s.tiles[t].fine.store) ∧
     runs (.fnorm t) 1 (runFnorm o j f s.tiles[t].fine.store) ∧
     runs (.femb t) 2 (runFemb o j f s.tiles[t].fine.store) ∧
     runs (.fopt t) 3 (runFopt o j f r.seed s.tiles[t].fine.store)) ∧
  (∀ (o : Op) (m : Mem) (j : FineJob) (p : FinePart) (row col : Nat),
     let pair (x : Nat) : Exact × Exact :=
       ((fineLoad o m 0 (Config.fineElem o.opidx 0 (opInOff o) j.lbase (col * p.k + p.k0 + x) % fineSize)).1,
         (fineGet o m 1 (opAuxOff o) (row * p.k + p.k0 + x)).1)
     (fineDot o m j p row col).1 = ((List.range j.k).map pair).foldl (fun acc y =>
       (toFloat 23 (dyAdd (dyMul y.1 y.2) (ofFloat 23 acc).1) .rne).code) 0) ∧
  (∀ (s : State) (t : TileId) (j : FineJob), s.tiles[t].fine.running = some j → (getCore s ⟨t, j.core⟩).blocked = .none →
     ∃ u, exec (.fineComplete t) s = .next u ∧ OnlyTile t s u ∧ SameBytes s u ∧ u.tiles[t].fine.running = none ∧
       u.tiles[t].fine.state = .idle ∧ u.tiles[t].fine.queue = s.tiles[t].fine.queue ∧
       (getCore u ⟨t, j.core⟩).fines = (getCore s ⟨t, j.core⟩).fines - 1 ∧
       (∀ k, k ≠ ⟨t, j.core⟩ → getCore u k = getCore s k))

/-- (Rests on R347, R348.) An idle copy engine takes the front descriptor of its queue when the command is of the descriptor's
kind, in a working place, with the next number; and what it copies then is the work of that descriptor. -/
def Obligations.CopyEngineTakesTheFrontDescriptor : Prop :=
  ∀ (s : State) (e : EngineId) (job : CopyJob) (rest : List CopyJob) (p : PartId),
    (getEngine s e).queue = job :: rest → (∀ i : Fin 4, (getEngine s e).running[i] = none) → jobPart job = some p →
    let takes (i : Instr) (kind : Nat) : Prop :=
      dKind job.desc = kind → ∃ t r, exec i s = .next t ∧ (getEngine t e).queue = rest ∧
        (getEngine t e).running[(0 : Fin 4)] = some r ∧ r.job = job ∧ r.id = s.nextId ∧ r.asked = true ∧
        t.nextId = s.nextId + 1 ∧ (∀ i : Fin 4, i ≠ 0 → (getEngine t e).running[i] = none)
    takes (.move e .clean) 1 ∧ takes (.zero e) 2 ∧ takes (.transpose e .clean) 3 ∧ takes (.diag e .clean) 4 ∧
    takes (.gather e .clean) 5 ∧ takes (.region e .clean) 6

/-- (Rests on R337, R349.) A ZERO and a MOVE of one run of bytes within the HBM stack of the engine's own tile write exactly
their destination, no block of a tier having failed: zeros, or the source bytes as they stood; every other byte of every memory
stays. (Rests on R161, R337, R340 to R343.) TRANSPOSE from HBM to HBM, DIAG, GATHER and REGION from the HBM stack of the
engine's own tile into a plain of it, whose slots are untagged, complete: each element, code, side word and byte stands where
the rule puts it, as its source stood, and every byte outside the destination stays. (Rests on R349, R379.) DESCRIPTOR_COMPLETE
completes: the end of a descriptor that does not chain and whose windows are told sends its NOTIFY, counts it, frees the working
place and completes the COPY in class CP of its core. -/
def Obligations.DescriptorsWriteTheirRangeAndComplete : Prop :=
  (∀ (s : State) (t : TileId) (q : Fin 8) (job : CopyJob) (rest : List CopyJob) (p : PartId) (src dst n : Nat),
     let e : EngineId := .tile t q
     let base := (t.val + 1) * 2 ^ 48
     (getEngine s e).queue = job :: rest → (∀ i : Fin 4, (getEngine s e).running[i] = none) → jobPart job = some p →
     s.badBlocks = [] → dst + n ≤ 0x5D0000000 → dDst job.desc = base + dst → dLen0 job.desc = n →
     dCount job.desc 1 = 1 → dCount job.desc 2 = 1 → dCount job.desc 3 = 1 →
     (dKind job.desc = 2 → ∃ u, exec (.zero e) s = .next u ∧
       ∀ m a, byteAt u m a = if m = Space.hbm t ∧ dst ≤ a ∧ a < dst + n then 0 else byteAt s m a) ∧
     (dKind job.desc = 1 → src + n ≤ 0x5D0000000 → dSrc job.desc = base + src → src + n ≤ dst ∨ dst + n ≤ src →
       ∃ u, exec (.move e .clean) s = .next u ∧
         ∀ m a, byteAt u m a = if m = Space.hbm t ∧ dst ≤ a ∧ a < dst + n then byteAt s m (src + (a - dst)) else byteAt s m a)) ∧
  (∀ (s : State) (t : TileId) (q : Fin 8) (job : CopyJob) (rest : List CopyJob) (p : PartId) (k : CoreId),
     let e : EngineId := .tile t q
     let d := job.desc
     (getEngine s e).queue = job :: rest → (∀ i : Fin 4, (getEngine s e).running[i] = none) → jobPart job = some p → k.tile = t →
     s.badBlocks = [] → inTransit s e s.nextId .write = false →
     (∀ x ∈ sourceExtents d job.regionLen, InHbm t x) → (destExtents s d job.regionLen).Pairwise Apart →
     (∀ x ∈ sourceExtents d job.regionLen, ∀ y ∈ destExtents s d job.regionLen, Apart x y) →
     let frame (u : State) : Prop := ∀ m a, (∀ x ∈ destExtents s d job.regionLen, ¬InRange m a x) → byteAt u m a = byteAt s m a
     let intoPlain : Prop := CeOpen (getCore s k) ∧ ∀ x ∈ destExtents s d job.regionLen, InPlain k x
     let side (u : State) : Prop := ∀ j < dNblk d, ∀ γ < (if dSkind d = 1 then 1 else dGroups d), ∀ r < 32,
       let a := dSideDst d + 64 * (j * (if dSkind d = 1 then 1 else dGroups d) + γ) + 2 * r
       (plainAt u k a, plainAt u k (a + 1)) = laneSide s t d j r γ
     (dKind d = 3 → (∀ x ∈ destExtents s d job.regionLen, InHbm t x) →
       (dEsize d = 0 → dLen0 d % 2 = 0 ∧ dCount d 1 % 2 = 0) →
       ∃ u, exec (.transpose e .clean) s = .next u ∧ frame u ∧
         ∀ i3 < dCount d 3, ∀ i2 < dCount d 2, ∀ i1 < dCount d 1, ∀ i0 < dLen0 d, ∀ h < esizeNibbles d,
           bitsIn (hbmAt u t) (runStart (dDst d) (dDstStride d) (i3, i2, i0)) (4 * (i1 * esizeNibbles d + h)) 4 =
             bitsIn (hbmAt s t) (runStart (dSrc d) (dSrcStride d) (i3, i2, i1)) (4 * (i0 * esizeNibbles d + h)) 4) ∧
     (dKind d = 4 → intoPlain → 0 < dK d → 1 ≤ dCb d → dCb d ≤ 16 → 1 ≤ dP d → dP d ≤ 9 → dSkind d ≤ 2 →
       ∃ u, exec (.diag e .clean) s = .next u ∧ frame u ∧ side u ∧
         ∀ n < diagLines d, ∀ i < ceilDiv 32 (dP d), ∀ m < 4,
           let r := n % dP d + i * dP d
           let κ := (n - r) / dP d
           bitsIn (plainAt u k) (dDst d + n * lineLen (dCb d) (dP d)) ((4 * i + m) * dCb d) (dCb d) =
             if r < 32 ∧ r ≤ n ∧ κ < dNblk d * dK4 d then laneCode s t d (κ / dK4 d) r (4 * (κ % dK4 d) + m) else 0) ∧
     (dKind d = 5 → intoPlain → 0 < dK d → 1 ≤ dCb d → dCb d ≤ 16 → dNblk d = 1 → dSkind d ≤ 2 →
       ∃ u, exec (.gather e .clean) s = .next u ∧ frame u ∧ side u ∧
         ∀ x < dGroups d * groupSize (dGsize d), ∀ c < 32,
           bitsIn (plainAt u k) (dDst d + x * 4 * dCb d) (c * dCb d) (dCb d) = laneCode s t d 0 c x) ∧
     (dKind d = 6 → intoPlain →
       ∃ u, exec (.region e .clean) s = .next u ∧ frame u ∧
         ∀ b < job.regionLen, plainAt u k (dDst d + b) = hbmAt s t (dSrc d + b))) ∧
  (∀ (s : State) (e : EngineId) (i : Fin 4) (r : CopyRun) (p : PartId) (k : CoreId) (o : ObjId),
     (getEngine s e).running[i] = some r → r.asked = true → r.started = true → r.failed = false → r.chain = false → r.todo = [] →
     inTransit s e r.id .write = false → jobPart r.job = some p → dChain r.job.desc = false →
     r.arrivals = [] → r.job.issuer = some k → (getCore s k).blocked = .none →
     let n := dNotifyN r.job.desc
     (n ≠ 0 → objAt (dNotifyAddr r.job.desc) = some o ∧ o.node = engineNode e) →
     ∃ t, exec (.descriptorComplete e i) s = .next t ∧ SameBytes s t ∧ (getEngine t e).running[i] = none ∧
       (getEngine t e).descs = satAdd (getEngine s e).descs 1 ∧
       (getEngine t e).notifies = satAdd (getEngine s e).notifies (if n = 0 then 0 else 1) ∧
       (getEngine t e).queue = (getEngine s e).queue ∧ (getCore t k).copies = (getCore s k).copies - 1 ∧
       t.fabric = s.fabric ∧
       (n = 0 → t.adds = s.adds) ∧
       (n ≠ 0 → ∃ a, t.adds = s.adds ++ [a] ∧ a.obj = o ∧ a.addend = BitVec.ofNat 32 n ∧ a.ack = false))

/-- (Rests on R364, R366, R384, R385.) An add commits on an object that no waiter waits on: COUNT moves by the signed addend
modulo 2^32, WRAP is set when the integer sum leaves the range and is never cleared, STAMP is the tick, the counters grow;
nothing else of the object changes, no byte of memory and no core. (Rests on R313, R366, R369.) The commit of a SIGNAL's add at
an object of the core's own tile completes the SIGNAL: the core goes on at the next instruction, and only that core, the object
and the counters of its tile change. -/
def Obligations.AddCommitMovesTheCount : Prop :=
  (∀ (s : State) (o : ObjId) (t : TileId) (x : SyncObj) (a : PendingAdd) (i j : Nat),
     o.node = tileNode t → getObj s o = some x → x.mode ≠ .idle → (∀ w ∈ s.tiles[t].waiters, w.obj ≠ o.num) →
     (objAdds s o)[i]? = some (j, a) → (∀ b ∈ (objAdds s o).take i, sameSource b.2.src a.src = false) → a.ack = false →
     let sum : Int := (x.count.toNat : Int) + a.addend.toInt
     let wraps : Bool := decide (sum < 0 ∨ 2 ^ 32 ≤ sum)
     ∃ u, exec (.objectAddCommit o i) s = .next u ∧ SameBytes s u ∧ (∀ k, getCore u k = getCore s k) ∧
       u.adds = s.adds.eraseIdx j ∧
       getObj u o = some { x with count := BitVec.ofInt 32 sum, wrap := x.wrap || wraps, stamp := s.now } ∧
       u.tiles[t].syn = { s.tiles[t].syn with
         adds := satAdd s.tiles[t].syn.adds 1
         wraps := satAdd s.tiles[t].syn.wraps (if wraps then 1 else 0) } ∧
       (∀ q, q ≠ o → getObj u q = getObj s q)) ∧
  (∀ (s : State) (k : CoreId) (o : ObjId) (x : SyncObj) (a : PendingAdd) (i j : Nat) (m : BitVec 5) (ad : BitVec 56) (v : Word32)
     (sent : Bool),
     o.node = tileNode k.tile → getObj s o = some x → x.mode ≠ .idle → (∀ w ∈ s.tiles[k.tile].waiters, w.obj ≠ o.num) →
     (objAdds s o)[i]? = some (j, a) → (∀ b ∈ (objAdds s o).take i, sameSource b.2.src a.src = false) → a.ack = true →
     a.src = .core k → (getCore s k).blocked = .signal m ad v sent →
     ∃ u, exec (.objectAddCommit o i) s = .next u ∧ SameBytes s u ∧ u.adds = s.adds.eraseIdx j ∧
       (sent = true → (getCore u k).blocked = .none ∧ (getCore u k).seq.pc = (getCore s k).seq.pc + 1 ∧
         (getCore u k).sregs = (getCore s k).sregs) ∧
       (sent = false → getCore u k = getCore s k) ∧ (∀ q, q ≠ k → getCore u q = getCore s q) ∧
       (∃ y, getObj u o = some y ∧ y.count = x.count + a.addend) ∧ (∀ q, q ≠ o → getObj u q = getObj s q))

/-- (Rests on R365.) A WAIT that names an IDLE object of its own tile is discarded and faults the step, with SYN_FAULT.IDLE and
the object's number. (Rests on R314, R364, R370, R371.) A WAIT that reaches an object of its own tile: satisfied, it completes
at once with sd = 0, and TAKE subtracts TARGET; otherwise the core's LOCAL_WAITERS bit is set and the node keeps its timer,
whose deadline is 256 × TIMEOUT ns after registration, or none for TIMEOUT 0. (Rests on R314, R371, R373, R374.) A local waiter
whose deadline has come is released with outcome timeout: sd = 1, or with FAULTTO the step faults with ST_SYNC_TIMEOUT and
SEQ_FAULT.SYNC_TIMEOUT; COUNT keeps its value. A deadline that has not come releases no one. -/
def Obligations.WaitsRegisterAndExpire : Prop :=
  (∀ (s : State) (k : CoreId) (p : PartId) (r : StepRun) (rd : SReg) (a : BitVec 56) (f : Bool) (o : ObjId) (x : SyncObj),
     (getCore s k).blocked = .wait rd a f false → objAt a = some o → o.node = tileNode k.tile → getObj s o = some x →
     x.mode = .idle → coreRun s k = some (p, r) → r.rerunPending = false →
     ∃ u, exec (.waitRegister k) s = .next u ∧ SameBytes s u ∧ getObj u o = some x ∧
       u.tiles[k.tile].syn.fault.getLsbD 0 = true ∧ u.tiles[k.tile].syn.fault.toNat / 2 ^ 16 = o.num % 512 ∧
       u.tiles[k.tile].waiters = s.tiles[k.tile].waiters ∧
       ∃ r', u.parts[p].run = some r' ∧ r'.fault.map (fun f => f.code) = some (match r.fault with | some f => f.code | none => 0x0204)) ∧
  (∀ (s : State) (k : CoreId) (rd : SReg) (a : BitVec 56) (f : Bool) (o : ObjId) (x : SyncObj),
     (getCore s k).blocked = .wait rd a f false → objAt a = some o → o.node = tileNode k.tile → getObj s o = some x →
     x.mode ≠ .idle →
     (x.target.toNat ≤ x.count.toNat → ∃ u, exec (.waitRegister k) s = .next u ∧ SameBytes s u ∧
       sreg (getCore u k) rd = 0 ∧ (getCore u k).blocked = .none ∧ (getCore u k).seq.pc = (getCore s k).seq.pc + 1 ∧
       (∀ q, q ≠ rd → sreg (getCore u k) q = sreg (getCore s k) q) ∧
       (∀ j, j ≠ k → getCore u j = getCore s j) ∧
       getObj u o = some { x with
         last := false
         stamp := s.now
         count := if x.mode = .take then x.count - x.target else x.count } ∧
       u.tiles[k.tile].waiters = s.tiles[k.tile].waiters) ∧
     (x.count.toNat < x.target.toNat → ∃ u w, exec (.waitRegister k) s = .next u ∧ SameBytes s u ∧
       (getCore u k).blocked = .wait rd a f true ∧ (getCore u k).seq = (getCore s k).seq ∧
       u.tiles[k.tile].waiters = s.tiles[k.tile].waiters ++ [w] ∧ w.obj = o.num ∧ w.who = .localCore k.core ∧ w.since = s.now ∧
       w.deadline = (if x.timeout = 0 then none else some (s.now + BitVec.ofNat 64 (256 * x.timeout.toNat))) ∧
       ∃ y, getObj u o = some y ∧ y.count = x.count ∧ y.localWaiters.getLsbD k.core.val = true ∧
         (∀ c < 64, c ≠ k.core.val → y.localWaiters.getLsbD c = x.localWaiters.getLsbD c))) ∧
  (∀ (s : State) (k : CoreId) (rd : SReg) (a : BitVec 56) (f : Bool) (o : ObjId) (x : SyncObj) (y : Waiter) (d : Word64),
     o.node = tileNode k.tile → getObj s o = some x → (getCore s k).blocked = .wait rd a f true →
     (s.tiles[k.tile].waiters).find? (fun w => w.obj == o.num && w.who == .localCore k.core) = some y → y.deadline = some d →
     (s.now.toNat < d.toNat → exec (.waitExpiry o (.localCore k.core)) s = .next s) ∧
     (d.toNat ≤ s.now.toNat → ∃ u z, exec (.waitExpiry o (.localCore k.core)) s = .next u ∧ SameBytes s u ∧
       getObj u o = some z ∧ z.count = x.count ∧ z.last = true ∧ z.stamp = s.now ∧ z.localWaiters.getLsbD k.core.val = false ∧
       u.tiles[k.tile].syn.timeouts = satAdd s.tiles[k.tile].syn.timeouts 1 ∧
       (∀ w ∈ u.tiles[k.tile].waiters, ¬(w.obj = o.num ∧ w.who = .localCore k.core)) ∧
       (f = false → (getCore u k).blocked = .none ∧ (rd ≠ 0 → sreg (getCore u k) rd = 1) ∧
         (getCore u k).seq.pc = (getCore s k).seq.pc + 1) ∧
       (f = true → ∀ p r, coreRun s k = some (p, r) → r.rerunPending = false → SeqFaulted s u k 5 0x0202)))

/-- (Rests on R249, R250, R267.) A blocked access of a port is released once its tag has changed, and what the port works for
goes on; one that stays blocked past the plain's timeout faults its step with ST_TAG_TIMEOUT, PLN_FAULT.TAG_TIMEOUT and its
slot; timeout 0 waits without limit. (Rests on R119, R174.) An owner's drain or a part of a row function that has waited for
records past COMBINE_TIMEOUT faults its step with ST_SYNC_TIMEOUT; COMBINE_TIMEOUT 0 never does. A part whose records have all
landed goes on instead. -/
def Obligations.BlockedAccessesAreReleasedOrTimeOut : Prop :=
  (∀ (s : State) (k : CoreId) (port : Port) (b : TagBlock), powered s = true →
     ((getCore s k).tagBlocks.find? (fun y => y.port == port && !stillBlocked (getCore s k) y) = some b →
       ∃ u, OnlyCoreFree k s u ∧ SameBytes s u ∧ (getCore u k).tagBlocks = (getCore s k).tagBlocks.erase b ∧
         (getCore u k).tags = (getCore s k).tags ∧ (getCore u k).seq = (getCore s k).seq ∧
         exec (.tagBlockRelease k port) s = .next (match port with
           | .wf => feedPass u k
           | .af => feedPass u k
           | .ce => pumpAll u
           | .rx => pumpAll u
           | .sx => u
           | .dr => u)) ∧
     (∀ p r, (getCore s k).tagBlocks.find? (fun y => y.port == port && stillBlocked (getCore s k) y) = some b →
       coreRun s k = some (p, r) → r.rerunPending = false →
       ((getCore s k).pln.timeout = 0 → exec (.tagTimeout k port) s = .next s) ∧
       ((getCore s k).pln.timeout ≠ 0 → b.since.toNat + 256 * (getCore s k).pln.timeout.toNat ≤ s.now.toNat →
         ∃ u, exec (.tagTimeout k port) s = .next u ∧ SameBytes s u ∧ (getCore u k).pln.fault.getLsbD 0 = true ∧
           (getCore u k).pln.fault.toNat / 2 ^ 16 = b.slot % 4096 ∧
           (getCore u k).tagBlocks = (getCore s k).tagBlocks.erase b ∧
           ∃ r', u.parts[p].run = some r' ∧
             r'.fault.map (fun f => f.code) = some (match r.fault with | some f => f.code | none => 0x0206)))) ∧
  (∀ (s : State) (k : CoreId) (p : PartId) (r : StepRun) (op : Nat) (pc : BitVec 13) (since : Word64) (o : Op),
     resumeRfu s k = s → recWaiter s k = some (op, pc) → (getCore s k).recSince = some since → coreOp s k op = some o → coreRun s k = some (p, r) →
     (o.combineTimeout = 0 ∨ s.now.toNat < since.toNat + 256 * o.combineTimeout → exec (.combineTimeout k) s = .next s) ∧
     (o.combineTimeout ≠ 0 → since.toNat + 256 * o.combineTimeout ≤ s.now.toNat → r.rerunPending = false →
       ∃ u r', exec (.combineTimeout k) s = .next u ∧ OnlyPart p s u ∧ u.parts[p].run = some r' ∧
         r'.fault.map (fun f => f.code) = some (match r.fault with | some f => f.code | none => 0x0202)))

/-- (Rests on R297, R316, R319, R471.) A contract step whose release tick has come, with the earliest deadline, is handed to its
partition once nothing runs there: it takes the partition's next STEPNO, keeps its planned shares and leaves the queue; while a
step of the partition runs, or in test state, nothing is released. (Rests on R471.) A release tick that has come is taken by the
first waiting enqueue of the stream that arrived by it, or passes unused when none did; the stream's next tick is one PERIOD
later. A tick that has not come changes nothing. The energy reserved for a tick of the window in progress that passes unused is
free again (R471, R472). (Rests on R472, R473.) With no contract step ready, the best-effort step that the window's fill holds
at a voltage is released at it: every tile of its partition that no stream pins takes that voltage, its floor at least, at the
next meridian. A step that would not end before the next tick of an open stream waits, and DEFERRED counts it once. A candidate
alone in the order joins the fill at the highest voltage tried at which its energy fits room and slew (where R472 leaves the
window open: log entries 7, 85). -/
def Obligations.StepsAreReleasedInOrder : Prop :=
  (∀ (s : State) (p : PartId) (c : Constellation) (x : Step), s.parts[p].const = some c →
     (s.parts[p].run.isSome = true ∨ s.test.test = true → exec (.stepRelease p) s = .next s) ∧
     (mayRelease s p = true → readyContract s s.parts[p] = some x → (∀ y ∈ c.slices, y.tile < 12) →
       (∃ t ∈ partTiles s p, ∃ k ∈ allCores t, takesPart c k x.entry = true) →
       ∃ u r, exec (.stepRelease p) s = .next u ∧ OnlyPart p s u ∧ u.parts[p].run = some r ∧ r.step = x ∧
         r.stepno = s.parts[p].nextStepno ∧ r.released = s.now ∧ r.opened = false ∧ r.fault = none ∧ r.rerunPending = false ∧
         r.shares = c.ops.flatMap (fun o => c.slices.filter (fun y => y.opidx == o.opidx)) ∧
         u.parts[p].nextStepno = s.parts[p].nextStepno + 1 ∧
         u.parts[p].queue = s.parts[p].queue.filter (fun y => y.id != x.id))) ∧
  (∀ (s : State) (p : PartId) (id : BitVec 16) (st : Stream) (d : Contract), powered s = true →
     (openStreams s.parts[p]).find? (fun x => x.1.contract == id.toNat) = some (st, d) →
     (s.now.toNat < st.next → exec (.releaseTick p id) s = .next s) ∧
     (st.next ≤ s.now.toNat → ∃ u, exec (.releaseTick p id) s = .next u ∧
       u = { updPart s p (fun _ => u.parts[p]) with sched := u.sched } ∧
       u.parts[p].streams = s.parts[p].streams.map (fun y => if y.contract = id.toNat then { y with next := y.next + d.period } else y) ∧
       u.parts[p].run = s.parts[p].run ∧ u.parts[p].nextStepno = s.parts[p].nextStepno ∧
       ((∀ x ∈ s.parts[p].queue, x.contract = some id.toNat → x.tick = none → st.next < x.arrival.toNat) →
         u.parts[p].queue = s.parts[p].queue ∧
         (∀ c, s.parts[p].const = some c → s.sched.start.toNat ≤ st.next → st.next < s.sched.nextStart.toNat →
           u.sched = { s.sched with
             room := s.sched.room + (contractEnergy c d s.parts[p].vadm.toNat).floor
             slewRoom := s.sched.slewRoom.map (fun z => z + (contractEnergy c d s.parts[p].vadm.toNat).floor) })) ∧
       (∀ (a b : List Step) (x : Step), s.parts[p].queue = a ++ x :: b →
         (∀ y ∈ a, y.contract = some id.toNat → y.tick = none → st.next < y.arrival.toNat) →
         x.contract = some id.toNat → x.tick = none → x.arrival.toNat ≤ st.next → (∀ y ∈ a ++ b, y.id ≠ x.id) →
         u.parts[p].queue = a ++ { x with tick := some (BitVec.ofNat 64 st.next) } :: b ∧ u.sched = s.sched))) ∧
  (∀ (s : State) (p : PartId) (c : Constellation) (x : Step) (v : Nat),
     s.parts[p].const = some c → mayRelease s p = true → readyContract s s.parts[p] = none → windowOver s = false →
     withholds s p x = false → x ∈ s.parts[p].queue → x.contract = none → (∀ y ∈ s.parts[p].queue, y.id = x.id → y = x) →
     (∃ t ∈ partTiles s p, ∃ k ∈ allCores t, takesPart c k x.entry = true) →
     let released (u : State) : Prop :=
       (endsInTime s p x = true → ∃ r, u.parts[p].run = some r ∧ r.step = x ∧ r.stepno = s.parts[p].nextStepno ∧
         r.released = s.now ∧ r.opened = false ∧ r.fault = none ∧ u.parts[p].nextStepno = s.parts[p].nextStepno + 1 ∧
         u.parts[p].queue = s.parts[p].queue.filter (fun y => y.id != x.id) ∧
         (∀ t ∈ partTiles s p, isPinned s t = false →
           u.tiles[t].pwr = { s.tiles[t].pwr with vnext := BitVec.ofNat 10 (max v (floorAt s.tiles[t].pwr)) })) ∧
       (endsInTime s p x = false → u.parts[p].run = none ∧
         u.parts[p].deferred = (if x.held then s.parts[p].deferred else satAdd s.parts[p].deferred 1) ∧
         u.parts[p].queue = s.parts[p].queue.map (fun y => if y.id == x.id then { y with held := true } else y)) ∧
       SameBytes s u ∧ (∀ k, getCore u k = getCore s k) ∧ (∀ q, q ≠ p → u.parts[q] = s.parts[q])
     (s.sched.fill = [(x.id, v)] → fillOrder s = [] → ∃ u, exec (.stepRelease p) s = .next u ∧ released u ∧ u.sched = s.sched) ∧
     (s.sched.fill = [] → s.sched.stopped = false → s.sched.overhang = false → fillOrder s = [(p, x)] →
       (tryVolts s p).find? (fun w => decide (stepCost s p x w ≤ s.sched.room) &&
         (match s.sched.slewRoom with | some z => decide (stepCost s p x w ≤ z) | none => true)) = some v →
       ∃ u, exec (.stepRelease p) s = .next u ∧ released u ∧ u.sched.fill = [(x.id, v)] ∧
         u.sched.room = s.sched.room - stepCost s p x v))

/-- (Rests on R296, R316, R364.) Once every tile that the released step needs is awake, the step opens: each core that takes
part on an awake tile starts at instruction 0 with the registers of R296, every other core stays as it is, and the partition's
objects are reset (STEP) or snapped (LEVEL, TAKE). (Rests on R24, R255, R256, R297.) RERUN_RESTART completes: the cores that
started the first attempt start again from the values of R296 under the same STEPNO, seed and shares; every other core and every
byte stays. -/
def Obligations.OpeningMeridianStartsTheCores : Prop :=
  (∀ (s : State) (p : PartId) (r : StepRun) (c : Constellation),
     s.parts[p].run = some r → r.opened = false → s.parts[p].const = some c → powered s = true →
     ((∃ t ∈ partTiles s p, stepNeeds c r t = true ∧ tileAwake s t = false) → exec (.openingMeridian p) s = .next s) ∧
     ((∀ t ∈ partTiles s p, stepNeeds c r t = true → tileAwake s t = true) →
       ∃ u r', exec (.openingMeridian p) s = .next u ∧ u.parts[p].run = some r' ∧ r'.opened = true ∧ r'.step = r.step ∧
         r'.stepno = r.stepno ∧ r'.shares = r.shares ∧ r'.fault = r.fault ∧
         (∀ k f, k.tile ∈ partTiles s p → tileAwake s k.tile = true → frameOf c k = some f → takesPart c k r.step.entry = true →
           ProgramStarted s u k f r) ∧
         (∀ k, (k.tile ∉ partTiles s p ∨ takesPart c k r.step.entry = false) → getCore u k = getCore s k) ∧
         (∀ o x, getObj s o = some x → x.owner.toNat = p.val → (o.node = 0 ∨ ∃ t ∈ partTiles s p, o.node = tileNode t) →
           getObj u o = some (match x.mode with
             | .idle => x
             | .step => { x with count := x.init, snap := x.init }
             | .level => { x with snap := x.count }
             | .take => { x with snap := x.count })) ∧
         u.fabric = s.fabric ∧ u.adds = s.adds)) ∧
  (∀ (s : State) (p : PartId) (r : StepRun) (c : Constellation),
     s.parts[p].run = some r → s.parts[p].const = some c → powered s = true →
     (r.rerunPending = false → exec (.rerunRestart p) s = .next s) ∧
     (r.rerunPending = true → ∃ u r', exec (.rerunRestart p) s = .next u ∧ u.parts[p].run = some r' ∧ r'.rerunPending = false ∧
       r'.stepno = r.stepno ∧ r'.seed = r.seed ∧ r'.aStep = r.aStep ∧ r'.shares = r.shares ∧ r'.detections = r.detections ∧
       (∀ k f, k.tile ∈ partTiles s p → tileAwake s k.tile = true → frameOf c k = some f → takesPart c k r.step.entry = true →
         (getCore s k).taking = true → ProgramStarted s u k f r) ∧
       (∀ k, (k.tile ∉ partTiles s p ∨ takesPart c k r.step.entry = false ∨ (getCore s k).taking = false) →
         getCore u k = getCore s k) ∧
       u.hub = s.hub ∧ u.fabric = s.fabric ∧ u.adds = s.adds ∧ SameBytes s u))

/-- (Rests on R8, R257, R316, R478, R518.) When every core that takes part has reported and no landed record is left over, the
step ends: its code is ST_DEADLINE_MISS past its deadline, else ST_PARITY_RERUN after a re-run, else ST_OK; the completion entry
holds that code, FAIL_OP 0 and STEPNO; counters advance, STEPS in the window that holds the tick (log entry 56). While a core
has not reported, nothing happens. (Rests on R436, R549.) An unbind takes effect at the partition's next meridian: the models
marked leave, damaged ones are remembered by their content digest (log entries 32, 39), and nothing leaves while a step is open.
-/
def Obligations.ClosingMeridianCompletesTheStep : Prop :=
  (∀ (s : State) (p : PartId) (r : StepRun), s.parts[p].run = some r → r.opened = true → r.fault = none → r.rerunPending = false →
     powered s = true →
     ((∃ k ∈ takingCores s p, (getCore s k).reported = false) → exec (.closingMeridian p) s = .next s) ∧
     ((∀ k ∈ takingCores s p, (getCore s k).reported = true) → (∀ k ∈ partCores s p, staleRecord s k = none) →
       let code : BitVec 16 := if isLate s p r.step then 0x0205 else if r.rerun then 0x0203 else 0
       ∃ u, exec (.closingMeridian p) s = .next u ∧ u.parts[p].run = none ∧
         u.parts[p].stepsDone = (if windowOver s then s.parts[p].stepsDone else satAdd s.parts[p].stepsDone 1) ∧
         u.parts[p].stepsNext = (if windowOver s then satAdd s.parts[p].stepsNext 1 else s.parts[p].stepsNext) ∧
         u.parts[p].misses = satAdd s.parts[p].misses (if isLate s p r.step then 1 else 0) ∧
         u.parts[p].nextStepno = s.parts[p].nextStepno ∧ u.parts[p].pfault = s.parts[p].pfault ∧
         (∀ k, (getCore u k).plain = (getCore s k).plain ∧ sreg (getCore u k) = sreg (getCore s k)) ∧
         (∀ d, r.step.cmd = some d → (findFetched s d).isSome = true →
           (getRing s d.func d.ring).head = (getRing s d.func d.ring).tail → r.step.recbuf = 0 →
           (∀ m ∈ s.parts[p].models, m.unbinding = false) → (∀ y ∈ s.parts[p].sessions, y.closing = none) →
           memRead u.hostMem (busAddr s.funcs[d.func] ((getRing s d.func d.ring).cplBase.toNat + 16 * d.slot.toNat)) 16 =
             natLe 2 code.toNat ++ List.replicate 6 0 ++ natLe 8 r.stepno.toNat))) ∧
  (∀ (s : State) (p : PartId), powered s = true →
     ((∃ r, s.parts[p].run = some r ∧ r.opened = true) → exec (.modelUnbindEffect p) s = .next s) ∧
     ((∀ r, s.parts[p].run = some r → r.opened = false) →
       ∃ u, exec (.modelUnbindEffect p) s = .next u ∧ u.tiles = s.tiles ∧
         u.parts[p].models = s.parts[p].models.filter (fun m => !m.unbinding) ∧
         (∀ m ∈ s.parts[p].models, m.unbinding = true → m.hurt = true → m.contentDigest ∈ u.parts[p].hurt) ∧
         u.parts[p].run = s.parts[p].run ∧ (∀ q, q ≠ p → u.parts[q] = s.parts[q]) ∧
         ((∀ m ∈ s.parts[p].models, m.unbinding = true → m.unbindCmd = none) → OnlyPart p s u)))

/-- (Rests on R323.) A step still open 1 s after its release faults with ST_STEP_FAULT on every core of it that has not
reported, and SEQ_FAULT.WATCHDOG is set there (that it is each of those cores, not the step alone: model, log entry 59); before
that, or once the step has a fault, the watchdog does nothing. (Rests on R255, R324, R331.) STEP_FAULT_ABORT completes: the
first fault of a step ends it. SEQ_PFAULT holds its code, operation, pc, core and tile; the partition's objects return to SNAP,
its flits and adds are gone. RESIDENT banks keep their bytes, as every plain of a core that took no part, but for the combine
windows, which are cleared (order 3 of R255); the rest of a plain of the step is undefined and nothing is stated of it. The
tiers change in no byte outside what descriptors of the step had begun to write (R324; how that is known: log entry 5). Without
a fault nothing happens. -/
def Obligations.FaultedStepsStop : Prop :=
  (∀ (s : State) (p : PartId) (r : StepRun), s.parts[p].run = some r → powered s = true → r.rerunPending = false →
     (∀ t ∈ partTiles s p, tilePart s t = some p) →
     (s.now.toNat < r.released.toNat + 1000000000 ∨ r.fault.isSome = true → exec (.watchdog p) s = .next s) ∧
     (r.released.toNat + 1000000000 ≤ s.now.toNat → r.fault = none →
       ∃ u, exec (.watchdog p) s = .next u ∧ SameBytes s u ∧
         (∀ k ∈ takingCores s p, (getCore s k).reported = false → SeqFaulted s u k 6 0x0204) ∧
         (∀ k, k.tile ∉ partTiles s p → getCore u k = getCore s k) ∧ u.hub = s.hub ∧ u.fabric = s.fabric ∧ u.adds = s.adds)) ∧
  (∀ (s : State) (p : PartId) (r : StepRun) (c : Constellation), s.parts[p].run = some r → s.parts[p].const = some c →
     powered s = true →
     (r.fault = none → exec (.stepFaultAbort p) s = .next s) ∧
     (∀ f, r.fault = some f → ∃ u, exec (.stepFaultAbort p) s = .next u ∧ u.parts[p].run = none ∧
       u.parts[p].pfault.toNat = f.code.toNat * 2 ^ 48 + f.opidx.toNat * 2 ^ 32 + f.pc.toNat * 2 ^ 16 + f.core.core.val * 2 ^ 8 + f.core.tile.val ∧
       (∀ k a, a < 0x400000 →
         (k.tile ∈ partTiles s p → (getCore s k).taking = true → (getCore s k).pln.resident.getLsbD (a / 0x80000) = true) →
         (¬InCombineWindow c (.plain k) a → byteAt u (.plain k) a = byteAt s (.plain k) a) ∧
         (InCombineWindow c (.plain k) a → byteAt u (.plain k) a = 0)) ∧
       (∀ m a, TierByte m → (∀ x ∈ r.outputs, ¬InRange m a x) → byteAt u m a = byteAt s m a) ∧
       (∀ k, k.tile ∈ partTiles s p → (getCore u k).port = [] ∧ (getCore u k).ag.running = none ∧ (getCore u k).ag.queue = [] ∧
         (getCore u k).sp.running = none ∧ (getCore u k).taking = false ∧ (getCore u k).blocked = .none ∧
         (getCore u k).ag.setX.tag.getLsbD 63 = false ∧ (getCore u k).seq.fault = (getCore s k).seq.fault) ∧
       (∀ o x, getObj s o = some x → x.owner.toNat = p.val → (o.node = 0 ∨ ∃ t ∈ partTiles s p, o.node = tileNode t) →
         ∃ y, getObj u o = some y ∧ y.count = x.snap ∧ y.snap = x.snap ∧ y.localWaiters = 0) ∧
       (∀ g ∈ u.fabric, g.part.toNat ≠ p.val) ∧ (∀ a ∈ u.adds, a.part ≠ p.val) ∧
       u.parts[p].nextStepno = s.parts[p].nextStepno))

/-- (Rests on R255 to R258, R265, R266, R324.) The first parity detection in an open step stops it for a re-run and is recorded
in the plain's registers; the combine windows and those of row-function records are cleared, every other byte stays; a second
one faults the step with PLN_FAULT.PARITY_SECOND, and a RESIDENT bank then waits for its reload; a detection after a fault is
only recorded. (Rests on R258, R436, R618.) RESIDENT_BANK_RELOAD completes: between steps, a bank that waits for its reload is
written again from the models' sections and the preloads; a hit word of a model bound from a host buffer is not written, and
that model is damaged instead. With nothing of the constellation or a model in the bank only the wait ends; what is written
again is recorded as a residency reload. -/
def Obligations.ParityErrorsRerunOrReload : Prop :=
  (∀ (s : State) (k : CoreId) (p : PartId) (r : StepRun) (port : Port) (word : BitVec 19),
     coreRun s k = some (p, r) → powered s = true → r.opened = true →
     let pln := (getCore s k).pln
     let id : BitVec 3 := match port with | .wf => 0 | .af => 1 | .sx => 2 | .dr => 3 | .ce => 4 | .rx => 5
     (r.fault = none → r.detections = 0 →
       ∃ u r', exec (.parityRerun k port word) s = .next u ∧ u.parts[p].run = some r' ∧ r'.rerun = true ∧ r'.rerunPending = true ∧
         r'.detections = 1 ∧ r'.fault = none ∧ r'.stepno = r.stepno ∧
         (∀ c, s.parts[p].const = some c → ∀ m a, (InCombineWindow c m a → byteAt u m a = 0) ∧
           (¬InCombineWindow c m a → byteAt u m a = byteAt s m a)) ∧
         (getCore u k).pln = { pln with
           detects := satAdd pln.detects 1
           reruns := satAdd pln.reruns 1
           parWord := word
           parPort := id
           blockHc := (getCore u k).pln.blockHc } ∧
         ((getCore s k).tagBlocks = [] → (getCore u k).pln.blockHc = pln.blockHc) ∧
         (∀ o x, getObj s o = some x → x.owner.toNat = p.val → o.node = 0 → ∃ y, getObj u o = some y ∧ y.count = x.snap)) ∧
     (r.fault = none → 0 < r.detections →
       ∃ u r' f, exec (.parityRerun k port word) s = .next u ∧ u.parts[p].run = some r' ∧ r'.fault = some f ∧ f.code = 0x0204 ∧
         f.core = k ∧ r'.rerunPending = false ∧ SameBytes s u ∧ (getCore u k).pln.fault.getLsbD 1 = true ∧
         (getCore u k).pln.reruns = pln.reruns ∧ (getCore u k).pln.detects = satAdd pln.detects 1 ∧
         (getCore u k).pln.parWord = word ∧ (getCore u k).pln.parPort = id ∧
         (pln.resident.getLsbD (word.toNat / 2 ^ 16) = true → (getCore u k).reload = some word) ∧
         (pln.resident.getLsbD (word.toNat / 2 ^ 16) = false → (getCore u k).reload = (getCore s k).reload)) ∧
     (r.fault.isSome = true → ∃ u, exec (.parityRerun k port word) s = .next u ∧ OnlyCore k s u ∧
       (getCore u k).pln.detects = satAdd pln.detects 1 ∧ (getCore u k).pln.parWord = word ∧ (getCore u k).pln.parPort = id)) ∧
  (∀ (s : State) (k : CoreId) (p : PartId) (b : Fin 8) (word : BitVec 19), tilePart s k.tile = some p → powered s = true →
     (getCore s k).reload = some word → b.val = word.toNat / 2 ^ 16 →
     (s.parts[p].run.isSome = true → exec (.residentBankReload k b) s = .next s) ∧
     (s.parts[p].run = none → tileAwake s k.tile = true → s.parts[p].models = [] → ∃ u, exec (.residentBankReload k b) s = .next u ∧
       (getCore u k).reload = none ∧
       u = updPart (updCore s k (fun _ => getCore u k)) p (fun q => { q with reloads := u.parts[p].reloads }) ∧
       (∀ c q, s.parts[p].const = some c → c.preloads = [q] → q.tile = k.tile.val → q.core = k.core.val →
         q.offset + q.bytes.length ≤ (b.val + 1) * 0x80000 → b.val * 0x80000 ≤ q.offset →
         memRead (getCore u k).plain q.offset q.bytes.length = q.bytes ∧
         (q.bytes ≠ [] → u.parts[p].reloads.length = s.parts[p].reloads.length + 1))) ∧
     (s.parts[p].run = none → ∀ i m x, plainSections s.parts[p] k (8 * word.toNat) 8 = [(i, m, x)] →
       m.fromStore = false → ∃ u, exec (.residentBankReload k b) s = .next u ∧ (getCore u k).reload = none ∧ SameBytes s u ∧
         u.parts[p] = damageModel s.parts[p] i 0x0204))

/-- (Rests on R460, R461, R470, R474, R484, R485, R489, R495, R497, R498.) At the end of a budget window the meters, with the
gains of that window, join the energy accumulators, the overrun becomes the carry (at most one window's energy), the mirror's
generation grows by 2, and the next window begins under the pair and length due then; before that tick nothing happens. Which
window an event of its last tick counts in is the model's choice (log entry 56). -/
def Obligations.BudgetWindowLatchesTheMeters : Prop :=
  ∀ (s : State) (m : MeterInput), powered s = true → s.boot.ready = true →
    (s.now.toNat < s.sched.nextStart.toNat → exec (.budgetWindowStart m) s = .next s) ∧
    (s.sched.nextStart.toNat ≤ s.now.toNat →
      let uj := gained m.module s.hub.mgain
      let limit := bEff s.sched * s.sched.lenMs * 1000
      let w := (dueAt s.sched.nextStart s.sched.windowPending).getD s.sched.windowMs
      ∃ u, exec (.budgetWindowStart m) s = .next u ∧
        (∀ t : TileId, u.tiles[t].pwr.ecore = s.tiles[t].pwr.ecore + BitVec.ofNat 64 (gained m.compute[t] s.tiles[t].pwr.gain) ∧
          u.tiles[t].pwr.ebase = s.tiles[t].pwr.ebase + BitVec.ofNat 64 (gained m.base[t] s.tiles[t].pwr.gain) ∧
          u.tiles[t].pwr.gain = (dueAt s.sched.nextStart s.tiles[t].pwr.gainPending).getD s.tiles[t].pwr.gain) ∧
        u.sched.emod = s.sched.emod + BitVec.ofNat 64 uj ∧ u.sched.carry = min (uj - limit) limit ∧
        u.sched.gen = s.sched.gen + 2 ∧ u.sched.window = s.sched.window + 1 ∧ u.sched.start = s.sched.nextStart ∧
        u.sched.lenMs = w.toNat ∧ u.sched.nextStart = s.sched.nextStart + BitVec.ofNat 64 (w.toNat * 1000000) ∧
        (u.sched.budget5, u.sched.acoustic) = (dueAt s.sched.nextStart s.sched.pending).getD (s.sched.budget5, s.sched.acoustic) ∧
        (∀ p : PartId, u.parts[p].stepsDone = s.parts[p].stepsNext ∧ u.parts[p].missesDone = s.parts[p].missesNext) ∧
        (∀ k, getCore u k = getCore s k))

/-- (Rests on R108, R188, R245, R408 to R410, R419, R479.) A tile chosen at the window start parks at a meridian: ON banks go to
RETAIN, sets and the fine store are lost, plains keep their bytes; at a meridian a step or a stream that needs it wakes it,
banks return to ON and the lines and copies that waited for it go on (R378); it reports awake with the time its wake took. That
orders 1 to 5 of the wake, and the entry, happen at once is log entry 87; that the fine store reads zero after a park is log
entry 28. -/
def Obligations.TilesParkAndWake : Prop :=
  ∀ (s : State) (t : TileId), powered s = true → s.boot.ready = true →
    (s.tiles[t].pas.valley = 0 → s.tiles[t].pwr.parkChosen = true → s.test.test = false → tileAtMeridian s t = true →
      runNeeds s t = false → ∃ u, exec (.valleyEntry t) s = .next u ∧ OnlyTile t s u ∧ u.tiles[t].pas.valley = 2 ∧
        tileAwake u t = false ∧ (∀ a, byteAt u (.fineStore t) a = 0) ∧
        (∀ c, byteAt u (.plain ⟨t, c⟩) = byteAt s (.plain ⟨t, c⟩) ∧ (getCore u ⟨t, c⟩).ag.setX = AccSet.reset ∧
          (getCore u ⟨t, c⟩).sp.setY = AccSet.reset ∧ (getCore u ⟨t, c⟩).tags = (getCore s ⟨t, c⟩).tags ∧
          ∀ b < 8, bankPower (getCore u ⟨t, c⟩) b =
            if bankPower (getCore s ⟨t, c⟩) b = 1 then 2 else bankPower (getCore s ⟨t, c⟩) b)) ∧
    ((s.tiles[t].pwr.parkChosen = false ∨ runNeeds s t = true ∨ s.test.test = true) → exec (.valleyEntry t) s = .next s) ∧
    (s.tiles[t].pas.valley = 2 → tileAtMeridian s t = true → (runNeeds s t = true ∨ isPinned s t = true) →
      ∃ u, exec (.valleyWake t) s = .next (pumpAll (forAll allTiles flushOutbox u)) ∧ OnlyTile t s u ∧ SameBytes s u ∧ u.tiles[t].pas.valley = 3 ∧
        u.tiles[t].pas.wakeAsked = s.now ∧ u.tiles[t].pas.hbmSr = false ∧ u.tiles[t].pwr.vset = s.tiles[t].pwr.vnext ∧
        ∀ c, ∀ b < 8, bankPower (getCore u ⟨t, c⟩) b =
          if bankPower (getCore s ⟨t, c⟩) b = 2 then 1 else bankPower (getCore s ⟨t, c⟩) b) ∧
    (s.tiles[t].pas.valley = 3 → ∃ u, exec (.tileAwake t) s = .next (pumpAll (forAll allTiles flushOutbox u)) ∧ OnlyTile t s u ∧
      SameBytes s u ∧ (∀ k, getCore u k = getCore s k) ∧ u.tiles[t].pas.valley = 0 ∧
      u.tiles[t].pas.wakes = satAdd s.tiles[t].pas.wakes 1 ∧
      u.tiles[t].pas.lastWake.toNat = min (s.now.toNat - s.tiles[t].pas.wakeAsked.toNat) 0xFFFF)

/-- (Rests on R214, R459, R482.) A measurement holds the reading with its user offset; above 105 °C a started tile in service or
test enters RECOVERY at its next meridian with its recovery tolerance (0 while its partition's mode is fixed), above 110 °C
THERM_WARN is set; die 12 is the hub. (Rests on R454, R482, R605.) 115 °C on any sensor switches the module off until 12 V is
removed; so does an advertised power below 450 W, which also keeps a module that 12 V is applied to off. Off, plains, passes and
partitions' steps are lost; the record, the fuses and the host's memory stay. -/
def Obligations.SensorsProtectTheModule : Prop :=
  (∀ (s : State) (raw : BitVec 16), powered s = true →
     (∀ (t : TileId), let v := raw + s.tiles[t].pwr.toff
       ∃ u, exec (.temperatureMeasurement ⟨t.val, by omega⟩ raw) s = .next u ∧ SameBytes s u ∧ u.tiles[t].pwr.tj = v ∧
         u.sched.thermWarn = (s.sched.thermWarn || decide (1760 < v.toInt)) ∧ (∀ k, getCore u k = getCore s k) ∧
         (∀ n, n ≠ t → u.tiles[n] = s.tiles[n]) ∧ u.hub = s.hub ∧
         (1680 < v.toInt → s.boot.ready = true → tileAtMeridian s t = true → (s.tiles[t].pwr.context = 0 ∨ s.tiles[t].pwr.context = 2) →
           u.tiles[t].pwr.context = 3 ∧
           u.tiles[t].pwr.tl = if s.tiles[t].pwr.reproFixed = true then 0 else s.tiles[t].pwr.tlRecovery) ∧
         (1680 < v.toInt → s.boot.ready = true → tileAtMeridian s t = false →
           u.tiles[t].pwr.context = s.tiles[t].pwr.context ∧ u.tiles[t].pwr.enterRec = true) ∧
         (v.toInt ≤ 1680 → s.tiles[t].pwr.enterRec = false → s.tiles[t].pwr.leaveRec = false →
           u.tiles[t].pwr.context = s.tiles[t].pwr.context)) ∧
     (let v := raw + s.hub.htoff
      ∃ u, exec (.temperatureMeasurement 12 raw) s = .next u ∧ u.tiles = s.tiles ∧ u.parts = s.parts ∧
       u.hub = { s.hub with tj := v } ∧ u.sched.thermWarn = (s.sched.thermWarn || decide (1760 < v.toInt)))) ∧
  (∀ (s : State),
     (powered s = true → ∀ (die : Fin 13) (raw : BitVec 16),
       (raw.toInt < 1840 → exec (.thermalTrip die raw) s = .next s) ∧
       (1840 ≤ raw.toInt → ∃ u, exec (.thermalTrip die raw) s = .next u ∧ powered u = false ∧ u.module = ⟨true, false, true⟩ ∧
         (∀ k, (getCore u k).plain = []) ∧ u.fabric = [] ∧ u.adds = [] ∧ (∀ p : PartId, u.parts[p].run = none) ∧ u.boot.ready = false ∧
         u.boot.copyA = s.boot.copyA ∧ u.boot.copyB = s.boot.copyB ∧ u.fuses = s.fuses ∧ u.hostMem = s.hostMem)) ∧
     (powered s = true → ∀ watts, (450 ≤ watts → exec (.senseSample watts) s = .next s) ∧
       (watts < 450 → ∃ u, exec (.senseSample watts) s = .next u ∧ powered u = false ∧ u.module = ⟨true, false, true⟩ ∧
         u.boot.copyA = s.boot.copyA ∧ u.boot.copyB = s.boot.copyB)) ∧
     (∀ watts, (s.module.v12 = true → exec (.powerApply watts) s = .next s) ∧
       (s.module.v12 = false → ∃ u, exec (.powerApply watts) s = .next u ∧ powered u = decide (450 ≤ watts) ∧
         u = { s with module := ⟨true, decide (450 ≤ watts), decide (watts < 450)⟩ })) ∧
     (s.module.v12 = true → ∃ u, exec .powerRemove s = .next u ∧ u.module = ⟨false, false, false⟩ ∧ powered u = false ∧
       (∀ k, (getCore u k).plain = []) ∧ u.boot.copyA = s.boot.copyA ∧ u.boot.copyB = s.boot.copyB ∧ u.fuses = s.fuses))

/-- (Rests on R568, R570, R571, R574, R578, R580.) A start whose conditions all hold, on a module with a valid record and no
staged import, restores the record's settings, writes the next generation and reaches order 11, or waits for PERST# after order
10 (STAGE meanwhile: log entry 90); the lowest tile whose sweep fails stops it at order 9 with the tiles in CALIBRATION. A
condition found to fail at order 1 stops it there with the unit named; a record copy torn by the loss of power is not valid.
(Rests on R568 order 11, R461.) With the endpoint enabled and order 10 done the module is ready, the management port opens and
window 0 of the budget begins; otherwise READY does nothing. -/
def Obligations.StartupReachesReady : Prop :=
  (∀ (s : State) (r : Retained) (isB : Bool), powered s = true → s.boot.started = false →
     (∀ (d : BootDetail) (found : StartInput), found.failure = some (1, d) →
       ∃ u, exec (.startup found) s = .next u ∧ u.boot.stage = 1 ∧ u.boot.stopped = true ∧
         u.boot.detail = d ∧ u.boot.started = true ∧ u.boot.ready = s.boot.ready ∧ u.boot.writable = found.writable ∧
         u.boot.copyA = (if found.torn = true ∧ s.boot.copyIsB = true then none else s.boot.copyA) ∧
         u.boot.copyB = (if found.torn = true ∧ s.boot.copyIsB = false then none else s.boot.copyB) ∧
         (∀ t : TileId, u.tiles[t] = { s.tiles[t] with mem := { s.tiles[t].mem with trained := false } }) ∧
         u.hub = { s.hub with trained := false }) ∧
     (selectCopy s.boot = some (isB, r) → s.boot.staging = none → r.layoutPending = false →
       (∀ i : Fin 3, ∃ b, chosenSlot s.boot.fw[i] = some b ∧
         (r.fwMin[i]).toNat ≤ (if b then (s.boot.fw[i]).slot1.version else (s.boot.fw[i]).slot0.version).toNat) →
       ∀ found : StartInput, found.failure = none → found.torn = false → found.writable = true → found.lost = [] →
       (∀ t : TileId, (∀ n : TileId, n < t → sweepOk (calibrate s.fuses r n).pwr found.sweep[n] = true) →
         sweepOk (calibrate s.fuses r t).pwr found.sweep[t] = false →
         ∃ u, exec (.startup found) s = .next u ∧ u.boot.stage = 9 ∧ u.boot.stopped = true ∧
           u.boot.detail = ⟨1, BitVec.ofNat 4 t.val⟩ ∧ u.hub.htoff = r.htoff ∧ u.hub.mgain = r.mgain ∧
           (∀ n : TileId, u.tiles[n].pwr.context = 1 ∧ u.tiles[n].pwr.tl = 2 ∧ u.tiles[n].pwr.toff = r.toff[n])) ∧
       ((∀ t : TileId, sweepOk (calibrate s.fuses r t).pwr found.sweep[t] = true) →
       ∃ u, exec (.startup found) s = .next u ∧ u.boot.stage = (if s.hub.perst then 10 else 11) ∧ u.boot.started = true ∧
         u.boot.stopped = s.boot.stopped ∧ u.boot.generation = r.generation + 1 ∧
         u.boot.restoreGen = r.generation ∧ u.boot.copyIsB = !isB ∧ u.hub.epoch = r.bootCount + 1 ∧ u.hub.endpoint = !s.hub.perst ∧
         u.sched.budget5 = r.budget5 ∧ u.sched.acoustic = r.acoustic ∧ u.sched.windowMs = r.windowMs ∧
         (∀ p : PartId, u.parts[p].layout = r.layout[p] ∧ u.parts[p].run = none ∧ u.parts[p].const = none) ∧
         (∀ t : TileId, u.tiles[t].pwr.toff = r.toff[t] ∧ u.tiles[t].pwr.gain = r.gain[t]) ∧
         u.fuses = s.fuses ∧ u.hostMem = s.hostMem))) ∧
  (∀ (s : State), powered s = true →
     (s.boot.stage ≠ 11 ∨ s.hub.endpoint = false ∨ s.boot.ready = true → exec .ready s = .next s) ∧
     (s.boot.ready = false → s.boot.started = true → s.boot.stopped = false → s.boot.stage = 11 → s.hub.endpoint = true →
       ∃ u, exec .ready s = .next u ∧ u.boot = { s.boot with ready := true } ∧ u.mgmt.portOpen = true ∧ u.sched.window = 0 ∧
         u.sched.carry = 0 ∧ u.sched.start = s.now ∧
         u.sched.nextStart = s.now + BitVec.ofNat 64 (((dueAt s.now s.sched.windowPending).getD s.sched.windowMs).toNat * 1000000) ∧
         (∀ k, getCore u k = getCore s k)))

/-- (Rests on R426, R432, R436, R447.) Each granule of tier 2 is written once after the start, in order; a patrol read adds what
it corrected and detected, and the blocks in which it detected an error stay failing; of the sections that wait for repair the
first is decrypted again from its object between steps, or damages its model, with the code of what was found, when it cannot
be. -/
def Obligations.BackgroundWorkOnTheTiers : Prop :=
  ∀ (s : State), powered s = true → s.boot.ready = true →
    (s.hub.initGranules.toNat < 744 → ∃ u, exec .granuleInit s = .next u ∧ u.hub.initGranules = s.hub.initGranules + 1) ∧
    (744 ≤ s.hub.initGranules.toNat → exec .granuleInit s = .next s) ∧
    (∀ (t : TileId) (c : BitVec 16) (bs : List (BitVec 56)), (∀ a ∈ bs, ∃ o, placeOf (blockOf a) = some (.hbm t o)) →
      ∃ u, exec (.patrolRead t c bs) s = .next u ∧ u = { updTile s t (fun _ => u.tiles[t]) with badBlocks := u.badBlocks } ∧
        SameBytes s u ∧ u.tiles[t] = { s.tiles[t] with mem := { s.tiles[t].mem with
          corrected := satAdd s.tiles[t].mem.corrected c.toNat
          uncorrected := satAdd s.tiles[t].mem.uncorrected bs.length } } ∧
        (∀ a ∈ bs, (BitVec.ofNat 56 (blockOf a), false) ∈ u.badBlocks)) ∧
    (∀ (p : PartId) (i j : Nat) (code : BitVec 16) (rest : List (Nat × Nat × BitVec 16)) (m : Model) (x : Section),
      s.parts[p].damaged = (i, j, code) :: rest →
      s.parts[p].models[i]? = some m → m.sections.find? (fun y => y.index == j) = some x →
      (s.parts[p].run.isSome = true → exec (.modelSectionRepair p) s = .next s) ∧
      (s.parts[p].run = none → m.fromStore = false → ∃ u, exec (.modelSectionRepair p) s = .next u ∧ OnlyPart p s u ∧
        u.parts[p].damaged = rest ∧ u.parts[p].models[i]? = some { m with
          state := .failed
          status := code
          hurt := true } ∧
        (∀ n, n ≠ i → u.parts[p].models[n]? = s.parts[p].models[n]?)) ∧
      (s.parts[p].run = none → m.fromStore = true → ∀ o d k, sealedObj s.parts[p] m.objId = some o → deviceEntry s o.bytes = some d →
        x.tier = 0x10 → sectionCore x = some k → tileAwake s k.tile = true →
        let ck := contentKey s o.bytes d
        let e := secEntry o.bytes x.index
        ∃ u, exec (.modelSectionRepair p) s = .next u ∧ u.parts[p].damaged = rest ∧
          if lostIn o (seOffset e) (seLength e) = [] ∧ tagOk o.bytes ck x.index = true then
            memRead (getCore u k).plain x.loc (seLength (secEntry o.bytes x.index)) = plaintext o.bytes ck x.index ∧
            u.parts[p].models = s.parts[p].models ∧ (∀ j, j ≠ k → getCore u j = getCore s j)
          else u = { updPart s p (fun _ => damageModel { s.parts[p] with damaged := rest } i code) with
            hub := u.hub
            freeNext := u.freeNext }))

/-- (Rests on R237, R239, R246, R377, R404, R407.) An admitted write flit whose plain access proceeds commits its bytes there
and nowhere else, and its credit goes back to a source router other than the hub; then its sender goes on (R333, R368). PLN_BUSY
stays where no other port writes or reads the line (R251); the hc that the port waited are free (log entry 10). (Rests on R393.)
An admitted read request whose plain access proceeds, or one to HBM, is answered with the 64 bytes of its line under its own
transaction id; no byte changes. In a plain no other port writes the line meanwhile (R251). -/
def Obligations.FlitsReadAndWriteMemory : Prop :=
  (∀ (s : State) (src dst : NodeId) (i : Nat) (f : Flit) (k : CoreId) (o : Nat),
     nextFlit s src dst true = some (i, f) → f.kind = .write → admitted s f = true →
     placeOf f.addr.toNat = some (.plain k o) → access (getCore s k) (flitPort f) true o = .proceeds →
     recordWindow s k o = none →
     let rest : State := { s with fabric := s.fabric.eraseIdx i }
     ∃ u, exec (.flitWrite src dst) s = .next (wakeSender u f) ∧ memRead (getCore u k).plain o f.payload.length = f.payload ∧
       (∀ m a, ¬(m = .plain k ∧ o ≤ a ∧ a < o + f.payload.length) → byteAt u m a = byteAt s m a) ∧
       (tagModeOf (getCore s k) (o / 1024) = 0 → 0 < f.payload.length → o % 1024 + f.payload.length ≤ 1024 → (getCore u k).tags = (getCore s k).tags) ∧
       (writersOf rest k (flitPort f) o = [] → readersOf rest k (flitPort f) o = [] →
         (getCore u k).pln = { (getCore s k).pln with otherStall := (getCore u k).pln.otherStall }) ∧ (∀ j, j ≠ k → getCore u j = getCore s j) ∧
       u.parts = s.parts ∧
       (f.src = 0 → u.fabric = s.fabric.eraseIdx i) ∧
       (f.src ≠ 0 → ∃ seqs, u.fabric = s.fabric.eraseIdx i ++ [{ f with
         src := f.dst
         dst := f.src
         kind := .creditReturn
         payload := []
         seqs := seqs }])) ∧
  (∀ (s : State) (src dst : NodeId) (i : Nat) (f : Flit),
     nextFlit s src dst true = some (i, f) → f.kind = .readRequest → admitted s f = true →
     let rest : State := { s with fabric := s.fabric.eraseIdx i }
     let answered (u : State) (bs : List Byte) : Prop := ∃ seqs, u.fabric = s.fabric.eraseIdx i ++ [{ f with
       src := f.dst
       dst := f.src
       kind := .readResponse
       payload := bs
       seqs := seqs }]
     (∀ k o, placeOf f.addr.toNat = some (.plain k o) → access (getCore s k) (flitPort f) false o = .proceeds →
       access (getCore s k) .ce false o = .proceeds → writersOf rest k .ce o = [] →
       ∃ u, exec (.flitReadRequest src dst) s = .next u ∧ SameBytes s u ∧ u.parts = s.parts ∧
         answered u (memRead (getCore s k).plain o 64)) ∧
     (∀ t o, placeOf f.addr.toNat = some (.hbm t o) →
       ∃ u, exec (.flitReadRequest src dst) s = .next u ∧ SameBytes s u ∧ u.parts = s.parts ∧ (∀ k, getCore u k = getCore s k) ∧
         u.tiles[t].pas.hbmSr = false ∧ answered u (memRead s.tiles[t].hbm o 64)))

/-- (Rests on R369, R377, R393, R407.) What the other admitted flits do at their destination: a signal's add joins those in
flight at its object; a commit acknowledgement lets the SIGNAL of its core complete; a wait release gives its core the outcome;
a read response gives its line to the descriptor that asked; a credit return adds one credit of the window; a refusal sets
PAS_FAULT.FILTER with the address and faults the step that sent the flit. (Rests on R362, R364, R370, R371.) A wait registration
from another node that arrives at an object: satisfied, the node answers with a wait release at once and TAKE subtracts TARGET;
otherwise the lowest free REMOTE entry names the core and the node keeps its timer. (Rests on R407.) A flit that the filter of
its destination refuses is dropped and counted, its sender is told by a refusal with the address, and no byte, object or core
changes. -/
def Obligations.FlitsReachTheirReceivers : Prop :=
  (∀ (s : State) (src dst : NodeId) (i : Nat) (f : Flit), admitted s f = true →
     let rest : State := { s with fabric := s.fabric.eraseIdx i }
     (nextFlit s src dst true = some (i, f) → f.kind = .signal → ∀ o, objAt f.addr = some o →
       ∃ a, exec (.flitSignal src dst) s = .next { rest with adds := s.adds ++ [a] } ∧ a.obj = o ∧
         a.addend.toNat = leNat (f.payload.take 4) % 2 ^ 32 ∧ a.src = f.origin ∧ a.xid = f.xid ∧
         (a.ack = true ↔ ∃ k, f.origin = .core k)) ∧
     (nextFlit s src dst false = some (i, f) → ∀ k, f.origin = .core k →
       (f.kind = .commitAck → ∀ m a v, (getCore s k).blocked = .signal m a v true →
         ∃ u, exec (.flitCommitAck src dst) s = .next u ∧ OnlyCoreFree k rest u ∧ SameBytes s u ∧ (getCore u k).blocked = .none ∧
           (getCore u k).seq.pc = (getCore s k).seq.pc + 1 ∧ (getCore u k).seq.state = .issuing ∧
           sreg (getCore u k) = sreg (getCore s k)) ∧
       (f.kind = .waitRelease → ∀ rd a x, (getCore s k).blocked = .wait rd a false x →
         ∃ u, exec (.flitWaitRelease src dst) s = .next u ∧ OnlyCoreFree k rest u ∧ SameBytes s u ∧ (getCore u k).blocked = .none ∧
           (getCore u k).seq.pc = (getCore s k).seq.pc + 1 ∧
           (rd ≠ 0 → sreg (getCore u k) rd = if f.payload.take 1 = [1] then 1 else 0) ∧
           (∀ q, q ≠ rd → sreg (getCore u k) q = sreg (getCore s k) q)) ∧
       (f.kind = .refusal → ∀ p r, coreRun s k = some (p, r) → r.rerunPending = false →
         ∃ u r', exec (.flitRefusal src dst) s = .next u ∧ SameBytes s u ∧ u.fabric = rest.fabric ∧
           u.tiles[k.tile].pas.fault.getLsbD 1 = true ∧ u.tiles[k.tile].pas.faddr = f.addr ∧ u.parts[p].run = some r' ∧
           r'.fault.map (fun x => x.code) = some (match r.fault with | some x => x.code | none => 0x0204))) ∧
     (nextFlit s src dst false = some (i, f) → f.kind = .creditReturn → ∀ t j c, dst = tileNode t →
       creditIx s t f.addr.toNat = some j → (s.tiles[t].credits)[j]? = some c →
       ∃ v, exec (.flitCreditReturn src dst) s = .next (pumpAll (flushOutbox v t)) ∧ OnlyTile t rest v ∧
         (v.tiles[t].credits)[j]? = some { c with credits := c.credits + 1 } ∧
         v.tiles[t] = { s.tiles[t] with
           credits := v.tiles[t].credits
           syn := { s.tiles[t].syn with
             waitNs := synNow rest t
             waitSeen := s.now } }) ∧
     (nextFlit s src dst false = some (i, f) → f.kind = .readResponse → ∀ e id x n r, f.origin = .engine e id x →
       placeOfRun (getEngine s e) id = some n → (getEngine s e).running[n] = some r →
       exec (.flitReadResponse src dst) s = .next (pump e n (setRun rest e n (some { r with
         need := r.need.filter (fun a => a != f.addr.toNat)
         got := r.got ++ [(f.addr.toNat, f.payload)] }))))) ∧
  (∀ (s : State) (src dst : NodeId) (i : Nat) (f : Flit) (k : CoreId) (o : ObjId) (x : SyncObj),
     nextFlit s src dst true = some (i, f) → f.kind = .waitRegistration → admitted s f = true → f.origin = .core k →
     objAt f.addr = some o → getObj s o = some x → x.mode ≠ .idle → tileNode k.tile ≠ o.node →
     (x.target.toNat ≤ x.count.toNat → ∃ u g, exec (.flitWaitRegistration src dst) s = .next u ∧ SameBytes s u ∧
       u.fabric = s.fabric.eraseIdx i ++ [g] ∧ g.kind = .waitRelease ∧ g.src = o.node ∧ g.dst = tileNode k.tile ∧
       g.payload = [0] ∧ g.origin = .core k ∧
       getObj u o = some { x with
         last := false
         stamp := s.now
         count := if x.mode = .take then x.count - x.target else x.count }) ∧
     (x.count.toNat < x.target.toNat → ∀ n : Fin 8, (x.remote[n]).getLsbD 15 = false → (∀ j < n, (x.remote[j]).getLsbD 15 = true) →
       ∃ u, exec (.flitWaitRegistration src dst) s = .next u ∧ SameBytes s u ∧ u.fabric = s.fabric.eraseIdx i ∧
         getObj u o = some { x with remote := x.remote.set n (BitVec.ofNat 16 (2 ^ 15 + (k.tile.val + 1) * 2 ^ 10 + k.core.val)) } ∧
         nodeWaiters u o.node = nodeWaiters s o.node ++ [{
           obj := o.num
           who := .remote n
           deadline := if x.timeout = 0 then none else some (s.now + BitVec.ofNat 64 (256 * x.timeout.toNat))
           since := s.now }])) ∧
  (∀ (s : State) (src dst : NodeId) (i : Nat) (f : Flit) (t : TileId), nextFlit s src dst true = some (i, f) → f.kind = .signal →
     admitted s f = false → f.dst = tileNode t →
     ∃ u g, exec (.flitSignal src dst) s = .next u ∧ u.fabric = s.fabric.eraseIdx i ++ [g] ∧ g.kind = .refusal ∧ g.src = f.dst ∧
       g.dst = f.src ∧ g.addr = f.addr ∧ g.origin = f.origin ∧ SameBytes s u ∧ u.adds = s.adds ∧ (∀ k, getCore u k = getCore s k) ∧
       u.tiles[t].pas.filtered = satAdd s.tiles[t].pas.filtered 1 ∧ (∀ o, getObj u o = getObj s o))

/-- (Rests on R395, R396, R413, R415, R417, R420.) A replay is counted at the pass it happens on; the sixteenth in a row that
fails takes the pass down: its state reads down, PAS_FAULT.DOWN is set at its tiles (both ends of a ring pass: model, log entry
79) and every running step that has no fault yet, one that waits for its re-run among them, faults with ST_PASS_DOWN and is not
run again. -/
def Obligations.SixteenFailedReplaysTakeThePassDown : Prop :=
  ∀ (s : State) (t : TileId), powered s = true →
    (∃ u, exec (.passReplay t 0 true) s = .next u ∧ OnlyTile t s u ∧ SameBytes s u ∧
      u.tiles[t].pas = { s.tiles[t].pas with
        retryCw := satAdd s.tiles[t].pas.retryCw 1
        fails := s.tiles[t].pas.fails.set 0 0 }) ∧
    (∀ d : Fin 3, s.tiles[t].pas.fails[d] + 1 < 16 → ∃ u, exec (.passReplay t d false) s = .next u ∧ OnlyTile t s u ∧ SameBytes s u ∧
      u.tiles[t].pas.fails[d] = s.tiles[t].pas.fails[d] + 1 ∧ u.tiles[t].pas.fault = s.tiles[t].pas.fault ∧
      (d = 1 → u.tiles[t].pas.retryCcw = satAdd s.tiles[t].pas.retryCcw 1) ∧
      (d = 2 → u.tiles[t].pas.retrySpoke = satAdd s.tiles[t].pas.retrySpoke 1)) ∧
    (∀ d : Fin 3, s.tiles[t].pas.fails[d] = 15 → ∃ u, exec (.passReplay t d false) s = .next u ∧ SameBytes s u ∧
      (d = 0 → u.tiles[t].pas.cw = 0) ∧ (d = 1 → u.tiles[t].pas.ccw = 0) ∧ (d = 2 → u.tiles[t].pas.spoke = 0) ∧
      (d = 0 → u.tiles[nextTile t].pas.ccw = 0 ∧ u.tiles[nextTile t].pas.fault.getLsbD 2 = true) ∧
      (d = 1 → u.tiles[prevTile t].pas.cw = 0 ∧ u.tiles[prevTile t].pas.fault.getLsbD 2 = true) ∧
      (d = 2 → u.hub.hlink.toNat / 4 ^ t.val % 4 = 0) ∧
      u.tiles[t].pas.fault.getLsbD 2 = true ∧ u.hub.passDown = true ∧
      (∀ (p : PartId) (r : StepRun), s.parts[p].run = some r → r.fault = none →
        (∃ n : TileId, partHasTile s p n = true) →
        ∃ r', u.parts[p].run = some r' ∧ r'.rerunPending = false ∧ r'.fault.map (fun x => x.code) = some 0x0207))

/-- (Rests on R512, R514, R517, R551.) IDENTIFY, the two queries and ATTEST write their block into the buffer and complete with
ST_OK; a query of an operation that does not exist completes with ST_HOST_BAD_COMMAND (model, log entry 40). Nothing else of the
module changes. (Rests on R516.) A command whose FLAGS or bytes outside its fields are not zero, or whose buffer is too short,
is refused with ST_HOST_BAD_COMMAND and has no other effect; R506: so is one of a function without a partition, with
ST_REFUSED_PARTITION. -/
def Obligations.QueriesAndMalformedCommands : Prop :=
  (∀ (s : State) (c : HostSlot) (e : List Byte),
     (CommandReady s c 0x01 e → cleanEntry e [] = true → bufOk s c.func e (some 64) = true →
       ∃ u, exec (.identify c) s = .next u ∧ OnlyHost s u ∧ Answered s u c 0 [] ∧ BufferHolds s u c e
         (natLe 16 s.fuses.deviceId.toNat ++ sliceAt (ascii "DZ-G12-4T") 0 16 ++ natLe 1 c.func.val ++
           natLe 1 (match funcPart s c.func with | some p => p.val | none => 0xFF) ++ sliceAt (versionWords s) 0 30)) ∧
     (CommandReady s c 0x02 e → entKind e = 1 → cleanEntry e [(20, 1), (22, 2)] = true → bufOk s c.func e (some 48) = true →
       ∀ p, cmdPart s c.func = some p →
       (∀ b, s.parts[p].errStatements[fieldAt e 22 2]? = some b →
         ∃ u, exec (.queryErrorStatement c) s = .next u ∧ OnlyHost s u ∧ Answered s u c 0 [] ∧ BufferHolds s u c e b) ∧
       (s.parts[p].errStatements[fieldAt e 22 2]? = none →
         ∃ u, exec (.queryErrorStatement c) s = .next u ∧ OnlyHost s u ∧ Answered s u c 0x0301 [])) ∧
     (CommandReady s c 0x02 e → entKind e = 2 → cleanEntry e [(20, 1), (22, 2)] = true → bufOk s c.func e (some 256) = true →
       ∀ p, cmdPart s c.func = some p →
         ∃ u, exec (.queryBindState c) s = .next u ∧ OnlyHost s u ∧ Answered s u c 0 [] ∧ BufferHolds s u c e (bindStates s.parts[p])) ∧
     (CommandReady s c 0x03 e → cleanEntry e [(20, 32)] = true → bufOk s c.func e (some 27264) = true →
       ∃ u, exec (.attest c) s = .next u ∧ OnlyHost s u ∧ Answered s u c 0 [] ∧
         BufferHolds s u c e (report s c.func.val (sliceAt e 20 32)))) ∧
  (∀ (s : State) (c : HostSlot) (e : List Byte),
     (CommandReady s c 0x01 e → (cleanEntry e [] = false ∨ bufOk s c.func e (some 64) = false) →
       ∃ u, exec (.identify c) s = .next u ∧ OnlyHost s u ∧ Answered s u c 0x0301 []) ∧
     (CommandReady s c 0x30 e → (cleanEntry e storeFields = false ∨ kindListed e = false ∨ entLen e ≠ 0) →
       ∃ u, exec (.create c) s = .next u ∧ OnlyHost s u ∧ Answered s u c 0x0301 []) ∧
     (CommandReady s c 0x30 e → cleanEntry e storeFields = true → kindListed e = true → entLen e = 0 → entBuf e = 0 →
       cmdPart s c.func = none → ∃ u, exec (.create c) s = .next u ∧ OnlyHost s u ∧ Answered s u c 0x0108 []))

/-- (Rests on R287, R293.) A load whose checks fail completes with their code and result and changes nothing of the partition;
one that passes loads the constellation: STEPNO starts at 0, no stream is open, no model is bound, and each core of the
partition holds its frame's tags and registers. Its frame and its completion entry are stated for a partition whose tiles are
awake: waking one lets waiting lines and copies go on meanwhile (R378). (Rests on R432, R547 to R549.) A bind whose first four
orders fail completes with their code and changes nothing of the module but what reading an object counts (log entry 22); one
that waits for a granule waits; else it completes: with ST_OK and the model bound with the image's digests and sections where
every tag, both digests and the weights' tests hold, else with a code and no other model bound, which is ST_IMAGE_AUTH where a
tag or a digest does not match. The image comes from the buffer or from a SEALED object whose codewords are all correct; without
that object the code is ST_STORE_NO_OBJECT, once a constellation is loaded. The completion is stated with no block failing
(R431) and every tile awake: waking one lets waiting lines and copies go on meanwhile (R378). An unbind marks its model and
completes at the meridian. What each field of an image's digest covers, which model of a name an unbind takes: log entries 31,
39, 40. -/
def Obligations.LoadsAndBindsAnswerTheirChecks : Prop :=
  (∀ (s : State) (c : HostSlot) (e : List Byte) (p : PartId), cmdPart s c.func = some p →
     CommandReady s c 0x10 e → cleanEntry e [(20, 1), (24, 8)] = true → bufOk s c.func e (sourceBuf e) = true → entKind e = 0 →
     s.parts[p].resJobs = [] → s.hub.passDown = false → s.parts[p].models = [] →
     let img := hostRead s c.func (entBuf e) (entLen e)
     ∃ u, exec (.constLoad c) s = .next u ∧
       match checkLoad (markStarted s c) p (some c.func) img with
       | .error x => OnlyHost s u ∧ Answered s u c x.code (loadResult x)
       | .ok v => u.parts[p].const = some (parseImage img) ∧
           u.parts[p].nextStepno = 0 ∧ u.parts[p].streams = [] ∧ u.parts[p].models = [] ∧ u.parts[p].vadm = BitVec.ofNat 10 v ∧
           ((∀ t ∈ partTiles s p, tileAwake s t = true) → Answered s u c 0 [] ∧ (∀ q, q ≠ p → u.parts[q] = s.parts[q])) ∧
           ((∀ t ∈ partTiles s p, tileAwake s t = true) → ∀ k f, partHasTile s p k.tile = true → frameOf (parseImage img) k = some f →
             (getCore u k).tags = f.tagInit ∧ (getCore u k).tagMode = f.tagMode ∧ (getCore u k).pln.resident = f.resident ∧
             (getCore u k).seq.fault = (getCore s k).seq.fault ∧
             ∀ i : Fin 32, sreg (getCore u k) i = if i.val = 0 then 0 else (f.sreg[i.val - 1]?).getD 0)) ∧
  (∀ (s : State) (c : HostSlot) (e : List Byte) (p : PartId), cmdPart s c.func = some p →
     (CommandReady s c 0x11 e → cleanEntry e [(20, 1), (24, 8)] = true → bufOk s c.func e (sourceBuf e) = true → entKind e ≤ 1 →
       (entKind e = 1 → s.parts[p].const = none → ∃ u, exec (.modelBind c) s = .next u ∧ OnlyHost s u ∧ Answered s u c 0x0108 []) ∧
       (s.parts[p].const.isSome = true → sourceImage s c p e = none →
         ∃ u, exec (.modelBind c) s = .next u ∧ OnlyHost s u ∧ Answered s u c stStoreNoObject []) ∧
       (∀ img, sourceImage s c p e = some img →
         (entKind e = 1 → ∀ o, visibleObj s.parts[p] (entId e) = some o → o.lost = [] ∧ s.parts[p].const.isSome = true) →
         match bindChecks s p img with
         | .error code => ∃ u, exec (.modelBind c) s = .next u ∧ (entKind e = 0 → OnlyHost s u) ∧ u.parts = s.parts ∧ u.tiles = s.tiles ∧
             Answered s u c code []
         | .ok (k, d) =>
           let ck := contentKey s img d
           let bounds : List Bound := (secList img).map (fun x => ⟨x.2, plaintext img ck x.1⟩)
           let texts := (List.range (imgNsect img)).flatMap (plaintext img ck)
           let auth : Bool := (List.range (imgNsect img)).all (tagOk img ck) && imageDigest img == sliceAt img 32 32 &&
             shake 32 texts == sliceAt img 64 32
           (bindReady s img = false → exec (.modelBind c) s = .next s) ∧
           (bindReady s img = true → s.badBlocks = [] → (∀ t : TileId, tileAwake s t = true) →
             ∃ u code, exec (.modelBind c) s = .next u ∧ Answered s u c code [] ∧
             (auth = false → code = 0x0404) ∧
             (auth = true → weightsFail k bounds = none → code = 0) ∧
             (code = 0 → ∃ m ∈ u.parts[p].models, m.state = .bound ∧ m.objId = (if entKind e = 0 then 0 else entId e) ∧
               m.digest = sliceAt img 32 32 ∧ m.contentDigest = sliceAt img 64 32 ∧ m.hurt = false ∧
               m.sections = (secList img).map (fun x => sectionOf x.1 x.2)) ∧
             (code ≠ 0 → ∀ m ∈ u.parts[p].models, m.state = .bound → m ∈ s.parts[p].models) ∧
             u.parts[p].const = s.parts[p].const ∧ u.parts[p].run = s.parts[p].run))) ∧
     (CommandReady s c 0x12 e → cleanEntry e [(24, 8)] = true → entBuf e = 0 → entLen e = 0 →
       (unbindTarget s.parts[p] (entId e) = none → ∃ u, exec (.modelUnbind c) s = .next u ∧ OnlyHost s u ∧ Answered s u c 0x0301 []) ∧
       (∀ i m, unbindTarget s.parts[p] (entId e) = some i → s.parts[p].models[i]? = some m →
         ∃ u, exec (.modelUnbind c) s = .next u ∧ OnlyPartAndHost p s u ∧ u.hostMem = s.hostMem ∧
           u.parts[p].models[i]? = some { m with
             unbinding := true
             unbindCmd := some c } ∧
           (∀ j, j ≠ i → u.parts[p].models[j]? = s.parts[p].models[j]?))))

/-- (Rests on R464, R520, R521, R549.) A best-effort SESSION_OPEN takes the lowest free id from 1 (model, log entry 41) and
returns it; 256 open sessions refuse another with ST_HOST_SESSION_LIMIT; an open that waited for a bind is answered once the
bind is over; a close of an idle session ends it, and of an unknown one is ST_HOST_NO_SESSION. -/
def Obligations.SessionsOpenAndClose : Prop :=
  ∀ (s : State) (c : HostSlot) (p : PartId),
    (∀ e, cmdPart s c.func = some p → CommandReady s c 0x20 e → cleanEntry e [(20, 2)] = true → entBuf e = 0 → entLen e = 0 →
      s.parts[p].resJobs = [] → fieldAt e 20 2 = 0xFFFF →
      (s.parts[p].sessions.length < 256 → ∀ id : Nat, 1 ≤ id → id < 257 → (∀ y ∈ s.parts[p].sessions, y.id ≠ id) →
        (∀ j, 1 ≤ j → j < id → ∃ y ∈ s.parts[p].sessions, y.id = j) →
        ∃ u, exec (.sessionOpen c) s = .next u ∧ OnlyPartAndHost p s u ∧ Answered s u c 0 (natLe 2 0 ++ natLe 2 id ++ List.replicate 10 0) ∧
          u.parts[p] = { s.parts[p] with sessions := s.parts[p].sessions ++ [⟨id, none, none⟩] }) ∧
      (256 ≤ s.parts[p].sessions.length →
        ∃ u, exec (.sessionOpen c) s = .next u ∧ OnlyHost s u ∧ Answered s u c 0x0306 [])) ∧
    (∀ rest, s.parts[p].waitingOpens = (c, 0xFFFF) :: rest → hostReady s = true → s.parts[p].sessions = [] →
      (s.parts[p].resJobs = [] → ∃ u, exec (.sessionOpenAfterBind p) s = .next u ∧ u.parts[p].waitingOpens = rest ∧
        u.parts[p].sessions = [⟨1, none, none⟩] ∧ u.tiles = s.tiles) ∧
      (∀ id, s.parts[p].resJobs = [.bind id] → exec (.sessionOpenAfterBind p) s = .next s)) ∧
    (∀ e x, cmdPart s c.func = some p → CommandReady s c 0x21 e → cleanEntry e [(20, 2)] = true → entBuf e = 0 → entLen e = 0 →
      (openSessionOf s.parts[p] (fieldAt e 20 2) = none →
        ∃ u, exec (.sessionClose c) s = .next u ∧ OnlyHost s u ∧ Answered s u c 0x0303 []) ∧
      (s.parts[p].sessions = [x] → x.id = fieldAt e 20 2 → x.closing = none → s.parts[p].queue = [] → s.parts[p].run = none →
        ∃ u, exec (.sessionClose c) s = .next u ∧ Answered s u c 0 [] ∧ u.parts[p].sessions = [] ∧
          u.parts[p].streams = [] ∧ OnlyVadm s u))

/-- (Rests on R317, R436, R517 to R520.) An ENQUEUE on an open best-effort session, with every operation covered by a bucket,
waits in the partition's queue with its entry point, arguments, priority and arrival and completes later; without a session it
is refused with ST_HOST_NO_SESSION, for a damaged partition with ST_MODEL_DAMAGED, and with 64 steps queued with
ST_HOST_RING_FULL. -/
def Obligations.EnqueueQueuesTheStep : Prop :=
  ∀ (s : State) (c : HostSlot) (e : List Byte) (p : PartId), cmdPart s c.func = some p → CommandReady s c 0x22 e →
    cleanEntry e [(20, 6), (32, 8)] = true → bufOk s c.func e (some (64 + 16 * fieldAt e 24 2)) = true →
    fieldAt e 22 1 ≤ 15 → fieldAt e 23 1 ≤ 7 →
    (openSessionOf s.parts[p] (fieldAt e 20 2) = none →
      ∃ u, exec (.enqueue c) s = .next u ∧ OnlyHost s u ∧ Answered s u c 0x0303 []) ∧
    (∀ ses k, openSessionOf s.parts[p] (fieldAt e 20 2) = some ses → ses.contract = none → s.hub.passDown = false →
      s.parts[p].const = some k →
      (partDamaged s.parts[p] = true → ∃ u, exec (.enqueue c) s = .next u ∧ OnlyHost s u ∧ Answered s u c 0x020F []) ∧
      (partDamaged s.parts[p] = false → fieldAt e 32 8 = 0 →
        let blk := hostRead s c.func (entBuf e) (64 + 16 * fieldAt e 24 2)
        shapesOk blk (fieldAt e 24 2) k.ops.length = true →
        (∀ o ∈ k.ops, (shapeOf blk (fieldAt e 24 2) none o).isSome = true) →
        (64 ≤ s.parts[p].queue.length → ∃ u, exec (.enqueue c) s = .next u ∧ OnlyHost s u ∧ Answered s u c 0x0302 []) ∧
        (s.parts[p].queue.length < 64 → ∃ u x, exec (.enqueue c) s = .next u ∧ u.hostMem = s.hostMem ∧
          u.parts[p] = { s.parts[p] with queue := s.parts[p].queue ++ [x] } ∧ (∀ q, q ≠ p → u.parts[q] = s.parts[q]) ∧
          x.entry = fieldAt e 22 1 ∧ x.prio = fieldAt e 23 1 ∧ x.session = ses.id ∧ x.cmd = some c ∧ x.arrival = s.now ∧
          x.tick = none ∧ x.recbuf = 0 ∧ x.id = s.nextId ∧ u.nextId = s.nextId + 1 ∧
          x.args = (List.range 8).map (fun i => BitVec.ofNat 64 (fieldAt blk (8 * i) 8)) ∧ u.tiles = s.tiles ∧ u.hub = s.hub)))

/-- (Rests on R510, R511, R513, R530.) A doorbell moves the tail of an enabled ring after the host's posted writes (an operand:
model, log entry 30), and the device fetches the new entry; a tail not below the depth sets HST_ERR.DOORBELL. Enabling a pair
inside the window clears head and tail; outside it sets HST_ERR.RANGE and the pair stays disabled (model, log entry 23). A
moderation interval that has ended sends one message, counted whatever the mask (model, log entry 61). -/
def Obligations.RingsFetchAndSignal : Prop :=
  ∀ (s : State) (f : FuncId) (r : Fin 8),
    let g := getRing s f r
    (∀ (tail : BitVec 16) (posted : List (Nat × Byte)), hostReady s = true → busUp s = true → g.enable = true →
      let mem := posted.foldl (fun m x => memPut m x.1 x.2) s.hostMem
      let e := memRead mem (busAddr s.funcs[f] (g.cmdBase.toNat + 64 * g.head.toNat)) 64
      (2 ^ (6 + g.logd.toNat) ≤ tail.toNat → ∃ u, exec (.doorbell f r tail posted) s = .next u ∧ OnlyHost s u ∧ u.hostMem = mem ∧
        u.funcs[f] = { s.funcs[f] with errDoorbell := true }) ∧
      (tail.toNat < 2 ^ (6 + g.logd.toNat) → g.fetched = [] → tail.toNat = (g.head.toNat + 1) % 2 ^ (6 + g.logd.toNat) →
        listedCommand e = true → ∃ u, exec (.doorbell f r tail posted) s = .next u ∧ OnlyHost s u ∧ u.hostMem = mem ∧
          getRing u f r = { g with
            tail := tail
            head := tail
            fetched := [{ slot := g.head, entry := e, started := false }] } ∧ (∀ q, q ≠ f → u.funcs[q] = s.funcs[q]))) ∧
    (busUp s = true → g.enable = false →
      (ringsInWindow s f r = true → ∃ u, exec (.ringEnable f r) s = .next u ∧ OnlyHost s u ∧ u.hostMem = s.hostMem ∧
        getRing u f r = { g with
          enable := true
          head := 0
          tail := 0 } ∧ (∀ q, q ≠ r → getRing u f q = getRing s f q)) ∧
      (ringsInWindow s f r = false → ∃ u, exec (.ringEnable f r) s = .next u ∧ OnlyHost s u ∧ u.hostMem = s.hostMem ∧
        u.funcs[f] = { s.funcs[f] with errRange := true })) ∧
    (∀ t, g.moderating = some t → powered s = true →
      (s.now.toNat < t.toNat → exec (.msixModerationExpiry f r) s = .next s) ∧
      (t.toNat ≤ s.now.toNat → ∃ u, exec (.msixModerationExpiry f r) s = .next u ∧ OnlyHost s u ∧ u.hostMem = s.hostMem ∧
        getRing u f r = { g with moderating := none } ∧
        (u.funcs[f]).msix[g.vector.toNat] = (s.funcs[f]).msix[g.vector.toNat] + 1))

/-- (Rests on R3 to R7, R329, R402, R507, R527, R529, R532.) In every BAR the fields of a word are apart. A whole-word write to
any word without RW and WO fields clears the written W1C bits and leaves the rest; a word without W1C bits stays, and so does
the state. A write or read that touches an RC field under confidential mode is refused and recorded in HST_ERR; at other times a
read changes nothing. HST_HBWIN.BASE takes a written value with its fixed bits zero; HST_ERR and SEQ_FAULT in full. -/
def Obligations.RegisterAccessFollowsItsCode : Prop :=
  ∀ (s : State) (f : FuncId) (v : BitVec 64), busUp s = true →
    (∃ u, exec (.registerWrite f .bar0 0x10 8 v) s = .next u ∧
      u = updFunc s f (fun x => { x with hbBase := v &&& ~~~0xFFF#64 })) ∧
    (∃ u, exec (.registerWrite f .bar0 0x300 8 v) s = .next u ∧
      u = updFunc s f (fun x => { x with
        errRange := x.errRange && !v.getLsbD 2
        errDoorbell := x.errDoorbell && !v.getLsbD 1
        errRefused := x.errRefused && !v.getLsbD 0 })) ∧
    (exec (.registerWrite f .bar0 0 8 v) s = .next s) ∧
    (confidentialMode s = false → ∀ k : CoreId, ∃ u,
      exec (.registerWrite 0 .bar4 (0x800000 * k.tile.val + 0xE0020 + 0x400 * k.core.val) 8 v) s = .next u ∧ OnlyCore k s u ∧
      (getCore u k) = { getCore s k with
        seq := { (getCore s k).seq with fault := (getCore s k).seq.fault &&& ~~~(v.truncate 32 &&& 0x7F#32) } }) ∧
    (∀ (bar : Bar) (w : Nat), let fs := barWord s f bar w
      fs.Pairwise (fun x y => Apart (x.lo, x.len) (y.lo, y.len)) ∧ (∀ x ∈ fs, 0 < x.len ∧ x.lo + x.len ≤ 64) ∧
      (confidentialMode s = false → ¬(bar = .bar0 ∧ 0x2000 ≤ w ∧ w < 0x2080) → (∀ x ∈ fs, x.acc ≠ .rw ∧ x.acc ≠ .wo) →
        ∃ u, exec (.registerWrite f bar (8 * w) 8 v) s = .next u ∧ SameBytes s u ∧
          barWord u f bar w = fs.map (fun x =>
            if x.acc = .w1c then { x with val := x.val - (x.val &&& (v.toNat / 2 ^ x.lo)) } else x) ∧
          ((∀ x ∈ fs, x.acc ≠ .w1c) → u = s)) ∧
      (confidentialMode s = true → (∃ x ∈ fs, x.acc = .rc) →
        ∀ i ∈ [.registerWrite f bar (8 * w) 8 v, .rcFieldAccess f bar (8 * w)], exec i s = .next (updFunc s f (fun x => { x with
          errRefused := true
          errCode := 0x0402
          errAddr := BitVec.ofNat 32 (8 * w) }))) ∧
      (confidentialMode s = false → exec (.rcFieldAccess f bar w) s = .next s))

/-- (Rests on R524, R525, R569.) A configuration request succeeds once the device is ready or stopped and has Retry Status
before; a Function Level Reset clears the function's window, rings and messages and closes its sessions, and leaves the other
functions; PERST# resets every function and the endpoint, and no tile; without it the endpoint is enabled once order 2 has
completed, and order 11 follows order 10 (STAGE meanwhile: model, log entry 90). What a reset leaves running is log entry 62,
when a request stops being retried log entry 63. -/
def Obligations.EndpointResetsClearItsFunctions : Prop :=
  ∀ (s : State) (f : FuncId),
    (busUp s = true ∨ powered s = true ∧ s.boot.stopped = true ∧ s.hub.perst = false →
      ∃ u, exec (.configRequest f) s = .next u ∧ OnlyHost s u ∧
      u.funcs[f] = { s.funcs[f] with lastConfig := if s.boot.ready = true ∨ s.boot.stopped = true then 2 else 1 }) ∧
    (busUp s = true → ∃ u, exec (.functionLevelReset f) s = .next u ∧ (u.funcs[f]).hbBase = 0 ∧ (u.funcs[f]).hbLen = 0 ∧
      (∀ r : Fin 8, getRing u f r = Ring.reset) ∧ (∀ v : Fin 64, (u.funcs[f]).msix[v] = 0) ∧
      (u.funcs[f]).errAddr = (s.funcs[f]).errAddr ∧ OnlyVadm s u ∧
      ((∀ p, funcPart s f = some p → s.parts[p].sessions = []) → ∀ g : FuncId, g ≠ f → u.funcs[g] = s.funcs[g]) ∧
      (∀ p, funcPart s f = some p → s.parts[p].run = none → (∀ y ∈ s.parts[p].sessions, y.closing = none) →
        u.parts[p].sessions = [])) ∧
    (∃ u, exec (.perst true) s = .next u ∧ u.hub.endpoint = false ∧ u.hub.perst = true ∧ (∀ g : FuncId, u.funcs[g] = Func.reset) ∧
      u.tiles = s.tiles ∧ u.boot = s.boot ∧ u.hostMem = s.hostMem ∧
      (∀ (p : PartId) (r : StepRun), s.parts[p].run = some r → ∃ r', u.parts[p].run = some r' ∧ r'.step.cmd = none ∧
        r'.stepno = r.stepno ∧ r'.opened = r.opened)) ∧
    (∃ u, exec (.perst false) s = .next u ∧ u.hub.perst = false ∧
      u.hub.endpoint = (powered s && s.boot.started && !(s.boot.stopped && decide (s.boot.stage.toNat < 3))) ∧
      u = { s with
        hub := u.hub
        boot := { s.boot with stage :=
          if u.hub.endpoint = true ∧ s.boot.stopped = false ∧ s.boot.stage = 0xA then 0xB else s.boot.stage } })

/-- (Rests on R522, R574.) SET keeps the value in the next generation of the record, then the setting takes it (a mode at the
partition's next meridian, a window length or a gain at the next window), then the command completes; a device setting is for
PF0 only, and a record that cannot be written leaves every setting as it was, sets WRITE_FAIL and answers ST_RECORD_WRITE_FAIL.
-/
def Obligations.SettingsAreKeptThenTaken : Prop :=
  ∀ (s : State) (c : HostSlot) (e : List Byte), CommandReady s c 0x40 e → cleanEntry e [(20, 2), (24, 8)] = true →
    entBuf e = 0 → entLen e = 0 →
    (s.boot.writable = false →
      let fails (i : Instr) : Prop := ∃ u, exec i s = .next u ∧ Answered s u c 0x020D [] ∧ u.parts = s.parts ∧ u.tiles = s.tiles ∧
        u.sched = s.sched ∧ u.hub = s.hub ∧ u.boot.writeFail = true ∧ u.boot.generation = s.boot.generation
      (∀ p, cmdPart s c.func = some p → (entKind e = 1 → fails (.setPseed c)) ∧
        (entKind e = 2 → (entValue e).toNat ≤ 1 → fails (.setReproducibilityMode c)) ∧
        (entKind e = 3 → fails (.setResidencyList c))) ∧
      (c.func = 0 → (entKind e = 4 → valueIn e 1 100 = true → fails (.setWindowLength c)) ∧
        (targetOkSet e = true → (entKind e = 5 → valueIn e (-48) 48 = true → fails (.setSensorOffset c)) ∧
          (entKind e = 6 → valueIn e (-200) 200 = true → fails (.setMeterGain c))))) ∧
    (∀ p, s.boot.writable = true → cmdPart s c.func = some p →
      (entKind e = 1 → ∃ u, exec (.setPseed c) s = .next u ∧ Answered s u c 0 [] ∧ u.parts[p] = { s.parts[p] with pseed := entValue e } ∧
        ((theRecord u).partset[p]).pseed = entValue e ∧ u.boot.generation = s.boot.generation + 1 ∧ u.tiles = s.tiles) ∧
      (entKind e = 2 → (entValue e).toNat ≤ 1 → s.parts[p].models = [] →
        ∃ u, exec (.setReproducibilityMode c) s = .next u ∧ Answered s u c 0 [] ∧
          ((theRecord u).partset[p]).adaptive = decide (entValue e = 1) ∧
          (atMeridian s p = true → u.parts[p].adaptive = decide (entValue e = 1) ∧ u.parts[p].adaptivePending = none ∧
            ∀ t ∈ partTiles s p, u.tiles[t].pwr.reproFixed = decide (entValue e = 0)) ∧
          (atMeridian s p = false → u.parts[p].adaptivePending = some (decide (entValue e = 1)) ∧
            u.parts[p].adaptive = s.parts[p].adaptive ∧ u.tiles = s.tiles)) ∧
      (entKind e = 3 → ∃ u, exec (.setResidencyList c) s = .next u ∧ Answered s u c 0 [] ∧
        u.parts[p] = { s.parts[p] with residency := entValue e } ∧ ((theRecord u).partset[p]).residency = entValue e)) ∧
    (s.boot.writable = true → c.func = 0 →
      (entKind e = 4 → valueIn e 1 100 = true → ∃ u, exec (.setWindowLength c) s = .next u ∧ Answered s u c 0 [] ∧
        u.sched = { s.sched with windowPending := putDue s.sched.windowPending ((entValue e).truncate 7) (pairStart s) } ∧
        (theRecord u).windowMs = (entValue e).truncate 7) ∧
      (entKind e = 5 → valueIn e (-48) 48 = true → ∀ t : TileId, entTarget e = t.val →
        ∃ u, exec (.setSensorOffset c) s = .next u ∧ Answered s u c 0 [] ∧ u.tiles[t].pwr.toff = (entValue e).truncate 16 ∧
          (∀ n, n ≠ t → u.tiles[n] = s.tiles[n]) ∧ ((theRecord u).toff[t]) = (entValue e).truncate 16) ∧
      (entKind e = 6 → valueIn e (-200) 200 = true → ∀ t : TileId, entTarget e = t.val →
        ∃ u, exec (.setMeterGain c) s = .next u ∧ Answered s u c 0 [] ∧
          u.tiles[t].pwr.gainPending =
            putDue s.tiles[t].pwr.gainPending ((entValue e).truncate 16) (pairStart s) ∧ u.tiles[t].pwr.gain = s.tiles[t].pwr.gain ∧
          ((theRecord u).gain[t]) = (entValue e).truncate 16)) ∧
    (c.func ≠ 0 → entKind e = 4 → ∃ u, exec (.setWindowLength c) s = .next u ∧ OnlyHost s u ∧ Answered s u c 0x0305 [])

/-- (Rests on R437 to R442, R517.) CREATE gives a new object the next id (placed in the completion: model, log entry 22); APPEND
adds the whole buffer; SEAL fixes the object and returns its digest; an absent or wrongly sealed object is ST_STORE_NO_OBJECT;
LIST gives the SEALED objects in id order. -/
def Obligations.StoreObjectsGrowAndSeal : Prop :=
  ∀ (s : State) (c : HostSlot) (e : List Byte) (p : PartId), cmdPart s c.func = some p → cleanEntry e storeFields = true →
    (CommandReady s c 0x30 e → 1 ≤ entKind e → entKind e ≤ 4 → entBuf e = 0 → entLen e = 0 →
      ∃ u, exec (.create c) s = .next u ∧ OnlyPartAndHost p s u ∧
        Answered s u c 0 (List.replicate 6 0 ++ natLe 8 s.parts[p].nextObj.toNat) ∧
        u.parts[p] = { s.parts[p] with
          nextObj := s.parts[p].nextObj + 1
          objects := s.parts[p].objects ++ [⟨s.parts[p].nextObj, BitVec.ofNat 8 (entKind e), false, [], [], []⟩] }) ∧
    (CommandReady s c 0x31 e → bufOk s c.func e (some 0) = true →
      (visibleObj s.parts[p] (entId e) = none → ∃ u, exec (.append c) s = .next u ∧ OnlyHost s u ∧ Answered s u c 0x020B []) ∧
      (∀ o, visibleObj s.parts[p] (entId e) = some o → o.sealed = true →
        ∃ u, exec (.append c) s = .next u ∧ OnlyHost s u ∧ Answered s u c 0x020B []) ∧
      (∀ o, visibleObj s.parts[p] (entId e) = some o → o.sealed = false → fitsNamespace s.parts[p] o (entLen e) = true →
        s.hub.spareBlocks ≠ 0 → ∃ u, exec (.append c) s = .next u ∧ Answered s u c 0 [] ∧
          OnlyPartAndHost p (spentStore s u) u ∧
          u.hub.spareBlocks.toNat ≤ s.hub.spareBlocks.toNat ∧
          u.parts[p] = { s.parts[p] with objects := s.parts[p].objects.map (fun x => if x.id = o.id then
            { x with bytes := x.bytes ++ hostRead s c.func (entBuf e) (entLen e) } else x) })) ∧
    (CommandReady s c 0x32 e → bufOk s c.func e (some 32) = true → ∀ o, visibleObj s.parts[p] (entId e) = some o → o.sealed = false →
      s.hub.spareBlocks ≠ 0 → ∃ u, exec (.seal c) s = .next u ∧ OnlyPartAndHost p s u ∧ Answered s u c 0 [] ∧
        BufferHolds s u c e (shake 32 o.bytes) ∧
        u.parts[p] = { s.parts[p] with objects := s.parts[p].objects.map (fun x => if x.id = o.id then { x with
          sealed := true
          digest := shake 32 o.bytes } else x) }) ∧
    (CommandReady s c 0x35 e → bufOk s c.func e (some 0) = true →
      ∃ u, exec (.list c) s = .next u ∧ OnlyHost s u ∧ Answered s u c 0 (natLe 4 (sealedObjs s.parts[p]).length) ∧
        BufferHolds s u c e (((sealedObjs s.parts[p]).take (entLen e / 64)).flatMap listEntry))

/-- (Rests on R425, R431, R435, R440, R442, R444.) GET copies a range of a SEALED object to tier 1 or 2 and completes, or writes
nothing when a codeword stays uncorrected (the sectors named stay so: model, log entry 22) or a block that it covers in part
fails its tag; DELETE removes an object that is neither resident nor being read; one that is being read goes when the read has
ended. -/
def Obligations.StoreObjectsAreReadAndDeleted : Prop :=
  ∀ (s : State) (c : HostSlot) (e : List Byte) (p : PartId), cmdPart s c.func = some p → cleanEntry e storeFields = true →
    entBuf e = 0 → entLen e = 0 →
    (∀ o t a, CommandReady s c 0x33 e → visibleObj s.parts[p] (entId e) = some o → o.sealed = true →
      entObjOff e + entObjLen e ≤ o.bytes.length → getPlace s p (entDest e) (entObjLen e) = some (.hbm t a) →
      (lostIn o (entObjOff e) (entObjLen e) = [] → s.badBlocks = [] → ∃ u, exec (.get c .clean) s = .next u ∧ Answered s u c 0 [] ∧
        memRead u.tiles[t].hbm a (entObjLen e) = (o.bytes.drop (entObjOff e)).take (entObjLen e) ∧
        (∀ b, ¬(a ≤ b ∧ b < a + entObjLen e) → memGet u.tiles[t].hbm b = memGet s.tiles[t].hbm b) ∧ u.parts = s.parts ∧
        (∀ k, getCore u k = getCore s k)) ∧
      (∀ ls r, let o' := noteLost o (entObjOff e) (entObjLen e) ls
        lostIn o' (entObjOff e) (entObjLen e) ≠ [] →
        ∃ u, exec (.get c { TierEvent.clean with
          lost := ls
          retries := r }) s = .next u ∧ Answered s u c 0x0208 [] ∧ u.tiles = s.tiles ∧ u.hub.lpddr = s.hub.lpddr ∧
          visibleObj u.parts[p] (entId e) = some o') ∧
      (∀ b integ, lostIn o (entObjOff e) (entObjLen e) = [] → readsBlock [] [(entDest e, entObjLen e)] b = true →
        ∃ u, exec (.get c { TierEvent.clean with failed := some (b, integ) }) s = .next u ∧
          Answered s u c (if integ then 0x0209 else 0x0208) [] ∧ (∀ m x, TierByte m → byteAt u m x = byteAt s m x) ∧
          (BitVec.ofNat 56 (blockOf b), integ) ∈ u.badBlocks)) ∧
    (∀ o, CommandReady s c 0x34 e → visibleObj s.parts[p] (entId e) = some o →
      (o.id ∈ resident s.parts[p] → ∃ u, exec (.delete c) s = .next u ∧ OnlyHost s u ∧ Answered s u c 0x020C []) ∧
      (o.id ∉ resident s.parts[p] → beingRead s.parts[p] o.id = false →
        ∃ u, exec (.delete c) s = .next u ∧ OnlyPartAndHost p (spentStore s u) u ∧ Answered s u c 0 [] ∧
          u.hub.spareBlocks.toNat ≤ s.hub.spareBlocks.toNat ∧
          u.parts[p] = { s.parts[p] with objects := s.parts[p].objects.filter (fun x => x.id != o.id) })) ∧
    (∀ id rest, hostReady s = true → s.parts[p].waitingDeletes = (none, id) :: rest →
      (beingRead s.parts[p] id = false → ∃ u, exec (.deleteAfterRead p) s = .next u ∧ OnlyPart p (spentStore s u) u ∧
        u.hub.spareBlocks.toNat ≤ s.hub.spareBlocks.toNat ∧
        u.parts[p] = { s.parts[p] with
          objects := s.parts[p].objects.filter (fun x => x.id != id)
          waitingDeletes := s.parts[p].waitingDeletes.filter (fun d => d.2 != id) }) ∧
      (beingRead s.parts[p] id = true → rest = [] → exec (.deleteAfterRead p) s = .next s))

/-- (Rests on R552, R567, R608.) With the port open and the link at 1000 Mb/s a connection takes a free place of four, a fifth
is refused; a connection closes, so that requests of it that wait have no response, and the link takes the state it trains to.
(Rests on R503, R527, R528, R589.) Link training to a supported width and speed sets what HST_STATUS shows and ends a loop-back
the host directed; a link error joins the function's AER. Neither happens while the endpoint is off or the device leads a loop-
back. -/
def Obligations.ConnectionsAndLinks : Prop :=
  (∀ (s : State),
     (portUp s = true → (∀ i : ConnId, s.mgmt.conns[i] = true) → exec .mgmtConnect s = .next s) ∧
     (portUp s = true → ∀ i : ConnId, s.mgmt.conns[i] = false → (∀ j : ConnId, j < i → s.mgmt.conns[j] = true) →
       ∃ u, exec .mgmtConnect s = .next u ∧ u = { s with mgmt := u.mgmt } ∧ u.mgmt.conns = s.mgmt.conns.set i true ∧
         u.mgmt.responses[i] = none) ∧
     (portUp s = false → exec .mgmtConnect s = .next s) ∧
     (∀ c : ConnId, ∃ u, exec (.mgmtConnectionClose c) s = .next u ∧
       u = { s with mgmt := { s.mgmt with
         conns := s.mgmt.conns.set c false
         waiting := s.mgmt.waiting.map (fun x => if x.2.1 == c then (false, x.2) else x) } }) ∧
     (powered s = true → ∀ l, ∃ u, exec (.mgmtLinkChange l) s = .next u ∧ u = { s with mgmt := { s.mgmt with link := l } })) ∧
  (∀ (s : State) (f : FuncId) (mps : Fin 3) (width : BitVec 5) (speed : BitVec 3) (code : BitVec 32),
     (busUp s = false → exec (.pcieLinkError f code) s = .next s ∧ exec .hostDirectedLoopback s = .next s) ∧
     (endpointUp s = false ∨ s.hub.loopbackLead = true ∨ linkListed width speed = false →
       exec (.pcieLinkTraining mps width speed) s = .next s) ∧
     (endpointUp s = true → s.hub.loopbackLead = false → linkListed width speed = true →
       (∃ u, exec (.pcieLinkTraining mps width speed) s = .next u ∧ u = { s with hub := { s.hub with
         mps := BitVec.ofNat 4 mps.val
         width := width
         speed := speed
         loopbackFollower := false } })) ∧
     (busUp s = true →
       (∃ u, exec (.pcieLinkError f code) s = .next u ∧ u = updFunc s f (fun x => { x with aer := x.aer ++ [code] })) ∧
       (∃ u, exec .hostDirectedLoopback s = .next u ∧ u = { s with hub := { s.hub with loopbackFollower := true } })))

/-- (Rests on R554, R557, R558, R559.) A request whose checks pass has the response its TYPE gives: GET_INFO the identity and
versions, GET_PAIR the pair in force, ATTEST a report for requestor 0x10, TELEMETRY the mirror, LAYOUT_GET the layout and key
digests, KEY_LIST the key digests, EXPORT the settings block; one whose checks fail is refused in their order. None changes the
module outside its management plane and record. -/
def Obligations.ReadingRequestsAreAnswered : Prop :=
  ∀ (s : State) (c : ConnId) (req : List Byte),
    let answer (i : Instr) (body : List Byte) : Prop :=
      ∃ u, exec i s = .next u ∧ u = { s with
        mgmt := u.mgmt
        boot := u.boot } ∧
        if requestAuth s req = true ∧ counterOk s req = true ∧ (reqKey req = 0xFF ∨ s.boot.writable = true) then
          Responded u c req 0 body ∧ u.mgmt.accepted = satAdd s.mgmt.accepted 1
        else RefusedByChecks s u c req
    (RequestReady s c req 0x01 → reqBody req = [] →
      answer (.getInfo c req) (deviceId s ++ versionWords s ++ List.replicate 24 0 ++ certificate s)) ∧
    (RequestReady s c req 0x03 → reqBody req = [] → answer (.getPair c req) (pairBytes s.sched s.now)) ∧
    (RequestReady s c req 0x05 → reqBody req = [] → answer (.telemetry c req) (sliceAt s.sched.mirror 0 512)) ∧
    (RequestReady s c req 0x06 → reqBody req = [] → answer (.layoutGet c req)
      (allEntries (Vector.ofFn (fun (p : Fin 12) => s.parts[p].layout)) ++
        s.parts.toList.flatMap (fun q => q.pubkeys.toList.flatMap keyDigest))) ∧
    (RequestReady s c req 0x04 → (reqBody req).length = 32 → answer (.mgmtAttest c req) (report s 0x10 (reqBody req))) ∧
    (RequestReady s c req 0x0E → reqBody req = [] → answer (.keyList c req) ((theRecord s).opkeys.toList.flatMap keyDigest)) ∧
    (RequestReady s c req 0x10 → reqBody req = [] → ∃ u, exec (.mgmtExport c req) s = .next u ∧ u = { s with
        mgmt := u.mgmt
        boot := u.boot } ∧
      if requestAuth s req = true ∧ counterOk s req = true ∧ (reqKey req = 0xFF ∨ s.boot.writable = true) then
        Responded u c req 0 (exportBlock u)
      else RefusedByChecks s u c req)

/-- (Rests on R21, R554, R555, R557.) A setting request whose checks pass writes the record and then takes the setting: the pair
from a later window start, a publisher key, an operator key, the network address; one whose checks fail is refused in their
order (ranges of body values belong to order 1: log entry 64). (Rests on R555.) KEY_REMOVE is refused with ST_MGMT_BAD_REQUEST
where it would leave no operator key, and the record stays as it is. -/
def Obligations.SettingRequestsWriteTheRecord : Prop :=
  (∀ (s : State) (c : ConnId) (req : List Byte), reqKey req ≠ 0xFF →
     let b := reqBody req
     let done (u : State) (x : Prop) : Prop := if accepted s req = true then x else RefusedByChecks s u c req
     (RequestReady s c req 0x02 → pairOk b = true → ∃ u, exec (.setPair c req) s = .next u ∧ done u
       (Responded u c req 0 (natLe 8 (pairStart s).toNat) ∧
         u.sched = { s.sched with 
           pending := putDue s.sched.pending (BitVec.ofNat 8 (fieldAt b 0 2 / 5), BitVec.ofNat 2 (fieldAt b 2 1)) (pairStart s) } ∧
         (theRecord u).budget5 = BitVec.ofNat 8 (fieldAt b 0 2 / 5) ∧ (theRecord u).acoustic = BitVec.ofNat 2 (fieldAt b 2 1) ∧
         u.boot.generation = s.boot.generation + 2)) ∧
     (RequestReady s c req 0x08 → pubkeyOk b = true → ∀ (p : PartId) (i : Fin 4), fieldAt b 0 1 = p.val → fieldAt b 1 1 = i.val →
       ∃ u, exec (.pubkeySet c req) s = .next u ∧ done u
         (Responded u c req 0 [] ∧ u.parts[p].pubkeys[i] = (if fieldAt b 2 1 = 1 then some (sliceAt b 3 1952) else none) ∧
           (theRecord u).pubkeys[4 * p.val + i.val] = (if fieldAt b 2 1 = 1 then some (sliceAt b 3 1952) else none) ∧
           (∀ q, q ≠ p → u.parts[q] = s.parts[q]))) ∧
     (RequestReady s c req 0x0C → b.length = 1953 → ∀ i : Fin 16, fieldAt b 0 1 = i.val →
       ∃ u, exec (.keyAdd c req) s = .next u ∧ done u
         (Responded u c req 0 [] ∧ (theRecord u).opkeys[i] = some (sliceAt b 1 1952) ∧
           (∀ j : Fin 16, j ≠ i → (theRecord u).opkeys[j] = (theRecord s).opkeys[j]))) ∧
     (RequestReady s c req 0x0D → b.length = 1 → ∀ i j : Fin 16, fieldAt b 0 1 = i.val → j ≠ i → (theRecord s).opkeys[j].isSome = true →
       ∃ u, exec (.keyRemove c req) s = .next u ∧ done u
         (Responded u c req 0 [] ∧ (theRecord u).opkeys[i] = none ∧
           (∀ n : Fin 16, n ≠ i → (theRecord u).opkeys[n] = (theRecord s).opkeys[n]))) ∧
     (RequestReady s c req 0x0F → b.length = 12 → fieldAt b 4 1 ≤ 32 → allZero (sliceAt b 5 3) = true →
       ∃ u, exec (.netSet c req) s = .next u ∧ done u
         (Responded u c req 0 [] ∧ u.mgmt.netAddr.toNat = fieldAt b 0 4 ∧ u.mgmt.netPrefix.toNat = fieldAt b 4 1 ∧
           u.mgmt.netGateway.toNat = fieldAt b 8 4 ∧ (theRecord u).netAddr = u.mgmt.netAddr))) ∧
  (∀ (s : State) (c : ConnId) (req : List Byte) (i : Fin 16), RequestReady s c req 0x0D → (reqBody req).length = 1 →
     fieldAt (reqBody req) 0 1 = i.val → (∀ j : Fin 16, j ≠ i → (theRecord s).opkeys[j] = none) →
     ∃ u, exec (.keyRemove c req) s = .next u ∧ u.boot = s.boot ∧
       Responded u c req (if requestAuth s req = false then 0x0501 else if counterOk s req = false then 0x0502 else 0x0503) [])

/-- (Rests on R559.) FW_BEGIN takes a component's inactive slot; FW_DATA puts bytes within LENGTH into the upload; FW_COMMIT of
an upload with a valid signature, not below the minimum, makes it the slot that runs at the next start and returns its digest,
and refuses a bad signature or a rollback. The running slot never changes. That refusals which rest on the state come before the
counter is written is log entry 64. -/
def Obligations.FirmwareIsUploadedThenCommitted : Prop :=
  ∀ (s : State) (c : ConnId) (req : List Byte) (i : Fin 3), reqKey req ≠ 0xFF →
    let b := reqBody req
    let done (u : State) (x : Prop) : Prop := if accepted s req = true then x else RefusedByChecks s u c req
    (RequestReady s c req 0x09 → b.length = 8 → fieldAt b 0 1 = i.val + 1 → allZero (sliceAt b 1 3) = true →
      ∃ u, exec (.fwBegin c req) s = .next u ∧ runningSlot u.boot.fw[i] = runningSlot s.boot.fw[i] ∧ done u
        (Responded u c req 0 [] ∧ u.boot.fwTarget = some i ∧ (u.boot.fw[i]).upload = some (fieldAt b 4 4, []) ∧
          (∀ j : Fin 3, j ≠ i → (u.boot.fw[j]).upload = none))) ∧
    (∀ n m, RequestReady s c req 0x0A → 8 ≤ b.length → upload s = some (i, n, m) → fieldAt b 0 8 + (b.length - 8) ≤ n →
      ∃ u, exec (.fwData c req) s = .next u ∧ runningSlot u.boot.fw[i] = runningSlot s.boot.fw[i] ∧ done u
        (Responded u c req 0 [] ∧ (u.boot.fw[i]).upload = some (n, memWrite m (fieldAt b 0 8) (b.drop 8)))) ∧
    (∀ n m, RequestReady s c req 0x0B → b = [] → s.test.test = false → upload s = some (i, n, m) →
      let img := memRead m 0 n
      ∃ u, exec (.fwCommit c req) s = .next u ∧ runningSlot u.boot.fw[i] = runningSlot s.boot.fw[i] ∧
        if (requestAuth s req && counterOk s req) = false then RefusedByChecks s u c req
        else if Config.fwSignatureOk img = false then Responded u c req 0x0403 [] ∧ u.boot = s.boot
        else if (Config.fwVersion img).toNat < ((theRecord s).fwMin[i]).toNat then Responded u c req 0x0405 [] ∧ u.boot = s.boot
        else if s.boot.writable = false then Responded u c req 0x020D []
        else Responded u c req 0 (shake 32 img) ∧ u.boot.fwTarget = none ∧
          (if (u.boot.fw[i]).runs1 then (u.boot.fw[i]).slot0 else (u.boot.fw[i]).slot1) = ⟨Config.fwVersion img, img, true⟩)

/-- (Rests on R534, R535.) LAYOUT_SET of a valid layout whose checks pass writes it to the record as pending and, when nothing
is torn down, has only its commit left; an invalid layout is refused with ST_MGMT_LAYOUT_INVALID. A request that arrives
meanwhile waits. LAYOUT_COMMIT puts the layout in force, clears the pending state and answers with the scrub records. Rests on
log entries 64 and 65: the end of the change is a command of its own, and (log entry 90) the requests that waited are served
after it in their order. -/
def Obligations.LayoutChangesInTwoSteps : Prop :=
  ∀ (s : State) (c : ConnId) (req : List Byte), reqKey req ≠ 0xFF →
    let b := reqBody req
    (RequestReady s c req 0x07 → b.length = 384 → layoutClean b = true → s.test.test = false →
      ∃ u, exec (.layoutSet c req) s = .next u ∧
        if (requestAuth s req && counterOk s req) = false then RefusedByChecks s u c req
        else if layoutNumbered b = false ∨ layoutValid (parseLayout b) = false then Responded u c req 0x0504 [] ∧ u.boot = s.boot
        else if s.boot.writable = false then Responded u c req 0x020D []
        else (theRecord u).layout = parseLayout b ∧ (theRecord u).layoutPending = true ∧
          (theRecord u).teardown = tornMask s (parseLayout b) ∧
          (tornMask s (parseLayout b) = 0 → u.parts = s.parts ∧ u.tiles = s.tiles ∧ u.mgmt.job = some ⟨c, req, parseLayout b, 0, [], s.now⟩)) ∧
    (s.mgmt.job.isSome = true → portUp s = true → s.mgmt.conns[c] = true → (reqType req = 0x03 ∨ reqType req = 0x07) →
      ∃ u, exec (if reqType req = 0x03 then .getPair c req else .layoutSet c req) s = .next u ∧
        u = { s with mgmt := { s.mgmt with waiting := s.mgmt.waiting ++ [(true, c, req)] } }) ∧
    (∀ j : LayoutJob, s.mgmt.job = some j → s.mgmt.waiting = [] → powered s = true → s.boot.writable = true →
      ∃ u, exec .layoutCommit s = .next u ∧ u.mgmt.job = none ∧ u.mgmt.scrubbing = false ∧
        (∀ p : PartId, u.parts[p].layout = j.layout[p]) ∧ (theRecord u).layoutPending = false ∧ (theRecord u).teardown = 0 ∧
        Responded u j.conn j.req 0 (natLe 1 j.records.length ++ List.replicate 7 0 ++
          j.records.flatMap (fun x => scrubBytes { x with tick := s.now })))

/-- (Rests on R560, R575, R577.) An import whose export verifies and holds a valid record is staged for the next start; a
recovery import of this device's own export writes generation 1 with its counters raised by 2^32; else the codes of the checks
answer in their order. Outside recovery the recovery import does nothing. That refusals by the export come before the counter is
written is log entry 64. -/
def Obligations.ImportsAreStagedOrRecover : Prop :=
  ∀ (s : State) (c : ConnId) (req : List Byte),
    let b := reqBody req
    (s.boot.recovery = false → reqKey req ≠ 0xFF → RequestReady s c req 0x11 → importFormat b = true → s.test.test = false →
      ∃ u, exec (.mgmtImport c req) s = .next u ∧
        if (requestAuth s req && counterOk s req) = false then RefusedByChecks s u c req
        else match importRefusal b with
          | some code => Responded u c req code [] ∧ u.boot = s.boot
          | none =>
            if s.boot.writable = false then Responded u c req 0x020D []
            else Responded u c req 0 (natLe 8 (u.boot.generation.toNat + 1)) ∧
              u.boot.staging = (importRecord b).map (fun r => { r with generation := 0 })) ∧
    (s.boot.recovery = false → exec (.recoveryImport c req) s = .next s) ∧
    (s.boot.recovery = true → reqKey req = 0xFF → RequestReady s c req 0x11 → importFormat b = true →
      sliceAt req 8 16 = deviceId s →
      ∃ u, exec (.recoveryImport c req) s = .next u ∧
        if sliceAt (importCert b) 0 16 ≠ deviceId s then Responded u c req 0x0501 [] ∧ u.boot = s.boot
        else match importRefusal b with
          | some code => Responded u c req code [] ∧ u.boot = s.boot
          | none =>
            if s.boot.writable = false then Responded u c req 0x020D []
            else Responded u c req 0 (natLe 8 1) ∧ u.boot.copyB = none ∧ u.boot.copyIsB = false ∧
              ∃ r, importRecord b = some r ∧ u.boot.copyA = some (recoveryRecord s r) ∧
                ∀ i : Fin 16, (recoveryRecord s r).counters[i] = r.counters[i] + 0x100000000)

/-- (Rests on R569, R585 to R588.) PF0 enters test state when no partition is confidential, no session is open and no work is in
progress: every tile is awake in context TEST with tolerance 0; else LAST_CODE says why, also on a device that is not ready.
Leaving it while a run is under way is refused; leaving it empties the memories of tiers 1 and 2, ends test state and returns
every tile to service; a failed retraining stops the device and closes its management port, and what did not train reads so
(R399, R422, R581; log entry 5). -/
def Obligations.TestStateIsEnteredAndLeft : Prop :=
  ∀ (s : State), busUp s = true →
    (∀ f : FuncId, f ≠ 0 → exec (.testStateRequest f) s = .next s) ∧
    (s.test.test = false → ∀ code, testRefusal s = some code →
      ∃ u, exec (.testStateRequest 0) s = .next u ∧ u = { s with test := { s.test with lastCode := code } }) ∧
    (s.test.test = false → confidentialMode s = true → testRefusal s = some 0x0402) ∧
    (s.test.test = false → confidentialMode s = false → (hostReady s = false ∨ ∃ p : PartId, s.parts[p].sessions ≠ []) →
      testRefusal s = some 0x020E) ∧
    (s.test.test = false → testRefusal s = none → ∃ u, exec (.testStateRequest 0) s = .next u ∧ u.test.test = true ∧
      ((∀ t : TileId, tileAwake s t = true) → SameBytes s u) ∧
      ∀ t : TileId, u.tiles[t].pwr.context = 2 ∧ u.tiles[t].pwr.tl = 0 ∧ tileAwake u t = true ∧ u.tiles[t].pas.part = s.tiles[t].pas.part) ∧
    (s.test.test = true → mayEndTest s = false → ∀ r, ∃ u, exec (.testStateEnd 0 r) s = .next u ∧
      u = { s with test := { s.test with lastCode := 0x020E } }) ∧
    (s.test.test = true → mayEndTest s = true → ∀ d : BootDetail, ∃ u, exec (.testStateEnd 0 (some d)) s = .next u ∧
      u.boot.stopped = true ∧ u.boot.ready = false ∧ u.boot.detail = d ∧ u.mgmt.portOpen = false ∧
      (∀ c : ConnId, u.mgmt.conns[c] = false) ∧
      (d.kind ≠ 2 → d.kind ≠ 3 → d.kind ≠ 6 → d.kind ≠ 7 → u.tiles = s.tiles ∧ u.hub = s.hub) ∧ (d.kind = 3 → u.hub.trained = false) ∧
      (∀ t : TileId, d.index.toNat = t.val →
        (d.kind = 2 → u.tiles[t].mem.trained = false) ∧
        (d.kind = 6 → u.tiles[t].pas.spoke = 0 ∧ (u.hub.hlink >>> (2 * t.val)).toNat % 4 = 0) ∧
        (d.kind = 7 → u.tiles[t].pas.cw = 0 ∧ u.tiles[nextTile t].pas.ccw = 0)) ∧
      u.boot.stage = if d.kind = 2 ∨ d.kind = 3 ∨ d.kind = 4 then 5 else 4) ∧
    (s.test.test = true → mayEndTest s = true → ∃ u, exec (.testStateEnd 0 none) s = .next u ∧ u.test.test = false ∧
      u.hub.lpddr = [] ∧ u.hub.initGranules = 0 ∧
      (∀ t : TileId, u.tiles[t].hbm = [] ∧ u.tiles[t].pwr.context = 0 ∧ u.tiles[t].pwr.tl = 0) ∧
      (∀ p : PartId, u.parts[p].models = []))

/-- (Rests on R537, R589 to R591.) A listed loop-back on a free interface runs, clears its result registers and turns both ends
of a pass to loop-back, and a PCIe far loop-back leaves L0; under confidential mode, outside test state, on a device that is not
ready or in conflict (log entry 24 for what is not listed) it is refused, with RESULT refused and its code in LAST_CODE. Its end
restores the pass or the link and gives no-lock, fail or pass. -/
def Obligations.LoopbackRunsOnItsInterface : Prop :=
  ∀ (s : State),
    (busUp s = true →
      (confidentialMode s = true ∨ s.test.test = false ∨ hostReady s = false ∨ s.test.loopRun.isSome = true ∨ loopListed s.test = false →
        ∃ u, exec (.loopbackGo 0) s = .next u ∧ u = { s with test := { s.test with
          lastCode := if confidentialMode s = true then 0x0402 else 0x020E
          lresResult := 5 } }) ∧
      (confidentialMode s = false → hostReady s = true → s.test.test = true → s.test.loopRun = none → s.test.mbistRun = none → loopListed s.test = true →
        ∃ u, exec (.loopbackGo 0) s = .next u ∧ u.test.lresResult = 1 ∧ u.test.lresErrors = 0 ∧ u.test.lresLanes = 0 ∧
          u.test.loopRun.isSome = true ∧ SameBytes s u ∧
          u.hub.loopbackLead = (s.hub.loopbackLead || (s.test.loopIface == 1 && s.test.loopDepth == 2)) ∧
          (∀ t : TileId, s.test.loopIface = 4 → s.test.loopInst.toNat = t.val → u.tiles[t].pas.spoke = 3 ∧
            (u.hub.hlink >>> (2 * t.val)).toNat % 4 = 3) ∧
          (∀ t : TileId, s.test.loopIface = 2 → s.test.loopInst.toNat = t.val → u.tiles[t].pas.cw = 3 ∧
            u.tiles[(t.val + 1) % 12].pas.ccw = 3))) ∧
    (∀ (i n prev : BitVec 4) (res : LoopInput), s.test.loopRun = some (i, n, prev) →
      ∃ u, exec (.loopbackEnd res) s = .next u ∧ u.test.loopRun = none ∧ u.test.lresErrors = res.errors ∧
        u.test.lresLanes = res.lanesFail ∧
        u.test.lresResult = (if res.locked = false then 4 else if res.errors = 0 then 2 else 3) ∧ SameBytes s u ∧
        u.hub.loopbackLead = (s.hub.loopbackLead && i != 1) ∧
        (∀ t : TileId, i = 4 → n.toNat = t.val → u.tiles[t].pas.spoke = prev)) ∧
    (s.test.loopRun = none → ∀ res, exec (.loopbackEnd res) s = .next s)

/-- (Rests on R592, R593, R599.) In test state a memory test of a free target and a characterisation run of a tile in context
TEST start with their results cleared, the run at its own voltage; a run at the factory rate of the present temperature passes,
a slower one or one with a mismatch fails with its code, and a memory test gives pass or fail with its block. A refused start
says so in its result (R537). -/
def Obligations.SelfTestsAndRunsGiveResults : Prop :=
  ∀ (s : State),
    (busUp s = true → hostReady s = true → confidentialMode s = false → s.test.test = true →
      (s.test.mbistRun = none → s.test.loopRun = none → s.test.mbistTarget = 3 → ∃ u, exec (.mbistGo 0) s = .next u ∧
        u = { s with test := { s.test with
          mbistResult := 1
          mbistAddr := 0
          mbistRun := some (3, s.test.mbistInst) } }) ∧
      (∀ t : TileId, (s.test.speed[t]).result ≠ 1 → s.test.mbistRun = none → s.tiles[t].pwr.context = 2 →
        ∃ u, exec (.speedRun 0 t) s = .next u ∧ (u.test.speed[t]).result = 1 ∧ (u.test.speed[t]).replays = 0 ∧
          (u.test.speed[t]).mismatch = 0 ∧ u.tiles[t].pwr.vset = (s.test.speed[t]).volt ∧
          u.tiles[t].pwr.tl = (if s.tiles[t].pwr.reproFixed = true then 0 else (s.test.speed[t]).tl) ∧
          (∀ n, n ≠ t → u.tiles[n] = s.tiles[n]) ∧ SameBytes s u)) ∧
    (busUp s = true → (confidentialMode s = true ∨ s.test.test = false ∨ hostReady s = false ∨ s.test.mbistRun.isSome = true) →
      ∃ u, exec (.mbistGo 0) s = .next u ∧ u = { s with test := { s.test with
        lastCode := if confidentialMode s = true then 0x0402 else 0x020E
        mbistResult := 5 } }) ∧
    (∀ t : TileId, busUp s = true → (confidentialMode s = true ∨ s.test.test = false ∨ hostReady s = false) →
      ∃ u, exec (.speedRun 0 t) s = .next u ∧ u.tiles = s.tiles ∧ u.hub = s.hub ∧
        u.test.lastCode = (if confidentialMode s = true then 0x0402 else 0x020E) ∧
        (u.test.speed[t]).result = (if (s.test.speed[t]).result = 1 then 1 else 6)) ∧
    (∀ (t : TileId) (res : SpeedInput), powered s = true →
      ((s.test.speed[t]).result ≠ 1 → exec (.speedRunEnd t res) s = .next s) ∧
      ((s.test.speed[t]).result = 1 → ∃ u, exec (.speedRunEnd t res) s = .next u ∧ u.tiles = s.tiles ∧
        (u.test.speed[t]).rate = res.rate ∧ (u.test.speed[t]).replays = res.replays ∧ (u.test.speed[t]).mismatch = res.mismatch ∧
        (u.test.speed[t]).result = (if res.rate.toNat < rateAt s.tiles[t].pwr s.tiles[t].pwr.vset.toNat s.tiles[t].pwr.tj.toInt then 3
          else if res.mismatch = 0 then 2 else 4))) ∧
    (∀ (i : BitVec 4) (bad : Option (BitVec 40)), s.test.mbistRun = some (3, i) → ∃ u, exec (.mbistDone bad) s = .next u ∧
      u.test.mbistRun = none ∧ u.test.mbistResult = (if bad.isSome = true then 3 else 2) ∧ u.test.mbistAddr = bad.getD 0 ∧
      u.tiles = s.tiles ∧ u.parts = s.parts)

/-- (Rests on R537, R594.) IDCODE selects the identity in every mode; SAMPLE/PRELOAD acts outside confidential mode, EXTEST,
CLAMP and HIGHZ only in test state besides; anything else acts as BYPASS. SAMPLE and EXTEST capture the pads, a free value (log
entry 26). REGACC reads and writes a hub register under the rules of BAR2. -/
def Obligations.TapInstructionsActInTheirModes : Prop :=
  ∀ (s : State), powered s = true →
    let reads (i : TapInstr) (d : Word64) : State := { s with test := { s.test with
      tap := i
      tapData := d } }
    let scan (i : TapInstr) (pads : BitVec 64) : State := { s with
      freeNext := s.freeNext + 1
      test := { s.test with
        tap := i
        tapData := Config.freeValue s.freeNext
        pads := pads } }
    exec .bypass s = .next (reads .bypass 0) ∧ exec .idcode s = .next (reads .idcode 0x1120446B) ∧
    (∀ pads, exec (.samplePreload pads) s =
      .next (if confidentialMode s = true then reads .bypass 0 else scan .samplePreload pads)) ∧
    (∀ pads, exec (.extest pads) s =
      .next (if confidentialMode s = true ∨ s.test.test = false then reads .bypass 0 else scan .extest pads)) ∧
    exec .clamp s = .next (if confidentialMode s = true ∨ s.test.test = false then reads .bypass 0 else reads .clamp 0) ∧
    exec .highz s = .next (if confidentialMode s = true ∨ s.test.test = false then reads .bypass 0 else reads .highz 0) ∧
    (∀ w off v, confidentialMode s = true → exec (.regacc w off v) s = .next (reads .bypass 0)) ∧
    (∀ v, confidentialMode s = false → exec (.regacc false 0x340008 v) s = .next (reads .regacc s.boot.generation)) ∧
    (∀ v : BitVec 64, confidentialMode s = false → ∃ u, exec (.regacc true 0x340018 v) s = .next u ∧
      u = { s with
        boot := { s.boot with writeFail := s.boot.writeFail && !v.getLsbD 3 }
        test := { s.test with tap := .regacc } })

/-- Reset values of R262, R325, R329, R362, R364, R411, R412, R413, R494, R497, R581: a module right after start-up has idle
cores at instruction 0 with no fault, every bank ON, IDLE objects with no owner, passes trained, node ids from 1, no partition,
and STAGE 0xB. Which instant the reset state is, and what starts empty, are the model's choices (log entries 1, 29). -/
def Obligations.ResetIsTheAfterStartColumn : Prop :=
  (∀ k : CoreId, (getCore State.reset k).seq.state = .idle ∧ (getCore State.reset k).seq.pc = 0 ∧
    (getCore State.reset k).seq.fault = 0 ∧ (getCore State.reset k).pln.power = 0x5555 ∧ (getCore State.reset k).pln.used = 0xFF ∧
    (getCore State.reset k).pln.fault = 0 ∧ (getCore State.reset k).arr.state = .asleep) ∧
  (∀ t : TileId, State.reset.tiles[t].pas.node.toNat = t.val + 1 ∧ State.reset.tiles[t].pas.cw = 2 ∧
    State.reset.tiles[t].pas.ccw = 2 ∧ State.reset.tiles[t].pas.spoke = 2 ∧ State.reset.tiles[t].pas.fault = 0) ∧
  (∀ o x, getObj State.reset o = some x → x.mode = .idle ∧ x.count = 0 ∧ x.owner = 0xFF ∧ x.localWaiters = 0) ∧
  State.reset.boot.stage = 0xB ∧ State.reset.boot.stopped = false ∧ State.reset.hub.passDown = false ∧
  State.reset.sched.overhang = false ∧ State.reset.sched.thermWarn = false

/-- The invariant of the memories holds after reset: every memory is in canonical form. -/
def Obligations.ResetMemoriesAreCanonical : Prop :=
  MemWf State.reset

/-- Every step keeps every memory in canonical form, whatever the command: the list form of a memory is one for each content. -/
def Obligations.EveryStepKeepsMemoriesCanonical : Prop :=
  ∀ (s u : State), MemWf s → step s = .next u → MemWf u

/-- Every command that can occur has an effect and none stops the machine: exec answers a next state for each, and refuses only
an instruction that the load checks of R321 keep out of every sequencer store; no command changes the queue behind it or what
manufacture fixed. What an event means where it cannot occur is the model's choice (log entry 2). -/
def Obligations.EveryCommandAnswers : Prop :=
  ∀ (i : Instr) (s : State),
    (i.wf = true → ∃ u, exec i s = .next u ∧ u.pending = s.pending ∧ u.fuses = s.fuses) ∧
    (i.wf = false → exec i s = .refused .neverLoaded)

/-- (R2, R230) A read after a write gives the bytes written, and a write leaves every other byte: the law of all memories of the
model. -/
def Obligations.MemoryReadsWhatWasWritten : Prop :=
  ∀ (m : Mem) (a : Nat) (bs : List Byte),
    memRead (memWrite m a bs) a bs.length = bs ∧
    (∀ x, (x < a ∨ a + bs.length ≤ x) → memGet (memWrite m a bs) x = memGet m x) ∧
    (∀ n x, memGet (memClear m a n) x = if a ≤ x ∧ x < a + n then 0 else memGet m x)
end

