-- ==== Sys2Proof/Laws/State.lean ====
section
/-! SUPPORT. One lemma per field per named update of the state: what each leaves unchanged, and what it writes. -/

namespace Sys2Proof.Machine

variable (s : State)

/-! ### updTile -/

@[simp] theorem updTile_module (t : TileId) (f : Tile → Tile) : (updTile s t f).module = s.module := rfl
@[simp] theorem updTile_fuses (t : TileId) (f : Tile → Tile) : (updTile s t f).fuses = s.fuses := rfl
@[simp] theorem updTile_boot (t : TileId) (f : Tile → Tile) : (updTile s t f).boot = s.boot := rfl
@[simp] theorem updTile_hub (t : TileId) (f : Tile → Tile) : (updTile s t f).hub = s.hub := rfl
@[simp] theorem updTile_parts (t : TileId) (f : Tile → Tile) : (updTile s t f).parts = s.parts := rfl
@[simp] theorem updTile_funcs (t : TileId) (f : Tile → Tile) : (updTile s t f).funcs = s.funcs := rfl
@[simp] theorem updTile_sched (t : TileId) (f : Tile → Tile) : (updTile s t f).sched = s.sched := rfl
@[simp] theorem updTile_mgmt (t : TileId) (f : Tile → Tile) : (updTile s t f).mgmt = s.mgmt := rfl
@[simp] theorem updTile_test (t : TileId) (f : Tile → Tile) : (updTile s t f).test = s.test := rfl
@[simp] theorem updTile_fabric (t : TileId) (f : Tile → Tile) : (updTile s t f).fabric = s.fabric := rfl
@[simp] theorem updTile_adds (t : TileId) (f : Tile → Tile) : (updTile s t f).adds = s.adds := rfl
@[simp] theorem updTile_hostMem (t : TileId) (f : Tile → Tile) : (updTile s t f).hostMem = s.hostMem := rfl
@[simp] theorem updTile_now (t : TileId) (f : Tile → Tile) : (updTile s t f).now = s.now := rfl
@[simp] theorem updTile_nextId (t : TileId) (f : Tile → Tile) : (updTile s t f).nextId = s.nextId := rfl
@[simp] theorem updTile_freeNext (t : TileId) (f : Tile → Tile) : (updTile s t f).freeNext = s.freeNext := rfl
@[simp] theorem updTile_xid (t : TileId) (f : Tile → Tile) : (updTile s t f).xid = s.xid := rfl
@[simp] theorem updTile_links (t : TileId) (f : Tile → Tile) : (updTile s t f).links = s.links := rfl
@[simp] theorem updTile_pending (t : TileId) (f : Tile → Tile) : (updTile s t f).pending = s.pending := rfl

/-! ### updCore -/

@[simp] theorem updCore_module (k : CoreId) (f : Core → Core) : (updCore s k f).module = s.module := rfl
@[simp] theorem updCore_fuses (k : CoreId) (f : Core → Core) : (updCore s k f).fuses = s.fuses := rfl
@[simp] theorem updCore_boot (k : CoreId) (f : Core → Core) : (updCore s k f).boot = s.boot := rfl
@[simp] theorem updCore_hub (k : CoreId) (f : Core → Core) : (updCore s k f).hub = s.hub := rfl
@[simp] theorem updCore_parts (k : CoreId) (f : Core → Core) : (updCore s k f).parts = s.parts := rfl
@[simp] theorem updCore_funcs (k : CoreId) (f : Core → Core) : (updCore s k f).funcs = s.funcs := rfl
@[simp] theorem updCore_sched (k : CoreId) (f : Core → Core) : (updCore s k f).sched = s.sched := rfl
@[simp] theorem updCore_mgmt (k : CoreId) (f : Core → Core) : (updCore s k f).mgmt = s.mgmt := rfl
@[simp] theorem updCore_test (k : CoreId) (f : Core → Core) : (updCore s k f).test = s.test := rfl
@[simp] theorem updCore_fabric (k : CoreId) (f : Core → Core) : (updCore s k f).fabric = s.fabric := rfl
@[simp] theorem updCore_adds (k : CoreId) (f : Core → Core) : (updCore s k f).adds = s.adds := rfl
@[simp] theorem updCore_hostMem (k : CoreId) (f : Core → Core) : (updCore s k f).hostMem = s.hostMem := rfl
@[simp] theorem updCore_now (k : CoreId) (f : Core → Core) : (updCore s k f).now = s.now := rfl
@[simp] theorem updCore_nextId (k : CoreId) (f : Core → Core) : (updCore s k f).nextId = s.nextId := rfl
@[simp] theorem updCore_freeNext (k : CoreId) (f : Core → Core) : (updCore s k f).freeNext = s.freeNext := rfl
@[simp] theorem updCore_xid (k : CoreId) (f : Core → Core) : (updCore s k f).xid = s.xid := rfl
@[simp] theorem updCore_links (k : CoreId) (f : Core → Core) : (updCore s k f).links = s.links := rfl
@[simp] theorem updCore_pending (k : CoreId) (f : Core → Core) : (updCore s k f).pending = s.pending := rfl

/-! ### updPart -/

@[simp] theorem updPart_module (p : PartId) (f : Partition → Partition) : (updPart s p f).module = s.module := rfl
@[simp] theorem updPart_fuses (p : PartId) (f : Partition → Partition) : (updPart s p f).fuses = s.fuses := rfl
@[simp] theorem updPart_boot (p : PartId) (f : Partition → Partition) : (updPart s p f).boot = s.boot := rfl
@[simp] theorem updPart_tiles (p : PartId) (f : Partition → Partition) : (updPart s p f).tiles = s.tiles := rfl
@[simp] theorem updPart_hub (p : PartId) (f : Partition → Partition) : (updPart s p f).hub = s.hub := rfl
@[simp] theorem updPart_funcs (p : PartId) (f : Partition → Partition) : (updPart s p f).funcs = s.funcs := rfl
@[simp] theorem updPart_sched (p : PartId) (f : Partition → Partition) : (updPart s p f).sched = s.sched := rfl
@[simp] theorem updPart_mgmt (p : PartId) (f : Partition → Partition) : (updPart s p f).mgmt = s.mgmt := rfl
@[simp] theorem updPart_test (p : PartId) (f : Partition → Partition) : (updPart s p f).test = s.test := rfl
@[simp] theorem updPart_fabric (p : PartId) (f : Partition → Partition) : (updPart s p f).fabric = s.fabric := rfl
@[simp] theorem updPart_adds (p : PartId) (f : Partition → Partition) : (updPart s p f).adds = s.adds := rfl
@[simp] theorem updPart_hostMem (p : PartId) (f : Partition → Partition) : (updPart s p f).hostMem = s.hostMem := rfl
@[simp] theorem updPart_now (p : PartId) (f : Partition → Partition) : (updPart s p f).now = s.now := rfl
@[simp] theorem updPart_nextId (p : PartId) (f : Partition → Partition) : (updPart s p f).nextId = s.nextId := rfl
@[simp] theorem updPart_freeNext (p : PartId) (f : Partition → Partition) : (updPart s p f).freeNext = s.freeNext := rfl
@[simp] theorem updPart_xid (p : PartId) (f : Partition → Partition) : (updPart s p f).xid = s.xid := rfl
@[simp] theorem updPart_links (p : PartId) (f : Partition → Partition) : (updPart s p f).links = s.links := rfl
@[simp] theorem updPart_pending (p : PartId) (f : Partition → Partition) : (updPart s p f).pending = s.pending := rfl

/-! ### updFunc -/

@[simp] theorem updFunc_module (i : FuncId) (f : Func → Func) : (updFunc s i f).module = s.module := rfl
@[simp] theorem updFunc_fuses (i : FuncId) (f : Func → Func) : (updFunc s i f).fuses = s.fuses := rfl
@[simp] theorem updFunc_boot (i : FuncId) (f : Func → Func) : (updFunc s i f).boot = s.boot := rfl
@[simp] theorem updFunc_tiles (i : FuncId) (f : Func → Func) : (updFunc s i f).tiles = s.tiles := rfl
@[simp] theorem updFunc_hub (i : FuncId) (f : Func → Func) : (updFunc s i f).hub = s.hub := rfl
@[simp] theorem updFunc_parts (i : FuncId) (f : Func → Func) : (updFunc s i f).parts = s.parts := rfl
@[simp] theorem updFunc_sched (i : FuncId) (f : Func → Func) : (updFunc s i f).sched = s.sched := rfl
@[simp] theorem updFunc_mgmt (i : FuncId) (f : Func → Func) : (updFunc s i f).mgmt = s.mgmt := rfl
@[simp] theorem updFunc_test (i : FuncId) (f : Func → Func) : (updFunc s i f).test = s.test := rfl
@[simp] theorem updFunc_fabric (i : FuncId) (f : Func → Func) : (updFunc s i f).fabric = s.fabric := rfl
@[simp] theorem updFunc_adds (i : FuncId) (f : Func → Func) : (updFunc s i f).adds = s.adds := rfl
@[simp] theorem updFunc_hostMem (i : FuncId) (f : Func → Func) : (updFunc s i f).hostMem = s.hostMem := rfl
@[simp] theorem updFunc_now (i : FuncId) (f : Func → Func) : (updFunc s i f).now = s.now := rfl
@[simp] theorem updFunc_nextId (i : FuncId) (f : Func → Func) : (updFunc s i f).nextId = s.nextId := rfl
@[simp] theorem updFunc_freeNext (i : FuncId) (f : Func → Func) : (updFunc s i f).freeNext = s.freeNext := rfl
@[simp] theorem updFunc_xid (i : FuncId) (f : Func → Func) : (updFunc s i f).xid = s.xid := rfl
@[simp] theorem updFunc_links (i : FuncId) (f : Func → Func) : (updFunc s i f).links = s.links := rfl
@[simp] theorem updFunc_pending (i : FuncId) (f : Func → Func) : (updFunc s i f).pending = s.pending := rfl

/-! ### updHub -/

@[simp] theorem updHub_module (f : Hub → Hub) : (updHub s f).module = s.module := rfl
@[simp] theorem updHub_fuses (f : Hub → Hub) : (updHub s f).fuses = s.fuses := rfl
@[simp] theorem updHub_boot (f : Hub → Hub) : (updHub s f).boot = s.boot := rfl
@[simp] theorem updHub_tiles (f : Hub → Hub) : (updHub s f).tiles = s.tiles := rfl
@[simp] theorem updHub_hub (f : Hub → Hub) : (updHub s f).hub = f s.hub := rfl
@[simp] theorem updHub_parts (f : Hub → Hub) : (updHub s f).parts = s.parts := rfl
@[simp] theorem updHub_funcs (f : Hub → Hub) : (updHub s f).funcs = s.funcs := rfl
@[simp] theorem updHub_sched (f : Hub → Hub) : (updHub s f).sched = s.sched := rfl
@[simp] theorem updHub_mgmt (f : Hub → Hub) : (updHub s f).mgmt = s.mgmt := rfl
@[simp] theorem updHub_test (f : Hub → Hub) : (updHub s f).test = s.test := rfl
@[simp] theorem updHub_fabric (f : Hub → Hub) : (updHub s f).fabric = s.fabric := rfl
@[simp] theorem updHub_adds (f : Hub → Hub) : (updHub s f).adds = s.adds := rfl
@[simp] theorem updHub_hostMem (f : Hub → Hub) : (updHub s f).hostMem = s.hostMem := rfl
@[simp] theorem updHub_now (f : Hub → Hub) : (updHub s f).now = s.now := rfl
@[simp] theorem updHub_nextId (f : Hub → Hub) : (updHub s f).nextId = s.nextId := rfl
@[simp] theorem updHub_freeNext (f : Hub → Hub) : (updHub s f).freeNext = s.freeNext := rfl
@[simp] theorem updHub_xid (f : Hub → Hub) : (updHub s f).xid = s.xid := rfl
@[simp] theorem updHub_links (f : Hub → Hub) : (updHub s f).links = s.links := rfl
@[simp] theorem updHub_pending (f : Hub → Hub) : (updHub s f).pending = s.pending := rfl

/-! ### updSched -/

@[simp] theorem updSched_module (f : Sched → Sched) : (updSched s f).module = s.module := rfl
@[simp] theorem updSched_fuses (f : Sched → Sched) : (updSched s f).fuses = s.fuses := rfl
@[simp] theorem updSched_boot (f : Sched → Sched) : (updSched s f).boot = s.boot := rfl
@[simp] theorem updSched_tiles (f : Sched → Sched) : (updSched s f).tiles = s.tiles := rfl
@[simp] theorem updSched_hub (f : Sched → Sched) : (updSched s f).hub = s.hub := rfl
@[simp] theorem updSched_parts (f : Sched → Sched) : (updSched s f).parts = s.parts := rfl
@[simp] theorem updSched_funcs (f : Sched → Sched) : (updSched s f).funcs = s.funcs := rfl
@[simp] theorem updSched_sched (f : Sched → Sched) : (updSched s f).sched = f s.sched := rfl
@[simp] theorem updSched_mgmt (f : Sched → Sched) : (updSched s f).mgmt = s.mgmt := rfl
@[simp] theorem updSched_test (f : Sched → Sched) : (updSched s f).test = s.test := rfl
@[simp] theorem updSched_fabric (f : Sched → Sched) : (updSched s f).fabric = s.fabric := rfl
@[simp] theorem updSched_adds (f : Sched → Sched) : (updSched s f).adds = s.adds := rfl
@[simp] theorem updSched_hostMem (f : Sched → Sched) : (updSched s f).hostMem = s.hostMem := rfl
@[simp] theorem updSched_now (f : Sched → Sched) : (updSched s f).now = s.now := rfl
@[simp] theorem updSched_nextId (f : Sched → Sched) : (updSched s f).nextId = s.nextId := rfl
@[simp] theorem updSched_freeNext (f : Sched → Sched) : (updSched s f).freeNext = s.freeNext := rfl
@[simp] theorem updSched_xid (f : Sched → Sched) : (updSched s f).xid = s.xid := rfl
@[simp] theorem updSched_links (f : Sched → Sched) : (updSched s f).links = s.links := rfl
@[simp] theorem updSched_pending (f : Sched → Sched) : (updSched s f).pending = s.pending := rfl

/-! ### updMgmt -/

@[simp] theorem updMgmt_module (f : Mgmt → Mgmt) : (updMgmt s f).module = s.module := rfl
@[simp] theorem updMgmt_fuses (f : Mgmt → Mgmt) : (updMgmt s f).fuses = s.fuses := rfl
@[simp] theorem updMgmt_boot (f : Mgmt → Mgmt) : (updMgmt s f).boot = s.boot := rfl
@[simp] theorem updMgmt_tiles (f : Mgmt → Mgmt) : (updMgmt s f).tiles = s.tiles := rfl
@[simp] theorem updMgmt_hub (f : Mgmt → Mgmt) : (updMgmt s f).hub = s.hub := rfl
@[simp] theorem updMgmt_parts (f : Mgmt → Mgmt) : (updMgmt s f).parts = s.parts := rfl
@[simp] theorem updMgmt_funcs (f : Mgmt → Mgmt) : (updMgmt s f).funcs = s.funcs := rfl
@[simp] theorem updMgmt_sched (f : Mgmt → Mgmt) : (updMgmt s f).sched = s.sched := rfl
@[simp] theorem updMgmt_mgmt (f : Mgmt → Mgmt) : (updMgmt s f).mgmt = f s.mgmt := rfl
@[simp] theorem updMgmt_test (f : Mgmt → Mgmt) : (updMgmt s f).test = s.test := rfl
@[simp] theorem updMgmt_fabric (f : Mgmt → Mgmt) : (updMgmt s f).fabric = s.fabric := rfl
@[simp] theorem updMgmt_adds (f : Mgmt → Mgmt) : (updMgmt s f).adds = s.adds := rfl
@[simp] theorem updMgmt_hostMem (f : Mgmt → Mgmt) : (updMgmt s f).hostMem = s.hostMem := rfl
@[simp] theorem updMgmt_now (f : Mgmt → Mgmt) : (updMgmt s f).now = s.now := rfl
@[simp] theorem updMgmt_nextId (f : Mgmt → Mgmt) : (updMgmt s f).nextId = s.nextId := rfl
@[simp] theorem updMgmt_freeNext (f : Mgmt → Mgmt) : (updMgmt s f).freeNext = s.freeNext := rfl
@[simp] theorem updMgmt_xid (f : Mgmt → Mgmt) : (updMgmt s f).xid = s.xid := rfl
@[simp] theorem updMgmt_links (f : Mgmt → Mgmt) : (updMgmt s f).links = s.links := rfl
@[simp] theorem updMgmt_pending (f : Mgmt → Mgmt) : (updMgmt s f).pending = s.pending := rfl

/-! ### updBoot -/

@[simp] theorem updBoot_module (f : Boot → Boot) : (updBoot s f).module = s.module := rfl
@[simp] theorem updBoot_fuses (f : Boot → Boot) : (updBoot s f).fuses = s.fuses := rfl
@[simp] theorem updBoot_boot (f : Boot → Boot) : (updBoot s f).boot = f s.boot := rfl
@[simp] theorem updBoot_tiles (f : Boot → Boot) : (updBoot s f).tiles = s.tiles := rfl
@[simp] theorem updBoot_hub (f : Boot → Boot) : (updBoot s f).hub = s.hub := rfl
@[simp] theorem updBoot_parts (f : Boot → Boot) : (updBoot s f).parts = s.parts := rfl
@[simp] theorem updBoot_funcs (f : Boot → Boot) : (updBoot s f).funcs = s.funcs := rfl
@[simp] theorem updBoot_sched (f : Boot → Boot) : (updBoot s f).sched = s.sched := rfl
@[simp] theorem updBoot_mgmt (f : Boot → Boot) : (updBoot s f).mgmt = s.mgmt := rfl
@[simp] theorem updBoot_test (f : Boot → Boot) : (updBoot s f).test = s.test := rfl
@[simp] theorem updBoot_fabric (f : Boot → Boot) : (updBoot s f).fabric = s.fabric := rfl
@[simp] theorem updBoot_adds (f : Boot → Boot) : (updBoot s f).adds = s.adds := rfl
@[simp] theorem updBoot_hostMem (f : Boot → Boot) : (updBoot s f).hostMem = s.hostMem := rfl
@[simp] theorem updBoot_now (f : Boot → Boot) : (updBoot s f).now = s.now := rfl
@[simp] theorem updBoot_nextId (f : Boot → Boot) : (updBoot s f).nextId = s.nextId := rfl
@[simp] theorem updBoot_freeNext (f : Boot → Boot) : (updBoot s f).freeNext = s.freeNext := rfl
@[simp] theorem updBoot_xid (f : Boot → Boot) : (updBoot s f).xid = s.xid := rfl
@[simp] theorem updBoot_links (f : Boot → Boot) : (updBoot s f).links = s.links := rfl
@[simp] theorem updBoot_pending (f : Boot → Boot) : (updBoot s f).pending = s.pending := rfl

/-! ### updTest -/

@[simp] theorem updTest_module (f : Test → Test) : (updTest s f).module = s.module := rfl
@[simp] theorem updTest_fuses (f : Test → Test) : (updTest s f).fuses = s.fuses := rfl
@[simp] theorem updTest_boot (f : Test → Test) : (updTest s f).boot = s.boot := rfl
@[simp] theorem updTest_tiles (f : Test → Test) : (updTest s f).tiles = s.tiles := rfl
@[simp] theorem updTest_hub (f : Test → Test) : (updTest s f).hub = s.hub := rfl
@[simp] theorem updTest_parts (f : Test → Test) : (updTest s f).parts = s.parts := rfl
@[simp] theorem updTest_funcs (f : Test → Test) : (updTest s f).funcs = s.funcs := rfl
@[simp] theorem updTest_sched (f : Test → Test) : (updTest s f).sched = s.sched := rfl
@[simp] theorem updTest_mgmt (f : Test → Test) : (updTest s f).mgmt = s.mgmt := rfl
@[simp] theorem updTest_test (f : Test → Test) : (updTest s f).test = f s.test := rfl
@[simp] theorem updTest_fabric (f : Test → Test) : (updTest s f).fabric = s.fabric := rfl
@[simp] theorem updTest_adds (f : Test → Test) : (updTest s f).adds = s.adds := rfl
@[simp] theorem updTest_hostMem (f : Test → Test) : (updTest s f).hostMem = s.hostMem := rfl
@[simp] theorem updTest_now (f : Test → Test) : (updTest s f).now = s.now := rfl
@[simp] theorem updTest_nextId (f : Test → Test) : (updTest s f).nextId = s.nextId := rfl
@[simp] theorem updTest_freeNext (f : Test → Test) : (updTest s f).freeNext = s.freeNext := rfl
@[simp] theorem updTest_xid (f : Test → Test) : (updTest s f).xid = s.xid := rfl
@[simp] theorem updTest_links (f : Test → Test) : (updTest s f).links = s.links := rfl
@[simp] theorem updTest_pending (f : Test → Test) : (updTest s f).pending = s.pending := rfl

/-! ### What the updates of a place read back -/

@[simp] theorem updTile_same (t : TileId) (f : Tile → Tile) : (updTile s t f).tiles[t] = f s.tiles[t] := by simp [updTile]
theorem updTile_other (t u : TileId) (f : Tile → Tile) (h : t ≠ u) : (updTile s t f).tiles[u] = s.tiles[u] := by
  have : t.val ≠ u.val := fun e => h (Fin.ext e)
  simp [updTile, this]
@[simp] theorem updPart_same (p : PartId) (f : Partition → Partition) : (updPart s p f).parts[p] = f s.parts[p] := by simp [updPart]
theorem updPart_other (p q : PartId) (f : Partition → Partition) (h : p ≠ q) : (updPart s p f).parts[q] = s.parts[q] := by
  have : p.val ≠ q.val := fun e => h (Fin.ext e)
  simp [updPart, this]
@[simp] theorem updFunc_same (i : FuncId) (f : Func → Func) : (updFunc s i f).funcs[i] = f s.funcs[i] := by simp [updFunc]
theorem updFunc_other (i j : FuncId) (f : Func → Func) (h : i ≠ j) : (updFunc s i f).funcs[j] = s.funcs[j] := by
  have : i.val ≠ j.val := fun e => h (Fin.ext e)
  simp [updFunc, this]
@[simp] theorem getCore_updCore (k : CoreId) (f : Core → Core) : getCore (updCore s k f) k = f (getCore s k) := by
  simp [getCore, updCore, updTile]
theorem getCore_updCore_other (k j : CoreId) (f : Core → Core) (h : k ≠ j) : getCore (updCore s k f) j = getCore s j := by
  by_cases e : k.tile = j.tile
  · have hc : k.core ≠ j.core := fun e' => h (by cases k; cases j; simp_all)
    have : k.core.val ≠ j.core.val := fun e' => hc (Fin.ext e')
    simp [getCore, updCore, updTile, e, this]
  · have : k.tile.val ≠ j.tile.val := fun e' => e (Fin.ext e')
    simp [getCore, updCore, updTile, this]

end Sys2Proof.Machine
end

