-- ==== Sys2Proof/Laws/Memory.lean ====
section
/-! SUPPORT. Memory as a list of pairs: every operation keeps the canonical form, what reset leaves has it, and what a named
update of a core or a tile has to show for the form of the whole state. -/

namespace Sys2Proof.Machine

/-! ## The canonical form -/

theorem memWf_cons {a : Nat} {b : Byte} {m : Mem} :
    memWf ((a, b) :: m) = true ↔ b ≠ 0 ∧ (∀ c ∈ m, a < c.1) ∧ memWf m = true := by
  simp [memWf, List.all_eq_true, and_assoc]

theorem memWf_filter (p : Nat × Byte → Bool) : ∀ {m : Mem}, memWf m = true → memWf (m.filter p) = true
  | [], _ => rfl
  | (a, b) :: m, h => by
    rw [memWf_cons] at h
    have ih := memWf_filter p h.2.2
    simp only [List.filter_cons]
    split
    · exact memWf_cons.mpr ⟨h.1, fun c hc => h.2.1 c (List.mem_filter.mp hc).1, ih⟩
    · exact ih

theorem mem_memInsert {c : Nat × Byte} {x : Nat} {b : Byte} : ∀ {m : Mem}, c ∈ memInsert m x b → c = (x, b) ∨ c ∈ m
  | [], h => by simpa [memInsert] using h
  | (a, d) :: m, h => by
    simp only [memInsert] at h
    split at h
    · simpa using h
    · rcases List.mem_cons.mp h with e | h
      · exact .inr (List.mem_cons.mpr (.inl e))
      · rcases mem_memInsert h with e | h
        · exact .inl e
        · exact .inr (List.mem_cons.mpr (.inr h))

theorem memWf_memInsert {x : Nat} {b : Byte} (hb : b ≠ 0) : ∀ {m : Mem}, memWf m = true → (∀ c ∈ m, c.1 ≠ x) →
    memWf (memInsert m x b) = true
  | [], _, _ => memWf_cons.mpr ⟨hb, by simp, rfl⟩
  | (a, d) :: m, h, hx => by
    have hw := memWf_cons.mp h
    simp only [memInsert]
    split
    · rename_i hlt
      refine memWf_cons.mpr ⟨hb, fun c hc => ?_, h⟩
      rcases List.mem_cons.mp hc with e | hc
      · simpa [e] using hlt
      · exact Nat.lt_trans hlt (hw.2.1 c hc)
    · rename_i hlt
      have ha : a ≠ x := hx (a, d) (by simp)
      refine memWf_cons.mpr ⟨hw.1, fun c hc => ?_, memWf_memInsert hb hw.2.2 (fun c hc => hx c (List.mem_cons.mpr (.inr hc)))⟩
      rcases mem_memInsert hc with e | hc
      · simp only [e]; omega
      · exact hw.2.1 c hc

/-- Writing a byte keeps the canonical form: the byte an unlisted address reads as leaves no entry. -/
theorem memWf_memPut {m : Mem} (h : memWf m = true) (x : Nat) (b : Byte) : memWf (memPut m x b) = true := by
  simp only [memPut]
  split
  · exact memWf_filter _ h
  · rename_i hb
    exact memWf_memInsert hb (memWf_filter _ h) (fun c hc => by simpa using (List.mem_filter.mp hc).2)

theorem memWf_memWrite : ∀ (bs : List Byte) {m : Mem} (a : Nat), memWf m = true → memWf (memWrite m a bs) = true
  | [], _, _, h => h
  | b :: bs, _, a, h => memWf_memWrite bs (a + 1) (memWf_memPut h a b)

theorem memWf_memClear {m : Mem} (h : memWf m = true) (a n : Nat) : memWf (memClear m a n) = true := memWf_filter _ h

/-- The host's posted writes keep the form of its memory. -/
theorem memWf_posted : ∀ (xs : List (Nat × Byte)) {m : Mem}, memWf m = true →
    memWf (xs.foldl (fun m x => memPut m x.1 x.2) m) = true
  | [], _, h => h
  | x :: xs, _, h => memWf_posted xs (memWf_memPut h x.1 x.2)

/-! ## The memories of reset -/

theorem tileMemWf_iff {t : Tile} :
    tileMemWf t = true ↔ (∀ c : Fin 64, memWf (t.cores[c]).plain = true) ∧ memWf t.hbm = true ∧ memWf t.fine.store = true := by
  simp only [tileMemWf, Bool.and_eq_true, Vector.all_eq_true, and_assoc]
  exact ⟨fun h => ⟨fun c => h.1 c.val c.isLt, h.2⟩, fun h => ⟨fun i hi => h.1 ⟨i, hi⟩, h.2⟩⟩

theorem reset_hostMem : memWf State.reset.hostMem = true := rfl

theorem reset_lpddr : memWf State.reset.hub.lpddr = true := rfl

/-- A tile after a start holds nothing in any memory. -/
theorem tileMemWf_reset (f : Fuses) (t : TileId) : tileMemWf (Tile.reset f t) = true := by
  rw [tileMemWf_iff]
  refine ⟨fun c => ?_, rfl, rfl⟩
  simp [Tile.reset, Core.reset, memWf]

/-! ## Named updates -/

/-- An update of a tile keeps the form of every memory when it keeps that of its tile. -/
theorem keepsForm_updTile {s : State} (h : MemWf s) (n : TileId) (f : Tile → Tile) (hf : tileMemWf (f s.tiles[n]) = true) :
    MemWf (updTile s n f) := by
  refine ⟨fun t => ?_, h.2⟩
  by_cases e : n = t
  · subst e; simpa [updTile] using hf
  · rw [updTile_other s n t f e]; exact h.1 t

/-- An update of a core keeps the form of every memory when it keeps that of the core's plain. -/
theorem keepsForm_updCore {s : State} (h : MemWf s) (k : CoreId) (f : Core → Core) (hf : memWf (f (getCore s k)).plain = true) :
    MemWf (updCore s k f) := by
  refine keepsForm_updTile h k.tile _ ?_
  have ht := tileMemWf_iff.mp (h.1 k.tile)
  refine tileMemWf_iff.mpr ⟨fun c => ?_, ht.2⟩
  by_cases e : k.core = c
  · subst e; simpa [getCore] using hf
  · have : k.core.val ≠ c.val := fun e' => e (Fin.ext e')
    simpa [this] using ht.1 c

/-- An update of a core that leaves its plain keeps the form of every memory. -/
theorem keepsForm_updCore_plain {s : State} (h : MemWf s) (k : CoreId) (f : Core → Core) (hf : ∀ c, (f c).plain = c.plain) :
    MemWf (updCore s k f) :=
  keepsForm_updCore h k f (by rw [hf]; exact (tileMemWf_iff.mp (h.1 k.tile)).1 k.core)

theorem keepsForm_updPart {s : State} (h : MemWf s) (p : PartId) (f : Partition → Partition) : MemWf (updPart s p f) := h

end Sys2Proof.Machine
end

