-- ==== Sys2Proof/Laws/Ops.lean ====
section
/-! SUPPORT. What the shared operations can do, said once: updates of one core compose, an instruction that issues, a fault of
a step, the end of a wait, and what each leaves unchanged. -/

namespace Sys2Proof.Machine

/-! ## Updates of one part -/

theorem updCore_congr {s : State} {k : CoreId} {f g : Core → Core} (h : f (getCore s k) = g (getCore s k)) :
    updCore s k f = updCore s k g := by
  simp only [getCore] at h
  simp only [updCore, updTile, h]

@[simp] theorem updCore_updCore (s : State) (k : CoreId) (f g : Core → Core) :
    updCore (updCore s k f) k g = updCore s k (fun c => g (f c)) := by
  simp [updCore, updTile]

@[simp] theorem updCore_getCore (s : State) (k : CoreId) : updCore s k (fun c => c) = s := by
  have h : ∀ (t : Tile) (c : Fin 64), { t with cores := t.cores.set c t.cores[c] } = t := by
    intro t c; simp only [Fin.getElem_fin, Vector.set_getElem_self]
  simp only [updCore, updTile, h]
  simp only [Fin.getElem_fin, Vector.set_getElem_self]

theorem onlyCore_updCore (s : State) (k : CoreId) (f : Core → Core) : OnlyCore k s (updCore s k f) :=
  updCore_congr (by simp)

@[simp] theorem updPart_updPart (s : State) (p : PartId) (f g : Partition → Partition) :
    updPart (updPart s p f) p g = updPart s p (fun q => g (f q)) := by
  simp [updPart]

theorem updPart_congr {s : State} {p : PartId} {f g : Partition → Partition} (h : f s.parts[p] = g s.parts[p]) :
    updPart s p f = updPart s p g := by
  simp only [updPart, h]

@[simp] theorem updTile_updTile (s : State) (t : TileId) (f g : Tile → Tile) :
    updTile (updTile s t f) t g = updTile s t (fun x => g (f x)) := by
  simp [updTile]

theorem updTile_congr {s : State} {t : TileId} {f g : Tile → Tile} (h : f s.tiles[t] = g s.tiles[t]) :
    updTile s t f = updTile s t g := by
  simp only [updTile, h]

@[simp] theorem getCore_updPart (s : State) (p : PartId) (f : Partition → Partition) (k : CoreId) :
    getCore (updPart s p f) k = getCore s k := rfl

@[simp] theorem getCore_withFree (s : State) (n : Nat) (k : CoreId) : getCore { s with freeNext := n } k = getCore s k := rfl

theorem updCore_withFree (s : State) (n : Nat) (k : CoreId) (f : Core → Core) :
    updCore { s with freeNext := n } k f = { updCore s k f with freeNext := n } := rfl

/-- The ownership of tiles, and so the run of a core, does not hang on the cores. -/
@[simp] theorem tilePart_updCore (s : State) (k : CoreId) (f : Core → Core) (t : TileId) :
    tilePart (updCore s k f) t = tilePart s t := rfl

@[simp] theorem coreRun_updCore (s : State) (k j : CoreId) (f : Core → Core) : coreRun (updCore s k f) j = coreRun s j := rfl

@[simp] theorem aborting_updCore (s : State) (k j : CoreId) (f : Core → Core) : aborting (updCore s k f) j = aborting s j := rfl

/-! ## Issue -/

theorem canIssue_blocked {s : State} {k : CoreId} (h : canIssue s k = true) : (getCore s k).blocked = .none := by
  simp only [canIssue, Bool.and_eq_true, beq_iff_eq] at h
  exact h.2

theorem canIssue_not_faulted {s : State} {k : CoreId} (h : canIssue s k = true) : (getCore s k).seq.state ≠ .faulted := by
  simp only [canIssue, Bool.and_eq_true, Bool.or_eq_true, beq_iff_eq] at h
  rcases h.1.2 with h | h <;> simp [h]

/-- What an instruction that writes sd and completes at once answers. -/
theorem seqCompute_next {s : State} {k : CoreId} (h : canIssue s k = true) (rd : SReg) (f : Core → Word64) :
    seqCompute k rd f s = .next (wroteReg s k rd (f (getCore s k))) := by
  simp only [seqCompute, h, if_true, wroteReg]
  refine congrArg Host.Outcome.next (updCore_congr ?_)
  simp only [retire, retireAt, setSreg]
  split <;> simp_all

/-- What an instruction that only chooses the next pc answers. -/
theorem seqGoto_next {s : State} {k : CoreId} (h : canIssue s k = true) (f : Core → BitVec 13) :
    seqGoto k f s = .next (wentTo s k (f (getCore s k))) := by
  simp only [seqGoto, h, if_true, wentTo]
  exact congrArg Host.Outcome.next (updCore_congr rfl)

theorem sreg_setSreg_same (c : Core) (r : SReg) (v : Word64) (h : r ≠ 0) : sreg (setSreg c r v) r = v := by
  unfold sreg setSreg; simp only [h, if_false]; simp

theorem sreg_setSreg_other (c : Core) (r q : SReg) (v : Word64) (h : q ≠ r) : sreg (setSreg c r v) q = sreg c q := by
  unfold sreg setSreg
  split
  · rfl
  · split
    · rfl
    · simp only [Fin.getElem_fin]
      rw [Vector.getElem_set_ne]
      exact fun e => h (Fin.ext e.symm)

/-- The classes of a mask are idle when each class it names is. -/
theorem maskBusy_eq_false {c : Core} {m : BitVec 5} :
    maskBusy c m = false ↔ ∀ i < 5, m.getLsbD i = true → classBusy c i = false := by
  simp only [maskBusy, List.any_eq_false]
  simp

/-- Whether a class is busy hangs on queues and counts only. -/
theorem maskBusy_congr {c d : Core} (m : BitVec 5) (h1 : d.ag = c.ag) (h2 : d.sp = c.sp) (h3 : d.port = c.port)
    (h4 : d.active = c.active) (h5 : d.fines = c.fines) (h6 : d.copies = c.copies) : maskBusy d m = maskBusy c m := by
  simp only [maskBusy, classBusy, h1, h2, h3, h4, h5, h6]

theorem tiles_updTile_other (s : State) (n m : TileId) (f : Tile → Tile) (h : n ≠ m) : (updTile s n f).tiles[m] = s.tiles[m] := by
  simp only [updTile, Fin.getElem_fin]
  rw [Vector.getElem_set_ne]
  exact fun e => h (Fin.ext e)

@[simp] theorem tiles_updTile_same (s : State) (n : TileId) (f : Tile → Tile) : (updTile s n f).tiles[n] = f s.tiles[n] := by
  simp [updTile]

/-- An update of a tile that keeps its cores keeps every core. -/
theorem getCore_updTile (s : State) (n : TileId) (f : Tile → Tile) (h : (f s.tiles[n]).cores = s.tiles[n].cores) (k : CoreId) :
    getCore (updTile s n f) k = getCore s k := by
  by_cases e : n = k.tile
  · subst e; simp only [getCore, tiles_updTile_same, h]
  · simp only [getCore, tiles_updTile_other _ _ _ _ e]

/-- A flit touches no core when it is sent, be it for a node that no router delivers to. -/
@[simp] theorem getCore_send (s : State) (f : Flit) (j : CoreId) : getCore (send s f) j = getCore s j := by
  unfold send
  split
  · unfold countUnknown
    split
    · exact getCore_updTile s _ _ (by rfl) j
    · rfl
  · rfl

/-- An add touches no core when it is issued. -/
@[simp] theorem getCore_issueAdd (s : State) (n : NodeId) (o : ObjId) (v : Word32) (w : Origin) (a : Bool) (p : Nat) (j : CoreId) :
    getCore (issueAdd s n o v w a p) j = getCore s j := by
  unfold issueAdd
  split
  · rfl
  · exact getCore_send _ _ _

/-! ## Blocking instructions -/

@[simp] theorem block_blocked (c : Core) (b : Blocked) (st : SeqState) : (block c b st).blocked = b := rfl
@[simp] theorem block_state (c : Core) (b : Blocked) (st : SeqState) : (block c b st).seq.state = st := rfl
@[simp] theorem maskBusy_block (c : Core) (b : Blocked) (st : SeqState) (m : BitVec 5) :
    maskBusy (block c b st) m = maskBusy c m := rfl
@[simp] theorem classBusy_block (c : Core) (b : Blocked) (st : SeqState) (i : Nat) :
    classBusy (block c b st) i = classBusy c i := rfl

/-- Whether a blocked core can go on (R313, R315), by what it is blocked on. -/
theorem settle_fence {s : State} {k : CoreId} {m : BitVec 5} (h : (getCore s k).blocked = .fence m)
    (hf : (getCore s k).seq.state ≠ .faulted) :
    settle s k = if maskBusy (getCore s k) m then s else unblockCore s k := by
  simp only [settle, h]
  simp [hf]

theorem settle_meridian {s : State} {k : CoreId} (h : (getCore s k).blocked = .meridian)
    (hf : (getCore s k).seq.state ≠ .faulted) :
    settle s k = if maskBusy (getCore s k) 31 then s
      else updCore s k (fun c => { c with blocked := .none, reported := true, seq := { c.seq with state := .idle } }) := by
  simp only [settle, h]
  simp [hf]

theorem settle_tag {s : State} {k : CoreId} {f : Int} {n : Nat} {full : Bool} (h : (getCore s k).blocked = .tag f n full)
    (hf : (getCore s k).seq.state ≠ .faulted) :
    settle s k = if classBusy (getCore s k) 2 then s else unblockCore (updCore s k (fun c => setTags c f.toNat n full)) k := by
  simp only [settle, h]
  simp [hf]

theorem settle_signal {s : State} {k : CoreId} {m : BitVec 5} {a : BitVec 56} {v : Word32} {o : ObjId}
    (h : (getCore s k).blocked = .signal m a v false) (hf : (getCore s k).seq.state ≠ .faulted) (ho : objAt a = some o) :
    settle s k = if maskBusy (getCore s k) m || (m.getLsbD 2 && linesOut s k) then s
      else issueAdd (updCore s k (fun c => { c with blocked := .signal m a v true })) (tileNode k.tile) o v (.core k) true (partNumber s k.tile) := by
  simp only [settle, h, ho]
  simp [hf]

/-! ## Faults of a step -/

theorem getCore_raiseCore (s : State) (k j : CoreId) (code : BitVec 16) (op : Nat) (pc : BitVec 13) :
    getCore (raiseCore s k code op pc) j = getCore s j := by
  unfold raiseCore; split <;> rfl

/-- A router fault touches no core (R406, R417). -/
theorem getCore_pasFault (s : State) (k j : CoreId) (b : Nat) (a : BitVec 56) (o : Nat) (pc : BitVec 13) :
    getCore (pasFault s k b a o pc) j = getCore s j := by
  unfold pasFault
  split
  · rfl
  · rw [getCore_raiseCore]
    refine getCore_updTile s k.tile _ ?_ j
    rfl

theorem tiles_raiseCore (s : State) (k : CoreId) (code : BitVec 16) (op : Nat) (pc : BitVec 13) :
    (raiseCore s k code op pc).tiles = s.tiles := by
  unfold raiseCore; split <;> rfl

/-- A fault changes no byte of any memory. -/
theorem sameBytes_raiseCore (s : State) (k : CoreId) (code : BitVec 16) (op : Nat) (pc : BitVec 13) :
    SameBytes s (raiseCore s k code op pc) := by
  unfold raiseCore
  split
  · intro m a; rfl
  · intro m a; cases m <;> rfl

/-- The code that the run of a core's step carries after a fault: its first one (R324). -/
theorem raiseCore_run {s : State} {k : CoreId} {p : PartId} {r : StepRun} (h : coreRun s k = some (p, r))
    (ha : r.rerunPending = false) (code : BitVec 16) (op : Nat) (pc : BitVec 13) :
    (raiseCore s k code op pc).parts[p].run = some (if r.fault.isSome then r else
      { r with fault := some { code := code, opidx := BitVec.ofNat 12 op, pc := pc, core := k } }) := by
  unfold coreRun at h
  split at h
  · cases h
  · rename_i q hq
    split at h
    · cases h
    · rename_i r' hr
      simp only [Option.some.injEq, Prod.mk.injEq] at h
      obtain ⟨rfl, rfl⟩ := h
      simp only [raiseCore, hq, raisePart, updPart]
      simp only [Fin.getElem_fin] at hr
      simp [hr, ha]

theorem seqFaultWord_bit (w : Word32) (bit : Nat) (pc : BitVec 13) (h : bit < 32) :
    (seqFaultWord w bit pc).getLsbD bit = true := by
  have : (BitVec.ofNat 32 (2 ^ bit)).getLsbD bit = true := by
    rw [BitVec.getLsbD_ofNat]; simp [h]
  unfold seqFaultWord
  simp only [BitVec.getLsbD_or, this, Bool.or_true, Bool.true_or]

/-- A byte of any memory hangs on no register of a core. -/
theorem sameBytes_updCore (s : State) (k : CoreId) (f : Core → Core) (h : (f (getCore s k)).plain = (getCore s k).plain) :
    SameBytes s (updCore s k f) := by
  intro m a
  cases m with
  | plain j =>
    simp only [byteAt]
    by_cases hj : k = j
    · subst hj; simp [h]
    · rw [getCore_updCore_other _ _ _ _ hj]
  | hbm t =>
    simp only [byteAt, updCore, updTile, Fin.getElem_fin]
    by_cases ht : k.tile = t
    · subst ht; simp
    · rw [Vector.getElem_set_ne]; exact fun e => ht (Fin.ext e)
  | fineStore t =>
    simp only [byteAt, updCore, updTile, Fin.getElem_fin]
    by_cases ht : k.tile = t
    · subst ht; simp
    · rw [Vector.getElem_set_ne]; exact fun e => ht (Fin.ext e)
  | lpddr => rfl
  | host => rfl
  | msix f => rfl

theorem SameBytes.trans {s t u : State} (h : SameBytes s t) (g : SameBytes t u) : SameBytes s u :=
  fun m a => (g m a).trans (h m a)

theorem sameBytes_withFree {s t : State} (h : SameBytes s t) (n : Nat) : SameBytes s { t with freeNext := n } :=
  fun m a => (show byteAt { t with freeNext := n } m a = byteAt t m a by cases m <;> rfl).trans (h m a)

/-- What a sequencer fault does (R323, R324, R329), and that it changes no byte. -/
theorem seqFault_does {s : State} {k : CoreId} (ha : aborting s k = false) (bit : Nat) (hb : bit < 32) (code : BitVec 16) (op : Nat)
    (pc : BitVec 13) : SeqFaulted s (seqFault s k bit code op pc) k bit code ∧ SameBytes s (seqFault s k bit code op pc) ∧
      getCore (seqFault s k bit code op pc) k = { getCore s k with
        seq := { (getCore s k).seq with fault := seqFaultWord (getCore s k).seq.fault bit pc, state := .faulted } } := by
  have e : getCore (seqFault s k bit code op pc) k = { getCore s k with
        seq := { (getCore s k).seq with fault := seqFaultWord (getCore s k).seq.fault bit pc, state := .faulted } } := by
    simp [seqFault, ha, getCore_raiseCore]
  refine ⟨⟨?_, ?_, ?_⟩, ?_, e⟩
  · rw [e]; exact seqFaultWord_bit _ _ _ hb
  · rw [e]
  · intro p r hr
    have hp : r.rerunPending = false := by simpa [aborting, hr] using ha
    simp only [seqFault, ha, Bool.false_eq_true, if_false]
    refine ⟨_, raiseCore_run (s := updCore s k _) (by simpa using hr) hp code op pc, ?_⟩
    cases hf : r.fault <;> simp [hf]
  · simp only [seqFault, ha, Bool.false_eq_true, if_false]
    refine SameBytes.trans ?_ (sameBytes_raiseCore _ _ _ _ _)
    exact sameBytes_updCore _ _ _ rfl

/-! ## The end of a wait -/

/-- A blocking instruction that completes: pc on by one, BLOCK_HC up by the next free value. -/
theorem unblockCore_eq (s : State) (k : CoreId) :
    unblockCore s k = { updCore s k (fun c => { unblock c with
      seq := { (unblock c).seq with blockHc := satAdd c.seq.blockHc (Config.freeValue s.freeNext).toNat } }) with
      freeNext := s.freeNext + 1 } := by
  show updCore (updCore { s with freeNext := s.freeNext + 1 } k _) k unblock = _
  rw [updCore_updCore]
  rfl

theorem onlyCoreFree_mk (s : State) (k : CoreId) (f : Core → Core) (n : Nat) :
    OnlyCoreFree k s { updCore s k f with freeNext := n } := by
  unfold OnlyCoreFree
  have e : getCore { updCore s k f with freeNext := n } k = f (getCore s k) := getCore_updCore s k f
  rw [e]
  exact congrArg (fun x : State => { x with freeNext := n }) (updCore_congr rfl)

/-- What the end of a wait does, after a change f to the core: pc on by one, BLOCK_HC up, nothing blocked. -/
theorem unblockCore_does (s : State) (k : CoreId) (f : Core → Core) (hf : (f (getCore s k)).plain = (getCore s k).plain) :
    OnlyCoreFree k s (unblockCore (updCore s k f) k) ∧ SameBytes s (unblockCore (updCore s k f) k) ∧
    getCore (unblockCore (updCore s k f) k) k = { f (getCore s k) with
      blocked := .none
      seq := { (f (getCore s k)).seq with
        pc := (f (getCore s k)).seq.pc + 1
        state := .issuing
        blockHc := satAdd (f (getCore s k)).seq.blockHc (Config.freeValue s.freeNext).toNat } } := by
  rw [unblockCore_eq, updCore_updCore]
  refine ⟨onlyCoreFree_mk _ _ _ _, ?_, ?_⟩
  · refine sameBytes_withFree (sameBytes_updCore s k _ ?_) _
    exact hf
  · exact (getCore_withFree (updCore s k _) _ k).trans (getCore_updCore s k _)

/-- Issue stalled on a full queue: nothing issues, QUEUE_HC up by the next free value. -/
theorem stall_eq (s : State) (k : CoreId) :
    stall s k = { updCore s k (fun c => { c with
      seq := { c.seq with state := .stalled, queueHc := satAdd c.seq.queueHc (Config.freeValue s.freeNext).toNat } }) with
      freeNext := s.freeNext + 1 } := rfl

/-- A stall changes one core's STATE and QUEUE_HC and nothing else. -/
theorem stall_does (s : State) (k : CoreId) : OnlyCoreFree k s (stall s k) ∧ SameBytes s (stall s k) ∧
    getCore (stall s k) k = { getCore s k with seq := { (getCore s k).seq with
      state := .stalled, queueHc := satAdd (getCore s k).seq.queueHc (Config.freeValue s.freeNext).toNat } } := by
  have e : getCore (stall s k) k = { getCore s k with seq := { (getCore s k).seq with
      state := .stalled, queueHc := satAdd (getCore s k).seq.queueHc (Config.freeValue s.freeNext).toNat } } :=
    getCore_updCore s k (fun c => { c with seq := { c.seq with
      state := .stalled, queueHc := satAdd c.seq.queueHc (Config.freeValue s.freeNext).toNat } })
  refine ⟨?_, ?_, e⟩
  · unfold OnlyCoreFree
    rw [e]
    exact congrArg (fun x : State => { x with freeNext := s.freeNext + 1 }) (updCore_congr (s := s) (k := k)
      (f := fun c => { c with seq := { c.seq with
        state := .stalled, queueHc := satAdd c.seq.queueHc (Config.freeValue s.freeNext).toNat } })
      (g := fun _ => { getCore s k with seq := { (getCore s k).seq with
        state := .stalled, queueHc := satAdd (getCore s k).seq.queueHc (Config.freeValue s.freeNext).toNat } }) rfl)
  · exact sameBytes_updCore s k (fun c => { c with seq := { c.seq with
      state := .stalled, queueHc := satAdd c.seq.queueHc (Config.freeValue s.freeNext).toNat } }) rfl

/-! ## Objects of a partition -/

/-- An address that names an object of the partition names an object. -/
theorem partObj_objAt {s : State} {p : PartId} {a : BitVec 56} {o : ObjId} (h : partObj s p a = some o) : objAt a = some o := by
  unfold partObj at h
  split at h
  · cases h
  · rename_i o' ho
    split at h
    · cases h
    · split at h
      · rw [ho, h]
      · cases h

/-- The partition number of a core that runs a step. -/
theorem partNumber_of_run {s : State} {k : CoreId} {p : PartId} {r : StepRun} (h : coreRun s k = some (p, r)) :
    partNumber s k.tile = p.val := by
  unfold coreRun at h
  unfold partNumber
  split at h
  · cases h
  · rename_i q hq
    split at h
    · cases h
    · cases h
      rw [hq]

/-! ## Tags (R246, R248) -/

theorem setTag_tags (c : Core) (slot : Nat) (full : Bool) (j : Nat) (hj : j < 4096) :
    (setTag c slot full).tags.getLsbD j = if j = slot then full else c.tags.getLsbD j := by
  unfold setTag
  split
  · rename_i h
    have hb : (BitVec.ofNat 4096 (2 ^ slot)).getLsbD j = decide (slot = j) := by
      rw [BitVec.getLsbD_ofNat, Nat.testBit_two_pow]; simp [hj]
    cases full
    · simp only [Bool.false_eq_true, if_false, BitVec.getLsbD_and, BitVec.getLsbD_not, hb, hj, decide_true, Bool.true_and]
      by_cases e : j = slot
      · subst e; simp
      · have e' : slot ≠ j := fun x => e x.symm
        simp [e, e']
    · simp only [if_true, BitVec.getLsbD_or, hb]
      by_cases e : j = slot
      · subst e; simp
      · have e' : slot ≠ j := fun x => e x.symm
        simp [e, e']
  · rename_i h
    have : j ≠ slot := by omega
    simp [this]

/-- Setting a tag changes the tags and nothing else of the core. -/
theorem setTag_rest (c : Core) (slot : Nat) (full : Bool) : setTag c slot full = { c with tags := (setTag c slot full).tags } := by
  unfold setTag; split <;> rfl

/-- Setting a range of tags turns exactly the slots of the range (R248). -/
theorem setTags_tags (c : Core) (first count : Nat) (full : Bool) (j : Nat) (hj : j < 4096) :
    (setTags c first count full).tags.getLsbD j = if first ≤ j ∧ j < first + count then full else c.tags.getLsbD j := by
  unfold setTags
  induction count with
  | zero => simp only [List.range_zero, List.foldl_nil]; rw [if_neg (by omega)]
  | succ n ih =>
    rw [List.range_succ, List.foldl_append, List.foldl_cons, List.foldl_nil, setTag_tags _ _ _ _ hj, ih]
    by_cases h : j = first + n
    · rw [if_pos h, if_pos (by omega)]
    · rw [if_neg h]
      by_cases h2 : first ≤ j ∧ j < first + n
      · rw [if_pos h2, if_pos (by omega)]
      · rw [if_neg h2, if_neg (by omega)]

@[simp] theorem setTag_plain (c : Core) (slot : Nat) (full : Bool) : (setTag c slot full).plain = c.plain := by rw [setTag_rest]

theorem setTags_rest (c : Core) (first count : Nat) (full : Bool) :
    setTags c first count full = { c with tags := (setTags c first count full).tags } := by
  unfold setTags
  induction count with
  | zero => rfl
  | succ n ih =>
    rw [List.range_succ, List.foldl_append, List.foldl_cons, List.foldl_nil, setTag_rest]
    generalize List.foldl (fun c i => setTag c (first + i) full) c (List.range n) = d at ih ⊢
    rw [ih]

@[simp] theorem setTags_plain (c : Core) (f n : Nat) (b : Bool) : (setTags c f n b).plain = c.plain := by rw [setTags_rest]
@[simp] theorem setTags_tagMode (c : Core) (f n : Nat) (b : Bool) : (setTags c f n b).tagMode = c.tagMode := by rw [setTags_rest]
@[simp] theorem setTags_sregs (c : Core) (f n : Nat) (b : Bool) : (setTags c f n b).sregs = c.sregs := by rw [setTags_rest]
@[simp] theorem setTags_seq (c : Core) (f n : Nat) (b : Bool) : (setTags c f n b).seq = c.seq := by rw [setTags_rest]

end Sys2Proof.Machine
end

