-- ==== Sys2Proof/Laws/Planes.lean ====
section
/-! SUPPORT. The bit planes of R67 to R71 come to the integer products they stand for: a plane register after its k-group, a chunk
after its scale group, the total after its pass. -/

namespace Sys2Proof.Machine

/-! ## Lists of four mantissas -/

theorem toSigned_range (n w : Nat) (hw : 0 < w) : -(2 ^ (w - 1) : Int) ≤ toSigned n w ∧ toSigned n w < 2 ^ (w - 1) := by
  obtain ⟨v, rfl⟩ : ∃ v, w = v + 1 := ⟨w - 1, by omega⟩
  have hlt : n % 2 ^ (v + 1) < 2 ^ (v + 1) := Nat.mod_lt _ (by positivity)
  have h2 : 2 ^ (v + 1) = 2 * 2 ^ v := by ring
  have hc : ((2 ^ v : Nat) : Int) = 2 ^ v := by push_cast; rfl
  simp only [toSigned, Nat.add_sub_cancel]
  rw [← hc]
  generalize n % 2 ^ (v + 1) = x at *
  generalize 2 ^ (v + 1) = y at *
  generalize 2 ^ v = z at *
  split <;> omega

/-- A number in the range of w bits is what w bits of it say. -/
theorem toSigned_of_range {x : Int} {w : Nat} (hw : 0 < w) (h1 : -(2 ^ (w - 1) : Int) ≤ x) (h2 : x < 2 ^ (w - 1)) :
    toSigned (x % 2 ^ w).toNat w = x := by
  obtain ⟨v, rfl⟩ : ∃ v, w = v + 1 := ⟨w - 1, by omega⟩
  have hp : (0 : Int) < 2 ^ v := by positivity
  have hv : (2 ^ (v + 1) : Int) = 2 * 2 ^ v := by ring
  simp only [Nat.add_sub_cancel] at h1 h2
  have hm0 : 0 ≤ x % 2 ^ (v + 1) := Int.emod_nonneg _ (by omega)
  have hm1 : x % 2 ^ (v + 1) < 2 ^ (v + 1) := Int.emod_lt_of_pos _ (by omega)
  have hmod : (x % 2 ^ (v + 1)).toNat % 2 ^ (v + 1) = (x % 2 ^ (v + 1)).toNat := by
    apply Nat.mod_eq_of_lt
    zify [hm0]
    rw [Int.toNat_of_nonneg hm0]; exact hm1
  simp only [toSigned, Nat.add_sub_cancel, hmod]
  have hx : x % 2 ^ (v + 1) = if 0 ≤ x then x else x + 2 ^ (v + 1) := by
    split
    · exact Int.emod_eq_of_lt ‹_› (by omega)
    · rw [← Int.add_emod_right, Int.emod_eq_of_lt (by omega) (by omega)]
  have hc : ((x % 2 ^ (v + 1)).toNat < 2 ^ v) ↔ x % 2 ^ (v + 1) < 2 ^ v := by
    rw [← Int.ofNat_lt, Int.toNat_of_nonneg hm0]; push_cast; rfl
  rw [Int.toNat_of_nonneg hm0]
  push_cast
  split
  · rename_i h
    have := hc.mp h
    split at hx <;> omega
  · rename_i h
    have : ¬ (x % 2 ^ (v + 1) < 2 ^ v) := fun h' => h (hc.mpr h')
    split at hx <;> omega

/-- What the first n planes of a mantissa come to, as a two's-complement number (R67, R68). -/
def topPlanes (o : Op) (n : Nat) (w : Int) : Int :=
  let u := (w % 2 ^ opPlanes o).toNat
  ((u / 2 ^ (opPlanes o - n) : Nat) : Int) - 2 ^ n * ((u / 2 ^ (opPlanes o - 1) : Nat) : Int)

theorem topPlanes_one (o : Op) (w : Int) : topPlanes o 1 w = -(((w % 2 ^ opPlanes o).toNat / 2 ^ (opPlanes o - 1) : Nat) : Int) := by
  simp only [topPlanes]; omega

theorem topPlanes_succ (o : Op) (n : Nat) (hn : n < opPlanes o) (w : Int) :
    topPlanes o (n + 1) w = 2 * topPlanes o n w + (((w % 2 ^ opPlanes o).toNat / 2 ^ (opPlanes o - (n + 1)) % 2 : Nat) : Int) := by
  have h : opPlanes o - n = opPlanes o - (n + 1) + 1 := by omega
  simp only [topPlanes, h, pow_succ, ← Nat.div_div_eq_div_mul]
  generalize (w % 2 ^ opPlanes o).toNat / 2 ^ (opPlanes o - (n + 1)) = y
  generalize (w % 2 ^ opPlanes o).toNat / 2 ^ (opPlanes o - 1) = z
  have hy : y = 2 * (y / 2) + y % 2 := by omega
  generalize (2 : Int) ^ n = e
  rw [show e * 2 * (z : Int) = 2 * (e * z) by ring]
  generalize e * (z : Int) = ez
  omega

theorem topPlanes_all (o : Op) (hp : 0 < opPlanes o) {w : Int} (h1 : -(2 ^ (opPlanes o - 1) : Int) ≤ w) (h2 : w < 2 ^ (opPlanes o - 1)) :
    topPlanes o (opPlanes o) w = w := by
  have h := toSigned_of_range hp h1 h2
  obtain ⟨v, hv⟩ : ∃ v, opPlanes o = v + 1 := ⟨opPlanes o - 1, by omega⟩
  have hlt : (w % 2 ^ opPlanes o).toNat < 2 ^ opPlanes o := by
    have : (0 : Int) < 2 ^ opPlanes o := by positivity
    have h0 : 0 ≤ w % 2 ^ opPlanes o := Int.emod_nonneg _ (by omega)
    zify [h0]
    rw [Int.toNat_of_nonneg h0]
    exact Int.emod_lt_of_pos _ this
  simp only [topPlanes, Nat.sub_self, pow_zero, Nat.div_one]
  simp only [toSigned, Nat.mod_eq_of_lt hlt] at h
  generalize (w % 2 ^ opPlanes o).toNat = u at *
  rw [hv] at *
  simp only [Nat.add_sub_cancel] at *
  have h2 : 2 ^ (v + 1) = 2 * 2 ^ v := by ring
  have hpos : 0 < 2 ^ v := by positivity
  split at h
  · rw [Nat.div_eq_of_lt ‹_›]; omega
  · rename_i hge
    have : u / 2 ^ v = 1 := by
      apply Nat.div_eq_of_lt_le <;> omega
    rw [this]; push_cast at h ⊢; omega

/-- A weight and an activation mantissa as a feeder hands them to a cell (R32 to R35, R40, R207): p and q bits of two's complement, or
±1 for a 1-bit symmetric weight, whose activation is 0 beyond K. -/
def PairIn (o : Op) (w x : Int) : Prop :=
  (-(2 ^ (opQ o - 1) : Int) ≤ x ∧ x < 2 ^ (opQ o - 1)) ∧
  if sgnMode o then w = 1 ∨ w = -1 ∨ x = 0 else -(2 ^ (opPlanes o - 1) : Int) ≤ w ∧ w < 2 ^ (opPlanes o - 1)

theorem planeBit_lt (o : Op) (π : Nat) (m : Int) : planeBit o π m < 2 := by
  simp only [planeBit]; split
  · split <;> omega
  · exact Nat.mod_lt _ (by omega)

/-- What the table entry of a plane's index comes to (R68, R69). -/
def planeDot (o : Op) (π : Nat) (ws xs : List Int) : Int :=
  dot (ws.map (fun w => if sgnMode o then 1 - 2 * (planeBit o π w : Int) else planeBit o π w)) xs

theorem opQ_range (o : Op) : 0 < opQ o ∧ opQ o ≤ 17 := by
  have : opABits o ≤ 16 := by simp only [opABits, bitsOf]; omega
  have : 0 < opABits o := by simp only [opABits]; omega
  simp only [opQ]; split <;> omega

theorem term_range {o : Op} {w x : Int} (h : PairIn o w x) (π : Nat) :
    let b : Int := planeBit o π w
    b * x ≤ 2 ^ (opQ o - 1) ∧ -(2 ^ (opQ o - 1) : Int) ≤ b * x ∧ -(2 ^ (opQ o - 1) : Int) ≤ (1 - 2 * b) * x ∧
      (1 - 2 * b) * x ≤ 2 ^ (opQ o - 1) ∧ (sgnMode o = false → b * x < 2 ^ (opQ o - 1)) := by
  have hb := planeBit_lt o π w
  have hq : (0 : Int) < 2 ^ (opQ o - 1) := by positivity
  obtain ⟨⟨h1, h2⟩, -⟩ := h
  have hb' : planeBit o π w = 0 ∨ planeBit o π w = 1 := by omega
  generalize planeBit o π w = b at *
  rcases hb' with rfl | rfl <;> simp <;> omega

theorem entry_toInt (o : Op) (t : Int) (h1 : -(2 ^ (opQ o + 1) : Int) ≤ t) (h2 : t ≤ 2 ^ (opQ o + 1))
    (h3 : sgnMode o = false → t < 2 ^ (opQ o + 1)) :
    BitVec.signExtend 28 (BitVec.ofInt 20 (toSigned (t % 2 ^ entryBits o).toNat (entryBits o))) = BitVec.ofInt 28 t := by
  have hq := opQ_range o
  have hp : (2 : Int) ^ (opQ o + 1) ≤ 2 ^ 18 := pow_le_pow_right₀ (by norm_num) (by omega)
  have h2' : (2 : Int) ^ (opQ o + 2) = 2 * 2 ^ (opQ o + 1) := by ring
  have hpos : (0 : Int) < 2 ^ (opQ o + 1) := by positivity
  have e : toSigned (t % 2 ^ entryBits o).toNat (entryBits o) = t := by
    have hb : entryBits o - 1 = if sgnMode o then opQ o + 2 else opQ o + 1 := by simp only [entryBits]; split <;> omega
    apply toSigned_of_range
    · simp only [entryBits]; omega
    · rw [hb]; split <;> omega
    · rw [hb]; split
      · omega
      · exact h3 (by simp_all)
  rw [e, BitVec.signExtend]
  congr 1
  rw [BitVec.toInt_ofInt]
  apply Int.bmod_eq_of_le <;> omega

theorem table_four {o : Op} {a b c d : Int} {x y z u : Int} (ha : PairIn o a x) (hb : PairIn o b y) (hc : PairIn o c z)
    (hd : PairIn o d u) (π : Nat) :
    (tableEntry o [x, y, z, u] (planeIndex o π [a, b, c, d])).signExtend 28 = BitVec.ofInt 28 (planeDot o π [a, b, c, d] [x, y, z, u]) := by
  have h2 : (2 : Int) ^ (opQ o + 1) = 4 * 2 ^ (opQ o - 1) := by
    have := (opQ_range o).1
    rw [show opQ o + 1 = opQ o - 1 + 2 by omega, pow_add]; ring
  have ea := term_range ha π
  have eb := term_range hb π
  have ec := term_range hc π
  have ed := term_range hd π
  have la := planeBit_lt o π a
  have lb := planeBit_lt o π b
  have lc := planeBit_lt o π c
  have ld := planeBit_lt o π d
  have key : planeDot o π [a, b, c, d] [x, y, z, u] = ((List.range 4).zip [x, y, z, u]).foldl (fun t x =>
      let b : Int := (planeIndex o π [a, b, c, d] / 2 ^ x.1 % 2 : Nat)
      t + (if sgnMode o then 1 - 2 * b else b) * x.2) 0 := by
    simp only [planeDot, dot, planeIndex, List.map_cons, List.map_nil, List.zip_cons_cons, List.zip_nil_right, List.foldl_cons,
      List.foldl_nil, List.foldr_cons, List.foldr_nil, show List.range 4 = [0, 1, 2, 3] from rfl, List.sum_cons, List.sum_nil]
    generalize planeBit o π a = p at *
    generalize planeBit o π b = q at *
    generalize planeBit o π c = r at *
    generalize planeBit o π d = s at *
    have e0 : (p + 2 * (q + 2 * (r + 2 * (s + 2 * 0)))) / 2 ^ 0 % 2 = p := by omega
    have e1 : (p + 2 * (q + 2 * (r + 2 * (s + 2 * 0)))) / 2 ^ 1 % 2 = q := by omega
    have e2 : (p + 2 * (q + 2 * (r + 2 * (s + 2 * 0)))) / 2 ^ 2 % 2 = r := by omega
    have e3 : (p + 2 * (q + 2 * (r + 2 * (s + 2 * 0)))) / 2 ^ 3 % 2 = s := by omega
    rw [e0, e1, e2, e3]
    ring
  simp only [tableEntry, List.length_cons, List.length_nil, Nat.zero_add, Nat.reduceAdd]
  rw [← key]
  simp only [] at ea eb ec ed
  apply entry_toInt <;>
  · simp only [planeDot, dot, List.map_cons, List.map_nil, List.zip_cons_cons, List.zip_nil_right, List.sum_cons, List.sum_nil]
    split <;> rename_i hs <;> simp [hs] at * <;> omega

theorem table_one {o : Op} {a x : Int} (ha : PairIn o a x) (π : Nat) :
    (tableEntry o [x] (planeIndex o π [a])).signExtend 28 = BitVec.ofInt 28 (planeDot o π [a] [x]) := by
  have h2 : (2 : Int) ^ (opQ o + 1) = 4 * 2 ^ (opQ o - 1) := by
    have := (opQ_range o).1
    rw [show opQ o + 1 = opQ o - 1 + 2 by omega, pow_add]; ring
  have hpos : (0 : Int) < 2 ^ (opQ o - 1) := by positivity
  have ea := term_range ha π
  have la := planeBit_lt o π a
  have key : planeDot o π [a] [x] = ((List.range 1).zip [x]).foldl (fun t x =>
      let b : Int := (planeIndex o π [a] / 2 ^ x.1 % 2 : Nat)
      t + (if sgnMode o then 1 - 2 * b else b) * x.2) 0 := by
    have e0 : (planeBit o π a + 2 * 0) / 2 ^ 0 % 2 = planeBit o π a := by omega
    simp only [planeDot, dot, planeIndex, List.map_cons, List.map_nil, List.zip_cons_cons, List.zip_nil_right, List.foldl_cons,
      List.foldl_nil, List.foldr_cons, List.foldr_nil, show List.range 1 = [0] from rfl, e0, List.sum_cons, List.sum_nil]
    ring
  simp only [tableEntry, List.length_cons, List.length_nil, Nat.zero_add]
  rw [← key]
  simp only [] at ea
  apply entry_toInt <;>
  · simp only [planeDot, dot, List.map_cons, List.map_nil, List.zip_cons_cons, List.zip_nil_right, List.sum_cons, List.sum_nil]
    split <;> rename_i hs <;> simp [hs] at * <;> omega

/-! ## Plane registers, chunks and totals -/

theorem dot_map_add (f g : Int → Int) (ws xs : List Int) :
    dot (ws.map (fun w => 2 * f w + g w)) xs = 2 * dot (ws.map f) xs + dot (ws.map g) xs := by
  induction ws generalizing xs with
  | nil => simp [dot]
  | cons w ws ih =>
    cases xs with
    | nil => simp [dot]
    | cons x xs =>
      have := ih xs
      simp only [dot, List.map_cons, List.zip_cons_cons, List.sum_cons] at this ⊢
      rw [this]; ring

theorem dot_map_neg (f : Int → Int) (ws xs : List Int) : dot (ws.map (fun w => -f w)) xs = -dot (ws.map f) xs := by
  induction ws generalizing xs with
  | nil => simp [dot]
  | cons w ws ih =>
    cases xs with
    | nil => simp [dot]
    | cons x xs =>
      have := ih xs
      simp only [dot, List.map_cons, List.zip_cons_cons, List.sum_cons] at this ⊢
      rw [this]; ring

/-- A plane register after the first n + 1 planes (R70). -/
theorem planeFold {o : Op} {ws xs : List Int} (hs : sgnMode o = false)
    (h : ∀ π, (tableEntry o xs (planeIndex o π ws)).signExtend 28 = BitVec.ofInt 28 (planeDot o π ws xs)) (n : Nat)
    (hn : n < opPlanes o) :
    (List.range (n + 1)).foldl (fun P i => planeStep o (i == 0) P (tableEntry o xs (planeIndex o (opPlanes o - 1 - i) ws))) 0 =
      BitVec.ofInt 28 (dot (ws.map (topPlanes o (n + 1))) xs) := by
  have hb : ∀ π w, (planeBit o π w : Int) = (((w % 2 ^ opPlanes o).toNat / 2 ^ π % 2 : Nat) : Int) := by
    intro π w; simp [planeBit, hs]
  induction n with
  | zero =>
    have hlt : ∀ w : Int, (w % 2 ^ opPlanes o).toNat / 2 ^ (opPlanes o - 1) < 2 := by
      intro w
      have hp : (0 : Int) < 2 ^ opPlanes o := by positivity
      have h0 : 0 ≤ w % 2 ^ opPlanes o := Int.emod_nonneg _ (by omega)
      have h1 : (w % 2 ^ opPlanes o).toNat < 2 ^ opPlanes o := by
        zify [h0]; rw [Int.toNat_of_nonneg h0]; exact Int.emod_lt_of_pos _ hp
      apply Nat.div_lt_of_lt_mul
      rw [← pow_succ]
      rwa [show opPlanes o - 1 + 1 = opPlanes o by omega]
    have e : ws.map (topPlanes o 1) = ws.map (fun w => -(planeBit o (opPlanes o - 1) w : Int)) := by
      apply List.map_congr_left
      intro w _
      rw [topPlanes_one, hb, Nat.mod_eq_of_lt (hlt w)]
    simp only [List.range_one, List.foldl_cons, List.foldl_nil, planeStep, beq_self_eq_true, if_true, hs, Nat.sub_zero, h, planeDot,
      e, dot_map_neg, Bool.false_eq_true, if_false, Nat.zero_add, BitVec.ofInt_neg]
  | succ n ih =>
    rw [List.range_succ, List.foldl_append, ih (by omega)]
    have e : ws.map (topPlanes o (n + 1 + 1)) = ws.map (fun w => 2 * topPlanes o (n + 1) w + (planeBit o (opPlanes o - 1 - (n + 1)) w : Int)) := by
      apply List.map_congr_left
      intro w _
      rw [topPlanes_succ o (n + 1) hn, hb, show opPlanes o - (n + 1 + 1) = opPlanes o - 1 - (n + 1) by omega]
    have hz : ((n + 1 : Nat) == 0) = false := by simp
    rw [e, dot_map_add, two_mul, BitVec.ofInt_add, BitVec.ofInt_add]
    simp only [List.foldl_cons, List.foldl_nil, planeStep, hz, h, planeDot, hs, Bool.false_eq_true, if_false]

/-- R70: a plane register holds the sum of the products of its k-group, modulo 2^28. -/
theorem planeSum_of {o : Op} {ws xs : List Int} (hp : 0 < opPlanes o)
    (h : ∀ π, (tableEntry o xs (planeIndex o π ws)).signExtend 28 = BitVec.ofInt 28 (planeDot o π ws xs))
    (hl : ws.length = xs.length) (hin : ∀ p ∈ ws.zip xs, PairIn o p.1 p.2) :
    planeSum o ws xs = BitVec.ofInt 28 (dot ws xs) := by
  rcases hs : sgnMode o with _ | _
  · obtain ⟨n, hn⟩ : ∃ n, opPlanes o = n + 1 := ⟨opPlanes o - 1, by omega⟩
    have e : ws.map (topPlanes o (n + 1)) = ws := by
      conv_rhs => rw [← List.map_id ws]
      apply List.map_congr_left
      intro w hw
      obtain ⟨i, hi, rfl⟩ := List.getElem_of_mem hw
      have hm := hin (ws[i], xs[i]'(hl ▸ hi)) (by
        rw [← List.getElem_zip (h := by simp [List.length_zip, ← hl, hi])]; exact List.getElem_mem _)
      simp only [PairIn, hs, Bool.false_eq_true, if_false] at hm
      rw [← hn]
      exact topPlanes_all o hp hm.2.1 hm.2.2
    rw [planeSum, hn, ← hn]
    have := planeFold hs h n (by omega)
    rw [e] at this
    rw [hn]
    simpa [hn] using this
  · have hp1 : opPlanes o = 1 := by simp [sgnMode] at hs; exact hs.1
    have e : ∀ π, planeDot o π ws xs = dot ws xs := by
      intro π
      clear h
      induction ws generalizing xs with
      | nil => simp [planeDot, dot]
      | cons w ws ih =>
        cases xs with
        | nil => simp [planeDot, dot]
        | cons x xs =>
          have ih := ih (xs := xs) (by simpa using hl) (fun p hp => hin p (by simp [hp]))
          have hw := (hin (w, x) (by simp)).2
          simp only [planeDot, dot, List.map_cons, List.zip_cons_cons, List.sum_cons, hs, if_true] at ih hw ⊢
          rw [ih]
          congr 1
          simp only [planeBit, hs, if_true]
          rcases hw with rfl | rfl | rfl <;> simp
    simp [planeSum, hp1, planeStep, hs, h, e]

theorem opPlanes_pos (o : Op) : 0 < opPlanes o := by
  simp only [opPlanes, opWBits]; split <;> omega

theorem weightMantissa_in {o : Op} (ho : FormatOk o) (code zp : Nat) (x : Int) :
    ((if sgnMode o then weightMantissa o code zp = 1 ∨ weightMantissa o code zp = -1 ∨ x = 0
      else -(2 ^ (opPlanes o - 1) : Int) ≤ weightMantissa o code zp ∧ weightMantissa o code zp < 2 ^ (opPlanes o - 1))) ∧
    -255 ≤ weightMantissa o code zp ∧ weightMantissa o code zp ≤ 255 := by
  obtain ⟨h8, -, hc⟩ := ho
  have hb : 0 < opWBits o := by simp only [opWBits]; omega
  simp only [weightMantissa, sgnMode, opPlanes]
  rcases Nat.eq_zero_or_pos (opCheckP o) with h0 | h0
  · simp only [h0, ne_eq, not_true_eq_false, if_false, beq_self_eq_true, Bool.and_true]
    rcases hz : opWzp o with _ | _
    · simp only [Bool.false_eq_true, if_false]
      by_cases h1 : opWBits o = 1
      · simp only [h1, beq_self_eq_true, if_true]
        split <;> simp
      · simp only [h1, if_false, beq_iff_eq]
        have := toSigned_range code (opWBits o) hb
        have hp : (2 : Int) ^ (opWBits o - 1) ≤ 2 ^ 7 := pow_le_pow_right₀ (by norm_num) (by omega)
        omega
    · have h1 : (opWBits o + 1 == 1) = false := by simp; omega
      simp only [if_true, h1, Bool.false_eq_true, if_false, Nat.add_sub_cancel]
      have hp : 2 ^ opWBits o ≤ 2 ^ 8 := pow_le_pow_right₀ (by norm_num) (by omega)
      have hp0 : 0 < 2 ^ opWBits o := by positivity
      have h2 := Nat.mod_lt code hp0
      have h3 := Nat.mod_lt zp hp0
      have hcast : ((2 ^ opWBits o : Nat) : Int) = 2 ^ opWBits o := by push_cast; rfl
      rw [← hcast]
      omega
  · obtain ⟨e1, e2⟩ := hc (by omega)
    have h0' : ¬ opCheckP o = 0 := by omega
    have h1 : (opCheckP o == 0) = false := by simpa using h0'
    by_cases hm : code % 2 = 1 <;> simp [e1, e2, h0', h1, hm]

theorem rneShift_in {m h : Int} {d : Nat} (hd : 0 < d) (hh : 3 ≤ h) (h1 : -h ≤ m) (h2 : m < h) : -h ≤ rneShift m d ∧ rneShift m d < h := by
  have hp : (2 : Int) ≤ 2 ^ d := by
    calc (2 : Int) = 2 ^ 1 := by norm_num
      _ ≤ 2 ^ d := pow_le_pow_right₀ (by norm_num) hd
  have hq := Int.mul_ediv_add_emod m (2 ^ d)
  have hr0 := Int.emod_nonneg m (show (2 : Int) ^ d ≠ 0 by omega)
  have hr1 := Int.emod_lt_of_pos m (show (0 : Int) < 2 ^ d by omega)
  have hlo : -h ≤ m / 2 ^ d := by
    apply Int.le_ediv_of_mul_le (by omega)
    nlinarith
  have hhi : m / 2 ^ d + 1 < h := by
    have : m / 2 ^ d ≤ m / 2 ∨ m < 0 := by
      by_cases hm : 0 ≤ m
      · left
        apply Int.le_ediv_of_mul_le (by omega)
        nlinarith [Int.ediv_nonneg hm (show (0 : Int) ≤ 2 ^ d by omega)]
      · right; omega
    rcases this with h' | h'
    · omega
    · have := Int.ediv_neg_of_neg_of_pos h' (show (0 : Int) < 2 ^ d by omega)
      omega
  simp only [rneShift]
  split
  · omega
  · split
    · omega
    · split <;> omega

theorem clipAct_in (o : Op) {m : Int} (e : Int) (hH : (3 : Int) ≤ 2 ^ (opQ o - 1)) (h1 : m < 2 ^ (opQ o - 1))
    (h2 : -(2 ^ (opQ o - 1) : Int) ≤ m) :
    (clipAct o m e).1 < 2 ^ (opQ o - 1) ∧ -(2 ^ (opQ o - 1) : Int) ≤ (clipAct o m e).1 := by
  simp only [clipAct]
  split
  · simp only []
    split
    · omega
    · split <;> omega
  · split
    · have := rneShift_in (d := (opAeLo o - e).toNat) (by omega) hH h2 h1
      exact ⟨this.2, this.1⟩
    · exact ⟨h1, h2⟩

theorem actElement_in (o : Op) (a kLen code zp : Nat) (e : Int) (x : Nat) :
    (actElement o a kLen code zp e x).1 < 2 ^ (opQ o - 1) ∧ -(2 ^ (opQ o - 1) : Int) ≤ (actElement o a kLen code zp e x).1 := by
  have hw : 4 ≤ opABits o := by simp only [opABits]; omega
  have hH : (3 : Int) ≤ 2 ^ (opQ o - 1) := by
    calc (3 : Int) ≤ 2 ^ 2 := by norm_num
      _ ≤ 2 ^ (opQ o - 1) := pow_le_pow_right₀ (by norm_num) (by simp only [opQ]; split <;> omega)
  have hm : actMantissa o code zp < 2 ^ (opQ o - 1) ∧ -(2 ^ (opQ o - 1) : Int) ≤ actMantissa o code zp := by
    have h1 := toSigned_range code (opABits o) (by omega)
    have h2 := toSigned_range zp (min (opABits o) 8) (by omega)
    have hp : (2 : Int) ^ (min (opABits o) 8 - 1) ≤ 2 ^ (opABits o - 1) := pow_le_pow_right₀ (by norm_num) (by omega)
    simp only [actMantissa, opQ]
    split
    · have : (2 : Int) ^ (opABits o + 1 - 1) = 2 * 2 ^ (opABits o - 1) := by
        rw [show opABits o + 1 - 1 = opABits o - 1 + 1 by omega, pow_succ]; ring
      omega
    · omega
  have hc := clipAct_in o (if opAscale o = 2 then 0 else e) hH hm.1 hm.2
  simp only [actElement]
  generalize clipAct o (actMantissa o code zp) (if opAscale o = 2 then 0 else e) = c at hc
  split
  · simp only []; omega
  · simp only []
    split <;> omega

/-- Beyond K an activation is 0 (R40). -/
theorem actElement_beyond (o : Op) (a kLen code zp : Nat) (e : Int) (x : Nat) (h : kLen ≤ x) :
    (actElement o a kLen code zp e x).1 = 0 := by simp [actElement, h]

/-- Products of a k-group are bounded (R41, R71). -/
theorem dot_range {ws xs : List Int} {A B : Int} (hA : 0 ≤ A) (hl : ws.length = xs.length)
    (h : ∀ p ∈ ws.zip xs, (-A ≤ p.1 ∧ p.1 ≤ A) ∧ -B ≤ p.2 ∧ p.2 ≤ B) :
    -(ws.length * (A * B)) ≤ dot ws xs ∧ dot ws xs ≤ ws.length * (A * B) := by
  induction ws generalizing xs with
  | nil => simp [dot]
  | cons w ws ih =>
    cases xs with
    | nil => simp at hl
    | cons x xs =>
      have ih := ih (xs := xs) (by simpa using hl) (fun p hp => h p (by simp [hp]))
      have ⟨⟨a1, a2⟩, b1, b2⟩ := h (w, x) (by simp)
      have hab : |w * x| ≤ A * B := by
        rw [abs_mul]
        exact mul_le_mul (abs_le.mpr ⟨a1, a2⟩) (abs_le.mpr ⟨b1, b2⟩) (abs_nonneg _) hA
      rw [abs_le] at hab
      simp only [dot, List.zip_cons_cons, List.map_cons, List.sum_cons, List.length_cons] at ih ⊢
      push_cast
      constructor <;> linarith [ih.1, ih.2, hab.1, hab.2]

theorem sum_range_le {n : Nat} {f : Nat → Int} {B : Int} (h : ∀ i < n, -B ≤ f i ∧ f i ≤ B) :
    -(n * B) ≤ ((List.range n).map f).sum ∧ ((List.range n).map f).sum ≤ n * B := by
  induction n with
  | zero => simp
  | succ n ih =>
    have ih := ih (fun i hi => h i (by omega))
    have := h n (by omega)
    simp only [List.range_succ, List.map_append, List.sum_append, List.map_cons, List.map_nil, List.sum_cons, List.sum_nil]
    push_cast
    constructor <;> linarith [ih.1, ih.2, this.1, this.2]

/-- What a cell works on, as a feeder hands it over: four pairs a k-group, within their widths (R32 to R35). -/
def FeedOk (o : Op) (x : CellFeed) : Prop :=
  ∀ kg, (x.weights kg).length = 4 ∧ (x.acts kg).length = 4 ∧
    ∀ p ∈ (x.weights kg).zip (x.acts kg), PairIn o p.1 p.2 ∧ -255 ≤ p.1 ∧ p.1 ≤ 255

theorem cellFeed_ok {o : Op} (ho : FormatOk o) (a kLen : Nat) (wl wside al aside : Feed) (j r c : Nat) :
    FeedOk o (cellFeed o a kLen wl wside al aside j r c) := by
  intro kg
  refine ⟨by simp [cellFeed], by simp [cellFeed], ?_⟩
  intro p hp
  simp only [cellFeed, List.zip_map', List.mem_map] at hp
  obtain ⟨m, -, rfl⟩ := hp
  simp only [PairIn]
  have hx := actElement_in o a kLen (feedCode al (opABits o) (opPlanes o) c kg m)
    (sideZp aside (if opAscale o = 1 then (4 * kg + m) / opGroup o else 0) c)
    (sideExp aside (if opAscale o = 1 then (4 * kg + m) / opGroup o else 0) c) (4 * kg + m)
  refine ⟨⟨⟨hx.2, hx.1⟩, ?_⟩, ?_⟩
  · split
    · split
      · right; right; exact actElement_beyond _ _ _ _ _ _ _ ‹_›
      · rename_i hs _
        have := (weightMantissa_in ho (feedCode wl (opWBits o) (opPlanes o) r (j * (padK o kLen / 4) + kg) m)
          (sideZp wside (j * groupsOf o kLen + (4 * kg + m) / opGroup o) r) (actElement o a kLen (feedCode al (opABits o) (opPlanes o) c kg m)
    (sideZp aside (if opAscale o = 1 then (4 * kg + m) / opGroup o else 0) c)
    (sideExp aside (if opAscale o = 1 then (4 * kg + m) / opGroup o else 0) c) (4 * kg + m)).1).1
        rw [if_pos hs] at this
        exact this
    · split
      · have : (0 : Int) < 2 ^ (opPlanes o - 1) := by positivity
        omega
      · rename_i hs _
        have := (weightMantissa_in ho (feedCode wl (opWBits o) (opPlanes o) r (j * (padK o kLen / 4) + kg) m)
          (sideZp wside (j * groupsOf o kLen + (4 * kg + m) / opGroup o) r) 0).1
        rw [if_neg hs] at this
        exact this
  · split
    · omega
    · exact (weightMantissa_in ho _ _ 0).2

theorem pair_bounds {o : Op} {w x : Int} (h : PairIn o w x) (h1 : -255 ≤ w) (h2 : w ≤ 255) :
    (-255 ≤ w ∧ w ≤ 255) ∧ -65536 ≤ x ∧ x ≤ 65536 := by
  have hp : (2 : Int) ^ (opQ o - 1) ≤ 2 ^ 16 := pow_le_pow_right₀ (by norm_num) (by have := opQ_range o; omega)
  have := h.1
  omega

/-- R70, R71: the plane register of a k-group is the sum of its products. -/
theorem planeSum_dot {o : Op} {ws xs : List Int} (hw : ws.length = 4) (hx : xs.length = 4)
    (hin : ∀ p ∈ ws.zip xs, PairIn o p.1 p.2) : planeSum o ws xs = BitVec.ofInt 28 (dot ws xs) := by
  obtain ⟨a, b, c, d, rfl⟩ : ∃ a b c d, ws = [a, b, c, d] := by
    match ws, hw with | [a, b, c, d], _ => exact ⟨a, b, c, d, rfl⟩
  obtain ⟨x, y, z, u, rfl⟩ : ∃ a b c d, xs = [a, b, c, d] := by
    match xs, hx with | [a, b, c, d], _ => exact ⟨a, b, c, d, rfl⟩
  simp only [List.zip_cons_cons, List.zip_nil_right, List.mem_cons, List.not_mem_nil, or_false] at hin
  apply planeSum_of (opPlanes_pos o)
  · intro π
    exact table_four (hin (a, x) (by simp)) (hin (b, y) (by simp)) (hin (c, z) (by simp)) (hin (d, u) (by simp)) π
  · rfl
  · simpa using hin

theorem signExtend_ofInt {v : Int} (h1 : -(2 ^ 27) ≤ v) (h2 : v < 2 ^ 27) :
    (BitVec.ofInt 28 v).signExtend 32 = BitVec.ofInt 32 v := by
  rw [BitVec.signExtend, BitVec.toInt_ofInt]
  congr 1
  apply Int.bmod_eq_of_le <;> omega

theorem dot_small {o : Op} {x : CellFeed} (hf : FeedOk o x) (kg : Nat) :
    -66846720 ≤ dot (x.weights kg) (x.acts kg) ∧ dot (x.weights kg) (x.acts kg) ≤ 66846720 := by
  obtain ⟨h1, h2, h3⟩ := hf kg
  have := dot_range (A := 255) (B := 65536) (by omega) (h1.trans h2.symm) (fun p hp => pair_bounds (h3 p hp).1 (h3 p hp).2.1 (h3 p hp).2.2)
  rw [h1] at this
  push_cast at this
  constructor <;> linarith [this.1, this.2]

theorem foldl_ofInt (n : Nat) (f : Nat → BitVec 32) (g : Nat → Int) (h : ∀ i, f i = BitVec.ofInt 32 (g i)) :
    (List.range n).foldl (fun ch i => ch + f i) 0 = BitVec.ofInt 32 ((List.range n).map g).sum := by
  induction n with
  | zero => rfl
  | succ n ih => rw [List.range_succ, List.foldl_append, ih]; simp [h, BitVec.ofInt_add]

/-- R41, R70: the chunk of a scale group is the sum of its products. -/
theorem cellChunk_sum {o : Op} (ho : FormatOk o) {x : CellFeed} (hf : FeedOk o x) (γ : Nat) :
    (cellChunk o x γ).toInt = groupSum o x γ := by
  have hs := sum_range_le (n := opGroup o / 4) (B := 66846720)
    (f := fun i => dot (x.weights (γ * (opGroup o / 4) + i)) (x.acts (γ * (opGroup o / 4) + i))) (fun i _ => dot_small hf _)
  have hn : ((opGroup o / 4 : Nat) : Int) ≤ 32 := by have := ho.2.1; omega
  simp only [cellChunk]
  rw [foldl_ofInt _ _ (fun i => dot (x.weights (γ * (opGroup o / 4) + i)) (x.acts (γ * (opGroup o / 4) + i)))]
  · rw [BitVec.toInt_ofInt, groupSum]
    apply Int.bmod_eq_of_le <;> omega
  · intro i
    obtain ⟨h1, h2, h3⟩ := hf (γ * (opGroup o / 4) + i)
    have := dot_small hf (γ * (opGroup o / 4) + i)
    rw [planeSum_dot h1 h2 (fun p hp => (h3 p hp).1), signExtend_ofInt] <;> omega

theorem foldl_add_sum (xs : List Int) : xs.foldl (· + ·) 0 = xs.sum := by
  rw [List.sum_eq_foldl]

/-- R46, R48, R110: what a pass adds to a total is the sum of its products, group by group in units of 2^ANCHOR. -/
theorem cellTotal_sum {o : Op} (ho : FormatOk o) {x : CellFeed} (hf : FeedOk o x) (groups : Nat) :
    cellTotal o x groups = passTotal o x groups := by
  simp only [cellTotal, passTotal, foldl_add_sum, cellChunk_sum ho hf]

/-- The same for one non-zero of a sparse lane (R147). -/
theorem planeSum_one {o : Op} {w x : Int} (h : PairIn o w x) : planeSum o [w] [x] = BitVec.ofInt 28 (w * x) := by
  have := planeSum_of (opPlanes_pos o) (table_one h) rfl (by simpa using h)
  simpa [dot] using this

/-- A sum of n terms, each between -B and B. -/
theorem sum_list_le {xs : List Int} {B : Int} (h : ∀ v ∈ xs, -B ≤ v ∧ v ≤ B) : -(xs.length * B) ≤ xs.sum ∧ xs.sum ≤ xs.length * B := by
  induction xs with
  | nil => simp
  | cons v xs ih =>
    have ih := ih (fun w hw => h w (by simp [hw]))
    have := h v (by simp)
    simp only [List.sum_cons, List.length_cons]
    push_cast
    constructor <;> linarith [ih.1, ih.2, this.1, this.2]

theorem foldl_ofInt_list {α : Type} (xs : List α) (f : α → BitVec 32) (g : α → Int) (h : ∀ x ∈ xs, f x = BitVec.ofInt 32 (g x)) (v : Int) :
    xs.foldl (fun s x => s + f x) (BitVec.ofInt 32 v) = BitVec.ofInt 32 (v + (xs.map g).sum) := by
  induction xs generalizing v with
  | nil => simp
  | cons x xs ih =>
    rw [List.foldl_cons, h x (by simp), ← BitVec.ofInt_add, ih (fun y hy => h y (by simp [hy])), List.map_cons, List.sum_cons, add_assoc]

/-- R147 to R149: what a sparse lane adds to a total, where no promotion takes more non-zeros than the largest group holds. -/
theorem laneTotal_sum {o : Op} (ho : FormatOk o) (c : Core) (a kLen : Nat) (r : Region) (e : LaneEntry) (planned panel side col : Nat)
    (hg : ∀ run ∈ laneRuns c o kLen r e planned, run.2.length ≤ 128) :
    laneTotal c o a kLen r e planned panel side col = laneSum c o a kLen r e planned panel side col := by
  have key : ∀ run ∈ laneRuns c o kLen r e planned,
      (run.2.foldl (fun (s : Word32) x =>
        s + (planeSum o [weightMantissa o x.code 0] [(panelElem c o a kLen panel side x.pos col).1]).signExtend 32) 0).toInt =
      (run.2.map (fun x => weightMantissa o x.code 0 * (panelElem c o a kLen panel side x.pos col).1)).sum := by
    intro run hr
    have hp : ∀ x : NonZero, PairIn o (weightMantissa o x.code 0) (panelElem c o a kLen panel side x.pos col).1 := by
      intro x
      have := actElement_in o a kLen (leNat ((List.range 3).map (fun i => plainByte c (panel + x.pos * 4 * opABits o +
        opABits o * col / 8 + i))) / 2 ^ (opABits o * col % 8) % 2 ^ opABits o)
        (plainByte c (side + 64 * (if opAscale o = 1 then x.pos / opGroup o else 0) + 2 * col + 1)).toNat
        (toSigned (plainByte c (side + 64 * (if opAscale o = 1 then x.pos / opGroup o else 0) + 2 * col)).toNat 8) x.pos
      exact ⟨⟨this.2, this.1⟩, (weightMantissa_in ho x.code 0 _).1⟩
    have hb : ∀ x : NonZero, -16711680 ≤ weightMantissa o x.code 0 * (panelElem c o a kLen panel side x.pos col).1 ∧
        weightMantissa o x.code 0 * (panelElem c o a kLen panel side x.pos col).1 ≤ 16711680 := by
      intro x
      have h1 := weightMantissa_in ho x.code 0 0
      have h2 := pair_bounds (hp x) h1.2.1 h1.2.2
      rw [← abs_le, abs_mul]
      calc _ ≤ (255 : Int) * 65536 := mul_le_mul (abs_le.mpr h2.1) (abs_le.mpr h2.2) (abs_nonneg _) (by norm_num)
        _ = _ := by norm_num
    have hs := sum_list_le (xs := run.2.map (fun x => weightMantissa o x.code 0 * (panelElem c o a kLen panel side x.pos col).1))
      (B := 16711680) (by simp only [List.mem_map]; rintro v ⟨x, -, rfl⟩; exact hb x)
    have hl : (run.2.length : Int) ≤ 128 := by exact_mod_cast hg run hr
    rw [List.length_map] at hs
    have hf := foldl_ofInt_list run.2
      (fun x => (planeSum o [weightMantissa o x.code 0] [(panelElem c o a kLen panel side x.pos col).1]).signExtend 32)
      (fun x => weightMantissa o x.code 0 * (panelElem c o a kLen panel side x.pos col).1)
      (fun x _ => by
        have := hb x
        rw [planeSum_one (hp x), signExtend_ofInt] <;> omega) 0
    rw [show (0 : Word32) = BitVec.ofInt 32 0 from rfl, hf, BitVec.toInt_ofInt, zero_add]
    apply Int.bmod_eq_of_le <;> omega
  simp only [laneTotal, laneSum, foldl_add_sum]
  simp only [laneRuns] at key
  refine congrArg List.sum (List.map_congr_left ?_)
  intro run hr
  rw [key run hr]

end Sys2Proof.Machine
end

