-- ==== Sys2Proof/Tests/Slice0.lean ====
section
/-! SUPPORT. The model's own tests: the well-formedness checks refuse what R321 refuses, and for every statement with hypotheses
a small state and operands that meet them, mostly with a part of the outcome. Each is about one command; expected values are
worked from the rules by hand. -/

set_option maxRecDepth 20000
set_option exponentiation.threshold 8200

namespace Sys2Proof.Tests

open Sys2Proof.Machine

/-! ## A small bench: one partition with every tile, nine operations, a step that runs on core 0 of tile 0 -/

def k0 : CoreId := ⟨0, 0⟩

/-- An operation on an engine (R277): 0 array, 1 sparse, 2 row function, 3 fine unit. -/
def opOn (i : Nat) (engine engopt : BitVec 8) (blk : List Byte) : Op :=
  { (default : Op) with
    opidx := i
    engine := engine
    engopt := engopt
    engblk := blk
    format := 0x00000103 }

def shapeOf (i : Nat) : OpShape := { opidx := i, bucket := 2, m := 100, n := 40, k := 70, skipped := false }

def shareOf (i : Nat) : Slice :=
  { (default : Slice) with
    opidx := i
    rows := 64
    row0 := 32
    k0 := 64
    klen := 64 }

/-- Function 0 of the constellation: one phase of a two-instruction body (R179). -/
def func0 : FuncBlock :=
  { (default : FuncBlock) with
    ninstr := 2
    nphase := 1
    dt := 11
    outFmt := 1
    phases := [{ start := 0, proLen := 0, bodyLen := 2, ecode := 0 }]
    consts := [0x00800] }

def constOf : Constellation :=
  { (default : Constellation) with
    tileMask := 1
    frames := (List.range 64).map (fun i => { (default : CoreFrame) with
      active := i == 0
      used := 0xFF
      entry := if i = 0 then [0] else [0xFFFF]
      sreg := [7] })
    ops := [opOn 1 0 0 [], opOn 2 1 0 [1, 0], opOn 3 2 0 [0, 0], opOn 4 3 0 [], opOn 5 3 1 [], opOn 6 3 2 [], opOn 7 3 3 []]
    slices := (List.range 9).map shareOf
    funcs := [func0] }

def stepOf : Step :=
  { id := 0, cmd := none, session := 1, entry := 0, prio := 0, args := [11, 12], shapes := (List.range 9).map shapeOf, recbuf := 0,
    contract := none, tick := none, arrival := 0, held := false }

def runOf : StepRun :=
  { step := stepOf, stepno := 5, seed := 0, aStep := 0, shares := (List.range 9).map shareOf, released := 0, opened := true,
    rerun := false, rerunPending := false, detections := 0, fault := none, recs := [], outputs := [] }

def partOf : Partition :=
  { Partition.reset with
    layout := { LayoutEntry.reset with
      defined := true
      tiles := 0xFFF
      function := 0 }
    const := some constOf
    run := some runOf }

/-- The bench with core 0 of tile 0 as f makes it of a core that is issuing. -/
def bench (f : Core → Core) : State :=
  updPart (updCore State.reset k0 (fun c => f { c with seq := { c.seq with state := .issuing } })) 0 (fun _ => partOf)

/-- A core with given registers from s1 on. -/
def withRegs (vs : List Word64) (c : Core) : Core := { c with sregs := Vector.ofFn (fun (i : Fin 32) => if i.val = 0 then 0 else (vs[i.val - 1]?).getD 0) }

def idle (c : Core) : Core := c

/-- What holds after a command that answers a next state. -/
def after (i : Instr) (s : State) (p : State → Bool) : Bool :=
  match exec i s with
  | .next t => p t
  | _ => false

/-! ## Well-formedness: what R321 refuses -/

theorem test_wf_jmp : (Instr.jmp k0 8192).wf = false ∧ (Instr.jmp k0 8191).wf = true := by decide
theorem test_wf_br : (Instr.br k0 .eq 1 2 8192).wf = false ∧ (Instr.br k0 .geu 1 2 8191).wf = true := by decide
theorem test_wf_loop : (Instr.loop k0 1 9000).wf = false ∧ (Instr.loop k0 1 0).wf = true := by decide
theorem test_wf_mtile : (Instr.mtile k0 30 1 false .x false 1).wf = false ∧ (Instr.mtile k0 1 29 false .x false 1).wf = false ∧
    (Instr.mtile k0 0 1 false .x false 1).wf = false ∧ (Instr.mtile k0 29 28 false .x false 1).wf = true := by decide
theorem test_wf_listMerge : (Instr.listMerge k0 31 1).wf = false ∧ (Instr.listMerge k0 0 1).wf = false ∧
    (Instr.listMerge k0 30 1).wf = true := by decide
theorem test_wf_rowfn : (Instr.rowfn k0 31 1).wf = false ∧ (Instr.rowfn k0 30 1).wf = true := by decide
theorem test_wf_fine : (Instr.fine k0 30 1).wf = false ∧ (Instr.fine k0 29 1).wf = true := by decide
theorem test_wf_copy : (Instr.copy k0 1 0 true 4).wf = false ∧ (Instr.copy k0 1 0 true 3).wf = true ∧
    (Instr.copy k0 1 0 false 7).wf = true := by decide
theorem test_refused_when_ill_formed : exec (.jmp k0 8192) (bench idle) = .refused .neverLoaded := by rfl

/-! ## Witnesses: the queue and the sequencer -/

theorem test_step_front : step { bench idle with pending := [.nop k0] } = exec (.nop k0) (bench idle) := by rfl
theorem test_can_issue : canIssue (bench idle) k0 = true ∧ coreRun (bench idle) k0 = some (0, runOf) ∧ runOf.rerunPending = false := by decide
theorem test_add_wraps : after (.add k0 3 1 2 1) (bench (withRegs [0xFFFFFFFFFFFFFFFF, 5])) (fun t => sreg (getCore t k0) 3 == 5) = true := by
  decide
theorem test_divu_by_zero : after (.divu k0 3 1 2) (bench (withRegs [9])) (fun t => sreg (getCore t k0) 3 == 0xFFFFFFFFFFFFFFFF) = true := by decide
theorem test_sar_sign : after (.sar k0 3 1 2 0) (bench (withRegs [0xFFFFFFFFFFFFFFF0, 66])) (fun t => sreg (getCore t k0) 3 == 0xFFFFFFFFFFFFFFFC) = true := by
  decide
theorem test_min_signed : after (.min k0 3 1 2) (bench (withRegs [0xFFFFFFFFFFFFFFFF, 0])) (fun t => sreg (getCore t k0) 3 == 0xFFFFFFFFFFFFFFFF) = true := by
  decide
theorem test_li_zero_register : after (.li k0 0 7) (bench idle) (fun t => sreg (getCore t k0) 0 == 0 && (getCore t k0).seq.pc == 1) = true := by
  decide
theorem test_branch_taken : after (.br k0 .lt 1 2 8191) (bench (withRegs [0xFFFFFFFFFFFFFFFF, 0])) (fun t => (getCore t k0).seq.pc == 8191) = true := by
  decide
theorem test_branch_unsigned : after (.br k0 .ltu 1 2 8191) (bench (withRegs [0xFFFFFFFFFFFFFFFF, 0])) (fun t => (getCore t k0).seq.pc == 1) = true := by
  decide
theorem test_loop_ends : after (.loop k0 1 5) (bench (withRegs [1])) (fun t => (getCore t k0).seq.pc == 1 && sreg (getCore t k0) 1 == 0) = true := by
  decide
theorem test_bsel_share : coreRun (bench idle) k0 = some (0, runOf) ∧ findShape runOf 1 = some (shapeOf 1) ∧ findShare runOf k0 1 = some (shareOf 1) ∧
    after (.bsel k0 3 .shareM 1) (bench idle) (fun t => sreg (getCore t k0) 3 == 64) = true ∧
    after (.bsel k0 3 .shareK 1) (bench idle) (fun t => sreg (getCore t k0) 3 == 6) = true := by decide

/-- The bench with no share of operation 1. -/
def noShare : State := updPart (bench idle) 0 (fun q => { q with run := some { runOf with shares := [] } })

theorem test_bsel_no_share : canIssue noShare k0 = true ∧ findShare { runOf with shares := [] } k0 1 = none ∧
    after (.bsel k0 3 .shareRow0 1) noShare (fun t => sreg (getCore t k0) 3 == 0) = true := by decide
theorem test_meridian : anyHeld (getCore (bench idle) k0) = false ∧ maskBusy (getCore (bench idle) k0) 31 = false ∧
    after (.meridian k0) (bench idle) (fun t => (getCore t k0).reported && (getCore t k0).seq.state == .idle) = true := by decide

/-- A core that waits for a copy. -/
def copying (c : Core) : Core := { c with copies := 1 }

theorem test_meridian_waits : anyHeld (getCore (bench copying) k0) = false ∧ maskBusy (getCore (bench copying) k0) 31 = true ∧
    after (.meridian k0) (bench copying) (fun t => (getCore t k0).blocked == .meridian && !(getCore t k0).reported) = true := by decide

/-- A core that holds set X of its array group. -/
def holdX (c : Core) : Core := { c with ag := { c.ag with setX := { AccSet.reset with held := true } } }

theorem test_meridian_held : anyHeld (getCore (bench holdX) k0) = true ∧ aborting (bench holdX) k0 = false ∧
    after (.meridian k0) (bench holdX) (fun t => (getCore t k0).seq.fault.getLsbD 3) = true := by decide
theorem test_fence : (∀ i < 5, (0x10 : BitVec 5).getLsbD i = true → classBusy (getCore (bench copying) k0) i = false) ∨
    (∃ i < 5, (0x10 : BitVec 5).getLsbD i = true ∧ classBusy (getCore (bench copying) k0) i = true) := by decide
theorem test_fence_passes : (∀ i < 5, (31 : BitVec 5).getLsbD i = true → classBusy (getCore (bench idle) k0) i = false) ∧
    after (.fence k0 31) (bench idle) (fun t => (getCore t k0).seq.pc == 1) = true := by decide
theorem test_fence_waits : (∃ i < 5, (31 : BitVec 5).getLsbD i = true ∧ classBusy (getCore (bench copying) k0) i = true) ∧
    after (.fence k0 31) (bench copying) (fun t => (getCore t k0).blocked == .fence 31) = true := by decide

/-- An object of the partition at a node, mode STEP, owner 0. -/
def stepObj : SyncObj := { SyncObj.reset with mode := .step, owner := 0, target := 3, count := 2 }

/-- The bench with object 4 of tile 0 and of the hub, and a core that names them in s1 and s2. -/
def withObjs (f : Core → Core) : State :=
  let s := bench (fun c => f (withRegs [(objAddr ⟨1, 4⟩).setWidth 64, (objAddr ⟨0, 4⟩).setWidth 64, 6] c))
  let s := updTile s 0 (fun t => { t with objs := t.objs.set 4 stepObj })
  updHub s (fun h => { h with objs := h.objs.set 4 stepObj })

theorem test_signal_own : partObj (withObjs idle) 0 ((sreg (getCore (withObjs idle) k0) 1).setWidth 56) = some ⟨1, 4⟩ ∧
    maskBusy (getCore (withObjs idle) k0) 31 = false ∧
    after (.signal k0 1 3 31 0xFFFFFFFF) (withObjs idle) (fun t => t.adds.map (fun a => a.addend) == [5]) = true := by decide
theorem test_signal_hub : partObj (withObjs idle) 0 ((sreg (getCore (withObjs idle) k0) 2).setWidth 56) = some ⟨0, 4⟩ ∧
    after (.signal k0 2 3 31 0) (withObjs idle) (fun t => t.fabric.map (fun f => f.payload) == [[6, 0, 0, 0]]) = true := by decide
theorem test_signal_waits : maskBusy (getCore (withObjs copying) k0) 31 = true ∧ canIssue (withObjs copying) k0 = true ∧
    after (.signal k0 1 3 31 0) (withObjs copying) (fun t => t.adds == []) = true := by decide
theorem test_wait_tells_hub : after (.wait k0 5 2 false) (withObjs idle) (fun t => t.fabric.map (fun f => f.kind) == [.waitRegistration]) = true := by
  decide
theorem test_tag_last_slots : classBusy (getCore (bench (withRegs [4094, 2])) k0) 2 = false ∧
    (0 : Int) ≤ (sreg (getCore (bench (withRegs [4094, 2])) k0) 1 + (0 : Word32).signExtend 64).toInt ∧
    after (.tag k0 1 2 true 0) (bench (withRegs [4094, 2])) (fun t => (getCore t k0).tags.getLsbD 4095 && (getCore t k0).tags.getLsbD 4094 &&
      !(getCore t k0).tags.getLsbD 4093) = true := by decide

/-- A core whose drain port works. -/
def porting (c : Core) : Core := { c with active := some (.merge 1) }

theorem test_tag_waits : classBusy (getCore (bench (fun c => porting (withRegs [0, 1] c))) k0) 2 = true ∧
    after (.tag k0 1 2 true 0) (bench (fun c => porting (withRegs [0, 1] c))) (fun t => (getCore t k0).tags == 0) = true := by decide

/-! ## Witnesses: engine instructions -/

/-- Registers of an MTILE from s1: 40 rows, 40 columns, 64 elements, line base 0; addresses from s4. -/
def tileRegs : Core → Core := withRegs [40, 40, 64, 0x1000, 0, 0x2000, 0]

theorem test_mtile_joins : coreOp (bench tileRegs) k0 1 = some (opOn 1 0 0 []) ∧ (opOn 1 0 0 []).engine.toNat ≤ 1 ∧
    findShape runOf 1 = some (shapeOf 1) ∧ findShare runOf k0 1 = some (shareOf 1) ∧ passCount (opOn 1 0 0 []) 40 40 = 2 ∧
    after (.mtile k0 1 4 false .x false 1) (bench tileRegs) (fun t => (getCore t k0).ag.queue.map (fun j => (j.m, j.n, j.k, j.a0, j.a1)) ==
      [(40, 40, 6, 0x1000, 0)] && (getCore t k0).port == [.auto .array .x 2 0]) = true := by decide
theorem test_mtile_job_in_range : mtileAddrOk (opOn 1 0 0 []) { (default : MtileJob) with
    m := 40
    n := 40
    a0 := 0x1000
    a2 := 0x2000 } = true := by decide

/-- A core whose array queue is full. -/
def fullQueue (c : Core) : Core := { tileRegs c with ag := { MatUnit.reset with queue := List.replicate 4 default } }

theorem test_mtile_stalls : after (.mtile k0 1 4 false .x false 1) (bench fullQueue) (fun t => (getCore t k0).seq.state == .stalled &&
    (getCore t k0).seq.pc == 0) = true := by decide
theorem test_mtile_zero_extent : after (.mtile k0 1 4 false .x true 1) (bench (withRegs [0, 40, 64, 0])) (fun t =>
    (getCore t k0).seq.pc == 1 && (getCore t k0).ag.queue == []) = true := by decide
theorem test_mtile_fold : (1 : Nat) < passCount (opOn 1 0 0 []) 40 40 ∧
    after (.mtile k0 1 4 false .x true 1) (bench tileRegs) (fun t => (getCore t k0).seq.fault.getLsbD 2) = true := by decide
theorem test_mtile_held : after (.mtile k0 1 4 false .x false 1) (bench (fun c => holdX (tileRegs c))) (fun t =>
    (getCore t k0).seq.fault.getLsbD 3) = true := by decide
theorem test_mtile_bad_base : after (.mtile k0 1 4 false .x false 1) (bench (withRegs [40, 40, 0x400000 * 4294967296 + 64, 0x1000])) (fun t =>
    (getCore t k0).seq.fault.getLsbD 0) = true := by decide
theorem test_drain_held : canIssue (bench holdX) k0 = true ∧ (accSet (getCore (bench holdX) k0).ag .x).held = true ∧ portQueued (getCore (bench holdX) k0) < 16 ∧
    after (.drain k0 .x) (bench holdX) (fun t => (getCore t k0).port == [.explicit .array .x 0 0] && !(getCore t k0).ag.setX.held) = true := by decide

/-- A core that holds set Y of its sparse engine only, with a full port. -/
def holdSparseFull (c : Core) : Core :=
  { c with
    sp := { c.sp with setY := { AccSet.reset with held := true } }
    port := List.replicate 16 (.explicit .array .x 0 0) }

theorem test_drain_stalls : (accSet (getCore (bench holdSparseFull) k0).sp .y).held = true ∧ (accSet (getCore (bench holdSparseFull) k0).ag .y).held = false ∧
    16 ≤ portQueued (getCore (bench holdSparseFull) k0) ∧
    after (.drain k0 .y) (bench holdSparseFull) (fun t => (getCore t k0).seq.state == .stalled) = true := by decide
theorem test_drain_not_held : (accSet (getCore (bench idle) k0).ag .x).held = false ∧
    after (.drain k0 .x) (bench idle) (fun t => (getCore t k0).seq.fault.getLsbD 4) = true := by decide
theorem test_listMerge : after (.listMerge k0 1 1) (bench (withRegs [0x100000008, 50])) (fun t =>
    (getCore t k0).port == [.merge 1 8 1 40 0 50 0]) = true := by decide
theorem test_listMerge_zero : after (.listMerge k0 1 1) (bench (withRegs [0x100000008, 40 * 4294967296 + 50])) (fun t =>
    (getCore t k0).port == [] && (getCore t k0).seq.pc == 1) = true := by decide
theorem test_rowfn_joins : after (.rowfn k0 1 3) (bench (withRegs [50, 9])) (fun t => (getCore t k0).port == [.rowfn 3 40 0 6 0]) = true := by decide
theorem test_rowfn_zero : canIssue (bench (withRegs [50, 0])) k0 = true ∧
    min (sregAt (getCore (bench (withRegs [50, 0])) k0) 1 1).toNat (shareK (shapeOf 3) (shareOf 3)) = 0 := by decide
theorem test_fine_joins : after (.fine k0 1 4) (bench (withRegs [70, 3, 9])) (fun t => (t.tiles[(0 : TileId)]).fine.queue.map (fun j => (j.m, j.n, j.k)) ==
    [(64, 3, 6)] && (getCore t k0).fines == 1) = true := by decide
theorem test_fine_zero : after (.fine k0 1 4) (bench (withRegs [0, 3, 9])) (fun t => (getCore t k0).seq.pc == 1 && (getCore t k0).fines == 0) = true := by
  decide

/-- A ZERO of 64 bytes at offset 0 of the HBM stack of tile 0 (R337). -/
def zeroDesc : List Byte := patch (List.replicate 64 0) 0 [2, 0, 0, 0, 64, 0, 0, 0]

/-- A core whose plain holds the descriptor at offset 64. -/
def withDesc (c : Core) : Core := { withRegs [64] c with plain := memWrite [] 64 zeroDesc }

theorem test_signal_no_object : partObj (bench idle) 0 ((sreg (getCore (bench idle) k0) 1).setWidth 56) = none ∧
    after (.signal k0 1 2 0 0) (bench idle) (fun t => (getCore t k0).seq.fault.getLsbD 1) = true := by decide
theorem test_tag_range : 4096 < (sreg (getCore (bench (withRegs [4095, 2])) k0) 1 + (0 : Word32).signExtend 64).toInt + 2 ∧
    after (.tag k0 1 2 true 0) (bench (withRegs [4095, 2])) (fun t => (getCore t k0).seq.fault.getLsbD 0) = true := by decide
theorem test_copy_joins : memRead (getCore (bench withDesc) k0).plain 64 64 = zeroDesc ∧
    accessFor (getCore (bench withDesc) k0) .ce false 64 none = .proceeds ∧
    writersOf (bench withDesc) k0 .ce 64 = [] ∧ (match descLines (.tile 0 0) none 0 (plainAddr k0 64) (bench withDesc) with
      | .got bs u => bs == zeroDesc && descError (updCore u k0 retire) (.tile 0 0) 0 (bs.take 64) (lineRegion bs) == none
      | _ => false) = true ∧
    after (.copy k0 1 0 false 0) (bench withDesc) (fun t => (getEngine t (.tile 0 0)).queue.map (fun j => j.desc) == [zeroDesc] &&
      (getCore t k0).copies == 1) = true := by decide
theorem test_copy_address : after (.copy k0 1 1 false 0) (bench withDesc) (fun t => (getCore t k0).seq.fault.getLsbD 0) = true := by decide

/-! ## Witnesses: engines and drains -/

/-- A job of operation i on set X with extents m, n and no reduction. -/
def jobOf (i m n : Nat) (add : Bool) : MtileJob :=
  { (default : MtileJob) with
    opidx := i
    set := .x
    add := add
    m := m
    n := n }

/-- The first pass of a job, opened, with no line to come. -/
def runOfJob (j : MtileJob) : MatRun := { (default : MatRun) with
  job := j
  opened := true
  computeRow := List.replicate j.m true }

def queued (j : MtileJob) (c : Core) : Core := { c with ag := { MatUnit.reset with queue := [j] } }

theorem test_mtileStart : (getCore (bench (queued (jobOf 1 2 3 false))) k0).ag.queue = jobOf 1 2 3 false :: [] ∧
    coreOp (bench (queued (jobOf 1 2 3 false))) k0 1 = some (opOn 1 0 0 []) ∧ findShare runOf k0 1 = some (shareOf 1) ∧
    findShape runOf 1 = some (shapeOf 1) ∧ opPpol (opOn 1 0 0 []) = 0 ∧
    powered (bench idle) = true ∧ tileAwake (bench idle) 0 = true ∧
    after (.mtileStart k0 .array) (bench (queued (jobOf 1 2 3 false))) (fun t =>
      (getCore t k0).ag.setX.tag == 0x8001000000000000 && (getCore t k0).ag.setX.phase == .filling &&
      (getCore t k0).ag.queue == []) = true := by decide
theorem test_mtileStart_add_invalid : (accSet (getCore (bench (queued (jobOf 1 2 3 true))) k0).ag .x).tag.getLsbD 63 = false ∧
    after (.mtileStart k0 .array) (bench (queued (jobOf 1 2 3 true))) (fun t => (getCore t k0).drn.fault.getLsbD 0 &&
      (t.parts[(0 : PartId)]).run.map (fun r => r.fault.map (fun f => f.code)) == some (some 0x0204)) = true := by decide

/-- The array group in the one pass of a job. -/
def inPass (c : Core) : Core := { c with ag := { MatUnit.reset with running := some (runOfJob (jobOf 1 2 3 false)) } }

/-- The sparse engine in the one pass of a job. -/
def inSparse (c : Core) : Core := { c with sp := { MatUnit.reset with running := some (runOfJob (jobOf 2 2 3 false)) } }

theorem test_passComplete : passCount (opOn 1 0 0 []) 2 3 = 0 + 1 ∧ lastStepIn (opOn 1 0 0 []) (runOfJob (jobOf 1 2 3 false)) = true ∧
    (getCore (bench inPass) k0).ag.tail = [] ∧ findShare runOf k0 1 = some (shareOf 1) ∧ coreOp (bench inPass) k0 1 = some (opOn 1 0 0 []) ∧
    after (.passComplete k0 .array) (bench inPass) (fun t => (getCore t k0).ag.setX.totals == List.replicate 6 0 &&
      (getCore t k0).ag.setX.phase == .complete && (getCore t k0).ag.running == none) = true := by decide
theorem test_passComplete_sparse : coreOp (bench inSparse) k0 2 = some (opOn 2 1 0 [1, 0]) ∧ passCount (opOn 2 1 0 [1, 0]) 2 3 = 0 + 1 ∧
    after (.passComplete k0 .sparse) (bench inSparse) (fun t => (getCore t k0).spx.passes == 1 &&
      (getCore t k0).sp.setX.phase == .complete && (getCore t k0).spx.state == .idle) = true := by decide

/-- Set X of the array group, complete, with the tag of operation 1, behind an explicit DRAIN that the port has taken. -/
def drainable (c : Core) : Core :=
  { c with
    ag := { MatUnit.reset with setX := { AccSet.reset with
      tag := 0x8001000000000000
      phase := .complete
      drainWord := 1 } }
    active := some (.drain .array .x false .waiting 0) }

theorem test_setRelease : nextDrain (getCore (bench drainable) k0) = some (.array, .x, false, 0) ∧ tagOp (0x8001000000000000 : Word64) = 1 ∧
    tailPast (getCore (bench drainable) k0) (.array, .x, false, 0) = true ∧ recordsMissing (bench drainable) k0 (.array, .x, false, 0) = false ∧
    after (.setRelease k0 .array .x) (bench drainable) (fun t => (getCore t k0).active == some (.drain .array .x false .reading 0)) = true := by decide

def readingOut (c : Core) : Core := { drainable c with active := some (.drain .array .x false .reading 0) }

theorem test_validClear : (∀ m ∈ (getCore (bench readingOut) k0).ag.running, m.opened = true) ∧
    after (.validClear k0 .array .x) (bench readingOut) (fun t => (getCore t k0).ag.setX.tag == 0x0001000000000000 &&
      (getCore t k0).ag.setX.phase == .empty) = true := by decide

def portOf (xs : List PortItem) (c : Core) : Core := { c with port := xs }

theorem test_drainPortStart_explicit : (getCore (bench (portOf [.explicit .array .x 0 0])) k0).active = none ∧
    after (.drainPortStart k0) (bench (portOf [.explicit .array .x 0 0])) (fun t => (getCore t k0).active == some (.drain .array .x false .waiting 0) &&
      (getCore t k0).port == []) = true := by decide
theorem test_drainPortStart_merge : coreOp (bench (portOf [.merge 1 0 1 0 0 0 0])) k0 1 = some (opOn 1 0 0 []) ∧
    after (.drainPortStart k0) (bench (portOf [.merge 1 0 1 0 0 0 0])) (fun t => (getCore t k0).active == some (.merge 1) && (getCore t k0).port == []) = true := by decide
theorem test_drainPortStart_rowfn : coreConst (bench (portOf [.rowfn 3 1 0 1 0])) k0 = some constOf ∧ constOf.funcs[opFunc (opOn 3 2 0 [0, 0])]? = some func0 ∧
    coreOp (bench (portOf [.rowfn 3 1 0 1 0])) k0 3 = some (opOn 3 2 0 [0, 0]) := by decide

def portEnds (a : PortActive) (c : Core) : Core := { c with active := some a }

theorem test_drainComplete : (getCore (bench (portEnds (.drain .array .x false .cleared 0))) k0).blocked = .none ∧
    after (.drainComplete k0) (bench (portEnds (.drain .array .x false .cleared 0))) (fun t => (getCore t k0).active == none && (getCore t k0).drn.drains == 1) = true ∧
    after (.drainComplete k0) (bench (portEnds (.merge 1))) (fun t => (getCore t k0).drn.drains == 1) = true := by decide
theorem test_drainComplete_automatic : after (.drainComplete k0)
    (bench (fun c => portEnds (.drain .array .x true .cleared 0) (portOf [.auto .array .x 2 0] c))) (fun t =>
      (getCore t k0).port == [.auto .array .y 1 0] && (getCore t k0).drn.drains == 0) = true := by decide

def lane0 : Lane := { regs := .replicate 16 (some 0x00800), sums := [], maxs := [], sum := 0x00400, max := 0x00200, oexp := 0 }

/-- A row function of operation 3 over one column, in its body. -/
def rfuAt (upc : Nat) (finished : Bool) : RfuRun :=
  { opidx := 3, cols := 1, n0 := 0, n := 2, block := 0, phase := 0, inBody := true, upc := upc, elem := 0, lds := 1, ldas := 0, sts := 0,
    stiPhase := none, waiting := false, finished := finished, pc := 0, lanes := .replicate 32 lane0 }

def inRowfn (upc : Nat) (finished : Bool) (c : Core) : Core := { c with
  active := some .rowfn
  rfuRun := some (rfuAt upc finished) }

theorem test_rowfnComplete : after (.rowfnComplete k0) (bench (inRowfn 0 true)) (fun t => (getCore t k0).active == none && (getCore t k0).rfuRun == none) = true := by
  decide

/-- The context of the row function of the bench. -/
def ctxOf : RfuCtx := { run := rfuAt 0 false, op := opOn 3 2 0 [0, 0], f := func0 }

theorem test_midPhase : MidPhase (bench (inRowfn 0 false)) k0 ctxOf ∧ PlainOpen (getCore (bench (inRowfn 0 false)) k0) ∧
    ctxOf.f.outLayout = 0 ∧ ctxOf.f.outFmt ≠ 3 ∧ ctxOf.f.inFmt ≠ 2 ∧ 0 < ctxOf.run.lds :=
  ⟨⟨by decide, by decide, by rfl, rfl, rfl, .inr ⟨{ start := 0, proLen := 0, bodyLen := 2, ecode := 0 }, rfl, by decide⟩⟩,
    ⟨by decide, by decide, by decide⟩, rfl, by decide, by decide, by decide⟩

/-- Register va of lane 0 after a microinstruction. -/
def laneReg (t : State) (v : VReg) : Option Lns :=
  match (getCore t k0).rfuRun with
  | some r => ((r.lanes[(0 : Fin 32)]).regs)[v]
  | none => none

theorem test_rfuMul : after (.rfuMul k0 1 2 3) (bench (inRowfn 0 false)) (fun t => laneReg t 1 == some 0x01000 && laneReg t 2 == some 0x00800) = true := by decide
theorem test_neg : after (.neg k0 1 2) (bench (inRowfn 0 false)) (fun t => laneReg t 1 == some 0x80800) = true := by decide
theorem test_recip : after (.recip k0 1 2) (bench (inRowfn 0 false)) (fun t => laneReg t 1 == some 0x7F800) = true := by decide
theorem test_mulk : after (.mulk k0 1 2 0) (bench (inRowfn 0 false)) (fun t => laneReg t 1 == some 0x01000) = true := by decide
theorem test_tget : after (.tget k0 1 true) (bench (inRowfn 0 false)) (fun t => laneReg t 1 == some 0x00200) = true := by decide
theorem test_ld_below_plain : ∀ j : Fin 32, 0 + 1 * 0 + (0 + 32 * 0 + j.val) * 4 + 4 ≤ 0x400000 := by decide

/-! ## Witnesses: fine unit, copy engines, objects -/

def fineJob (op : Nat) : FineJob := { (default : FineJob) with opidx := op }

/-- The bench with a fine-unit queue and a running operation. -/
def fineBench (q : List FineJob) (run : Option FineJob) : State :=
  updTile (bench idle) 0 (fun t => { t with fine := { t.fine with
    queue := q
    running := run } })

theorem test_fdot : coreOp (fineBench [fineJob 4] none) k0 4 = some (opOn 4 3 0 []) ∧ opFineKind (opOn 4 3 0 []) = 0 ∧
    coreConst (fineBench [fineJob 4] none) k0 = some constOf ∧
    after (.fdot 0) (fineBench [fineJob 4] none) (fun t => t.tiles[(0 : TileId)].fine.running == some (fineJob 4) &&
      t.tiles[(0 : TileId)].fine.queue == []) = true := by decide
theorem test_fnorm : opFineKind (opOn 5 3 1 []) = 1 ∧
    after (.fnorm 0) (fineBench [fineJob 5] none) (fun t => t.tiles[(0 : TileId)].fine.kind == 1) = true := by decide
theorem test_femb : opFineKind (opOn 6 3 2 []) = 2 ∧
    after (.femb 0) (fineBench [fineJob 6] none) (fun t => t.tiles[(0 : TileId)].fine.kind == 2) = true := by decide
theorem test_fopt : opFineKind (opOn 7 3 3 []) = 3 ∧
    after (.fopt 0) (fineBench [fineJob 7] none) (fun t => t.tiles[(0 : TileId)].fine.kind == 3) = true := by decide
theorem test_fineComplete : (getCore (fineBench [] (some (fineJob 4))) ⟨0, (fineJob 4).core⟩).blocked = .none ∧
    after (.fineComplete 0) (fineBench [] (some (fineJob 4))) (fun t => t.tiles[(0 : TileId)].fine.running == none &&
      t.tiles[(0 : TileId)].fine.state == .idle) = true := by decide

/-- A descriptor of a kind with 64 bytes from offset 0x400 to offset 0x1000 of the HBM stack of tile 0, counts 1. -/
def descOf (kind : Byte) : List Byte :=
  patch (patch (List.replicate 64 0) 0 [kind, 0, 0, 0, 64, 0, 0, 0, 0, 4, 0, 0, 0, 0, 1, 0, 0, 0x10, 0, 0, 0, 0, 1, 0]) 24 [1, 0, 1, 0, 1, 0]

def copyJobOf (kind : Byte) : CopyJob := { (default : CopyJob) with
  issuer := some k0
  desc := descOf kind }

/-- Engine 0 of tile 0 with one descriptor queued, and 64 source bytes of value 9. -/
def copyBench (kind : Byte) : State :=
  updTile (bench copying) 0 (fun t => { t with
    hbm := memWrite [] 0x400 (List.replicate 64 9)
    engines := t.engines.set 0 { CopyEngine.reset with queue := [copyJobOf kind] } })

theorem test_copy_desc_fields : dKind (descOf 1) = 1 ∧ dLen0 (descOf 1) = 64 ∧ dSrc (descOf 1) = 0x1000000000000 + 0x400 ∧
    dDst (descOf 1) = 0x1000000000000 + 0x1000 ∧ dCount (descOf 1) 1 = 1 ∧ dCount (descOf 1) 2 = 1 ∧ dCount (descOf 1) 3 = 1 ∧
    jobPart (copyJobOf 1) = some 0 ∧ (∀ i : Fin 4, (getEngine (copyBench 1) (.tile 0 0)).running[i] = none) := by decide
theorem test_zero : after (.zero (.tile 0 0)) (copyBench 2) (fun t => (getEngine t (.tile 0 0)).queue == [] &&
    memGet t.tiles[(0 : TileId)].hbm 0x1000 == 0) = true := by decide
theorem test_move : after (.move (.tile 0 0) .clean) (copyBench 1) (fun t => memGet t.tiles[(0 : TileId)].hbm 0x1000 == 9 &&
    memGet t.tiles[(0 : TileId)].hbm 0x103F == 9 && memGet t.tiles[(0 : TileId)].hbm 0x1040 == 0 && memGet t.tiles[(0 : TileId)].hbm 0x43F == 9) = true := by
  decide
theorem test_transpose_taken : dKind (descOf 3) = 3 ∧ after (.transpose (.tile 0 0) .clean) (copyBench 3) (fun t =>
    (getEngine t (.tile 0 0)).queue == [] && ((getEngine t (.tile 0 0)).running[(0 : Fin 4)]).map (fun r => r.id) == some 0) = true := by decide
theorem test_diag_taken : dKind (descOf 4) = 4 ∧ after (.diag (.tile 0 0) .clean) (copyBench 4) (fun t => (getEngine t (.tile 0 0)).queue == []) = true := by
  decide
theorem test_gather_taken : dKind (descOf 5) = 5 ∧ after (.gather (.tile 0 0) .clean) (copyBench 5) (fun t => (getEngine t (.tile 0 0)).queue == []) = true := by
  decide
theorem test_region_taken : dKind (descOf 6) = 6 ∧ after (.region (.tile 0 0) .clean) (copyBench 6) (fun t => (getEngine t (.tile 0 0)).queue == []) = true := by
  decide

/-- A finished ZERO, with n as its NOTIFY to object 4 of tile 0. -/
def doneRun (n : Byte) : CopyRun := { (default : CopyRun) with
  job := { copyJobOf 2 with desc := patch (descOf 2) 56 (natLe 7 (objAddr ⟨1, 4⟩).toNat ++ [n]) }
  asked := true
  started := true }

def doneBench (n : Byte) : State :=
  updTile (withObjs copying) 0 (fun t => { t with engines := t.engines.set 0 { CopyEngine.reset with running := CopyEngine.reset.running.set 0 (some (doneRun n)) } })

theorem test_notify_address : objAt (dNotifyAddr (doneRun 3).job.desc) = some ⟨1, 4⟩ ∧ dNotifyN (doneRun 3).job.desc = 3 ∧ dNotifyN (doneRun 0).job.desc = 0 ∧
    dChain (doneRun 3).job.desc = false ∧ inTransit (doneBench 3) (.tile 0 0) 0 .write = false ∧ engineNode (.tile 0 0) = 1 ∧
    (doneRun 3).arrivals = [] ∧ (doneRun 3).chain = false ∧ (doneRun 3).todo = [] := by decide
theorem test_descriptorComplete : after (.descriptorComplete (.tile 0 0) 0) (doneBench 3) (fun t => t.adds.map (fun a => a.addend) == [3] &&
    (getEngine t (.tile 0 0)).notifies == 1 && (getCore t k0).copies == 0) = true ∧
    after (.descriptorComplete (.tile 0 0) 0) (doneBench 0) (fun t => t.adds == [] && (getEngine t (.tile 0 0)).descs == 1) = true := by decide

/-- An add of v in flight to object 4 of tile 0. -/
def addBench (v : Word32) : State :=
  { withObjs idle with adds := [{ obj := ⟨1, 4⟩, addend := v, src := .core k0, ack := false, part := 0, xid := 0 }] }

theorem test_objectAddCommit : (objAdds (addBench 0xFFFFFFFD) ⟨1, 4⟩).map (fun x => x.1) = [0] ∧ (1 : NodeId) = tileNode 0 ∧
    (addBench 0xFFFFFFFD).tiles[(0 : TileId)].waiters = [] ∧
    after (.objectAddCommit ⟨1, 4⟩ 0) (addBench 0xFFFFFFFD) (fun t => (getObj t ⟨1, 4⟩).map (fun o => (o.count, o.wrap)) == some (0xFFFFFFFF, true) &&
      t.adds == []) = true := by decide

/-- Core 0 blocked on a WAIT of s2 at object n of tile 0, registered or on its way; the object counts v. -/
def waitBench (n : Nat) (v : Word32) (f reg : Bool) (ws : List Waiter) : State :=
  let s := withObjs (fun c => { c with blocked := .wait 9 (objAddr ⟨1, n⟩) f reg })
  updTile s 0 (fun t => { t with
    objs := t.objs.set 4 { stepObj with
      count := v
      timeout := 2 }
    waiters := ws })

theorem test_waitRegister_idle : (getObj (waitBench 5 0 false false []) ⟨1, 5⟩).map (fun o => o.mode) = some .idle ∧
    after (.waitRegister k0) (waitBench 5 0 false false []) (fun t => t.tiles[(0 : TileId)].syn.fault == 0x50001) = true := by decide
theorem test_waitRegister_satisfied : after (.waitRegister k0) (waitBench 4 3 false false []) (fun t => (getCore t k0).blocked == .none &&
    sreg (getCore t k0) 9 == 0) = true := by decide
theorem test_waitRegister_waits : after (.waitRegister k0) (waitBench 4 2 false false []) (fun t => t.tiles[(0 : TileId)].waiters.map (fun w => w.deadline) ==
    [some 512] && (getObj t ⟨1, 4⟩).map (fun o => o.localWaiters) == some 1) = true := by decide

/-- The timer of core 0 on object 4, with its deadline. -/
def timerOf (d : Word64) : Waiter := { obj := 4, who := .localCore 0, deadline := some d, since := 0 }

theorem test_waitExpiry : ((waitBench 4 2 false true [timerOf 0]).tiles[(0 : TileId)].waiters).find? (fun w => w.obj == 4 && w.who == .localCore 0) = some (timerOf 0) ∧
    after (.waitExpiry ⟨1, 4⟩ (.localCore 0)) (waitBench 4 2 false true [timerOf 0]) (fun t => sreg (getCore t k0) 9 == 1 && (getCore t k0).blocked == .none) = true ∧
    after (.waitExpiry ⟨1, 4⟩ (.localCore 0)) (waitBench 4 2 true true [timerOf 0]) (fun t => (getCore t k0).seq.fault.getLsbD 5) = true := by decide
theorem test_waitExpiry_early : after (.waitExpiry ⟨1, 4⟩ (.localCore 0)) (waitBench 4 2 false true [timerOf 1]) (fun t =>
    (getCore t k0).blocked == .wait 9 (objAddr ⟨1, 4⟩) false true) = true := by decide

/-- A blocked access of port DR on slot 7 since tick 0, under a timeout. -/
def blockedOf (full : Bool) (timeout : BitVec 16) : State :=
  { bench (fun c => { c with
      tagMode := 0x4000
      pln := { c.pln with timeout := timeout }
      tagBlocks := [{ port := .dr, slot := 7, full := full, since := 0, eng := none }] }) with now := 256 }

theorem test_tagBlockRelease : ((getCore (blockedOf true 1) k0).tagBlocks.find? (fun y => y.port == .dr && !stillBlocked (getCore (blockedOf true 1) k0) y)).isSome = true ∧
    after (.tagBlockRelease k0 .dr) (blockedOf true 1) (fun t => (getCore t k0).tagBlocks == []) = true := by decide
theorem test_tagTimeout : stillBlocked (getCore (blockedOf false 1) k0) { port := .dr, slot := 7, full := false, since := 0, eng := none } = true ∧
    after (.tagTimeout k0 .dr) (blockedOf false 1) (fun t => (getCore t k0).pln.fault == 0x70001) = true ∧
    after (.tagTimeout k0 .dr) (blockedOf false 0) (fun t => (getCore t k0).pln.fault == 0) = true := by decide

/-! ## Witnesses: steps -/

/-- A core whose row function waits for records since tick 0. -/
def waitingRowfn (c : Core) : Core := { c with
  active := some .rowfn
  rfuRun := some { rfuAt 0 false with waiting := true }
  recSince := some 0 }

/-- The bench with COMBINE_TIMEOUT v for operation 3, at tick 512. -/
def combineBench (v : Nat) : State :=
  { updPart (bench waitingRowfn) 0 (fun q => { q with const := some { constOf with ops := [{ opOn 3 2 0 [0, 0] with combineTimeout := v }] } }) with now := 512 }

theorem test_combineTimeout_resumes : resumeRfu (combineBench 2) k0 = combineBench 2 := by rfl
theorem test_combineTimeout : recWaiter (combineBench 2) k0 = some (3, 0) ∧
    after (.combineTimeout k0) (combineBench 2) (fun t => (t.parts[(0 : PartId)]).run.map (fun r => r.fault.map (fun f => f.code)) == some (some 0x0202)) = true ∧
    after (.combineTimeout k0) (combineBench 3) (fun t => (t.parts[(0 : PartId)]).run.map (fun r => r.fault) == some none) = true ∧
    after (.combineTimeout k0) (combineBench 0) (fun t => (t.parts[(0 : PartId)]).run.map (fun r => r.fault) == some none) = true := by decide

def contract7 : Contract := { id := 7, entry := 0, maxBucket := 7, period := 1000, deadline := 800 }

/-- A step of contract 7 that has taken a release tick or waits for one. -/
def contractStep (tick : Option Word64) : Step := { stepOf with
  contract := some 7
  tick := tick
  arrival := 40 }

/-- The bench between steps: ready, with a stream of contract 7 and a queue; no run. -/
def between (q : List Step) : State :=
  let s := { updPart (bench idle) 0 (fun p => { p with
    run := none
    nextStepno := 9
    queue := q
    streams := [{ contract := 7, r0 := 100, next := 100 }]
    const := some { constOf with contracts := [contract7] } }) with now := 100 }
  updBoot s (fun b => { b with ready := true })

theorem test_stepRelease : mayRelease (between [contractStep (some 100)]) 0 = true ∧
    readyContract (between [contractStep (some 100)]) (between [contractStep (some 100)]).parts[(0 : PartId)] = some (contractStep (some 100)) ∧
    takesPart constOf k0 0 = true ∧
    after (.stepRelease 0) (between [contractStep (some 100)]) (fun t => (t.parts[(0 : PartId)]).run.map (fun r => (r.stepno, r.opened)) == some (9, false) &&
      (t.parts[(0 : PartId)]).nextStepno == 10 && (t.parts[(0 : PartId)]).queue == []) = true := by decide
theorem test_stepRelease_while_running : (bench idle).parts[(0 : PartId)].run.isSome = true ∧
    after (.stepRelease 0) (bench idle) (fun t => (t.parts[(0 : PartId)]).run.map (fun r => r.stepno) == some 5) = true := by decide
theorem test_releaseTick : ((openStreams (between []).parts[(0 : PartId)]).map (fun x => x.1.contract)) = [7] ∧
    after (.releaseTick 0 7) (between [contractStep none]) (fun t => (t.parts[(0 : PartId)]).queue.map (fun x => x.tick) == [some 100] &&
      (t.parts[(0 : PartId)]).streams.map (fun y => y.next) == [1100]) = true ∧
    after (.releaseTick 0 7) { between [] with now := 99 } (fun t => (t.parts[(0 : PartId)]).streams.map (fun y => y.next) == [100]) = true := by decide

/-- The bench with the step released, not opened. -/
def released (valley : BitVec 2) : State :=
  let s := updPart (withObjs idle) 0 (fun q => { q with run := some { runOf with opened := false } })
  updTile s 0 (fun t => { t with pas := { t.pas with valley := valley } })

theorem test_openingMeridian : (released 0).parts[(0 : PartId)].run = some { runOf with opened := false } ∧ frameOf constOf k0 = some { (default : CoreFrame) with
      active := true
      used := 0xFF
      entry := [0]
      sreg := [7] } ∧
    (∀ t ∈ partTiles (released 0) 0, stepNeeds constOf runOf t = true → tileAwake (released 0) t = true) := by decide
theorem test_openingMeridian_waits : (∃ t ∈ partTiles (released 2) 0, stepNeeds constOf runOf t = true ∧ tileAwake (released 2) t = false) ∧
    after (.openingMeridian 0) (released 2) (fun t => (t.parts[(0 : PartId)]).run.map (fun r => r.opened) == some false) = true := by decide

/-- A core that takes part and has reported, or not yet. -/
def takes (rep : Bool) (c : Core) : Core := { c with
  taking := true
  reported := rep }

theorem test_closingMeridian : takingCores (bench (takes true)) 0 = [k0] ∧ staleRecord (bench (takes true)) k0 = none ∧
    after (.closingMeridian 0) (bench (takes true)) (fun t => (t.parts[(0 : PartId)]).run == none && (t.parts[(0 : PartId)]).stepsDone == 1) = true ∧
    after (.closingMeridian 0) (bench (takes false)) (fun t => (t.parts[(0 : PartId)]).stepsDone == 0) = true := by decide

/-- A slot of ring 0 of function 0, with the command that waits there. -/
def slot0 : HostSlot := ⟨0, 0, 2⟩

/-- s with an enabled ring 0 of function 0 over a window at 0x10000, completion entries at 0x100, and one command fetched. -/
def withCommand (e : List Byte) (started : Bool) (s : State) : State :=
  updFunc s 0 (fun f => { f with
    hbBase := 0x10000
    hbLen := 0x10000
    rings := f.rings.set 0 { Ring.reset with
      enable := true
      cplBase := 0x100
      head := 3
      tail := 3
      fetched := [{ slot := 2, entry := e, started := started }] } })

/-- The closing step of the bench completes the command of slot 2. -/
def closing (late rerun : Bool) : State :=
  let s := withCommand (List.replicate 64 0) true (bench (takes true))
  { updPart s 0 (fun q => { q with
      const := some { constOf with contracts := [contract7] }
      run := some { runOf with
        rerun := rerun
        step := { stepOf with
          cmd := some slot0
          contract := if late then some 7 else none
          tick := if late then some 0 else none } } }) with now := 801 }

theorem test_closingMeridian_completes : after (.closingMeridian 0) (closing false false) (fun t => memRead t.hostMem 0x10120 16 ==
      [0, 0, 0, 0, 0, 0, 0, 0, 5, 0, 0, 0, 0, 0, 0, 0]) = true ∧
    after (.closingMeridian 0) (closing false true) (fun t => memRead t.hostMem 0x10120 2 == [3, 2]) = true ∧
    after (.closingMeridian 0) (closing true true) (fun t => memRead t.hostMem 0x10120 2 == [5, 2] && (t.parts[(0 : PartId)]).misses == 1) = true := by decide

/-- A model bound from a host buffer, with one section in the plain of core 0. -/
def modelOf (unb hurt : Bool) : Model :=
  { objId := 0, state := .bound, status := 0, digest := [1], contentDigest := [2],
    sections := [{ index := 0, tier := 0x10, node := 1, core := 0, loc := 64, len := 64 }], unbinding := unb, unbindCmd := none, fromStore := false, hurt := hurt }

def withModels (ms : List Model) (s : State) : State := updPart s 0 (fun q => { q with models := ms })

theorem test_modelUnbindEffect : after (.modelUnbindEffect 0) (withModels [modelOf true true] (between [])) (fun t =>
      (t.parts[(0 : PartId)]).models == [] && (t.parts[(0 : PartId)]).hurt == [[2]]) = true ∧
    after (.modelUnbindEffect 0) (withModels [modelOf true true] (bench idle)) (fun t => (t.parts[(0 : PartId)]).models.length == 1) = true := by decide
theorem test_watchdog : (∀ t ∈ partTiles (bench (takes false)) 0, tilePart (bench (takes false)) t = some 0) ∧
    after (.watchdog 0) { bench (takes false) with now := 1000000000 } (fun t => (getCore t k0).seq.fault.getLsbD 6) = true ∧
    after (.watchdog 0) { bench (takes false) with now := 999999999 } (fun t => (getCore t k0).seq.fault == 0) = true := by decide

/-- The bench with a fault of core 5 of tile 1 in its step. -/
def faulted : State :=
  let s := updPart (withObjs (takes false)) 0 (fun q => { q with run := some { runOf with fault := some { code := 0x0204, opidx := 6, pc := 3, core := ⟨1, 5⟩ } } })
  updTile s 0 (fun t => { t with objs := t.objs.set 4 { stepObj with snap := 1 } })

theorem test_stepFaultAbort : (faulted.parts[(0 : PartId)].run.map (fun r => r.fault.map (fun f => f.opidx))) = some (some 6) ∧ (getObj faulted ⟨1, 4⟩).map (fun o => o.snap) = some 1 ∧
    after (.stepFaultAbort 0) (bench idle) (fun t => (t.parts[(0 : PartId)]).run == some runOf) = true := by decide

/-- The bench with n detections before, on a core with bank 1 RESIDENT. -/
def parityBench (n : Nat) : State :=
  updPart (bench (fun c => { c with pln := { c.pln with resident := 2 } })) 0 (fun q => { q with run := some { runOf with detections := n } })

theorem test_parityRerun : coreRun (parityBench 0) k0 = some (0, runOf) ∧ coreRun (parityBench 1) k0 = some (0, { runOf with detections := 1 }) ∧
    (getCore (parityBench 1) k0).pln.resident.getLsbD (0x10001 / 2 ^ 16) = true ∧
    after (.parityRerun k0 .wf 0) faulted (fun t => (getCore t k0).pln.detects == 1 && (getCore t k0).pln.reruns == 0) = true := by decide
theorem test_rerunRestart : after (.rerunRestart 0) (updPart (bench (takes true)) 0 (fun q => { q with run := some { runOf with rerunPending := true } }))
    (fun t => (getCore t k0).seq.state == .issuing && sreg (getCore t k0) 1 == 7 && !(getCore t k0).reported &&
      (t.parts[(0 : PartId)]).run.map (fun r => r.rerunPending) == some false) = true ∧
    after (.rerunRestart 0) (bench (takes true)) (fun t => (getCore t k0).reported) = true := by decide

/-- Bank 0 of core 0 waits for its reload; one preload lies at its start. -/
def reloading (s : State) : State :=
  updCore (updPart s 0 (fun q => { q with const := some { constOf with preloads := [{ tile := 0, core := 0, offset := 0, bytes := [1, 2, 3] }] } })) k0
    (fun c => { c with
      reload := some 8 })

theorem test_residentBankReload : tilePart (reloading (between [])) 0 = some 0 ∧
    after (.residentBankReload k0 0) (reloading (between [])) (fun t => (getCore t k0).reload == none && memRead (getCore t k0).plain 0 3 == [1, 2, 3]) = true ∧
    after (.residentBankReload k0 0) (reloading (bench idle)) (fun t => (getCore t k0).reload == some 8) = true := by decide
theorem test_residentBankReload_host_model : plainSections (withModels [modelOf false false] (reloading (between []))).parts[(0 : PartId)] k0 64 8 =
      [(0, modelOf false false, { index := 0, tier := 0x10, node := 1, core := 0, loc := 64, len := 64 })] ∧
    after (.residentBankReload k0 0) (withModels [modelOf false false] (reloading (between []))) (fun t => (getCore t k0).reload == none &&
      (t.parts[(0 : PartId)]).models.map (fun m => (m.hurt, m.status)) == [(true, 0x0204)]) = true := by decide

/-! ## Witnesses: power, heat, start -/

/-- The module after READY, no partition defined, at tick n. -/
def readyAt (n : Word64) : State := { updBoot State.reset (fun b => { b with ready := true }) with now := n }

def metersOf (c m : BitVec 32) : MeterInput :=
  { compute := .replicate 12 c, base := .replicate 12 0, module := m, replayPpm := .replicate 12 0, rate := .replicate 12 0 }

/-- The window that ends at tick 10,000,000. -/
def windowEnds (now : Word64) : State := updSched (readyAt now) (fun x => { x with nextStart := 10000000 })

theorem test_budgetWindowStart_early : after (.budgetWindowStart (metersOf 5 7)) (windowEnds 9999999) (fun t => t.sched.gen == 0 && t.sched.emod == 0) = true := by decide
theorem test_budgetWindowStart : powered (windowEnds 10000000) = true ∧ (windowEnds 10000000).boot.ready = true ∧
    (windowEnds 10000000).sched.nextStart.toNat ≤ (windowEnds 10000000).now.toNat := by decide

/-- Tile 1 as it is before a park, in the valley, on its way out. -/
def valleyAt (v : BitVec 2) (chosen : Bool) : State := updTile (readyAt 7) 1 (fun t => { t with
  pas := { t.pas with
    valley := v
    wakeAsked := 3 }
  pwr := { t.pwr with parkChosen := chosen } })

theorem test_valleyEntry : tileAtMeridian (valleyAt 0 true) 1 = true ∧ runNeeds (valleyAt 0 true) 1 = false ∧
    (valleyAt 0 true).test.test = false ∧
    after (.valleyEntry 1) (valleyAt 0 false) (fun t => t.tiles[(1 : TileId)].pas.valley == 0) = true := by decide

/-- The bench with its step released and tile 0 in the valley. -/
def neededAsleep : State := updBoot (released 2) (fun b => { b with ready := true })

theorem test_valleyWake : runNeeds neededAsleep 0 = true ∧ neededAsleep.tiles[(0 : TileId)].pas.valley = 2 ∧ powered neededAsleep = true := by decide
theorem test_tileAwake : (valleyAt 3 false).tiles[(1 : TileId)].pas.valley = 3 ∧ powered (valleyAt 3 false) = true ∧ (valleyAt 3 false).boot.ready = true := by decide
theorem test_temperature_recovery : (1680 : Int) < ((1681 : BitVec 16) + (readyAt 0).tiles[(1 : TileId)].pwr.toff).toInt ∧ tileAtMeridian (readyAt 0) 1 = true ∧
    (readyAt 0).tiles[(1 : TileId)].pwr.context = 0 ∧
    after (.temperatureMeasurement 1 1681) (readyAt 0) (fun t => t.tiles[(1 : TileId)].pwr.context == 3 && !t.sched.thermWarn) = true ∧
    after (.temperatureMeasurement 1 1680) (readyAt 0) (fun t => t.tiles[(1 : TileId)].pwr.context == 0) = true := by decide
theorem test_temperature_in_step : tileAtMeridian (updBoot (bench (takes false)) (fun b => { b with ready := true })) 0 = false ∧
    after (.temperatureMeasurement 0 1681) (updBoot (bench (takes false)) (fun b => { b with ready := true })) (fun t =>
      t.tiles[(0 : TileId)].pwr.context == 0 && t.tiles[(0 : TileId)].pwr.enterRec) = true := by decide
theorem test_temperature_hub : after (.temperatureMeasurement 12 1761) (readyAt 0) (fun t => t.hub.tj == 1761 && t.sched.thermWarn) = true ∧
    after (.temperatureMeasurement 12 1760) (readyAt 0) (fun t => !t.sched.thermWarn) = true := by decide
theorem test_thermalTrip : after (.thermalTrip 3 1840) (readyAt 0) (fun t => !powered t && t.module == ⟨true, false, true⟩) = true ∧
    after (.thermalTrip 3 1839) (readyAt 0) (fun t => powered t) = true := by decide
theorem test_senseSample : after (.senseSample 449) (readyAt 0) (fun t => !powered t) = true ∧ after (.senseSample 450) (readyAt 0) (fun t => powered t) = true := by
  decide

/-- The module without 12 V. -/
def unplugged : State := { State.reset with module := ⟨false, false, false⟩ }

theorem test_powerApply : after (.powerApply 450) unplugged (fun t => powered t) = true ∧ after (.powerApply 449) unplugged (fun t => !powered t) = true ∧
    after (.powerApply 449) (readyAt 0) (fun t => powered t) = true := by decide
theorem test_powerRemove : after .powerRemove (readyAt 0) (fun t => t.module == ⟨false, false, false⟩ && t.boot.copyA == State.reset.boot.copyA) = true := by decide

/-- The module powered and not yet started. -/
def unstarted : State := updBoot State.reset (fun b => { b with
  started := false
  stage := 0 })

theorem test_startup_fails : after (.startup { StartInput.clean with failure := some (1, ⟨2, 3⟩) }) unstarted (fun t => t.boot.stage == 1 && t.boot.stopped && t.boot.detail == ⟨2, 3⟩) = true := by decide
theorem test_startup_premises : selectCopy unstarted.boot = some (true, { Retained.reset with
      generation := 2
      bootCount := 1 }) ∧ unstarted.boot.writable = true ∧ unstarted.boot.staging = none ∧ chosenSlot (unstarted.boot.fw[(0 : Fin 3)]) = some false ∧
    (Retained.reset.fwMin[(2 : Fin 3)]).toNat ≤ (unstarted.boot.fw[(2 : Fin 3)]).slot0.version.toNat := by decide
theorem test_ready : after .ready unstarted (fun t => !t.boot.ready) = true ∧ State.reset.boot.ready = false ∧ State.reset.boot.stage = 11 ∧
    State.reset.boot.stopped = false ∧ State.reset.boot.started = true ∧ State.reset.hub.endpoint = true := by decide
theorem test_granuleInit : after .granuleInit (updHub (readyAt 0) (fun h => { h with initGranules := 743 })) (fun t => t.hub.initGranules == 744) = true ∧
    after .granuleInit (updHub (readyAt 0) (fun h => { h with initGranules := 744 })) (fun t => t.hub.initGranules == 744) = true := by decide
theorem test_patrolRead : after (.patrolRead 2 3 [0x3000000000040]) (readyAt 0) (fun t => t.tiles[(2 : TileId)].mem.corrected == 3 &&
      t.tiles[(2 : TileId)].mem.uncorrected == 1 && t.badBlocks == [(0x3000000000000, false)]) = true := by
  decide

/-- A repair under way of section 0 of the bench's model. -/
def repairing (m : Model) (s : State) : State :=
  updBoot (updPart s 0 (fun q => { q with
    models := [m]
    damaged := [(0, 0, 0x0208)] })) (fun b => { b with ready := true })

theorem test_modelSectionRepair : after (.modelSectionRepair 0) (repairing (modelOf false false) (between [])) (fun t => (t.parts[(0 : PartId)]).damaged == [] &&
      (t.parts[(0 : PartId)]).models.map (fun m => (m.state, m.status, m.hurt)) == [(.failed, 0x0208, true)]) = true ∧
    after (.modelSectionRepair 0) (repairing (modelOf false false) (bench idle)) (fun t => (t.parts[(0 : PartId)]).damaged != []) = true := by decide

/-- The model bound from object 5 of the store instead. -/
def storeModel : Model := { modelOf false false with
  objId := 5
  fromStore := true }

/-- An object of the store holding a model image whose one entry of the key table is for this device. -/
def sealedOf (bytes : List Byte) : StoreObj := { id := 5, kind := 1, sealed := true, bytes := bytes, digest := [], lost := [] }

theorem test_sealedObj : (sealedObj (updPart (between []) 0 (fun q => { q with objects := [sealedOf []] })).parts[(0 : PartId)] 5).map (fun o => o.id) = some 5 ∧
    sectionCore { index := 0, tier := 0x10, node := 1, core := 0, loc := 64, len := 64 } = some k0 := by decide

/-! ## Witnesses: passes -/

/-- A flit of core 0 of tile 0 to node 2 (tile 1). -/
def flitOf (kind : FlitKind) (addr : BitVec 56) (payload : List Byte) : Flit :=
  { src := 1, dst := 2, part := 0, kind := kind, addr := addr, payload := payload, origin := .core k0, xid := 0, seqs := [] }

/-- The reverse: an answer on its way to tile 0. -/
def answerOf (kind : FlitKind) (payload : List Byte) (o : Origin) : Flit :=
  { src := 2, dst := 1, part := 0, kind := kind, addr := 0x2000000000040, payload := payload, origin := o, xid := 0, seqs := [] }

def onPass (f : Flit) (s : State) : State := { s with fabric := [f] }

/-- Offset 64 of the plain of core 0 of tile 1. -/
def plain1 : BitVec 56 := BitVec.ofNat 56 (plainAddr ⟨1, 0⟩ 64)

theorem test_flitWrite : nextFlit (onPass (flitOf .write plain1 [7, 8]) (bench idle)) 1 2 true = some (0, flitOf .write plain1 [7, 8]) ∧
    admitted (bench idle) (flitOf .write plain1 [7, 8]) = true ∧ placeOf plain1.toNat = some (.plain ⟨1, 0⟩ 64) ∧
    access (getCore (bench idle) ⟨1, 0⟩) .rx true 64 = .proceeds ∧ recordWindow (bench idle) ⟨1, 0⟩ 64 = none ∧
    after (.flitWrite 1 2) (onPass (flitOf .write plain1 [7, 8]) (bench idle)) (fun t => memRead (getCore t ⟨1, 0⟩).plain 64 3 == [7, 8, 0] &&
      t.fabric.map (fun f => f.kind) == [.creditReturn]) = true := by decide
theorem test_flitWrite_from_hub : after (.flitWrite 0 2) (onPass { flitOf .write plain1 [7, 8] with src := 0 } (bench idle)) (fun t =>
    memRead (getCore t ⟨1, 0⟩).plain 64 3 == [7, 8, 0] && t.fabric == []) = true := by decide
theorem test_flitReadRequest_plain : after (.flitReadRequest 1 2) (onPass (flitOf .readRequest plain1 []) (bench idle)) (fun t =>
    t.fabric.map (fun f => (f.kind, f.dst, f.payload.length)) == [(.readResponse, 1, 64)]) = true := by decide
theorem test_flitReadRequest_hbm : placeOf 0x2000000000040 = some (.hbm 1 64) ∧
    after (.flitReadRequest 1 2) (onPass (flitOf .readRequest 0x2000000000040 []) (bench idle)) (fun t =>
    t.fabric.map (fun f => (f.kind, f.dst, f.payload.length)) == [(.readResponse, 1, 64)]) = true := by decide
theorem test_flitSignal : objAt (objAddr ⟨2, 4⟩) = some ⟨2, 4⟩ ∧ after (.flitSignal 1 2) (onPass (flitOf .signal (objAddr ⟨2, 4⟩) [5, 0, 0, 0]) (bench idle)) (fun t =>
    t.adds.map (fun a => (a.obj, a.addend)) == [(⟨2, 4⟩, 5)] && t.fabric == []) = true := by decide
theorem test_flitSignal_refused : admitted (bench idle) { flitOf .signal (objAddr ⟨2, 4⟩) [5, 0, 0, 0] with part := 3 } = false ∧
    after (.flitSignal 1 2) (onPass { flitOf .signal (objAddr ⟨2, 4⟩) [5, 0, 0, 0] with part := 3 } (bench idle)) (fun t =>
      t.fabric.map (fun f => (f.kind, f.dst)) == [(.refusal, 1)] && t.tiles[(1 : TileId)].pas.filtered == 1 && t.adds == []) = true := by decide
theorem test_flitCommitAck : admitted (bench idle) (answerOf .commitAck [] (.core k0)) = true ∧
    nextFlit (onPass (answerOf .commitAck [] (.core k0)) (bench idle)) 2 1 false = some (0, answerOf .commitAck [] (.core k0)) ∧
    after (.flitCommitAck 2 1) (onPass (answerOf .commitAck [] (.core k0)) (bench (fun c => { c with blocked := .signal 0 0 0 true }))) (fun t =>
      (getCore t k0).blocked == .none && (getCore t k0).seq.pc == 1) = true := by decide
theorem test_flitWaitRelease : after (.flitWaitRelease 2 1) (onPass (answerOf .waitRelease [1] (.core k0)) (bench (fun c => { c with blocked := .wait 9 0 false true })))
    (fun t => (getCore t k0).blocked == .none && sreg (getCore t k0) 9 == 1) = true := by decide
theorem test_flitRefusal : after (.flitRefusal 2 1) (onPass (answerOf .refusal [] (.core k0)) (bench idle)) (fun t =>
    t.tiles[(0 : TileId)].pas.fault.getLsbD 1 && t.tiles[(0 : TileId)].pas.faddr == 0x2000000000040) = true := by decide

/-- Tile 0 with no credit left for a window of tile 1. -/
def dry : State := updTile (bench idle) 0 (fun t => { t with credits := [⟨{ (default : Window) with
  base := 0x2000000000000
  len := 0x1000 }, 0⟩] })

theorem test_flitCreditReturn : creditIx dry 0 0x2000000000040 = some 0 ∧ (1 : NodeId) = tileNode 0 ∧
    after (.flitCreditReturn 2 1) (onPass (answerOf .creditReturn [] (.core k0)) dry) (fun t => t.tiles[(0 : TileId)].credits.map (fun c => c.credits) == [1]) = true := by
  decide

/-- A descriptor of engine 0 of tile 0 that has asked for a line of tile 1. -/
def asking : CopyRun := { (default : CopyRun) with
  job := copyJobOf 1
  id := 6
  asked := true
  need := [0x2000000000040, 0x2000000000080] }

def askBench : State := updTile (bench idle) 0 (fun t => { t with engines := t.engines.set 0 { CopyEngine.reset with running := CopyEngine.reset.running.set 2 (some asking) } })

theorem test_flitReadResponse : placeOfRun (getEngine askBench (.tile 0 0)) 6 = some 2 ∧
    after (.flitReadResponse 2 1) (onPass (answerOf .readResponse (List.replicate 64 3) (.engine (.tile 0 0) 6 none)) askBench) (fun t =>
      ((getEngine t (.tile 0 0)).running[(2 : Fin 4)]).map (fun r => r.need) == some [0x2000000000080]) = true := by decide

/-- Object 4 of tile 1 counts v towards 3, mode TAKE. -/
def remoteObj (v : Word32) : State := updTile (bench idle) 1 (fun t => { t with objs := t.objs.set 4 { stepObj with
  mode := .take
  count := v } })

theorem test_flitWaitRegistration_satisfied : tileNode k0.tile ≠ (2 : NodeId) ∧
    after (.flitWaitRegistration 1 2) (onPass (flitOf .waitRegistration (objAddr ⟨2, 4⟩) []) (remoteObj 3)) (fun t =>
      t.fabric.map (fun f => (f.kind, f.payload)) == [(.waitRelease, [0])] && (getObj t ⟨2, 4⟩).map (fun o => o.count) == some 0) = true := by decide
theorem test_flitWaitRegistration_waits : after (.flitWaitRegistration 1 2) (onPass (flitOf .waitRegistration (objAddr ⟨2, 4⟩) []) (remoteObj 2)) (fun t =>
    (getObj t ⟨2, 4⟩).map (fun o => o.remote[(0 : Fin 8)]) == some 0x8400 && t.tiles[(1 : TileId)].waiters.map (fun w => w.deadline) == [none]) = true := by decide

/-- Fifteen failed replays in a row on the clockwise pass of tile 3. -/
def failing (n : Nat) : State := updTile (bench idle) 3 (fun t => { t with pas := { t.pas with fails := t.pas.fails.set 0 n } })

theorem test_passReplay : after (.passReplay 3 0 true) (failing 15) (fun t => t.tiles[(3 : TileId)].pas.retryCw == 1 && t.tiles[(3 : TileId)].pas.fails[(0 : Fin 3)] == 0) = true ∧
    after (.passReplay 3 0 false) (failing 14) (fun t => t.tiles[(3 : TileId)].pas.fails[(0 : Fin 3)] == 15 && t.tiles[(3 : TileId)].pas.cw == 2) = true := by decide
theorem test_passReplay_sixteenth : (failing 15).tiles[(3 : TileId)].pas.fails[(0 : Fin 3)] = 15 ∧
    after (.passReplay 3 0 false) (failing 15) (fun t => t.tiles[(3 : TileId)].pas.cw == 0 && t.tiles[(4 : TileId)].pas.ccw == 0 && t.tiles[(3 : TileId)].pas.fault.getLsbD 2 &&
      (t.parts[(0 : PartId)]).run.map (fun r => r.fault.map (fun f => f.code)) == some (some 0x0207)) = true := by decide

/-! ## Witnesses: host commands -/

/-- The partition of the bench between steps, reached by function 0 with one command fetched in slot 2. -/
def hostBench (e : List Byte) (f : Partition → Partition) : State := withCommand e false (updPart (between []) 0 f)

/-- An entry: opcode, bytes 8 to 19 (buffer and length), and bytes from 20 on. -/
def entryOf (op : Byte) (buf len : Nat) (rest : List Byte) : List Byte :=
  patch (List.replicate 64 0) 0 ([op, 0, 0, 0, 0, 0, 0, 0] ++ natLe 8 buf ++ natLe 4 len ++ rest)

theorem test_commandReady : CommandReady (hostBench (entryOf 0x01 0x1000 64 []) id) slot0 0x01 (entryOf 0x01 0x1000 64 []) :=
  ⟨by decide, by decide, by rfl, by rfl, by decide⟩
theorem test_identify : cleanEntry (entryOf 0x01 0x1000 64 []) [] = true ∧
    bufOk (hostBench (entryOf 0x01 0x1000 64 []) id) 0 (entryOf 0x01 0x1000 64 []) (some 64) = true ∧
    after (.identify slot0) (hostBench (entryOf 0x01 0x1000 64 []) id) (fun t => memRead t.hostMem 0x11010 9 == [68, 90, 45, 71, 49, 50, 45, 52, 84] &&
      memRead t.hostMem 0x10120 2 == [0, 0]) = true := by decide
theorem test_identify_short : bufOk (hostBench (entryOf 0x01 0x1000 63 []) id) 0 (entryOf 0x01 0x1000 63 []) (some 64) = false ∧
    after (.identify slot0) (hostBench (entryOf 0x01 0x1000 63 []) id) (fun t => memRead t.hostMem 0x10120 2 == [1, 3]) = true := by decide
theorem test_identify_flags : cleanEntry (entryOf 0x01 0x1000 64 [1]) [] = false ∧
    after (.identify slot0) (hostBench (entryOf 0x01 0x1000 64 [1]) id) (fun t => memRead t.hostMem 0x10120 2 == [1, 3]) = true := by decide
theorem test_query_statement : entKind (entryOf 0x02 0x1000 48 [1, 0, 1, 0]) = 1 ∧ cleanEntry (entryOf 0x02 0x1000 48 [1, 0, 1, 0]) [(20, 1), (22, 2)] = true ∧
    cmdPart (hostBench [] id) 0 = some 0 ∧
    after (.queryErrorStatement slot0) (hostBench (entryOf 0x02 0x1000 48 [1, 0, 1, 0]) (fun q => { q with errStatements := [[1], [2, 3]] })) (fun t =>
      memRead t.hostMem 0x11000 2 == [2, 3]) = true ∧
    after (.queryErrorStatement slot0) (hostBench (entryOf 0x02 0x1000 48 [1, 0, 1, 0]) id) (fun t => memRead t.hostMem 0x10120 2 == [1, 3]) = true := by decide
theorem test_query_bind : entKind (entryOf 0x02 0x1000 256 [2]) = 2 ∧ after (.queryBindState slot0) (hostBench (entryOf 0x02 0x1000 256 [2]) id) (fun t =>
    memRead t.hostMem 0x10120 2 == [0, 0]) = true := by decide
theorem test_attest_premises : cleanEntry (entryOf 0x03 0x1000 27264 [9]) [(20, 32)] = true ∧
    bufOk (hostBench (entryOf 0x03 0x1000 27264 [9]) id) 0 (entryOf 0x03 0x1000 27264 [9]) (some 27264) = true := by decide
theorem test_create_refused : cleanEntry (entryOf 0x30 0 0 [9]) storeFields = true ∧ kindListed (entryOf 0x30 0 0 [9]) = false ∧
    after (.create slot0) (hostBench (entryOf 0x30 0 0 [9]) id) (fun t => memRead t.hostMem 0x10120 2 == [1, 3]) = true := by decide

/-- The bench with function 0 given to no partition. -/
def unowned (e : List Byte) : State := hostBench e (fun q => { q with layout := { q.layout with function := 0xFF } })

theorem test_create_no_partition : kindListed (entryOf 0x30 0 0 [1]) = true ∧ cmdPart (unowned (entryOf 0x30 0 0 [1])) 0 = none ∧
    after (.create slot0) (unowned (entryOf 0x30 0 0 [1])) (fun t => memRead t.hostMem 0x10120 2 == [8, 1]) = true := by decide
theorem test_constLoad_premises : cleanEntry (entryOf 0x10 0x1000 64 [0]) [(20, 1), (24, 8)] = true ∧
    bufOk (hostBench (entryOf 0x10 0x1000 64 [0]) id) 0 (entryOf 0x10 0x1000 64 [0]) (sourceBuf (entryOf 0x10 0x1000 64 [0])) = true ∧
    entKind (entryOf 0x10 0x1000 64 [0]) = 0 ∧ (hostBench [] id).parts[(0 : PartId)].resJobs = [] ∧ (hostBench [] id).hub.passDown = false := by decide
theorem test_modelBind_premises : cleanEntry (entryOf 0x11 0x1000 64 [0]) [(20, 1), (24, 8)] = true ∧
    bufOk (hostBench (entryOf 0x11 0x1000 64 [0]) id) 0 (entryOf 0x11 0x1000 64 [0]) (sourceBuf (entryOf 0x11 0x1000 64 [0])) = true := by decide
theorem test_modelUnbind : unbindTarget (hostBench [] id).parts[(0 : PartId)] 5 = none ∧ entId (entryOf 0x12 0 0 [0, 0, 0, 0, 5]) = 5 ∧
    unbindTarget (hostBench [] (fun q => { q with models := [storeModel] })).parts[(0 : PartId)] 5 = some 0 ∧
    after (.modelUnbind slot0) (hostBench (entryOf 0x12 0 0 [0, 0, 0, 0, 5]) id) (fun t => memRead t.hostMem 0x10120 2 == [1, 3]) = true ∧
    after (.modelUnbind slot0) (hostBench (entryOf 0x12 0 0 [0, 0, 0, 0, 5]) (fun q => { q with models := [storeModel] })) (fun t =>
      (t.parts[(0 : PartId)]).models.map (fun m => (m.unbinding, m.unbindCmd)) == [(true, some slot0)]) = true := by decide

def session (i : Nat) : Session := ⟨i, none, none⟩

theorem test_sessionOpen : fieldAt (entryOf 0x20 0 0 [0xFF, 0xFF]) 20 2 = 0xFFFF ∧ cleanEntry (entryOf 0x20 0 0 [0xFF, 0xFF]) [(20, 2)] = true ∧
    after (.sessionOpen slot0) (hostBench (entryOf 0x20 0 0 [0xFF, 0xFF]) (fun q => { q with sessions := [session 1, session 3] })) (fun t =>
      memRead t.hostMem 0x10120 6 == [0, 0, 0, 0, 2, 0]) = true := by decide
theorem test_sessionOpen_limit : after (.sessionOpen slot0) (hostBench (entryOf 0x20 0 0 [0xFF, 0xFF]) (fun q => { q with
    sessions := (List.range 256).map (fun i => session (i + 1)) })) (fun t => memRead t.hostMem 0x10120 2 == [6, 3]) = true := by decide
theorem test_sessionOpenAfterBind : hostReady (hostBench [] id) = true ∧
    after (.sessionOpenAfterBind 0) (hostBench (entryOf 0x20 0 0 [0xFF, 0xFF]) (fun q => { q with waitingOpens := [(slot0, 0xFFFF)] })) (fun t =>
      (t.parts[(0 : PartId)]).sessions == [session 1] && (t.parts[(0 : PartId)]).waitingOpens == []) = true ∧
    after (.sessionOpenAfterBind 0) (hostBench [] (fun q => { q with
      waitingOpens := [(slot0, 0xFFFF)]
      resJobs := [.bind 5] })) (fun t => (t.parts[(0 : PartId)]).sessions == []) = true := by decide
theorem test_sessionClose : openSessionOf (hostBench [] id).parts[(0 : PartId)] 4 = none ∧
    after (.sessionClose slot0) (hostBench (entryOf 0x21 0 0 [4, 0]) id) (fun t => memRead t.hostMem 0x10120 2 == [3, 3]) = true ∧
    after (.sessionClose slot0) (hostBench (entryOf 0x21 0 0 [4, 0]) (fun q => { q with sessions := [session 4] })) (fun t =>
      (t.parts[(0 : PartId)]).sessions == [] && memRead t.hostMem 0x10120 2 == [0, 0]) = true := by decide

/-- An ENQUEUE of entry point 0 at priority 7 on session 4, with no shape named. -/
def enq : List Byte := entryOf 0x22 0x1000 64 [4, 0, 0, 7, 0, 0]

/-- A constellation without operations. -/
def openSession (q : Partition) : Partition := { q with
  sessions := [session 4]
  const := some { constOf with ops := [] } }

theorem test_enqueue_premises : cleanEntry enq [(20, 6), (32, 8)] = true ∧ bufOk (hostBench enq id) 0 enq (some (64 + 16 * fieldAt enq 24 2)) = true ∧
    (openSessionOf (hostBench enq openSession).parts[(0 : PartId)] 4).map (fun x => x.contract) = some none ∧
    shapesOk (hostRead (hostBench enq openSession) 0 0x1000 64) 0 0 = true ∧ partDamaged (hostBench enq openSession).parts[(0 : PartId)] = false := by decide
theorem test_enqueue : after (.enqueue slot0) (hostBench enq openSession) (fun t => (t.parts[(0 : PartId)]).queue.map (fun x => (x.prio, x.arrival, x.session)) == [(7, 100, 4)]) = true ∧
    after (.enqueue slot0) (hostBench enq id) (fun t => memRead t.hostMem 0x10120 2 == [3, 3]) = true := by decide
theorem test_enqueue_refused : partDamaged (hostBench enq (fun q => { openSession q with models := [modelOf false true] })).parts[(0 : PartId)] = true ∧
    after (.enqueue slot0) (hostBench enq (fun q => { openSession q with models := [modelOf false true] })) (fun t => memRead t.hostMem 0x10120 2 == [0x0F, 2]) = true ∧
    after (.enqueue slot0) (hostBench enq (fun q => { openSession q with queue := List.replicate 64 stepOf })) (fun t => memRead t.hostMem 0x10120 2 == [2, 3]) = true := by
  decide

/-! ## Witnesses: rings, registers, resets, settings, the store -/

/-- Ring 0 of function 0 enabled and empty, over a window at 0x10000. -/
def ringBench (enable : Bool) (len : BitVec 48) : State := updFunc (readyAt 9) 0 (fun f => { f with
  hbBase := 0x10000
  hbLen := len
  rings := f.rings.set 0 { Ring.reset with
    enable := enable
    cplBase := 0x100 } })

theorem test_doorbell : listedCommand (memRead ((64 : Nat).fold (fun i _ m => memPut m (0x10000 + i) (if i = 0 then 1 else 0)) []) (busAddr (ringBench true 0x10000).funcs[(0 : FuncId)] 0) 64) = true ∧
    after (.doorbell 0 0 1 [(0x10000, 1)]) (ringBench true 0x10000) (fun t => (getRing t 0 0).fetched.map (fun x => x.entry.take 2) == [[1, 0]] && (getRing t 0 0).head == 1) = true := by decide
theorem test_doorbell_range : after (.doorbell 0 0 64 []) (ringBench true 0x10000) (fun t => t.funcs[(0 : FuncId)].errDoorbell && (getRing t 0 0).tail == 0) = true := by decide
theorem test_ringEnable : ringsInWindow (ringBench false 0x1000) 0 0 = true ∧ ringsInWindow (ringBench false 0xFFF) 0 0 = false ∧
    after (.ringEnable 0 0) (ringBench false 0x1000) (fun t => (getRing t 0 0).enable) = true ∧
    after (.ringEnable 0 0) (ringBench false 0xFFF) (fun t => !(getRing t 0 0).enable && t.funcs[(0 : FuncId)].errRange) = true := by decide

/-- Ring 0 holds back messages until tick t. -/
def moderated (t : Word64) : State := updFunc (readyAt 9) 0 (fun f => { f with rings := f.rings.set 0 { Ring.reset with
  vector := 3
  moderating := some t } })

theorem test_msixModerationExpiry : after (.msixModerationExpiry 0 0) (moderated 9) (fun t => (t.funcs[(0 : FuncId)]).msix[(3 : Fin 64)] == 1 && (getRing t 0 0).moderating == none) = true ∧
    after (.msixModerationExpiry 0 0) (moderated 10) (fun t => (getRing t 0 0).moderating == some 10) = true := by decide
theorem test_registerWrite_window : after (.registerWrite 0 .bar0 0x10 8 0x12FFF) (readyAt 9) (fun t => t.funcs[(0 : FuncId)].hbBase == 0x12000) = true := by decide
theorem test_registerWrite_w1c : after (.registerWrite 0 .bar0 0x300 8 5) (updFunc (readyAt 9) 0 (fun f => { f with
    errRange := true
    errDoorbell := true
    errRefused := true })) (fun t => !t.funcs[(0 : FuncId)].errRange && t.funcs[(0 : FuncId)].errDoorbell && !t.funcs[(0 : FuncId)].errRefused) = true := by decide

/-- The bench with its partition confidential. -/
def secretBench : State := updPart (readyAt 9) 0 (fun q => { q with layout := { q.layout with
  defined := true
  confidential := true } })

theorem test_confidential : confidentialMode secretBench = true ∧ confidentialMode (readyAt 9) = false ∧ busUp (readyAt 9) = true ∧
    after (.rcFieldAccess 0 .bar2 0x1C0008) secretBench (fun t => t.funcs[(0 : FuncId)].errRefused && t.funcs[(0 : FuncId)].errCode == 0x0402) = true := by decide
theorem test_configRequest : after (.configRequest 2) (readyAt 9) (fun t => t.funcs[(2 : FuncId)].lastConfig == 2) = true ∧
    after (.configRequest 2) State.reset (fun t => t.funcs[(2 : FuncId)].lastConfig == 1) = true := by decide
theorem test_functionLevelReset : (∀ y ∈ (hostBench [] (fun q => { q with sessions := [session 4] })).parts[(0 : PartId)].sessions, y.closing = none) ∧
    funcPart (hostBench [] id) 0 = some 0 ∧ (hostBench [] id).parts[(0 : PartId)].sessions = [] ∧ (hostBench [] id).parts[(0 : PartId)].run = none := by decide

def setEntry (c : FuncId) (e : List Byte) : State := updFunc (updPart (between []) 0 (fun q => { q with layout := { q.layout with function := BitVec.ofNat 8 c.val } })) c (fun f => { f with
  hbBase := 0x10000
  hbLen := 0x10000
  rings := f.rings.set 0 { Ring.reset with
    enable := true
    cplBase := 0x100
    fetched := [{ slot := 0, entry := e, started := false }] } })

/-- A SET of an item with its target and value. -/
def setOf (item target : Byte) (v : Nat) : List Byte := entryOf 0x40 0 0 ([item, target, 0, 0] ++ natLe 8 v)

theorem test_setPseed : cleanEntry (setOf 1 0 9) [(20, 2), (24, 8)] = true ∧ (setEntry 0 (setOf 1 0 9)).boot.writable = true ∧ entValue (setOf 1 0 9) = 9 ∧
    CommandReady (setEntry 0 (setOf 1 0 9)) ⟨0, 0, 0⟩ 0x40 (setOf 1 0 9) := ⟨by decide, by decide, by decide, by decide, by decide, by rfl, by rfl, by decide⟩
theorem test_setMode : entKind (setOf 2 0 1) = 2 ∧ (entValue (setOf 2 0 1)).toNat ≤ 1 ∧ (setEntry 0 (setOf 2 0 1)).parts[(0 : PartId)].models = [] ∧
    atMeridian (setEntry 0 (setOf 2 0 1)) 0 = true ∧ atMeridian (bench idle) 0 = false ∧ entKind (setOf 3 0 9) = 3 := by decide
theorem test_setDevice : valueIn (setOf 4 0 100) 1 100 = true ∧ valueIn (setOf 5 3 48) (-48) 48 = true ∧ valueIn (setOf 5 3 0xFFFFFFFFFFFFFFD0) (-48) 48 = true ∧
    valueIn (setOf 6 3 200) (-200) 200 = true ∧ entTarget (setOf 6 3 200) = 3 ∧ valueIn (setOf 4 0 101) 1 100 = false := by decide
theorem test_setWindowLength_of_another : after (.setWindowLength ⟨1, 0, 0⟩) (setEntry 1 (setOf 4 0 20)) (fun t => memRead t.hostMem 0x10100 2 == [5, 3] &&
    t.sched.windowPending == []) = true := by decide

/-- An object of the store of the bench: id 5, three bytes. -/
def objOf (sealed' : Bool) : StoreObj := { id := 5, kind := 2, sealed := sealed', bytes := [7, 8, 9], digest := [], lost := [] }

/-- An entry of a store command on object 5, with offset, length and destination. -/
def storeEntry (op : Byte) (buf len off n dest : Nat) : List Byte :=
  entryOf op buf len ([0, 0, 0, 0] ++ natLe 8 5 ++ natLe 8 off ++ natLe 8 n ++ natLe 8 dest)

def storeBench (e : List Byte) (sealed' : Bool) : State := hostBench e (fun q => { q with
  objects := [objOf sealed']
  nextObj := 6
  layout := { q.layout with nsExtents := 4 } })

theorem test_create : cleanEntry (entryOf 0x30 0 0 [4]) storeFields = true ∧ entKind (entryOf 0x30 0 0 [4]) = 4 ∧
    after (.create slot0) (storeBench (entryOf 0x30 0 0 [4]) true) (fun t => (t.parts[(0 : PartId)]).objects.map (fun o => (o.id, o.sealed)) == [(5, true), (6, false)] &&
      memRead t.hostMem 0x10120 9 == [0, 0, 0, 0, 0, 0, 0, 0, 6]) = true := by decide
theorem test_append : (visibleObj (storeBench (storeEntry 0x31 0x1000 2 0 0 0) false).parts[(0 : PartId)] 5) = some (objOf false) ∧ cleanEntry (storeEntry 0x31 0x1000 2 0 0 0) storeFields = true ∧
    bufOk (storeBench (storeEntry 0x31 0x1000 2 0 0 0) false) 0 (storeEntry 0x31 0x1000 2 0 0 0) (some 0) = true ∧
    fitsNamespace (storeBench (storeEntry 0x31 0x1000 2 0 0 0) false).parts[(0 : PartId)] (objOf false) 2 = true ∧
    after (.append slot0) (storeBench (storeEntry 0x31 0x1000 2 0 0 0) false) (fun t => (t.parts[(0 : PartId)]).objects.map (fun o => o.bytes) == [[7, 8, 9, 0, 0]]) = true := by decide
theorem test_append_refused : after (.append slot0) (storeBench (storeEntry 0x31 0x1000 2 0 0 0) true) (fun t => memRead t.hostMem 0x10120 2 == [0x0B, 2]) = true ∧
    visibleObj (hostBench [] id).parts[(0 : PartId)] 5 = none ∧
    after (.append slot0) (hostBench (storeEntry 0x31 0x1000 2 0 0 0) id) (fun t => memRead t.hostMem 0x10120 2 == [0x0B, 2]) = true := by decide
theorem test_seal_premises : bufOk (storeBench (storeEntry 0x32 0x1000 32 0 0 0) false) 0 (storeEntry 0x32 0x1000 32 0 0 0) (some 32) = true ∧
    (storeBench (storeEntry 0x32 0x1000 32 0 0 0) false).hub.spareBlocks ≠ 0 ∧ cleanEntry (storeEntry 0x32 0x1000 32 0 0 0) storeFields = true := by decide
theorem test_list : after (.list slot0) (storeBench (entryOf 0x35 0x1000 64 []) true) (fun t => memRead t.hostMem 0x10122 4 == [1, 0, 0, 0] &&
      memRead t.hostMem 0x11000 1 == [5]) = true ∧
    after (.list slot0) (storeBench (entryOf 0x35 0 0 []) false) (fun t => memRead t.hostMem 0x10120 4 == [0, 0, 0, 0]) = true := by decide

/-- The bytes 1 and 2 of object 5 to offset 0x40 of the HBM stack of tile 0. -/
def getEnt : List Byte := storeEntry 0x33 0 0 1 2 0x1000000000040

theorem test_get : getPlace (storeBench getEnt true) 0 (entDest getEnt) 2 = some (.hbm 0 0x40) ∧ entObjOff getEnt + entObjLen getEnt ≤ 3 ∧
    after (.get slot0 .clean) (storeBench getEnt true) (fun t => memRead t.tiles[(0 : TileId)].hbm 0x3F 4 == [0, 8, 9, 0]) = true ∧
    after (.get slot0 { TierEvent.clean with lost := [0] }) (storeBench getEnt true) (fun t => memRead t.hostMem 0x10120 2 == [8, 2] &&
      t.tiles[(0 : TileId)].hbm == [] && (t.parts[(0 : PartId)]).objects.map (fun o => o.lost) == [[0]]) = true := by decide
theorem test_get_fails : readsBlock [] [(0x1000000000040, 2)] 0x1000000000040 = true ∧ lostIn (objOf true) 1 2 = [] ∧
    after (.get slot0 (.uncorrectable 0x1000000000040)) (storeBench getEnt true) (fun t => memRead t.hostMem 0x10120 2 == [8, 2] &&
      t.tiles[(0 : TileId)].hbm == [] && t.badBlocks == [(0x1000000000000, false)]) = true ∧
    after (.get slot0 (.integrity 0x1000000000040)) (storeBench getEnt true) (fun t => memRead t.hostMem 0x10120 2 == [9, 2]) = true := by decide
theorem test_delete : 5 ∉ resident (storeBench [] true).parts[(0 : PartId)] ∧ beingRead (storeBench [] true).parts[(0 : PartId)] 5 = false ∧
    after (.delete slot0) (storeBench (storeEntry 0x34 0 0 0 0 0) true) (fun t => (t.parts[(0 : PartId)]).objects == []) = true ∧
    after (.delete slot0) (updPart (storeBench (storeEntry 0x34 0 0 0 0 0) true) 0 (fun q => { q with
      residency := 5
      objects := [{ objOf true with bytes := natLe 8 5 ++ natLe 8 0 }] })) (fun t => (t.parts[(0 : PartId)]).objects.length == 1) = true := by decide
theorem test_deleteAfterRead : after (.deleteAfterRead 0) (updPart (storeBench [] true) 0 (fun q => { q with waitingDeletes := [(none, 5)] })) (fun t =>
    (t.parts[(0 : PartId)]).objects == [] && (t.parts[(0 : PartId)]).waitingDeletes == []) = true := by decide

/-! ## Witnesses: management requests -/

/-- A request of a TYPE under a key, with a body of n bytes that begins as given and sig bytes of signature. -/
def reqOf (ty key : Byte) (n sig : Nat) (start : List Byte) : List Byte :=
  natLe 4 (64 + n + sig) ++ [ty, key, 0, 0] ++ List.replicate 24 0 ++ natLe 4 n ++ List.replicate 28 0 ++ start ++
    List.replicate (n - start.length) 0 ++ List.replicate sig 0

theorem length_natLe : ∀ (n v : Nat), (natLe n v).length = n
  | 0, _ => rfl
  | n + 1, v => by simp [natLe, length_natLe n]

theorem reqOf_length (ty key : Byte) (n sig : Nat) (start : List Byte) (h : start.length ≤ n) : (reqOf ty key n sig start).length = 64 + n + sig := by
  simp [reqOf, length_natLe]; omega

/-- The management plane up, with connection 1 open. -/
def mgmtBench : State := updMgmt (readyAt 9) (fun m => { m with
  portOpen := true
  link := .up1000
  conns := m.conns.set 1 true })

theorem reqOf_format (ty key : Byte) (n sig : Nat) (start : List Byte) (h : start.length ≤ n)
    (h1 : fieldAt (reqOf ty key n sig start) 0 4 = 64 + n + sig) (h2 : 64 + n + sig ≤ 1052672) (h3 : reqKey (reqOf ty key n sig start) = key.toNat)
    (hk : key.toNat ≤ 15 ∨ key.toNat = 0xFF) (h4 : fieldAt (reqOf ty key n sig start) 6 2 = 0) (h5 : reqBodyLen (reqOf ty key n sig start) = n)
    (h6 : allZero (sliceAt (reqOf ty key n sig start) 36 28) = true) (h7 : sig = if key.toNat ≠ 0xFF then 3309 else 0) (h8 : n ≤ 1048576) :
    requestFormat (reqOf ty key n sig start) = true := by
  have hl := reqOf_length ty key n sig start h
  simp only [requestFormat, h3, hl, h1, h4, h5, h6]
  simp only [bne_iff_ne, ne_eq, decide_eq_true_eq, Bool.and_eq_true, beq_iff_eq, and_true]
  refine ⟨⟨⟨⟨by omega, h2⟩, hk⟩, h8⟩, ?_⟩
  rw [h7]

theorem test_getInfo_ready : RequestReady mgmtBench 1 (reqOf 0x01 0xFF 0 0 []) 0x01 ∧ reqBody (reqOf 0x01 0xFF 0 0 []) = [] :=
  ⟨⟨by decide, by decide, rfl, by decide, by decide⟩, by decide⟩
theorem test_attest_ready : RequestReady mgmtBench 1 (reqOf 0x04 0xFF 32 0 []) 0x04 ∧ (reqBody (reqOf 0x04 0xFF 32 0 [])).length = 32 :=
  ⟨⟨by decide, by decide, rfl, by decide, by decide⟩, by decide⟩
theorem test_reading_ready : ∀ ty ∈ [0x03, 0x05, 0x06, 0x0E, 0x10], RequestReady mgmtBench 1 (reqOf (BitVec.ofNat 8 ty) 0xFF 0 0 []) ty := by
  intro ty h
  fin_cases h <;> exact ⟨by decide, by decide, rfl, by decide, by decide⟩
theorem test_setPair_ready : RequestReady mgmtBench 1 (reqOf 0x02 3 3 3309 [0x96, 0, 3]) 0x02 ∧ pairOk (reqBody (reqOf 0x02 3 3 3309 [0x96, 0, 3])) = true ∧
    reqKey (reqOf 0x02 3 3 3309 [0x96, 0, 3]) ≠ 0xFF :=
  ⟨⟨by decide, by decide, rfl, reqOf_format _ _ _ _ _ (by decide) (by decide) (by decide) (by decide) (by decide) (by decide) (by decide) (by decide) (by decide) (by decide),
    by decide⟩, by decide, by decide⟩
theorem test_body_length (r : List Byte) : (reqBody r).length = max (((r.drop 64).take (reqBodyLen r)).length) (reqBodyLen r) := by
  simp [reqBody, sliceAt]
theorem test_pubkeySet_ready : RequestReady mgmtBench 1 (reqOf 0x08 3 1955 3309 [0, 3, 1]) 0x08 :=
  ⟨by decide, by decide, rfl, reqOf_format _ _ _ _ _ (by decide) (by decide) (by decide) (by decide) (by decide) (by decide) (by decide) (by decide) (by decide) (by decide), by decide⟩
theorem test_keyAdd_ready : RequestReady mgmtBench 1 (reqOf 0x0C 3 1953 3309 [15]) 0x0C ∧ fieldAt (reqBody (reqOf 0x0C 3 1953 3309 [15])) 0 1 = 15 :=
  ⟨⟨by decide, by decide, rfl, reqOf_format _ _ _ _ _ (by decide) (by decide) (by decide) (by decide) (by decide) (by decide) (by decide) (by decide) (by decide) (by decide),
    by decide⟩, by decide⟩
theorem test_keyRemove_ready : RequestReady mgmtBench 1 (reqOf 0x0D 3 1 3309 [0]) 0x0D ∧ (reqBody (reqOf 0x0D 3 1 3309 [0])).length = 1 ∧
    (∀ j : Fin 16, (theRecord mgmtBench).opkeys[j] = none) :=
  ⟨⟨by decide, by decide, rfl, reqOf_format _ _ _ _ _ (by decide) (by decide) (by decide) (by decide) (by decide) (by decide) (by decide) (by decide) (by decide) (by decide),
    by decide⟩, by decide, by decide⟩
theorem test_netSet_ready : RequestReady mgmtBench 1 (reqOf 0x0F 3 12 3309 [1, 2, 3, 4, 32]) 0x0F ∧ fieldAt (reqBody (reqOf 0x0F 3 12 3309 [1, 2, 3, 4, 32])) 4 1 ≤ 32 ∧
    allZero (sliceAt (reqBody (reqOf 0x0F 3 12 3309 [1, 2, 3, 4, 32])) 5 3) = true :=
  ⟨⟨by decide, by decide, rfl, reqOf_format _ _ _ _ _ (by decide) (by decide) (by decide) (by decide) (by decide) (by decide) (by decide) (by decide) (by decide) (by decide),
    by decide⟩, by decide, by decide⟩
theorem test_fwBegin_ready : RequestReady mgmtBench 1 (reqOf 0x09 3 8 3309 [3, 0, 0, 0, 64]) 0x09 ∧ fieldAt (reqBody (reqOf 0x09 3 8 3309 [3, 0, 0, 0, 64])) 0 1 = 2 + 1 :=
  ⟨⟨by decide, by decide, rfl, reqOf_format _ _ _ _ _ (by decide) (by decide) (by decide) (by decide) (by decide) (by decide) (by decide) (by decide) (by decide) (by decide),
    by decide⟩, by decide⟩

/-- An upload of n bytes to component 2 in progress. -/
def uploading (n : Nat) : State := updBoot mgmtBench (fun b => { b with
  fwTarget := some 2
  fw := b.fw.set 2 { FwComp.reset with upload := some (n, []) } })

theorem test_fwData_ready : RequestReady (uploading 2) 1 (reqOf 0x0A 3 10 3309 [0, 0, 0, 0, 0, 0, 0, 0, 5, 6]) 0x0A ∧ upload (uploading 2) = some (2, 2, []) ∧
    fieldAt (reqBody (reqOf 0x0A 3 10 3309 [0, 0, 0, 0, 0, 0, 0, 0, 5, 6])) 0 8 + (10 - 8) ≤ 2 :=
  ⟨⟨by decide, by decide, rfl, reqOf_format _ _ _ _ _ (by decide) (by decide) (by decide) (by decide) (by decide) (by decide) (by decide) (by decide) (by decide) (by decide),
    by decide⟩, by decide, by decide⟩
theorem test_fwCommit_ready : RequestReady (uploading 2) 1 (reqOf 0x0B 3 0 3309 []) 0x0B ∧ reqBody (reqOf 0x0B 3 0 3309 []) = [] ∧ (uploading 2).test.test = false :=
  ⟨⟨by decide, by decide, rfl, reqOf_format _ _ _ _ _ (by decide) (by decide) (by decide) (by decide) (by decide) (by decide) (by decide) (by decide) (by decide) (by decide),
    by decide⟩, by decide, by decide⟩
theorem test_layoutSet_ready : RequestReady mgmtBench 1 (reqOf 0x07 3 384 3309 []) 0x07 ∧ layoutClean (reqBody (reqOf 0x07 3 384 3309 [])) = true :=
  ⟨⟨by decide, by decide, rfl, reqOf_format _ _ _ _ _ (by decide) (by decide) (by decide) (by decide) (by decide) (by decide) (by decide) (by decide) (by decide) (by decide),
    by decide⟩, by decide⟩

/-- A layout change with its commit left. -/
def committing : State := updMgmt mgmtBench (fun m => { m with job := some ⟨1, reqOf 0x07 3 384 3309 [], .replicate 12 .reset, 0, [], 0⟩ })

theorem test_layoutCommit : committing.mgmt.job.isSome = true ∧ powered committing = true ∧ committing.boot.writable = true := by decide
theorem test_import_ready : RequestReady mgmtBench 1 (reqOf 0x11 3 144352 3309 (natLe 4 144352 ++ [0x10])) 0x11 ∧ mgmtBench.boot.recovery = false :=
  ⟨⟨by decide, by decide, rfl, reqOf_format _ _ _ _ _ (by decide) (by decide) (by decide) (by decide) (by decide) (by decide) (by decide) (by decide) (by decide) (by decide),
    by decide⟩, by decide⟩

/-- The module in recovery. -/
def recovering : State := updBoot mgmtBench (fun b => { b with recovery := true })

theorem test_recoveryImport_ready : RequestReady recovering 1 (reqOf 0x11 0xFF 144352 0 (natLe 4 144352 ++ [0x10])) 0x11 ∧ recovering.boot.recovery = true ∧
    sliceAt (reqOf 0x11 0xFF 144352 0 (natLe 4 144352 ++ [0x10])) 8 16 = deviceId recovering ∧
    after (.recoveryImport 1 (reqOf 0x11 0xFF 144352 0 [])) mgmtBench (fun t => t.mgmt.responses == mgmtBench.mgmt.responses) = true :=
  ⟨⟨by decide, by decide, rfl, reqOf_format _ _ _ _ _ (by decide) (by decide) (by decide) (by decide) (by decide) (by decide) (by decide) (by decide) (by decide) (by decide),
    by decide⟩, by decide, by decide, by decide⟩
theorem test_mgmtConnect : portUp mgmtBench = true ∧ after .mgmtConnect mgmtBench (fun t => t.mgmt.conns[(0 : Fin 4)]) = true ∧
    after .mgmtConnect (updMgmt mgmtBench (fun m => { m with conns := .replicate 4 true })) (fun t => t.mgmt.conns == .replicate 4 true) = true ∧
    after .mgmtConnect (readyAt 9) (fun t => !t.mgmt.conns[(0 : Fin 4)]) = true := by decide

/-! ## Witnesses: test state and links -/

/-- The module ready, every granule written, with the test registers as f makes them. -/
def testBench (f : Test → Test) : State := updHub (updTest (readyAt 9) f) (fun h => { h with initGranules := 744 })

theorem test_testStateRequest : hostReady (testBench id) = true ∧ testRefusal (testBench id) = none ∧ testRefusal (readyAt 9) = some 0x020E ∧
    after (.testStateRequest 0) (readyAt 9) (fun t => t.test.lastCode == 0x020E && !t.test.test) = true ∧
    after (.testStateRequest 3) (testBench id) (fun t => !t.test.test) = true := by decide

def inTest (t : Test) : Test := { t with test := true }

theorem test_testStateEnd : mayEndTest (testBench inTest) = true ∧ mayEndTest (testBench (fun t => { inTest t with mbistRun := some (3, 0) })) = false ∧
    after (.testStateEnd 0 none) (testBench (fun t => { inTest t with mbistRun := some (3, 0) })) (fun t => t.test.test && t.test.lastCode == 0x020E) = true ∧
    after (.testStateEnd 0 (some ⟨3, 1⟩)) (testBench inTest) (fun t => t.boot.stopped && t.boot.stage == 5 && t.boot.detail == ⟨3, 1⟩) = true := by decide
theorem test_loopbackGo : loopListed (testBench (fun t => { inTest t with
      loopIface := 4
      loopInst := 2
      loopDuration := 1 })).test = true ∧
    after (.loopbackGo 0) (testBench (fun t => { inTest t with
      loopIface := 4
      loopInst := 2
      loopDuration := 1 })) (fun t => t.test.lresResult == 1 && t.tiles[(2 : TileId)].pas.spoke == 3) = true ∧
    after (.loopbackGo 0) (testBench id) (fun t => t.test.lastCode == 0x020E && t.test.lresResult == 5) = true := by decide
theorem test_loopbackEnd : after (.loopbackEnd ⟨true, 0, 0⟩) (testBench (fun t => { inTest t with loopRun := some (4, 2, 2) })) (fun t => t.test.lresResult == 2 && t.test.loopRun == none) = true ∧
    after (.loopbackEnd ⟨true, 1, 0⟩) (testBench (fun t => { inTest t with loopRun := some (4, 2, 2) })) (fun t => t.test.lresResult == 3) = true ∧
    after (.loopbackEnd ⟨false, 0, 0⟩) (testBench (fun t => { inTest t with loopRun := some (4, 2, 2) })) (fun t => t.test.lresResult == 4) = true ∧
    after (.loopbackEnd ⟨true, 0, 0⟩) (testBench inTest) (fun t => t.test.lresResult == 0) = true := by decide
theorem test_mbistGo : after (.mbistGo 0) (testBench (fun t => { inTest t with mbistTarget := 3 })) (fun t => t.test.mbistRun == some (3, 0) && t.test.mbistResult == 1) = true ∧
    after (.mbistGo 0) (testBench (fun t => { inTest t with mbistRun := some (3, 0) })) (fun t => t.test.lastCode == 0x020E) = true := by decide
theorem test_mbistDone : after (.mbistDone (some 9)) (testBench (fun t => { inTest t with mbistRun := some (3, 0) })) (fun t => t.test.mbistResult == 3 && t.test.mbistAddr == 9) = true ∧
    (testBench (fun t => { inTest t with mbistRun := some (3, 0) })).test.mbistRun = some (3, 0) := by decide

/-- Tile 1 in context TEST. -/
def tileInTest (res : BitVec 3) : State := updTile (testBench (fun t => { inTest t with speed := t.speed.set 1 { SpeedRegs.reset with result := res } })) 1
  (fun t => { t with pwr := { t.pwr with context := 2 } })

theorem test_speedRun : after (.speedRun 0 1) (tileInTest 0) (fun t => (t.test.speed[(1 : TileId)]).result == 1) = true ∧
    after (.speedRunEnd 1 ⟨0xFFFF, 4, 0, 0⟩) (tileInTest 1) (fun t => (t.test.speed[(1 : TileId)]).result == 2 && (t.test.speed[(1 : TileId)]).replays == 4) = true ∧
    after (.speedRunEnd 1 ⟨0xFFFF, 4, 0, 1⟩) (tileInTest 1) (fun t => (t.test.speed[(1 : TileId)]).result == 4) = true ∧
    after (.speedRunEnd 1 ⟨0, 0, 0, 0⟩) (tileInTest 1) (fun t => (t.test.speed[(1 : TileId)]).result == 3) = true ∧
    after (.speedRunEnd 1 ⟨0, 0, 0, 0⟩) (tileInTest 0) (fun t => (t.test.speed[(1 : TileId)]).result == 0) = true := by decide
theorem test_idcode : after .idcode secretBench (fun t => t.test.tapData == 0x1120446B) = true := by decide
theorem test_extest : after (.extest 5) (readyAt 9) (fun t => t.test.tap == .bypass && t.test.pads == 0) = true ∧
    after (.extest 5) (testBench inTest) (fun t => t.test.tap == .extest && t.test.pads == 5) = true ∧
    after (.samplePreload 5) (readyAt 9) (fun t => t.test.pads == 5) = true := by decide
theorem test_regacc : after (.regacc false 0x340008 0) (readyAt 9) (fun t => t.test.tapData == 2) = true ∧
    after (.regacc false 0x340008 0) secretBench (fun t => t.test.tap == .bypass && t.test.tapData == 0) = true := by decide
theorem test_link_training : busUp { readyAt 9 with module := ⟨false, false, false⟩ } = false ∧
    after (.pcieLinkTraining 2 16 5) (readyAt 9) (fun t => t.hub.width == 16 && t.hub.speed == 5 && t.hub.mps == 2) = true ∧
    after (.pcieLinkError 4 7) (readyAt 9) (fun t => (t.funcs[(4 : FuncId)]).aer == [7]) = true ∧
    after .hostDirectedLoopback (readyAt 9) (fun t => t.hub.loopbackFollower) = true := by decide

/-! ## Witnesses: LNS and memory -/

theorem test_lns_exact : lnsIsZero (0x3FFFF : Lns) = false ∧ (262143 : Int) < lnsL (0x3FFFF : Lns) + lnsL (0x00001 : Lns) ∧
    (lnsMul (0x3FFFF : Lns) 0x00001).code = 0x3FFFF ∧ (lnsMul (0x3FFFF : Lns) 0x00001).clip = true ∧
    (lnsDiv (0x40001 : Lns) 0x00001).clip = true ∧ (lnsDiv (0x40001 : Lns) 0x00001).code = 0x40000 ∧ (lnsMul (0x3FFFE : Lns) 0x00001).clip = false := by decide
theorem test_lns_zero : lnsIsZero (0x40000 : Lns) = true ∧ (lnsDiv (0x80001 : Lns) 0x40000).code = 0xBFFFF ∧ (lnsRecip (0x40000 : Lns)).code = 0x3FFFF := by decide
theorem test_lns_add_cheap : 2048 * (11 : Int) < lnsL (0x05801 : Lns) - lnsL (0x00000 : Lns) ∧ (lnsAdd 11 0x05801 0).code = 0x05801 ∧
    (lnsAdd 11 0x00005 0x80005).code = 0x40000 := by decide
theorem test_memory : memRead (memWrite [(3, 1)] 2 [5, 0, 6]) 2 3 = [5, 0, 6] ∧ memWrite [(3, 1)] 2 [5, 0, 6] = [(2, 5), (4, 6)] ∧
    memClear [(2, 5), (4, 6)] 2 2 = [(4, 6)] := by decide

/-! ## The spec's worked examples -/

/-- The down projection of chapter 02: format and numeric words as printed there. -/
def downProjection : Op :=
  { (default : Op) with
    opidx := 37
    engopt := 1
    format := 0x00006123
    numeric := 0x0001FAF4FEF6FFEA
    drain := 0x04060068
    approx := 0x000000000041FB00
    buckets := [⟨9216, 64, 26624⟩] }

/-- Chapter 02, fields of the words and the anchor conditions: ANCHOR = −22 passes, −21 does not. -/
theorem test_example_anchor :
    (opAnchor downProjection, opWeLo downProjection, opWeHi downProjection, opAeLo downProjection, opAeHi downProjection, opNadd downProjection) =
      (-22, -12, -6, -10, -2, 1) ∧
    (opWBits downProjection, opGroup downProjection, opABits downProjection, opOfmt downProjection) = (4, 64, 8, .bf16) ∧
    anchorOk downProjection = true ∧ anchorOk { downProjection with numeric := 0x0001FAF4FEF6FFEB } = false := by decide

/-- Chapter 02: the chunk −634 under e_w = −9, e_a = −4 adds −324,608. -/
theorem test_example_promote : promote downProjection (3 * 17 + -2 * -40 + 7 * 5 + -8 * 100) (-9) (-4) = -324608 := by decide

/-- Chapter 02, one total and five outputs. -/
theorem test_example_outputs :
    convert .fp32 0 ⟨-324608, -22⟩ .rne = ⟨0xBD9E8000, false⟩ ∧ convert .bf16 0 ⟨-324608, -22⟩ .rne = ⟨0xBD9E, false⟩ ∧
    convert .int8 (-10) ⟨-324608, -22⟩ .rne = ⟨0xB1, false⟩ ∧ convert .int8 (-10) ⟨-324608, -22⟩ (.stoch 16384) = ⟨0xB1, false⟩ ∧
    convert .int8 (-10) ⟨-324608, -22⟩ (.stoch 16383) = ⟨0xB0, false⟩ := by decide

/-- Chapter 05: records of columns 3, 4 and 604, with an escape before the last. -/
theorem test_example_csr8d :
    (csr8d { Core.reset with plain := memWrite [] 0 [4, 0xA, 1, 0xB, 0, 2, 0x58, 0xC] } ⟨0, 64, 0, 0, 0, 0⟩ 4 1024 9 3 0 (-1)).map
      (fun x => (x.pos, x.code)) = [(3, 0xA), (4, 0xB), (604, 0xC)] := by decide

/-- Chapter 07: SKIP, TAU_M, TAU_E of the word, and the bounds it gives with NORM_MAX = 521 × 2^−2. -/
theorem test_example_skip :
    (opSkip downProjection, opTauM downProjection, opTauE downProjection) = (1, 1, -5) ∧ ub32 521 (-2) = 0x8240FFF8 ∧
    ub32 (opTauM downProjection * 521) (opTauE downProjection + opAmax downProjection + -2) = 0x8240FFF3 ∧
    opAmax { downProjection with approx := 0x000000000181FB00 } = 1 := by decide

/-- Chapter 07 and R202: |a| below 2^−5 is skipped, 2^−5 itself is not. -/
theorem test_example_skips : skips downProjection 0 (-1) (-6) = true ∧ skips downProjection 0 1 (-5) = false := by decide

/-- Chapter 09: RS = 32,832 for the two-share partial-total record, and the drain word's fields. -/
theorem test_example_combine :
    combineSlot downProjection = 32832 ∧ drainWordOk downProjection.drain = true ∧
    (dwFuse downProjection.drain, dwFfmt downProjection.drain, dwClipc downProjection.drain, dwWelem downProjection.drain,
      dwTokenMajor downProjection.drain) = (1, 3, true, true, true) := by decide

/-- Chapter 10: the words of the gating program. -/
theorem test_example_program :
    (iOp 0x1320000600000022, iRd 0x1320000600000022, iFl 0x1320000600000022, iImm 0x1320000600000022) = (0x13, 4, 6, 34) ∧
    (iOp 0x2022000000000022, iRd 0x2022000000000022, iRa 0x2022000000000022, iFl 0x2022000000000022) = (0x20, 4, 8, 0) ∧
    (iOp 0x3005800400000001, iRa 0x3005800400000001, iFl 0x3005800400000001, iImm 0x3005800400000001) = (0x30, 22, 4, 1) := by decide

/-- Chapter 11: stream 0 of the gate slice has 18,460 lines. -/
def gateDesc : List Byte :=
  [0x04, 0x00, 4, 4] ++ natLe 3 9216 ++ [0x08] ++ natLe 8 0x030000402D0000 ++ natLe 8 0x03100001448400 ++ natLe 8 0x03100001458400 ++
    natLe 8 0x03000050016800 ++ natLe 4 0 ++ natLe 4 4608 ++ natLe 2 2 ++ [32, 64] ++ List.replicate 12 0
theorem test_example_diag :
    gateDesc.length = 64 ∧ dK4 gateDesc = 2304 ∧ diagLines gateDesc = 18460 ∧ lineLen (dCb gateDesc) (dP gateDesc) = 16 ∧
    laneSrc gateDesc 1 0 = 0x030000402D0000 + 64 * 4608 := by decide

/-- Chapter 15: S105 of the minimum columns at 0.73 V and 0.74 V. -/
theorem test_example_rate : tableRate (Fuses.reset.s105[(0 : Fin 12)]) 730 = 1312 ∧ tableRate (Fuses.reset.s105[(0 : Fin 12)]) 740 = 1346 := by decide

/-- Chapter 15: the first MTILE of the example with its dawn and dusk. -/
theorem test_example_tile_time : tileHc 11 2 9216 0 = 18604 := by decide

/-- Chapter 10: four words of the gating program as the commands they name (R298, R299), and a word of no instruction. -/
theorem test_decode_program :
    decodeSequencer k0 0x1320000600000022 = some (.bsel k0 4 .shareM 34) ∧
    decodeSequencer k0 0x2022000000000022 = some (.mtile k0 4 8 false .x false 34) ∧
    decodeSequencer k0 0x3005800400000001 = some (.signal k0 22 0 4 1) ∧
    decodeSequencer k0 0x1400000000000000 = some (.meridian k0) ∧ decodeSequencer k0 0xFF00000000000000 = none := by decide

/-- R180: MUL v1, v2, v3 (OP 0x05), LD v4 (0x01), TGET v5 of the maximum (0x14). -/
theorem test_decode_micro : decodeMicro k0 (BitVec.ofNat 32 (0x05 * 2 ^ 26 + 1 * 2 ^ 22 + 2 * 2 ^ 18 + 3 * 2 ^ 14)) = some (.rfuMul k0 1 2 3) ∧
    decodeMicro k0 (BitVec.ofNat 32 (0x01 * 2 ^ 26 + 4 * 2 ^ 22)) = some (.ld k0 4) ∧
    decodeMicro k0 (BitVec.ofNat 32 (0x14 * 2 ^ 26 + 5 * 2 ^ 22 + 1 * 2 ^ 18)) = some (.tget k0 5 true) := by decide

/-! ## Witnesses: further premises -/

/-- A core whose SIGNAL of tile 0's object 4 has been sent; its add is in flight. -/
def signalled (sent : Bool) : State :=
  { withObjs (fun c => { c with blocked := .signal 0 (objAddr ⟨1, 4⟩) 3 sent }) with
    adds := [{ obj := ⟨1, 4⟩, addend := 3, src := .core k0, ack := true, part := 0, xid := 0 }] }

theorem test_signal_completes : (objAdds (signalled true) ⟨1, 4⟩).map (fun x => x.1) = [0] ∧ tileNode k0.tile = 1 ∧
    (getCore (signalled true) k0).blocked = .signal 0 (objAddr ⟨1, 4⟩) 3 true ∧
    after (.objectAddCommit ⟨1, 4⟩ 0) (signalled true) (fun t => (getCore t k0).blocked == .none && (getCore t k0).seq.pc == 1 &&
      (getObj t ⟨1, 4⟩).map (fun o => o.count) == some 5) = true ∧
    after (.objectAddCommit ⟨1, 4⟩ 0) (signalled false) (fun t => (getCore t k0).seq.pc == 0) = true := by decide

/-- An array group in idle hold. -/
def holding (c : Core) : Core := { c with arr := { c.arr with state := .idleHold } }

theorem test_dusk : (getCore (bench holding) k0).ag.tail = [] ∧ after (.dusk k0) (bench holding) (fun t =>
      (getCore t k0).arr.state == .asleep && (getCore t k0).arr.dusks == 1) = true ∧
    after (.dusk k0) (bench inPass) (fun t => (getCore t k0).arr.dusks == 0) = true := by decide
theorem test_timingError_replayed : (bench inPass).tiles[(0 : TileId)].pwr.context = 0 ∧
    after (.timingError k0 .array .x 0 .chunkAdder 4) (bench inPass) (fun t => (getCore t k0).arr.replays == 1 &&
      (getCore t k0).arr.freezeHc == 2 && (getCore t k0).arr.tolerated == 0) = true := by decide

/-- The bench in RECOVERY with tolerance line 3, the set of its pass being filled. -/
def tolerant : State :=
  updTile (bench (fun c => { inPass c with ag := { (inPass c).ag with setX := { AccSet.reset with phase := .filling } } })) 0
    (fun t => { t with pwr := { t.pwr with context := 3, tl := 3, reproFixed := false } })

theorem test_timingError_tolerated : (oldestRun (matUnit (getCore tolerant k0) .array)).isSome = true ∧ (4 : Word32).toNat < 2 ^ 3 ∧
    (accSet (getCore tolerant k0).ag .x).phase = .filling ∧ tolerant.tiles[(0 : TileId)].pwr.tl.toNat = 3 ∧
    after (.timingError k0 .array .x 0 .chunkAdder 4) tolerant (fun t => (getCore t k0).arr.tolerated == 1 &&
      (getCore t k0).arr.replays == 0) = true := by decide
theorem test_port_quiet : PortQuiet (bench (inRowfn 0 false)) k0 := fun _ => ⟨rfl, rfl⟩
theorem test_rowfn_lines : linesOut (bench (inRowfn 0 true)) k0 = false := by decide
theorem test_fine_lbase : opFineKind (opOn 4 3 0 []) = 0 ∧ 0x400000 ≤ highHalf (getCore (bench (withRegs [70, 3, 0x400000 * 4294967296 + 9])) k0) 1 2 ∧
    after (.fine k0 1 4) (bench (withRegs [70, 3, 0x400000 * 4294967296 + 9])) (fun t => (getCore t k0).seq.fault.getLsbD 0) = true := by decide
theorem test_valleyWake_at_meridian : tileAtMeridian neededAsleep 0 = true ∧
    after (.valleyWake 0) neededAsleep (fun t => t.tiles[(0 : TileId)].pas.valley == 3) = true := by decide
theorem test_rx_alone : writersOf (bench idle) ⟨1, 0⟩ .rx 64 = [] ∧ writersOf (bench idle) ⟨1, 0⟩ .ce 64 = [] := by decide
theorem test_no_stale_record : (partCores (bench (takes true)) 0).all (fun k => (staleRecord (bench (takes true)) k).isNone) = true := by decide
theorem test_all_awake : ∀ t ∈ partTiles (hostBench [] id) 0, tileAwake (hostBench [] id) t = true := by decide
theorem test_retraining_fails : after (.testStateEnd 0 (some ⟨7, 11⟩)) (testBench inTest) (fun t => t.boot.stopped && t.boot.stage == 4 &&
      t.tiles[(11 : TileId)].pas.cw == 0 && t.tiles[(0 : TileId)].pas.ccw == 0) = true ∧
    after (.testStateEnd 0 (some ⟨6, 2⟩)) (testBench inTest) (fun t => t.tiles[(2 : TileId)].pas.spoke == 0 && t.hub.hlink.toNat / 16 % 4 == 0) = true := by
  decide

/-- A window for partial results at the start of the plain of core 0. -/
def windowed : Constellation := { constOf with windows := [{ (default : Window) with
  kind := 2
  base := plainAddr k0 0
  len := 64 }] }

theorem test_combine_window : InCombineWindow windowed (.plain k0) 63 ∧ ¬InCombineWindow constOf (.plain k0) 63 :=
  ⟨⟨_, List.mem_singleton.mpr rfl, by decide, k0, 0, by decide, rfl, by decide, by decide⟩, fun h => by
    obtain ⟨w, hw, _⟩ := h; cases hw⟩

/-! ## Witnesses: the values of a pass, of a drain, of a merge -/

/-- The bench with other operations, other shares and planned band lengths. -/
def benchWith (ops : List Op) (sh : List Slice) (f : Core → Core) : State :=
  updPart (bench f) 0 (fun q => { q with
    const := some { constOf with
      ops := ops
      bands := [2] }
    run := some { runOf with shares := sh } })

/-- The array group in pass 0 of one row and one column over four elements, all lines in: weights 1, −1, 3, 4 under exponent 1,
activations 5, 6, 7, −2 under exponent 0. -/
def valuesRun (add : Bool) : MatRun :=
  { runOfJob { jobOf 1 1 1 add with k := 4 } with
    slot := 60
    wfeeds := [{ lines := [[1, 0]] }, { lines := [[0xF1, 0x43]] }]
    afeeds := [{ lines := [[0, 0]] }, { lines := [[5, 6, 7, 0xFE]] }] }

def valuesPass (add : Bool) (c : Core) : Core :=
  { c with ag := { MatUnit.reset with
    running := some (valuesRun add)
    setX := { AccSet.reset with
      phase := .filling
      nrows := 1
      ncols := 1
      totals := [100] } } }

/-- 5 − 6 + 21 − 8 = 12, times 2. -/
theorem test_array_values : lastStepIn (opOn 1 0 0 []) (valuesRun true) = true ∧ (opOn 1 0 0 []).engine ≠ 1 ∧
    opWBits (opOn 1 0 0 []) ≤ 8 ∧ opGroup (opOn 1 0 0 []) ≤ 128 ∧ opCheckP (opOn 1 0 0 []) = 0 ∧
    (getCore (bench (valuesPass true)) k0).ag.writes = [] ∧ (accSet (getCore (bench (valuesPass true)) k0).ag .x).chunks = [] ∧
    after (.passComplete k0 .array) (bench (valuesPass false)) (fun t => (getCore t k0).ag.setX.totals == [24]) = true ∧
    after (.passComplete k0 .array) (bench (valuesPass true)) (fun t => (getCore t k0).ag.setX.totals == [124]) = true := by decide

/-- A row that its predictor leaves out. -/
def leftOut (c : Core) : Core := { c with ag := { (valuesPass false c).ag with running := some { valuesRun false with computeRow := [false] } } }

theorem test_array_left_out : after (.passComplete k0 .array) (bench leftOut) (fun t => (getCore t k0).ag.setX.totals == [0]) = true := by
  decide

/-- The array group in pass 0 of two: 33 rows, K = 0. -/
def firstOfTwo (c : Core) : Core := { c with ag := { MatUnit.reset with running := some (runOfJob (jobOf 1 33 1 false)) } }

theorem test_pass_follows : 0 + 1 < passCount (opOn 1 0 0 []) 33 1 ∧ lastStepIn (opOn 1 0 0 []) (runOfJob (jobOf 1 33 1 false)) = true ∧
    after (.passComplete k0 .array) (bench firstOfTwo) (fun t => (getCore t k0).ag.running.map (fun m => m.pass) == some 1 &&
      (getCore t k0).ag.setX.totals == List.replicate 32 0 && (getCore t k0).ag.setX.phase == .complete) = true := by decide

/-- A compressed region of one band at offset 0x400: two segment lanes of row 0 (R141, R142). Lane 0 has non-zeros 3 and −2 at
positions 1 and 3, lane 1 the value 1 at position 2, all of group 0, whose exponent is 1; CSR16 or CSR8D. -/
def regionBytes (csr16 : Bool) : List (Nat × List Byte) :=
  [(12, natLe 4 64 ++ natLe 4 1088 ++ natLe 4 1104 ++ natLe 4 1120 ++ natLe 4 1136),
   (64, natLe 4 0 ++ natLe 4 0 ++ natLe 4 0 ++ [0, 0, 0, 3, 2, 0, 0, 0, 0]),
   (96, natLe 4 8 ++ natLe 4 8 ++ natLe 4 0 ++ [0, 0, 0, 3, 1, 0, 0, 0, 0]),
   (1088, if csr16 then [1, 0, 3, 0] else [2, 3, 2, 0xE]), (1096, if csr16 then [2, 0] else [3, 1]),
   (1104, if csr16 then [0xE3, 0x01] else [2]), (1112, if csr16 then [] else [1]), (1120, [1])]

/-- The plain with the region, the panel (5, 9 and 7 at positions 1 to 3 of column 0) at 0x2000 and its side array, zero. -/
def sparsePlain (csr16 : Bool) : Mem :=
  memWrite (memWrite (memWrite ((regionBytes csr16).foldl (fun m x => memWrite m (0x400 + x.1) x.2) []) 0x2020 [5]) 0x2040 [9]) 0x2060 [7]

def sparseJob (add : Bool) : MtileJob := { jobOf 2 1 1 add with
  k := 4
  a0 := 0x400
  a1 := 0x2000
  a3 := 0x3000 }

def sparsePass (csr16 add : Bool) (c : Core) : Core := { c with
  plain := sparsePlain csr16
  sp := { MatUnit.reset with
    running := some (runOfJob (sparseJob add))
    setX := { AccSet.reset with
      phase := .filling
      laneTotals := [(0, [100]), (1, [1000])] } } }

def sparseBench (csr16 add : Bool) : State :=
  benchWith [opOn 2 1 (if csr16 then 1 else 2) [1, 0]] [shareOf 2] (sparsePass csr16 add)

theorem test_sparse_lanes : (liveLanes (getCore (sparseBench true false) k0) (regionAt (getCore (sparseBench true false) k0) 0x400) 0 100).map
      (fun x => (x.1, x.2.row, x.2.nnz)) = [(0, 0, 2), (1, 0, 1)] ∧ plannedBand (sparseBench true false) k0 (shareOf 2) 0 = 2 ∧
    sparseAccess (getCore (sparseBench true false) k0) (opOn 2 1 1 [1, 0]) (sparseJob false) 0 = none ∧
    findShare { runOf with shares := [shareOf 2] } k0 2 = some (shareOf 2) := by decide
theorem test_sparse_quiet : ∀ x, writersOf (sparseBench true false) k0 .sx x = [] := fun _ => rfl

/-- 15 − 14 = 1 and 9, each times 2, merged: 20; under ADD on 100 and 1000. -/
theorem test_sparse_values : after (.passComplete k0 .sparse) (sparseBench true false) (fun t => (getCore t k0).sp.setX.totals == [20]) = true ∧
    after (.passComplete k0 .sparse) (sparseBench false false) (fun t => (getCore t k0).sp.setX.totals == [20]) = true ∧
    after (.passComplete k0 .sparse) (sparseBench true true) (fun t => (getCore t k0).sp.setX.totals == [1120]) = true := by decide

/-- The sparse engine in the first pass of two, K = 0. -/
def sparseFirst (c : Core) : Core := { c with
  plain := sparsePlain true
  sp := { MatUnit.reset with running := some (runOfJob { sparseJob false with
    n := 33
    k := 0 }) } }

theorem test_sparse_pass_follows : 0 + 1 < passCount (opOn 2 1 1 [1, 0]) 1 33 ∧
    after (.passComplete k0 .sparse) (benchWith [opOn 2 1 1 [1, 0]] [shareOf 2] sparseFirst) (fun t =>
      (getCore t k0).sp.running.map (fun m => m.pass) == some 1 && (getCore t k0).sp.setX.totals == List.replicate 32 0) = true := by decide

/-- An operation with INT8 outputs at 0x1000, fused operands of FP32 at 0x3000 and ANCHOR 0. -/
def drainOp : Op := { opOn 1 0 0 [] with
  format := 0x00002103
  obase := 0x1000
  ostride := 64
  fbase := 0x3000
  fstride := 64 }

/-- A complete set of one row and two columns, totals 100 and −5, under a drain word. -/
def elements (w : Word32) (first : Bool) (m : Mem) (rs : List Record) (c : Core) : Core := { c with
  plain := m
  records := rs
  ag := { MatUnit.reset with setX := { AccSet.reset with
    tag := 0x8001000000000000
    phase := .complete
    drainWord := w
    nrows := 1
    ncols := 2
    rows := [32]
    lbase := 0x2000
    firstPass := first
    totals := [100, 0xFFFFFFFFFFFFFFFB] } }
  active := some (.drain .array .x false .waiting 0) }

/-- A share that owns a split in p parts. -/
def ownerShare (p : Nat) : Slice := { shareOf 1 with
  role := if p = 0 then 0 else 1
  part := p }

def drainBench (w : Word32) (first : Bool) (m : Mem) (p : Nat) (rs : List Record) : State := benchWith [drainOp] [ownerShare p] (elements w first m rs)

theorem test_drain_premises : nextDrain (getCore (drainBench 0x40000 true [] 0 []) k0) = some (.array, .x, false, 0) ∧
    tailPast (getCore (drainBench 0x40000 true [] 0 []) k0) (.array, .x, false, 0) = true ∧ coreOp (drainBench 0x40000 true [] 0 []) k0 1 = some drainOp ∧
    recordsMissing (drainBench 0x40000 true [] 0 []) k0 (.array, .x, false, 0) = false ∧ (dwWelem 0x40000, dwTopk 0x40000, dwFuse 0x40000, dwCmode 0x40000) = (true, false, 0, 0) ∧
    elementPlace drainOp false (0, 0) = (0x2000, 2) ∧ elementPlace drainOp false (0, 1) = (0x2002, 2) := by decide
theorem test_drain_port_free : PortFree (drainBench 0x40000 true [] 0 []) k0 := ⟨⟨by decide, by decide, by decide⟩, fun _ => ⟨rfl, rfl⟩⟩

/-- The drain's codes 0x64 and 0xFB stand in the output; with a fused addition of 1.0 and 2.0 they are 101 and −3. -/
theorem test_drain_elements : after (.setRelease k0 .array .x) (drainBench 0x40000 true [(0x1002, 9)] 0 []) (fun t =>
      memRead (getCore t k0).plain 0xFFF 5 == [0, 0x64, 0xFB, 9, 0]) = true ∧
    after (.setRelease k0 .array .x) (drainBench 0x40088 true (memWrite [] 0x3000 [0, 0, 0x80, 0x3F, 0, 0, 0, 0x40]) 0 []) (fun t =>
      memRead (getCore t k0).plain 0x1000 2 == [0x65, 0xFD]) = true := by decide

/-- A landed record of one row and two columns at 0x3000, of the set's tag: totals 7 and 1. -/
def landed : Record := { (default : Record) with
  base := 0x3000
  tag := 0x8001000000000000
  nrows := 1
  ncols := 2
  landed := true }

theorem test_drain_combines : combineParts (drainBench 0x40000 true [] 1 [landed]) k0 (accSet (getCore (drainBench 0x40000 true [] 1 [landed]) k0).ag .x) = 1 ∧
    landedRecords (getCore (drainBench 0x40000 true [] 1 [landed]) k0) 0x8001000000000000 = [landed] ∧
    recordsMissing (drainBench 0x40000 true [] 1 [landed]) k0 (.array, .x, false, 0) = false ∧
    after (.setRelease k0 .array .x) (drainBench 0x40000 true (memWrite [] 0x3010 [7, 0, 0, 0, 0, 0, 0, 0, 1]) 1 [landed]) (fun t =>
      memRead (getCore t k0).plain 0x1000 2 == [107, 0xFC]) = true := by decide

/-- Lists of one entry (K = 1): the first pass writes position 32 with its value; a later one keeps the larger candidate. -/
theorem test_drain_topk : (dwWelem 0x80000, dwTopk 0x80000, dwK 0x80000) = (false, true, 1) ∧
    after (.setRelease k0 .array .x) (drainBench 0x80000 true [] 0 []) (fun t =>
      memRead (getCore t k0).plain 0x2000 16 == [32, 0, 0, 0, 0x64, 0, 0, 0, 32, 0, 0, 0, 0xFB, 0xFF, 0xFF, 0xFF]) = true ∧
    after (.setRelease k0 .array .x) (drainBench 0x80000 false (memWrite [] 0x2000 [3, 0, 0, 0, 0x65, 0, 0, 0, 4, 0, 0, 0, 0xF0, 0xFF, 0xFF, 0xFF]) 0 []) (fun t =>
      memRead (getCore t k0).plain 0x2000 16 == [3, 0, 0, 0, 0x65, 0, 0, 0, 32, 0, 0, 0, 0xFB, 0xFF, 0xFF, 0xFF]) = true := by decide

/-- Two lists of one entry for one column at 0x2000, merged into 0x1000. -/
def merging (c : Core) : Core := { c with
  plain := memWrite [] 0x2000 [3, 0, 0, 0, 0x05, 0, 0, 0, 4, 0, 0, 0, 0x09, 0, 0, 0]
  port := [.merge 1 0x2000 2 1 0 1 0] }

def mergeBench : State := benchWith [{ drainOp with drain := 0x80000 }] [{ shareOf 1 with drainOvr := 0x80000 }] merging

theorem test_merge_writes : coreOp mergeBench k0 1 = some { drainOp with drain := 0x80000 } ∧
    after (.drainPortStart k0) mergeBench (fun t => memRead (getCore t k0).plain 0x1000 9 == [4, 0, 0, 0, 9, 0, 0, 0, 0] &&
      (getCore t k0).active == some (.merge 1)) = true := by decide
theorem test_merge_port_free : PortFree mergeBench k0 := ⟨⟨by decide, by decide, by decide⟩, fun _ => ⟨rfl, rfl⟩⟩

/-- CONVERT saturates symmetrically; a BF16 code that is representable comes back as it is; a tie goes to even. -/
theorem test_convert : convert .int8 0 ⟨-128, 0⟩ .rne = ⟨0x81, true⟩ ∧ convert .int4 0 ⟨5, -1⟩ .rne = ⟨2, false⟩ ∧
    convert .bf16 0 (ofFloat 7 0x7F7F).1 .rne = ⟨0x7F7F, false⟩ ∧ (convert .bf16 0 ⟨1, 200⟩ .rne).clip = true ∧
    convert .int16 0 ⟨7, -2⟩ (.stoch 0x4000) = ⟨2, false⟩ ∧ convert .int16 0 ⟨7, -2⟩ (.stoch 0x3FFF) = ⟨1, false⟩ := by decide

/-! ## Witnesses: LNS sums and steps -/

/-- 1 + 1 = 2, 2 − 1 = 1 and 1 − 1 = 0 in LNS20: L of 2.0 is 2,048. -/
theorem test_lns_sums : (lnsAdd 16 0 0).code = 2048 ∧ (lnsAdd 16 2048 0x80000).code = 0 ∧ (lnsAdd 16 0 0x80000).code = 0x40000 ∧
    lnsL (2048 : Lns) - lnsL (0 : Lns) = (2048 : Nat) ∧ (2048 : Nat) ≤ 2048 * 16 := by decide +kernel

/-- √4 = 2, 1/√4 = 1/2; an odd L goes to the even neighbour; log2 of 2 is 1 and log2 of 1 is 0; zero. -/
theorem test_lns_steps : (lnsSqrt 4096).code = 2048 ∧ lnsL (lnsRsqrt 4096).code = -2048 ∧ lnsL (lnsSqrt 3).code % 2 = 0 ∧
    (lnsLog2 0x40000) = { code := lnsCode true 262143, clip := true } ∧ (lnsLog2 2048).code = 0 ∧ (lnsLog2 0).code = 0x40000 := by
  decide +kernel

/-! ## Witnesses: layout descriptors -/

/-- A descriptor from fields of a place, a length and a value. -/
def descFrom (fs : List (Nat × Nat × Nat)) : List Byte := fs.foldl (fun d x => patch d x.1 (natLe x.2.1 x.2.2)) (List.replicate 64 0)

/-- The bench with one descriptor, 64 source bytes from 1 on at 0x400 of the stack, exponents at 0x900. -/
def layoutBench (d : List Byte) (n : Nat) : State :=
  updTile (bench copying) 0 (fun t => { t with
    hbm := memWrite (memWrite [] 0x400 ((List.range 64).map (fun i => BitVec.ofNat 8 (i + 1)))) 0x900 [0xF3, 0xF4]
    engines := t.engines.set 0 { CopyEngine.reset with queue := [{ copyJobOf 1 with
      desc := d
      regionLen := n }] } })

/-- TRANSPOSE of two rows of three bytes, 4 apart, into three rows of two, 8 apart. -/
def transposeDesc : List Byte := descFrom [(0, 1, 3), (2, 1, 1), (4, 4, 3), (8, 8, 0x1000000000400), (16, 8, 0x1000000001000), (24, 2, 2), (26, 2, 1),
  (28, 2, 1), (32, 4, 4), (44, 4, 8)]

theorem test_transpose : (∀ x ∈ sourceExtents transposeDesc 0, 2 ^ 48 ≤ x.1 ∧ x.1 + x.2 ≤ 2 ^ 48 + 0x5D0000000) ∧
    (∀ x ∈ destExtents (layoutBench transposeDesc 0) transposeDesc 0, 2 ^ 48 ≤ x.1 ∧ x.1 + x.2 ≤ 2 ^ 48 + 0x5D0000000) ∧
    after (.transpose (.tile 0 0) .clean) (layoutBench transposeDesc 0) (fun t =>
      memRead t.tiles[(0 : TileId)].hbm 0x1000 18 == [1, 5, 0, 0, 0, 0, 0, 0, 2, 6, 0, 0, 0, 0, 0, 0, 3, 7]) = true := by decide +kernel

/-- DIAG of one lane block of K = 2 codes of 8 bits in two lanes, P = 1, constant exponent 0xF3: line 0 holds lane 0's record, line 1
lane 1's. GATHER of the same: record 0 holds element 0 of both lanes. -/
def laneDesc (kind : Nat) : List Byte := descFrom [(0, 1, kind), (2, 1, 8), (3, 1, 1), (4, 3, 2), (7, 1, 2), (8, 8, 0x1000000000400),
  (16, 8, plainAddr k0 0x100), (24, 8, plainAddr k0 0x20000), (32, 8, 0x1000000000900), (44, 4, 4), (48, 2, 1), (50, 1, 2), (51, 1, 32), (52, 1, 0xF3)]

theorem test_diag : lineLen 8 1 = 128 ∧ dK4 (laneDesc 4) = 8 ∧ diagLines (laneDesc 4) = 39 ∧
    after (.diag (.tile 0 0) .clean) (layoutBench (laneDesc 4) 0) (fun t => memRead (getCore t k0).plain 0x100 5 == [1, 2, 0, 0, 0] &&
      memRead (getCore t k0).plain 0x180 7 == [0, 0, 0, 0, 5, 6, 0] && memRead (getCore t k0).plain 0x20000 5 == [0xF3, 0, 0xF3, 0, 0]) = true := by
  decide +kernel
theorem test_gather : after (.gather (.tile 0 0) .clean) (layoutBench (laneDesc 5) 0) (fun t => memRead (getCore t k0).plain 0x100 3 == [1, 5, 0] &&
      memRead (getCore t k0).plain 0x120 3 == [2, 6, 0] && memRead (getCore t k0).plain 0x20000 5 == [0xF3, 0, 0xF3, 0, 0]) = true := by
  decide +kernel

def regionDesc : List Byte := descFrom [(0, 1, 6), (8, 8, 0x1000000000400), (16, 8, plainAddr k0 0x140), (24, 2, 1), (26, 2, 1), (28, 2, 1)]

theorem test_region : after (.region (.tile 0 0) .clean) (layoutBench regionDesc 3) (fun t => memRead (getCore t k0).plain 0x13F 5 == [0, 1, 2, 3, 0]) = true := by
  decide +kernel
theorem test_layout_premises : ((layoutBench (laneDesc 4) 0).badBlocks = [] ∧ inTransit (layoutBench (laneDesc 4) 0) (.tile 0 0)
      (layoutBench (laneDesc 4) 0).nextId .write = false) ∧ (getCore (layoutBench (laneDesc 4) 0) k0).tagBlocks = [] ∧
    (∀ b < 8, bankPower (getCore (layoutBench (laneDesc 4) 0) k0) b = 1) := by decide
theorem test_slots_untagged : ∀ slot, tagModeOf (getCore (layoutBench (laneDesc 4) 0) k0) slot = 0 := fun slot => by
  have h : (getCore (layoutBench (laneDesc 4) 0) k0).tagMode = 0 := by decide
  simp [tagModeOf, h]

/-! ## Witnesses: release, start, faults -/

/-- A best-effort step of the bench that waits between steps, at id 3. -/
def effortStep : Step := { stepOf with id := 3 }

/-- The bench between steps with that step queued and nothing in the window's fill, or the step itself at a voltage. -/
def effortBench (fill : List (Nat × Nat)) : State :=
  updSched (updPart (between [effortStep]) 0 (fun q => { q with streams := [] })) (fun x => { x with
    fill := fill
    room := 2 ^ 40
    slewRoom := none
    nextStart := 10000000 })

theorem test_bestEffort : mayRelease (effortBench []) 0 = true ∧ readyContract (effortBench []) (effortBench []).parts[(0 : PartId)] = none ∧
    windowOver (effortBench []) = false ∧ withholds (effortBench []) 0 effortStep = false ∧ fillOrder (effortBench []) = [(0, effortStep)] ∧
    fillOrder (effortBench [(3, 750)]) = [] ∧ (tryVolts (effortBench []) 0).head? = some 800 ∧ stepCost (effortBench []) 0 effortStep 800 = 0 ∧
    after (.stepRelease 0) (effortBench []) (fun t => (t.parts[(0 : PartId)]).run.map (fun r => r.stepno) == some 9 &&
      t.sched.fill == [(3, 800)] && t.tiles[(3 : TileId)].pwr.vnext == 800) = true ∧
    after (.stepRelease 0) (effortBench [(3, 750)]) (fun t => (t.parts[(0 : PartId)]).run.map (fun r => r.stepno) == some 9 &&
      t.tiles[(3 : TileId)].pwr.vnext == 750) = true := by decide +kernel

/-- The same with an open stream whose next tick has passed, so that no step ends before it. -/
def lateStream : State := updPart (effortBench [(3, 750)]) 0 (fun q => { q with streams := [{ contract := 7, r0 := 0, next := 0 }] })

theorem test_bestEffort_waits : endsInTime lateStream 0 effortStep = false := by
  have h : lateStream.parts[(0 : PartId)].const = some { constOf with contracts := [contract7] } := by rfl
  have g : lateStream.parts[(0 : PartId)].streams = [{ contract := 7, r0 := 0, next := 0 }] := by rfl
  unfold endsInTime
  rw [h, g]
  simp
theorem test_releaseTick_unused : (∀ x ∈ (between []).parts[(0 : PartId)].queue, x.contract = some 7 → x.tick = none → 100 < x.arrival.toNat) ∧
    (updSched (between []) (fun x => { x with nextStart := 10000000 })).sched.start.toNat ≤ 100 ∧
    100 < (updSched (between []) (fun x => { x with nextStart := 10000000 })).sched.nextStart.toNat := by decide

/-- A start at which the sweep of tile 4 falls short at the highest voltage. -/
def slowSweep : StartInput := { StartInput.clean with sweep := StartInput.clean.sweep.set 4 { rates := .replicate 8 0, mismatch := 0, tj := 0 } }

theorem test_startup_sweeps : (∀ t : TileId, sweepOk (calibrate Fuses.reset Retained.reset t).pwr StartInput.clean.sweep[t] = true) ∧
    sweepOk (calibrate Fuses.reset Retained.reset 4).pwr slowSweep.sweep[(4 : TileId)] = false := by decide +kernel
theorem test_startup_stops_at_sweep : after (.startup slowSweep) unstarted (fun t => t.boot.stage == 9 && t.boot.stopped && t.boot.detail == ⟨1, 4⟩ &&
    t.tiles[(0 : TileId)].pwr.context == 1) = true := by decide +kernel
theorem test_startup_torn : after (.startup { StartInput.clean with failure := some (1, ⟨2, 3⟩), torn := true }) unstarted (fun t =>
    (if unstarted.boot.copyIsB then t.boot.copyA else t.boot.copyB) == none) = true := by decide +kernel
theorem test_startup_waits_for_perst : after (.startup StartInput.clean) (updHub unstarted (fun h => { h with perst := true })) (fun t => t.boot.stage == 10) = true ∧
    after (.startup StartInput.clean) unstarted (fun t => t.boot.stage == 11) = true := by decide +kernel
theorem test_perst_released : after (.perst false) (updBoot (updHub (readyAt 9) (fun h => { h with perst := true, endpoint := false })) (fun b => { b with stage := 0xA }))
      (fun t => t.hub.endpoint && t.boot.stage == 0xB && !t.hub.perst) = true ∧
    after (.perst false) (updBoot (readyAt 9) (fun b => { b with stopped := true, stage := 2 })) (fun t => !t.hub.endpoint) = true := by decide

/-- A bank's RESIDENT bit over an offset, on a core that takes part. -/
theorem test_resident_kept : (getCore (parityBench 1) k0).pln.resident.getLsbD (0x80000 / 0x80000) = true := by decide

/-! ## Witnesses: settings, registers, management, test state -/

/-- A module whose record cannot be written. -/
def unwritable (s : State) : State := updBoot s (fun b => { b with writable := false })

theorem test_set_fails : after (.setPseed ⟨0, 0, 0⟩) (unwritable (setEntry 0 (setOf 1 0 9))) (fun t => memRead t.hostMem 0x10100 2 == [0x0D, 2] &&
      t.boot.writeFail && (t.parts[(0 : PartId)]).pseed == 0) = true ∧
    after (.setSensorOffset ⟨0, 0, 0⟩) (unwritable (setEntry 0 (setOf 5 3 48))) (fun t => memRead t.hostMem 0x10100 2 == [0x0D, 2] &&
      t.tiles[(3 : TileId)].pwr.toff == 0) = true ∧ targetOkSet (setOf 5 3 48) = true := by decide

/-- HST_ERR with its three W1C bits set, and PLN_BUSY counted. -/
def flagged : State := updFunc (readyAt 9) 0 (fun x => { x with
  errRefused := true
  errDoorbell := true })

theorem test_register_words : (barWord flagged 0 .bar0 0x60).all (fun x => x.acc != .rw && x.acc != .wo) = true ∧
    after (.registerWrite 0 .bar0 0x300 8 1) flagged (fun t => !t.funcs[(0 : FuncId)].errRefused && t.funcs[(0 : FuncId)].errDoorbell) = true ∧
    (barWord secretBench 0 .bar2 (0x1C0008 / 8)).any (fun x => x.acc == .rc) = true := by decide
theorem test_connection_close : after (.mgmtConnectionClose 1) (updMgmt mgmtBench (fun m => { m with waiting := [(true, 1, [5]), (true, 0, [6])] })) (fun t =>
    t.mgmt.waiting == [(false, 1, [5]), (true, 0, [6])] && !t.mgmt.conns[(1 : ConnId)]) = true := by decide
theorem test_request_waits : portUp committing = true ∧ committing.mgmt.waiting = [] ∧
    after (.getPair 1 (reqOf 0x03 3 0 3309 [])) committing (fun t => t.mgmt.waiting.map (fun x => (x.1, x.2.1)) == [(true, 1)] && t.mgmt.job.isSome) = true ∧
    after (.layoutSet 1 (reqOf 0x07 3 384 3309 [])) committing (fun t => t.mgmt.waiting.map (fun x => (x.1, x.2.1)) == [(true, 1)]) = true := by decide
theorem test_test_refused : testRefusal secretBench = some 0x0402 ∧ hostReady State.reset = false ∧ busUp State.reset = true ∧ testRefusal State.reset = some 0x020E ∧
    after (.testStateRequest 0) State.reset (fun t => t.test.lastCode == 0x020E) = true ∧
    after (.mbistGo 0) State.reset (fun t => t.test.mbistResult == 5 && t.test.lastCode == 0x020E) = true ∧
    after (.loopbackGo 0) secretBench (fun t => t.test.lresResult == 5 && t.test.lastCode == 0x0402) = true ∧
    after (.speedRun 0 1) secretBench (fun t => (t.test.speed[(1 : TileId)]).result == 6 && t.test.lastCode == 0x0402) = true := by decide
theorem test_stopped_closes_port : after (.testStateEnd 0 (some ⟨2, 3⟩)) (updMgmt (testBench inTest) (fun m => { m with
      portOpen := true
      conns := m.conns.set 1 true })) (fun t => !t.mgmt.portOpen && !t.mgmt.conns[(1 : ConnId)] && !t.tiles[(3 : TileId)].mem.trained) = true ∧
    after (.testStateEnd 0 (some ⟨3, 0⟩)) (testBench inTest) (fun t => !t.hub.trained) = true := by decide

/-- A far loop-back of the PCIe link that the test registers name. -/
def farPcie (t : Test) : Test := { inTest t with
  loopIface := 1
  loopDepth := 2
  loopDuration := 1 }

theorem test_pcie_loopback : loopListed (testBench farPcie).test = true ∧
    after (.loopbackGo 0) (testBench farPcie) (fun t => t.hub.loopbackLead && t.test.lresResult == 1) = true ∧
    after (.loopbackEnd ⟨true, 0, 0⟩) (updHub (testBench (fun t => { inTest t with loopRun := some (1, 0, 0) })) (fun h => { h with loopbackLead := true }))
      (fun t => !t.hub.loopbackLead) = true ∧
    after (.pcieLinkTraining 2 16 5) (updHub (readyAt 9) (fun h => { h with loopbackLead := true })) (fun t => t.hub.width == 0) = true ∧
    after (.pcieLinkTraining 2 3 5) (readyAt 9) (fun t => t.hub.width == 0) = true ∧ linkListed 16 5 = true := by decide
theorem test_config_after_stop : after (.configRequest 2) (updBoot (updHub (readyAt 9) (fun h => { h with endpoint := false })) (fun b => { b with stopped := true }))
    (fun t => t.funcs[(2 : FuncId)].lastConfig == 2) = true := by decide

end Sys2Proof.Tests
end

section
/-! O9: an ADD onto a set whose tag has VALID = 0 (R112). What a drain fault does is stated once, for every bit of DRN_FAULT. -/

namespace Sys2Proof.Machine

/-- DRN_FAULT after a drain fault (R137): the bits set before stay, the fault's bit is set, FAULT_OP names the operation. -/
def drnFaultWord (w : Word32) (bit opidx : Nat) : Word32 :=
  (w &&& 0xF) ||| BitVec.ofNat 32 (2 ^ bit + opidx % 4096 * 2 ^ 16)

/-- FAULT_OP lies above the fault bits, so it does not carry into them. -/
theorem drnFaultWord_bit (w : Word32) (bit opidx : Nat) (h : bit < 16) : (drnFaultWord w bit opidx).getLsbD bit = true := by
  have hbit : (2 ^ bit + opidx % 4096 * 2 ^ 16).testBit bit = true := by
    rw [Nat.add_comm, Nat.mul_comm, Nat.testBit_two_pow_mul_add _ (Nat.pow_lt_pow_right (by decide) h)]
    simp [h]
  have h32 : bit < 32 := by omega
  rw [drnFaultWord, BitVec.getLsbD_or, BitVec.getLsbD_ofNat, hbit]
  simp [h32]

/-- Faults of a core's step are discarded exactly while its run waits for a re-run (R324). -/
theorem aborting_of_run {s : State} {k : CoreId} {p : PartId} {r : StepRun} (h : coreRun s k = some (p, r)) :
    aborting s k = r.rerunPending := by
  simp only [aborting, h]

/-- A drain fault that is not discarded writes DRN_FAULT and raises its code in the core's step. -/
theorem drnFault_eq {s : State} {k : CoreId} (ha : aborting s k = false) (bit : Nat) (code : BitVec 16) (op : Nat) (pc : BitVec 13) :
    drnFault s k bit code op pc =
      raiseCore (updCore s k (fun c => { c with drn := { c.drn with fault := drnFaultWord c.drn.fault bit op } })) k code op pc := by
  simp only [drnFault, ha, Bool.false_eq_true, if_false, drnFaultWord]

/-- A drain fault changes DRN_FAULT and nothing else of its core. -/
theorem getCore_drnFault {s : State} {k : CoreId} (ha : aborting s k = false) (bit : Nat) (code : BitVec 16) (op : Nat)
    (pc : BitVec 13) : getCore (drnFault s k bit code op pc) k = { getCore s k with
      drn := { (getCore s k).drn with fault := drnFaultWord (getCore s k).drn.fault bit op } } := by
  rw [drnFault_eq ha, getCore_raiseCore, getCore_updCore]

/-- A drain fault faults the step of its core, which keeps an earlier fault (R137, R324). -/
theorem drnFault_run_code {s : State} {k : CoreId} {p : PartId} {r : StepRun} (h : coreRun s k = some (p, r))
    (hr : r.rerunPending = false) (bit : Nat) (code : BitVec 16) (op : Nat) (pc : BitVec 13) :
    ∃ r', (drnFault s k bit code op pc).parts[p].run = some r' ∧
      r'.fault.map (fun f => f.code) = some (match r.fault with | some f => f.code | none => code) := by
  rw [drnFault_eq ((aborting_of_run h).trans hr)]
  refine ⟨_, raiseCore_run (s := updCore s k _) h hr code op pc, ?_⟩
  cases hf : r.fault <;> simp [hf]

/-- A drain fault changes no byte. -/
theorem sameBytes_drnFault {s : State} {k : CoreId} (ha : aborting s k = false) (bit : Nat) (code : BitVec 16) (op : Nat)
    (pc : BitVec 13) : SameBytes s (drnFault s k bit code op pc) := by
  rw [drnFault_eq ha]
  refine SameBytes.trans (sameBytes_updCore s k _ ?_) (sameBytes_raiseCore _ _ _ _ _)
  rfl

/-- The matrix units do not hang on the drain's registers. -/
@[simp] theorem matUnit_withDrn (c : Core) (d : DrnRegs) (eng : MatEngine) : matUnit { c with drn := d } eng = matUnit c eng := by
  cases eng <;> rfl

/-- With nothing running, the front MTILE may follow (R84). -/
theorem mayFollow_of_idle {s : State} {k : CoreId} {eng : MatEngine} (h : (matUnit (getCore s k) eng).running = none) :
    mayFollow s k eng = true := by
  simp only [mayFollow, h]

/-- R112: the front MTILE, an ADD onto a set without VALID, faults in place of its start. -/
theorem startEngine_add_invalid {s : State} {k : CoreId} {eng : MatEngine} {j : MtileJob} {rest : List MtileJob} {p : PartId}
    {r : StepRun} {o : Op} {sl : Slice} {sh : OpShape} (hq : (matUnit (getCore s k) eng).queue = j :: rest)
    (hidle : (matUnit (getCore s k) eng).running = none) (hrun : coreRun s k = some (p, r)) (hop : coreOp s k j.opidx = some o)
    (hshare : findShare r k j.opidx = some sl) (hshape : findShape r j.opidx = some sh) (hadd : j.add = true)
    (hvalid : tagValid (accSet (matUnit (getCore s k) eng) j.set).tag = false) :
    startEngine s k eng = drnFault s k 0 stStepFault j.opidx j.pc := by
  simp [startEngine, hq, hrun, hop, hshare, hshape, mayFollow_of_idle hidle, hadd, hvalid]

/-- Settles O9: MTILE_START is a drain fault with bit 0, whose frame gives the units and the bytes. -/
theorem addOntoAnInvalidSetFaults : Obligations.AddOntoAnInvalidSetFaults := by
  intro s k eng j rest p r o sl sh hpow hawake hq hidle hrun hre hop hshare hshape hvalid hadd
  have ha : aborting s k = false := (aborting_of_run hrun).trans hre
  have hexec : exec (.mtileStart k eng) s = .next (drnFault s k 0 stStepFault j.opidx j.pc) := by
    show execMtileStart k eng s = _
    simp only [execMtileStart, hpow, hawake, Bool.and_self, if_true]
    rw [startEngine_add_invalid hq hidle hrun hop hshare hshape hadd hvalid]
  refine ⟨_, hexec, ?_, ?_, drnFault_run_code hrun hre 0 stStepFault j.opidx j.pc, sameBytes_drnFault ha _ _ _ _⟩
  · rw [getCore_drnFault ha]
    exact drnFaultWord_bit _ 0 _ (by decide)
  · rw [getCore_drnFault ha, matUnit_withDrn]

end Sys2Proof.Machine
end

section
/-! O14: the exact operations on LNS20 codes (R167, R53). What a code stands for is read once from `lnsCode`; every operation that
can leave the range goes through `lnsPack`, whose result is stated once for every sign and L. -/

namespace Sys2Proof.Machine

/-! ## The fields of an LNS20 code -/

/-- The sign stands above the 19 bits of L. -/
theorem toNat_lnsCode (neg : Bool) (l : Int) : (lnsCode neg l).toNat = 2 ^ 19 * neg.toNat + (l % 2 ^ 19).toNat := by
  have hl : (l % 2 ^ 19).toNat < 2 ^ 19 := by omega
  have hsign : (if neg then 2 ^ 19 else 0) = 2 ^ 19 * neg.toNat := by cases neg <;> rfl
  have hneg := neg.toNat_le
  rw [lnsCode, hsign, BitVec.toNat_ofNat, Nat.mod_eq_of_lt (by omega)]

theorem lnsNeg_lnsCode (neg : Bool) (l : Int) : lnsNeg (lnsCode neg l) = neg := by
  have hl : (l % 2 ^ 19).toNat < 2 ^ 19 := by omega
  rw [lnsNeg, BitVec.getLsbD, toNat_lnsCode, Nat.testBit_two_pow_mul_add _ hl]
  cases neg <;> rfl

theorem lnsL_lnsCode (neg : Bool) {l : Int} (h1 : -262144 ≤ l) (h2 : l ≤ 262143) : lnsL (lnsCode neg l) = l := by
  have hfield : (lnsCode neg l).toNat % 2 ^ 19 = (l % 2 ^ 19).toNat % 2 ^ 19 := by
    rw [toNat_lnsCode, Nat.mul_add_mod]
  have hread : toSigned (l % 2 ^ 19).toNat 19 = l := toSigned_of_range (by decide) (by omega) (by omega)
  simpa only [lnsL, toSigned, hfield] using hread

theorem lnsL_le (v : Lns) : lnsL v ≤ 262143 := by
  have h : lnsL v < 2 ^ 18 := (toSigned_range v.toNat 19 (by decide)).2
  omega

/-- R53: a code reads as zero exactly when its L is −262,144. -/
theorem lnsIsZero_iff (v : Lns) : lnsIsZero v = true ↔ lnsL v = -262144 := by
  have hv := v.isLt
  have hzero : lnsIsZero v = true ↔ v.toNat = 0x40000 ∨ v.toNat = 0xC0000 := by
    simp [lnsIsZero, ← BitVec.toNat_inj]
  rw [hzero, lnsL, toSigned]
  split <;> omega

/-- R53: L of a code that is not zero is at least −262,143. -/
theorem lnsIsZero_eq_false_iff (v : Lns) : lnsIsZero v = false ↔ -262143 ≤ lnsL v := by
  have h : -2 ^ 18 ≤ lnsL v := (toSigned_range v.toNat 19 (by decide)).1
  rw [← Bool.not_eq_true, lnsIsZero_iff]
  omega

/-! ## A result and its range -/

/-- R167: r is the result of sign neg and L l. Above the range it saturates, below it is zero, both with a clip; in range it
carries sign and L as they are. -/
def LnsFits (neg : Bool) (l : Int) (r : LnsOut) : Prop :=
  (262143 < l → r = { code := lnsCode neg 262143, clip := true }) ∧ (l < -262143 → r = { code := lnsZero, clip := true }) ∧
  (-262143 ≤ l → l ≤ 262143 → r.clip = false ∧ lnsNeg r.code = neg ∧ lnsL r.code = l ∧ lnsIsZero r.code = false)

theorem lnsFits_lnsPack (neg : Bool) (l : Int) : LnsFits neg l (lnsPack neg l) := by
  refine ⟨fun habove => ?_, fun hbelow => ?_, fun hlo hhi => ?_⟩
  · rw [lnsPack, if_pos habove]
  · rw [lnsPack, if_neg (by omega), if_pos hbelow]
  · have hL : lnsL (lnsCode neg l) = l := lnsL_lnsCode neg (by omega) hhi
    rw [lnsPack, if_neg (by omega), if_neg (by omega)]
    exact ⟨rfl, lnsNeg_lnsCode neg l, hL, (lnsIsZero_eq_false_iff _).2 (hL.symm ▸ hlo)⟩

/-! ## The operations by the zeros among their operands -/

theorem lnsMul_of_nonzero {x y : Lns} (hx : lnsIsZero x = false) (hy : lnsIsZero y = false) :
    lnsMul x y = lnsPack (xor (lnsNeg x) (lnsNeg y)) (lnsL x + lnsL y) := by
  simp [lnsMul, hx, hy]

theorem lnsMul_of_zero {x y : Lns} (h : lnsIsZero x = true ∨ lnsIsZero y = true) :
    lnsMul x y = { code := lnsZero, clip := false } := by
  rw [lnsMul, if_pos (by simpa using h)]

theorem lnsDiv_of_nonzero {x y : Lns} (hx : lnsIsZero x = false) (hy : lnsIsZero y = false) :
    lnsDiv x y = lnsPack (xor (lnsNeg x) (lnsNeg y)) (lnsL x - lnsL y) := by
  simp [lnsDiv, hx, hy]

theorem lnsDiv_of_zero_dividend {x : Lns} (hx : lnsIsZero x = true) (y : Lns) :
    lnsDiv x y = { code := lnsZero, clip := false } := by
  rw [lnsDiv, if_pos hx]

theorem lnsDiv_of_zero_divisor {x y : Lns} (hx : lnsIsZero x = false) (hy : lnsIsZero y = true) :
    lnsDiv x y = { code := lnsCode (lnsNeg x) 262143, clip := true } := by
  simp [lnsDiv, hx, hy]

theorem lnsRecip_of_nonzero {x : Lns} (hx : lnsIsZero x = false) : lnsRecip x = lnsPack (lnsNeg x) (-(lnsL x)) := by
  simp [lnsRecip, hx]

theorem lnsRecip_of_zero {x : Lns} (hx : lnsIsZero x = true) : lnsRecip x = { code := lnsCode false 262143, clip := true } := by
  rw [lnsRecip, if_pos hx]

theorem lnsNegate_of_nonzero {x : Lns} (hx : lnsIsZero x = false) : (lnsNegate x).code = lnsCode (!lnsNeg x) (lnsL x) := by
  simp [lnsNegate, hx]

theorem lnsNegate_of_zero {x : Lns} (hx : lnsIsZero x = true) : (lnsNegate x).code = lnsZero := by
  simp [lnsNegate, hx]

theorem lnsAbs_of_nonzero {x : Lns} (hx : lnsIsZero x = false) : (lnsAbs x).code = lnsCode false (lnsL x) := by
  simp [lnsAbs, hx]

theorem lnsAbs_of_zero {x : Lns} (hx : lnsIsZero x = true) : (lnsAbs x).code = lnsZero := by
  simp [lnsAbs, hx]

/-- A code with the L of a code that is not zero reads that L back. -/
theorem lnsL_lnsCode_lnsL {x : Lns} (hx : lnsIsZero x = false) (neg : Bool) : lnsL (lnsCode neg (lnsL x)) = lnsL x := by
  have hlo := (lnsIsZero_eq_false_iff x).1 hx
  exact lnsL_lnsCode neg (by omega) (lnsL_le x)

/-- Settles O14: operands that are not zero reach `lnsPack`, or a code built of the operand's own L; the zero rows are the other
equations. -/
theorem lnsExactOperations : Obligations.LnsExactOperations := by
  refine ⟨fun x y hx hy => ⟨?_, ?_⟩, fun x hx => ⟨?_, ?_, ?_, ?_, ?_⟩, fun x y h => lnsMul_of_zero h,
    fun x y hx => lnsDiv_of_zero_dividend hx y, fun x y hx hy => lnsDiv_of_zero_divisor hx hy,
    fun x hx => ⟨lnsRecip_of_zero hx, lnsNegate_of_zero hx, lnsAbs_of_zero hx⟩⟩
  · rw [lnsMul_of_nonzero hx hy]
    exact lnsFits_lnsPack _ _
  · rw [lnsDiv_of_nonzero hx hy]
    exact lnsFits_lnsPack _ _
  · rw [lnsRecip_of_nonzero hx]
    exact lnsFits_lnsPack _ _
  · rw [lnsNegate_of_nonzero hx, lnsL_lnsCode_lnsL hx]
  · rw [lnsNegate_of_nonzero hx, lnsNeg_lnsCode]
  · rw [lnsAbs_of_nonzero hx, lnsL_lnsCode_lnsL hx]
  · rw [lnsAbs_of_nonzero hx, lnsNeg_lnsCode]

end Sys2Proof.Machine
end

section
/-! O4: the fields of BSEL (R318). The value of a field is stated once for a core with a share of the operation and once for a core
without one; `exec_bsel_next` carries it into the register. -/

namespace Sys2Proof.Machine

/-! ## The part of a share that the step uses -/

/-- The difference of naturals is the difference of R318, held at 0. -/
theorem min_tsub_eq_toNat (len total start : Nat) : min len (total - start) = (max 0 (min (len : Int) (total - start))).toNat := by
  omega

/-- SHARE_M as R318 writes it. -/
theorem shareM_eq_toNat (sh : OpShape) (sl : Slice) : shareM sh sl = (max 0 (min (sl.rows : Int) (sh.m - sl.row0))).toNat :=
  min_tsub_eq_toNat sl.rows sh.m sl.row0

/-- SHARE_K as R318 writes it. -/
theorem shareK_eq_toNat (sh : OpShape) (sl : Slice) : shareK sh sl = (max 0 (min (sl.klen : Int) (sh.k - sl.k0))).toNat :=
  min_tsub_eq_toNat sl.klen sh.k sl.k0

/-! ## The value of a field -/

section
variable {r : StepRun} {k : CoreId} {n : Nat} {sh : OpShape} (hshape : findShape r n = some sh)
include hshape

/-- The fields of the operation's shape do not hang on a share. -/
theorem bselValue_of_shape : bselValue r k .bucket n = sh.bucket ∧ bselValue r k .mActual n = sh.m ∧
    bselValue r k .nActual n = sh.n ∧ bselValue r k .kActual n = sh.k ∧
    bselValue r k .skip n = if sh.skipped = true then 1 else 0 := by
  simp only [bselValue, hshape, and_self]

/-- The fields of the share that the core holds. -/
theorem bselValue_of_share {sl : Slice} (hshare : findShare r k n = some sl) : bselValue r k .shareRow0 n = sl.row0 ∧
    bselValue r k .shareRows n = sl.rows ∧ bselValue r k .shareM n = shareM sh sl ∧ bselValue r k .shareK0 n = sl.k0 ∧
    bselValue r k .shareK n = shareK sh sl := by
  simp only [bselValue, hshape, hshare, and_self]

/-- Without a share every field of a share is 0. -/
theorem bselValue_of_no_share (hshare : findShare r k n = none) {f : BselField}
    (hf : f ∈ [BselField.shareRow0, .shareRows, .shareM, .shareK0, .shareK]) : bselValue r k f n = 0 := by
  simp only [List.mem_cons, List.not_mem_nil, or_false] at hf
  rcases hf with rfl | rfl | rfl | rfl | rfl <;> simp only [bselValue, hshape, hshare]

end

/-! ## The instruction -/

/-- A BSEL that issues writes the value of its field into sd and goes on to the next instruction. -/
theorem exec_bsel_next {s : State} {k : CoreId} {p : PartId} {r : StepRun} (hissue : canIssue s k = true)
    (hrun : coreRun s k = some (p, r)) (rd : SReg) (op : OpIdx) {f : BselField} {v : Nat} (hv : bselValue r k f op.toNat = v) :
    exec (.bsel k rd f op) s = .next (wroteReg s k rd (BitVec.ofNat 64 v)) := by
  show execBsel k rd f op s = _
  simp only [execBsel, hrun, seqCompute_next hissue, hv]

/-- Settles O4: BSEL writes `bselValue` of its field, whose value follows from the shape and from the share or its absence. -/
theorem bselReturnsTheFieldsOfShapeAndShare : Obligations.BselReturnsTheFieldsOfShapeAndShare := by
  intro s k p r rd op sh hissue hrun hshape put
  have hput {f : BselField} {v : Nat} (hv : bselValue r k f op.toNat = v) : exec (.bsel k rd f op) s = put v :=
    exec_bsel_next hissue hrun rd op hv
  obtain ⟨hbucket, hm, hn, hk, hskip⟩ := bselValue_of_shape (k := k) hshape
  refine ⟨hput hbucket, hput hm, hput hn, hput hk, hput hskip, fun sl hshare => ?_, fun hshare f hf => ?_⟩
  · obtain ⟨hrow0, hrows, hsm, hk0, hsk⟩ := bselValue_of_share hshape hshare
    exact ⟨hput hrow0, hput hrows, hput (hsm.trans (shareM_eq_toNat sh sl)), hput hk0, hput (hsk.trans (shareK_eq_toNat sh sl))⟩
  · exact hput (bselValue_of_no_share hshape hshare hf)

end Sys2Proof.Machine
end
